-- ==== Sys2Proof/Word.lean ====
section
/-! DEFINITION. The word types of the module: bytes, 16-, 32-, 48- and 64-bit fields (R8: all multi-byte
fields are little-endian; bit 0 is the least significant bit). -/

namespace Sys2Proof

/-- One byte of memory, of a record or of a command entry. -/
abbrev Byte := BitVec 8

/-- A 64-bit register or field (R305: register blocks hold 64-bit registers). -/
abbrev Word := BitVec 64

/-- An A register of the address unit (R102, R103: 48 bits, arithmetic modulo 2^48). -/
abbrev AWord := BitVec 48

/-- A list of keys and values in rising key order. Memories, region tables and graph tables are of this form. -/
abbrev Tbl (α : Type) := List (Nat × α)

/-- Byte-addressed memory: rising addresses, no zero byte listed (an unlisted address reads as zero). -/
abbrev Mem := Tbl Byte

end Sys2Proof
end

