-- ==== Sys2Proof/Syntax.lean ====
section
/-! DEFINITION. The commands of the module: one constructor per row of spec/opcode_table.json, with the operands
the environment supplies (what a sensor reads, what the host writes, what the module reads from host memory). -/

namespace Sys2Proof

/-- Which part of a 64-bit register an access reaches (R305: accesses are 4 or 8 bytes, naturally aligned). -/
inductive RegPart where
  | whole
  | low
  | high
deriving DecidableEq, Repr

/-- What the hardware comparator of R395 tripped on: a compute or update die (C0 to C11, then U0, U1), an I/O die or an HBM
stack. -/
inductive HotUnit where
  | die (k : Fin 14)
  | io (n : Fin 8)
  | stack (st : Fin 32)
deriving DecidableEq, Repr

/-- What an operation meets while it reads: nothing, a single-bit error in the word at `addr` (R69), a double-bit
error at element `elem` with its address (R70), a residue mismatch in physical array row `row` for vector `vec` of the operation (of an MVEC,
row `vec` of its matrix; R135, R136), or an error in row `row` of the gradient buffer, which its code corrects or, with two bits in error, detects (R89, R425). -/
inductive OpErr where
  | none
  | single (addr : Nat)
  | double (elem addr : Nat)
  | residue (row vec : Nat)
  | gb (row : Nat) (corrected : Bool)
deriving DecidableEq, Repr

/-- What is wrong with a line of HBM when it is read (R328, R341): wrong bytes in the two halves of a PERSIST line together, a half that is
absent or fails its tag (the check half or the data half), or both halves. An ACT line fails its detection code in each case. -/
inductive LineErr where
  | bytes (n : Nat)
  | half (check : Bool)
  | both
deriving DecidableEq, Repr

/-- What an engine or a transfer meets while it runs a node's work: nothing, a transient engine fault (R237), an error in a
line of an HBM page (R336) or in a slow-tier line of row `row` of update die `u`, which its code corrects or not (R260). -/
inductive EngErr where
  | none
  | engine
  | hbm (pageAddr : BitVec 32) (line : Fin 64) (what : LineErr)
  | slow (u : Fin 2) (row : Nat) (corrected : Bool)
deriving DecidableEq, Repr

/-- Whether an error is a slow-tier line that cannot be corrected (R260). -/
def EngErr.slowLost (e : EngErr) : Bool := match e with | .slow _ _ c => !c | _ => false

/-- What makes a link resend a packet: a packet whose CRC fails (R347), or with it what a lane's checks have met: an uncorrectable codeword of
a fabric lane, symbols that its forward error correction has corrected since they were last counted, or a flit check of a bridge lane that
has failed (R425). -/
inductive LinkErr where
  | crc
  | fabric (lane : Fin 18)
  | symbols (lane : Fin 18) (count : Nat)
  | bridge (edge : Fin 16) (group lane : Nat)
deriving DecidableEq, Repr

/-- A fabric packet (R351 to R353): virtual channel, sender, destination address, sequence number, payload. -/
structure Packet where
  vc : Fin 16
  src : BitVec 32
  dst : BitVec 32
  seq : Nat
  payload : List Byte
deriving DecidableEq, Repr

/-- A pace message (R397): module number, operating point, duty in eighths, cause 0 to 5, slate. -/
structure PaceMsg where
  member : BitVec 24
  op : Fin 8
  duty : Nat
  cause : Fin 6
  slate : Word
deriving DecidableEq, Repr

/-- One on-die ECC report (R327, R336): corrections counted in one row within 24 hours. The row is named by an HBM
page address of R343. -/
structure EccReport where
  pageAddr : BitVec 32
  count : Nat
deriving DecidableEq, Repr

/-- The resource a targeted test runs on (R425, R429). A scratchpad row is (die, site, bank, row); a gradient-buffer
row (die, site, row); an array row (die, site, physical row); an instruction-memory row (die, site, row); a bridge lane (edge, group, lane); a fabric lane
(I/O die, lane); an HBM row is named by a page address of R343. -/
inductive TestRes where
  | padRow (d : Fin 12) (site : Fin 66) (bank : Fin 16) (row : Nat)
  | gbRow (d : Fin 12) (site : Fin 66) (row : Nat)
  | arrayRow (d : Fin 12) (site : Fin 66) (row : Fin 65)
  | tile (d : Fin 12) (site : Fin 66)
  | imemRow (d : Fin 12) (site : Fin 66) (row : Nat)
  | bridgeLane (edge : Fin 16) (group lane : Nat)
  | fabricLane (io : Fin 8) (lane : Fin 18)
  | hbmRow (pageAddr : BitVec 32)
  | lpRow (u : Fin 2) (row : Nat)
deriving DecidableEq, Repr

/-- A completed targeted test (R426 to R428): its resource, whether it passed, and whether the bank of an HBM row
still has a repair resource (R337). -/
structure TestRun where
  res : TestRes
  passed : Bool
  repairLeft : Bool
deriving DecidableEq, Repr

/-- The commands. Each constructor is one row of spec/opcode_table.json. -/
inductive Instr where
  /-- IDENTIFY (R320). -/
  | identify
  /-- QUERY (R321). -/
  | query
  /-- CREATE_QUEUE (R316). -/
  | createQueue
  /-- DELETE_QUEUE (R317). -/
  | deleteQueue
  /-- LOAD_REEL (R91). -/
  | loadReel (image : List Byte)
  /-- REEL_REMOVE (R92). -/
  | reelRemove
  /-- ALLOC_REGION (R316). -/
  | allocRegion
  /-- FREE_REGION (R317). -/
  | freeRegion
  /-- SUBMIT_GRAPH (R291). -/
  | submitGraph
  /-- ABORT_GRAPH (R303). -/
  | abortGraph
  /-- SET_CAP (R390). -/
  | setCap
  /-- SET_PHASE_OP (R389). -/
  | setPhaseOp
  /-- ARM_NAN_RECORD (R197). -/
  | armNanRecord
  /-- READ_RECORDS (R324). -/
  | readRecords
  /-- TIME_SET (R54). -/
  | timeSet
  /-- PARK (R415). -/
  | park
  /-- DEEP_PARK (R413). -/
  | deepPark
  /-- PARK_RUN (R413). -/
  | parkRun
  /-- PARK_STATE_REACHED (R415). -/
  | parkStateReached
  /-- RESET_MODULE (R319). -/
  | resetModule
  /-- SHUTDOWN (R319). -/
  | shutdown
  /-- TEST_ENABLE (R438). -/
  | testEnable
  /-- TEST_ENABLE_CLEAR (R438). -/
  | testEnableClear
  /-- MBX_SQ_DB (R310). -/
  | mbxSqDb (n : Fin 64) (value : Word) (entries : List (List Byte))
  /-- MBX_CQ_DB (R310). -/
  | mbxCqDb (n : Fin 64) (value : Word)
  /-- MBX_Q0_CFG_CREATE (R306). -/
  | mbxQ0CfgCreate (value : Word)
  /-- MBX_Q0_CFG_DELETE (R307). -/
  | mbxQ0CfgDelete (value : Word)
  /-- WIN_MEM_READ (R308). -/
  | winMemRead (x len : Nat)
  /-- WIN_MEM_WRITE (R308). -/
  | winMemWrite (x : Nat) (data : List Byte)
  /-- TLY_START (R421). -/
  | tlyStart (value : Word)
  /-- TLY_RESUME (R421). -/
  | tlyResume (value : Word)
  /-- TLY_DATA8 (R422). -/
  | tlyData8 (value : Word)
  /-- TLY_DATA16 (R422). -/
  | tlyData16 (value : Word)
  /-- TLY_DATA32 (R422). -/
  | tlyData32 (value : Word)
  /-- TLY_VALUE_WRITE (R423). -/
  | tlyValueWrite (value : Word)
  /-- TLY_STATUS_CLEAR (R424). -/
  | tlyStatusClear (value : Word)
  /-- TLY_WRITE_ABSORBED (R423). -/
  | tlyWriteAbsorbed (ch : Fin 14)
  /-- PTB_WRITE (R438). -/
  | ptbWrite (r : Fin 6) (part : RegPart) (value : Word)
  /-- PWR_CTRL_WRITE (R396). -/
  | pwrCtrlWrite (part : RegPart) (value : Word)
  /-- REGISTER_WRITE (R305). -/
  | registerWrite (off bytes : Nat) (value : Word)
  /-- POWER_GOOD (R403). -/
  | powerGood
  /-- POWER_GOOD_LOST (R444): whether PWR_EN stays asserted, the input having left its limits, and whether the loss interrupts a write
  of flash-held data (R418). -/
  | powerGoodLost (pwrEn cut : Bool)
  /-- MOD_RESET_N (R408). -/
  | modResetN
  /-- PERST (R416). -/
  | perst
  /-- THERMAL_TRIP (R395). -/
  | thermalTrip (unit : HotUnit) (temp : Nat)
  /-- PPS_EDGE (R51). -/
  | ppsEdge (falling : Bool)
  /-- READ_STAGE (R446): the 7-bit address, and whether the host asks for the packet error code. -/
  | readStage (addr : BitVec 7) (pec : Bool)
  /-- READ_TEMP (R446). -/
  | readTemp (addr : BitVec 7) (pec : Bool)
  /-- READ_POWER (R446). -/
  | readPower (addr : BitVec 7) (pec : Bool)
  /-- WAKE (R446): the 7-bit address, and the packet error code that the host sends, if it sends one. -/
  | wake (addr : BitVec 7) (pec : Option Byte)
  /-- RAIL_HOLD (R42). -/
  | railHold (k : Fin 14)
  /-- RAIL_RELEASE (R42). -/
  | railRelease (k : Fin 14)
  /-- CORE_UNDERVOLT (R42). -/
  | coreUndervolt (k : Fin 14) (mv : Nat)
  /-- STAGE_A_REACHED (R404). -/
  | stageAReached
  /-- STAGE_B_REACHED (R406). -/
  | stageBReached
  /-- STAGE_C_REACHED (R404). -/
  | stageCReached (ceilings : List (List Nat)) (delays : List Nat) (failed : List (Fin 12 × Fin 66))
  /-- STAGE_D_REACHED (R350). -/
  | stageDReached
  /-- START_FAILED (R407). -/
  | startFailed (k : Fin 14)
  /-- DIE_RESET (R411). -/
  | dieReset (d : Fin 12)
  /-- UPDATE_DIE_RESET (R412). -/
  | updateDieReset (u : Fin 2)
  /-- DIE_REJOIN (R411). -/
  | dieRejoin (k : Fin 14)
  /-- TIME_EXCHANGE (R49). -/
  | timeExchange (plane : Fin 8) (offset : Int) (step : Nat) (source : Bool)
  /-- TIME_BEACON (R49). -/
  | timeBeacon (transit : List Nat)
  /-- TIME_HOLDOVER (R53). -/
  | timeHoldover
  /-- CUE_FIRE (R58). -/
  | cueFire (d : Fin 12)
  /-- LINK_RETRY (R347). -/
  | linkRetry (io : Fin 8) (port : Fin 4) (vc : Fin 16) (err : LinkErr)
  /-- PORT_RETRAINED (R348). -/
  | portRetrained (io : Fin 8) (port : Fin 4)
  /-- HELLO (R350). -/
  | hello (plane : Fin 8) (port : Fin 4) (number : BitVec 24)
  /-- PLANE_LOST (R354). -/
  | planeLost (plane : Fin 8)
  /-- PACKET_RECEIVED (R353). -/
  | packetReceived (plane : Fin 8) (port : Fin 4) (pkt : Packet)
  /-- PACKET_ACKNOWLEDGED (R353). -/
  | packetAcknowledged (vc : Fin 16) (src dst : BitVec 32) (seq : Nat)
  /-- INGEST_ARRIVAL (R355). -/
  | ingestArrival (io : Fin 8) (port : Fin 4) (seg : List Byte)
  /-- INGEST_SEGMENT (R359). -/
  | ingestSegment
  /-- CONSUMED_REREAD (R359). -/
  | consumedReread
  /-- PACE_MESSAGE (R398). -/
  | paceMessage (msg : PaceMsg)
  /-- PACE_REPEAT (R397). -/
  | paceRepeat
  /-- PACE_LAPSED (R399). -/
  | paceLapsed (member : BitVec 24)
  /-- CAP_FAST_LOOP (R391). -/
  | capFastLoop (current voltage : Nat)
  /-- CAP_SLOW_LOOP (R391). -/
  | capSlowLoop (watts floor : Nat) (units : List Nat)
  /-- PACING_FRAME (R392). -/
  | pacingFrame
  /-- JUNCTION_READ (R394). -/
  | junctionRead (k : Fin 14) (temp : Nat)
  /-- HBM_TEMP_READ (R344). -/
  | hbmTempRead (st : Fin 32) (temp : Nat)
  /-- CEILING_MEASUREMENT (R37). -/
  | ceilingMeasurement (d : Fin 12) (site : Fin 66) (op : Fin 8)
  /-- VECTOR_IDLE_TIMEOUT (R165). -/
  | vectorIdleTimeout (d : Fin 12) (t : Fin 64)
  /-- VECTOR_WAKE (R166). -/
  | vectorWake (d : Fin 12) (t : Fin 64)
  /-- ROOM_TONE_END (R137). -/
  | roomToneEnd (d : Fin 12) (t : Fin 64)
  /-- TASK_START (R295). -/
  | taskStart (g n : Nat)
  /-- REEL_COPY (R93). -/
  | reelCopy (g n : Nat) (err : EngErr)
  /-- TAKE_START (R94). -/
  | takeStart (g n : Nat)
  /-- TAKE_COMPLETE (R300). -/
  | takeComplete (g n : Nat) (err : EngErr)
  /-- SLOT_SAVE (R204). -/
  | slotSave (d : Fin 12) (t : Fin 64) (gb : Fin 42) (err : OpErr)
  /-- SLOT_RESTORE (R205). -/
  | slotRestore (g n : Nat) (err : EngErr)
  /-- SLOT_SPILL (R206). -/
  | slotSpill (slot : Nat) (err : OpErr)
  /-- SLOT_FILL (R206). -/
  | slotFill (slot : Nat) (err : EngErr)
  /-- STASH_RESERVATION (R217). -/
  | stashReservation (g : Nat) (stage : Fin 8)
  /-- REPLAY (R212). -/
  | replay (g : Nat) (stage : Fin 8) (block mb : Nat) (err : EngErr)
  /-- TILE (R285). -/
  | tile (g n rounds : Nat)
  /-- CONVERT (R185). -/
  | convert (g n part : Nat) (err : EngErr)
  /-- COPY (R452). -/
  | copy (g n part : Nat) (err : EngErr)
  /-- COLLECTIVE (R366). -/
  | collective (g n : Nat) (others : List (List Byte))
  /-- ASSEMBLE (R229). -/
  | assemble (g n part : Nat) (err : EngErr)
  /-- FACTOR (R231). -/
  | factor (g n part : Nat) (err : EngErr)
  /-- SOLVE (R241). -/
  | solve (g n part : Nat) (err : EngErr)
  /-- ITER_SOLVE (R246). -/
  | iterSolve (g n part : Nat) (err : EngErr)
  /-- UPDATE (R266). -/
  | update (g n part : Nat) (err : EngErr)
  /-- ROOT_COMPLETE (R269). -/
  | rootComplete (u : Fin 2)
  /-- CUE (R287). -/
  | cue (g n : Nat)
  /-- BARRIER (R287). -/
  | barrier (g n : Nat)
  /-- HOST_NOTE (R287). -/
  | hostNote (g n : Nat)
  /-- BUCKET_ISSUE (R372). -/
  | bucketIssue (g n b : Nat) (err : EngErr)
  /-- BUCKET_COMPLETE (R373). -/
  | bucketComplete (g n b : Nat) (others : List (List Byte)) (err : EngErr)
  /-- COLLECTIVE_WAIT_EXPIRED (R377). -/
  | collectiveWaitExpired (g n b : Nat)
  /-- COLLECTIVE_MISMATCH (R376). -/
  | collectiveMismatch (g n b : Nat) (cause : Fin 6)
  /-- COLLECTIVE_ABANDONED (R377). -/
  | collectiveAbandoned (g n b rank : Nat)
  /-- BUNDLE_ISSUE (R97). -/
  | bundleIssue (d : Fin 12) (t : Fin 64) (err : OpErr)
  /-- DONE (R107). -/
  | done (d : Fin 12) (t : Fin 64)
  /-- MLOAD (R121). -/
  | mload (d : Fin 12) (t : Fin 64) (err : OpErr)
  /-- MMUL (R124). -/
  | mmul (d : Fin 12) (t : Fin 64) (err : OpErr)
  /-- MGRAD (R130). -/
  | mgrad (d : Fin 12) (t : Fin 64) (err : OpErr)
  /-- MMASK (R131). -/
  | mmask (d : Fin 12) (t : Fin 64) (err : OpErr)
  /-- MVEC (R141). -/
  | mvec (d : Fin 12) (t : Fin 64) (err : OpErr)
  /-- VLD (R155). -/
  | vld (d : Fin 12) (t : Fin 64) (err : OpErr)
  /-- VST (R155). -/
  | vst (d : Fin 12) (t : Fin 64)
  /-- VGATH (R156). -/
  | vgath (d : Fin 12) (t : Fin 64) (err : OpErr)
  /-- VSCAT (R156). -/
  | vscat (d : Fin 12) (t : Fin 64)
  /-- VGATHM (R157). -/
  | vgathm (d : Fin 12) (t : Fin 64)
  /-- VSCATM (R157). -/
  | vscatm (d : Fin 12) (t : Fin 64)
  /-- VADD (R149). -/
  | vadd (d : Fin 12) (t : Fin 64)
  /-- VSUB (R149). -/
  | vsub (d : Fin 12) (t : Fin 64)
  /-- VMUL (R149). -/
  | vmul (d : Fin 12) (t : Fin 64)
  /-- VFMA (R149). -/
  | vfma (d : Fin 12) (t : Fin 64)
  /-- VMAX (R149). -/
  | vmax (d : Fin 12) (t : Fin 64)
  /-- VMIN (R149). -/
  | vmin (d : Fin 12) (t : Fin 64)
  /-- VDIV (R149). -/
  | vdiv (d : Fin 12) (t : Fin 64)
  /-- VSQRT (R149). -/
  | vsqrt (d : Fin 12) (t : Fin 64)
  /-- VEXP (R149). -/
  | vexp (d : Fin 12) (t : Fin 64)
  /-- VCVT (R149). -/
  | vcvt (d : Fin 12) (t : Fin 64)
  /-- VWMUL (R150). -/
  | vwmul (d : Fin 12) (t : Fin 64)
  /-- DOTW (R151). -/
  | dotw (d : Fin 12) (t : Fin 64)
  /-- DOT_D (R152). -/
  | dotD (d : Fin 12) (t : Fin 64)
  /-- VRMAX (R154). -/
  | vrmax (d : Fin 12) (t : Fin 64)
  /-- VRSUM (R154). -/
  | vrsum (d : Fin 12) (t : Fin 64)
  /-- VECTOR_RESUME (R163). -/
  | vectorResume (d : Fin 12) (t : Fin 64)
  /-- SCRATCH_REREAD (R70). -/
  | scratchReread (d : Fin 12) (t : Fin 64) (clean : Bool)
  /-- QBINDS (R81). -/
  | qbinds (d : Fin 12) (t : Fin 64)
  /-- QBINDE (R81). -/
  | qbinde (d : Fin 12) (t : Fin 64)
  /-- QBINDP (R81). -/
  | qbindp (d : Fin 12) (t : Fin 64)
  /-- QUNBIND (R81). -/
  | qunbind (d : Fin 12) (t : Fin 64)
  /-- DMAIN (R83). -/
  | dmain (d : Fin 12) (t : Fin 64)
  /-- DMAOUT (R83). -/
  | dmaout (d : Fin 12) (t : Fin 64)
  /-- DMAINQ (R106). -/
  | dmainq (d : Fin 12) (t : Fin 64)
  /-- DMAOUTQ (R106). -/
  | dmaoutq (d : Fin 12) (t : Fin 64)
  /-- DMA_COMPLETION (R84). -/
  | dmaCompletion (d : Fin 12) (t : Fin 64) (i : Nat) (err : EngErr) (pad : OpErr)
  /-- GATHER_REPLY (R86). -/
  | gatherReply (d : Fin 12) (t : Fin 64) (elem : Nat) (err : EngErr)
  /-- QUEUE_PUSH (R80): what the read of the scratchpad meets, or of module memory for an inbound transfer. -/
  | queuePush (d : Fin 12) (t : Fin 64) (q : Fin 16) (err : OpErr) (mem : EngErr)
  /-- QUEUE_POP (R80). -/
  | queuePop (d : Fin 12) (t : Fin 64) (q : Fin 16)
  /-- ACCESS_PROCEEDS (R76). -/
  | accessProceeds (d : Fin 12) (t : Fin 64) (pos : Nat)
  /-- TILE_STALL (R82). -/
  | tileStall (d : Fin 12) (t : Fin 64)
  /-- CUT_STOP_TIMEOUT (R113). -/
  | cutStopTimeout (d : Fin 12) (t : Fin 64)
  /-- CUT_POINT_REACHED (R114). -/
  | cutPointReached (g n : Nat)
  /-- HBM_SCRUB (R335): the lines found in error, each by its HBM page address and its number in the page. -/
  | hbmScrub (errs : List (BitVec 32 × Fin 64 × LineErr))
  /-- HBM_ECC_POLL (R327). -/
  | hbmEccPoll (reports : List EccReport)
  /-- SELF_TEST (R428). -/
  | selfTest (r : TestRun)
  /-- CHANNEL_FAILED (R341). -/
  | channelFailed (st : Fin 32) (ch : Fin 32)
  /-- MIGRATION_PAGE (R340). -/
  | migrationPage (st : Fin 32) (pair : Fin 16)
  /-- SLOW_TIER_SCRUB (R260). -/
  | slowTierScrub (u : Fin 2) (rows : List Nat)
  /-- MSIX_MERGE_INTERVAL_END (R325). -/
  | msixMergeIntervalEnd (v : Fin 128)
  /-- PORT_DOWN (R354). -/
  | portDown (io : Fin 8) (port : Fin 4)
deriving DecidableEq, Repr

end Sys2Proof
end

