-- ==== Sys2Proof/Config.lean ====
section
/-! DEFINITION. What an implementation fixes and the spec does not give (free values, no body), and the sizes the
spec states for every grade. -/

namespace Sys2Proof

/-- Firmware version of the IDENTIFY page (R320): no value is given. A free value (log 2). -/
opaque Config.firmwareVersion : BitVec 32

/-- Continuity-set revision of the IDENTIFY page (R320): no value is given. A free value (log 2). -/
opaque Config.continuityRevision : BitVec 32

/-- The contents of a byte the spec leaves undefined (R302, R303): the tag of the event that left it so, and the byte's
offset. A free value (log 2). -/
opaque Config.freeByte : Nat → Nat → Byte

/-- The INT16 result of converting an INT32 value outside the INT16 range (R149 states saturation only from floating
point). A free value (log 2). -/
opaque Config.narrowInt : BitVec 32 → BitVec 16

/-- The scaling exponent of a refinement step whose residual (FP64 codes) has no finite largest magnitude (R242 takes its
logarithm and states no value). A free value (log 2). -/
opaque Config.refineExp : List Nat → Int

/-- RATIO of a refinement whose quotient max|d| ÷ max|x| is 0/0 or not a number (R236 states no value). A free value
(log 2). -/
opaque Config.openRatio : BitVec 32

/-- The fabric address of the switch that is the root of a key, from its group, collective number and bucket (R369: the fabric
chooses it from the key alone). A free value (log 2). -/
opaque Config.rootAddr : Nat → Nat → Nat → BitVec 32

/-- The LPDDR5X package that holds a row of an update die (R429; the spec does not lay the rows out). A free value (log 2). -/
opaque Config.lpPackage : Nat → BitVec 3

/-- The rate correction, in femtoseconds a tick, that a keeper takes from an offset still to be slewed and its rate correction before
(R49 and R53 give no control law). A free value (log 13). -/
opaque Config.rateCorrection : Int → Int → Int

/-- A draw of the perturbation generator, from its seed and what it is drawn for (R439 names no algorithm). A free value (log 2). -/
opaque Config.ptbDraw : Nat → Nat → Nat

/-- The status code of a take that a transient fault of an engine has ended (R237 and R299 give it none). A free value (log 2). -/
opaque Config.engineFaultCode : BitVec 16

/-- Tick of the 625 MHz island clock, in femtoseconds (R48: 1.6 ns). -/
def Config.tickFs : Nat := 1600000

/-- Largest correction per tick, in femtoseconds (R49: 200 ppm of 1.6 ns). -/
def Config.slewFs : Nat := 320

/-- Units of the record buffer (R323). -/
def Config.recUnits : Nat := 262144

/-- Scratchpad bytes (R66). -/
def Config.padBytes : Nat := 4194304

/-- Raw bytes of one HBM channel (R326: 2.25 GB, decimal). -/
def Config.channelBytes : Nat := 2250000000

/-- Bytes of one update die's slow tier (R17: 512 GB, decimal). -/
def Config.slowBytes : Nat := 512000000000

/-- Page size (R332). -/
def Config.pageBytes : Nat := 4096

end Sys2Proof
end

