-- ==== Sys2Proof/Machine/State.lean ====
section
/-! DEFINITION. The state of the module as plain data, what can stop a step, and the state right after reset
(the instant of power good, R403, with every register at its cold value, R9). -/

namespace Sys2Proof.Machine

/-- Why a command stops the model. -/
inductive Fault where
  /-- The command names an HBM stack or an I/O die that the module's grade does not carry (R18, R20): the spec gives no
  such unit. Raised by the event commands of a stack or an I/O site. Safe: hardware has no such event. -/
  | absentUnit
deriving DecidableEq, Repr

/-- Why a command has no meaning in the model. -/
inductive Refusal where
  /-- A row of the opcode table without a meaning yet. Raised by exec's arms alone. Safe. -/
  | notModelled (mnemonic : String)
deriving DecidableEq, Repr

/-- Status codes (the codes stand in `Status.code`). -/
inductive Status where
  | ok | okWithNotes | hostNote
  | badDescriptor | engineAbsent | quotaTooSmall | slotsExceeded | reelCheckFailed | capacityExceeded
  | partialFault | takeLimit | lateCue | cutPointReached | aborted | badStream | tileStall | badOperation
  | arrayResidue | predecessorFailed | tileLost | dieRestarted | siteFailed
  | nanFirst | gradientSilent | flushHeavy | frozenSkipped | resultOverflow | rootUnconverged | switchNan
  | thinNonfinite | engineFault
  | zeroPivot | tinyPivot | pivotOverflow | iterCap | warmStartDiscarded | notPositive | breakdown
  | actPoison | stashPressure | channelRetired | pageRetired | scratchUncorrectable | slowUncorrectable | noSpace
  | hbmUncorrectable | migrationStalled | hbmHot
  | linkLaneSpared | planeLost | ingestGap | timeHoldover | portDegraded | ingestUnrouted | planeRestored
  | addressConflict | collectiveMismatch | collectiveAbandoned | bridgeDegraded | timeStepped
  | capClamped | capUnreachable | paceFollow | ceilingLowered | coreUndervolt | thermalLimit | thermalTrip | paceLapsed
  | aliveStale | timeSetRefused | graphUnknown | cmdCrcFailed | badCommand | contextDenied | notReady | objectBusy
  | objectUnknown | graphsPending | queueInvalid | dieReset | moduleReset | startFailed | selfTest
deriving DecidableEq, Repr

/-- The three grades (R18). -/
inductive Grade where
  | f | m | l
deriving DecidableEq, Repr

/-- What fuses hold (R19, R25, R320), and the strap SLOT_ID of the module's slot (R445): no command writes them. -/
structure Fuses where
  grade : Grade
  stepping : BitVec 8
  serial : List Byte
  slotId : BitVec 3
deriving DecidableEq, Repr

/-- A count of fabric time in femtoseconds, the correction still to be slewed, and the rate correction in force, in femtoseconds
a tick (R48, R49, R53). -/
structure TCount where
  fs : Nat
  corr : Int
  rate : Int
deriving DecidableEq, Repr

/-- Fabric time: the keepers of the I/O dies, the replicas of the compute dies, the offsets as the planes measured them, and the TIM
registers; `ppsTicks` counts island clock ticks since the last selected 1PPS edge (R48, R50, R64). -/
structure TimeState where
  keeper : Vector TCount 8
  replica : Vector TCount 12
  offsets : Vector (Option Int) 8
  locked : Bool
  holdover : Bool
  source : Bool
  ppsSeen : Bool
  ppsTicks : Nat
  planes : BitVec 8
  ppsEn : Bool
  ppsEdge : Bool
  ppsSlate : Word
  offset : Word
deriving DecidableEq, Repr

/-- A write that waits at a tally channel (R423). -/
inductive TlyWrite where
  | ctrl (v : Word)
  | data (bytes : Nat) (v : Word)
  | value (part : RegPart) (v : Word)
  | status (v : Word)
deriving DecidableEq, Repr

/-- One tally channel (R419 to R424). -/
structure TallyCh where
  poly : Bool
  run : BitVec 8
  active : Bool
  stale : Bool
  expected : BitVec 8
  value : Word
  busy : Bool
  waiting : List TlyWrite
deriving DecidableEq, Repr

/-- Power states (R413, R446). -/
inductive PState where
  | run | park | deepPark
deriving DecidableEq, Repr

/-- The life of the module: power, the level of PWR_EN, stages, park states, the latched thermal trip, test mode, units that failed their
start test (R395, R403 to R416, R438, R445); THERMTRIP_N is asserted while `trip` is set (R395, R445); `coldStart` and `waking` tell what
started the present sequence of stages. -/
structure Life where
  powered : Bool
  pwrEn : Bool
  stage : Nat
  pstate : PState
  entering : Option PState
  trip : Bool
  test : Bool
  startFailed : List Nat
  coldStart : Bool
  waking : Bool
deriving DecidableEq, Repr

/-- A scratchpad or gradient-buffer row remapped to a spare (R71, R89). -/
structure RowMap where
  d : Nat
  site : Nat
  bank : Nat
  row : Nat
deriving DecidableEq, Repr

/-- Flash-held data (R417), as one of the two copies of R418 holds it. -/
structure Flash where
  defaultCap : BitVec 16
  tripRecord : Option (HotUnit × Nat)
  aged : Vector (Vector Nat 66) 12
  siteOf : Vector (Vector Nat 64) 12
  lost : List (Nat × Nat)
  failedSites : List (Nat × Nat)
  arraySpare : List (Nat × Nat × Nat)
  padRows : List RowMap
  gbRows : List RowMap
  retired : Vector (List (BitVec 32)) 32
  repaired : List (BitVec 32)
  mappedOut : List (Nat × Nat)
  bridgeSpares : List (Nat × Nat)
  degraded : List (Nat × Nat)
  laneSpares : List (Nat × Nat × Nat)
  laneFails : List (Nat × Nat)
  lpRows : Vector Nat 2
  pathDelay : List Nat
deriving DecidableEq, Repr

/-- One submission and completion queue pair (R306, R310 to R316). `rung` holds the entries the host has announced by
a doorbell and the module has not consumed; `held` the completions that wait for ring space, each with
whether it raises the vector (R311, R325). -/
structure HQueue where
  sqBase : Word
  cqBase : Word
  log2Sq : Nat
  log2Cq : Nat
  vector : Nat
  context : BitVec 32
  alive : BitVec 8
  sqHead : Nat
  sqTail : Nat
  cqTail : Nat
  cqHead : Nat
  phase : Bool
  rung : List (List Byte)
  held : List (Bool × List Byte)
deriving DecidableEq, Repr

/-- The mailbox (R306 to R319). -/
structure Mailbox where
  queues : Vector (Option HQueue) 64
  q0Cfg : Word
  q0SqBase : Word
  q0CqBase : Word
  winHandle : BitVec 32
  winOffset : Word
  inService : Option (Nat × List Byte)
  turn : Nat
  regionCount : BitVec 32
  graphCount : BitVec 24
deriving DecidableEq, Repr

/-- One 64-byte unit of the record buffer (R323); `ext` units follow a head unit. -/
structure RecUnit where
  seq : Nat
  head : Bool
  ext : Nat
  ctx : Option (BitVec 32)
  bytes : List Byte
deriving DecidableEq, Repr

/-- The record buffer (R322, R323). -/
structure RecBuf where
  write : Nat
  read : Word
  units : List RecUnit
deriving DecidableEq, Repr

/-- MSI-X (R304, R325). -/
structure Msix where
  table : Mem
  pba : BitVec 128
  isOpen : BitVec 128
  merged : BitVec 128
deriving DecidableEq, Repr

/-- An answer to a host read through WIN_MEM, or to an access of a width WIN_REG does not take (R305, R308). -/
inductive Tlp where
  | data (bytes : List Byte)
  | poisoned (bytes : List Byte)
  | unsupported
deriving DecidableEq, Repr

/-- PCIe power states of the function (R304). -/
inductive PciPower where
  | d0 | d3hot
deriving DecidableEq, Repr

/-- Host memory, and what the module has sent out of the host port and over SMBus (`none`: not acknowledged); the power state of the PCIe
function and the status bits of its error reporting, laid out as PCIe lays them out (R304; PRESUMED, log 54). -/
structure HostSide where
  mem : Mem
  msgs : List Nat
  tlp : Option Tlp
  smbus : Option (List Byte)
  power : PciPower
  aer : BitVec 32
deriving DecidableEq, Repr

/-- Power and thermal state of one compute die (0 to 11) or update die (12, 13) (R33, R389 to R394, R42). `hot` lasts from the first
reading above 100 °C until the junction limit is lifted; `above` says that the last reading lay above 100 °C; `fellFrom` is the point that
was in force when the limit first fell. -/
structure PUnit where
  pref : BitVec 18
  capPoint : Nat
  junction : Nat
  fellFrom : Nat
  hot : Bool
  above : Bool
  hotReads : Nat
  coolReads : Nat
  tj : Nat
  power : Nat
  held : Bool
deriving DecidableEq, Repr

/-- One HBM stack's temperature response (R344). -/
structure StackSt where
  temp : Nat
  doubled : Bool
  hot : Bool
  coolReads : Nat
deriving DecidableEq, Repr

/-- Per-die part of the dailies (R402). -/
structure DailyDie where
  opTime : Vector Nat 8
  wakes : Nat
  toneUs : Nat
  maxTj : Nat
  minOp : Nat
deriving DecidableEq, Repr

/-- One snapshot of the dailies (R402). -/
structure Dailies where
  step : BitVec 32
  opened : Nat
  closed : Nat
  energy : Nat
  maxP : Nat
  minCap : Nat
  belowDuty : Nat
  paceSent : Nat
  paceFollow : Nat
  dies : Vector DailyDie 12
  stages : Vector (Nat × Nat × Nat × Nat) 8
deriving DecidableEq, Repr

/-- Power, pacing and thermal control (R386 to R402). -/
structure Power where
  ctrl : Word
  cap : BitVec 16
  floor : BitVec 16
  p1ms : BitVec 16
  vin : BitVec 16
  i10us : BitVec 16
  duty : Nat
  unreachable : Bool
  below : Nat
  frameStart : Nat
  units : Vector PUnit 14
  hbmStacks : Vector StackSt 32
  announced : List PaceMsg
  group : BitVec 16
  lastPace : Option PaceMsg
  daily : Option Dailies
  lastDaily : Option Dailies
deriving DecidableEq, Repr

/-- The perturbation registers (R439). -/
structure Ptb where
  regs : Vector Word 6
deriving DecidableEq, Repr

/-- Class of a region (R316, R328, R329, R258). -/
inductive RClass where
  | persist | act | slow
deriving DecidableEq, Repr

/-- Where a 4 KiB page lies: stack, channel pair, half of the pair (ACT only), page number (R332, R343). -/
structure PageLoc where
  stack : Nat
  pair : Nat
  half : Nat
  page : Nat
deriving DecidableEq, Repr

/-- A range of bytes the spec leaves undefined (R302, R303), with the tag its free values are applied to. -/
structure Undef where
  lo : Nat
  len : Nat
  tag : Nat
deriving DecidableEq, Repr

/-- An allocated region (R316, R326 to R335, R258). `poison` lists the 64-byte lines in error: poisoned lines of an ACT region, lines of a
PERSIST region that the decoder cannot restore (R328, R336); `replayed` those lines in error whose value a replay has written to the
replay area, where its readers find it (R212, R220). The check half and the tags of a PERSIST line are functions of its data and its
address (R328) and are not held beside them. `states` lists the offsets at which an UPDATE keeps a state region (R263). -/
structure Region where
  cls : RClass
  spread : Bool
  die : Nat
  len : Nat
  ctx : BitVec 32
  bytes : Mem
  undef : List Undef
  poison : List Nat
  replayed : List Nat
  pages : List PageLoc
  states : List Nat
deriving DecidableEq, Repr

/-- A reel of the reel store (R91, R92, R315). `lost` says that a line of it cannot be decoded (R336). -/
structure Reel where
  ctx : BitVec 32
  image : List Byte
  pages : List PageLoc
  lost : Bool
deriving DecidableEq, Repr

/-- Module memory (R316 to R343). `marked` holds the pairs marked for map-out by a channel failure or a full table (R339), `stalled` those
whose migration found no free page (R342). -/
structure MemSys where
  regions : Tbl Region
  reels : Tbl Reel
  marked : List (Nat × Nat)
  failedCh : List (Nat × Nat)
  pendingRetire : List (BitVec 32)
  stalled : List (Nat × Nat)
deriving DecidableEq, Repr

/-- A region entry of a node (R284). -/
structure RegEnt where
  handle : BitVec 32
  kind : BitVec 8
  off : Nat
  len : Nat
deriving DecidableEq, Repr

/-- A node descriptor (R283). -/
structure Node where
  ty : Nat
  phase : Nat
  takes : Nat
  flags : Nat
  mb : Nat
  stage : Nat
  block : Nat
  reel : BitVec 32
  dieMask : BitVec 16
  udie : Nat
  nslot : Nat
  tileMask : BitVec 64
  cueT : Nat
  param : List Byte
  regs : List RegEnt
  reservedOk : Bool
deriving DecidableEq, Repr

/-- An edge (R289). -/
structure Edge where
  pred : Nat
  succ : Nat
  tol : Bool
  zeroOk : Bool
deriving DecidableEq, Repr

/-- A block entry (R293, R210). -/
structure BlockEnt where
  policy : BitVec 32
  stump : Nat
  internal : Nat
deriving DecidableEq, Repr

/-- A stage entry (R293). -/
structure StageEnt where
  quota : Nat
  stumps : BitVec 32
  acts : BitVec 32
  replay : BitVec 32
  offload : BitVec 32
  replayLen : Nat
  offloadLen : Nat
  blocks : List BlockEnt
deriving DecidableEq, Repr

/-- The header of a submission image (R281). -/
structure GHeader where
  flags : Nat
  nnodes : Nat
  nedges : Nat
  nodeOff : Nat
  edgeOff : Nat
  stageOff : Nat
  nstages : Nat
  step : BitVec 32
  seed : Word
  cutNode : Nat
  cutBundle : Nat
  cutPass : Nat
  cutRegion : BitVec 32
  imageLen : Nat
deriving DecidableEq, Repr

/-- A note of a task: code, count, and the place it names (R183, R237, R271, R274, R370, R382). -/
structure Note where
  code : Status
  count : Nat
  lowest : Nat
  extra : Nat
deriving DecidableEq, Repr

/-- One part of a split request, or the whole of a task that is not split: its count of takes, whether its first covered fault has been met,
and the unit that it runs on (R300, R301). -/
structure Part where
  done : Bool
  counted : Nat
  grace : Bool
  unit : Nat
deriving DecidableEq, Repr

/-- Where a node is in its life (R294, R295, R300). -/
inductive NPhase where
  | held
  | released
  | running
  | done (st : Status)
deriving DecidableEq, Repr

/-- The run state of a node (R295 to R301). `on` holds the dies that the node has started on, `taken` those whose tiles have started
the present take, `begun` those that have issued the first bundle or operation (R55, R295); `reelOn` the dies whose tiles hold the reel
copied for the present take (R93). `blame` names the poisoned lines that ended the take (R220). `issued` and `completed` are a
collective's buckets (R372, R373), `cuedIn` the dies whose comparators for its cue have fired while the die did not run (R63), `contrib` the contributions it has issued, `written` the byte ranges of its result region that
completed buckets hold. -/
structure NRun where
  phase : NPhase
  take : Nat
  counted : Nat
  grace : Bool
  poisons : Nat
  blame : List (Nat × Nat)
  notes : List Note
  start : Nat
  late : Option Nat
  cued : List Nat
  cuedIn : List Nat
  on : List Nat
  taken : List Nat
  begun : List Nat
  parts : List Part
  outcome : Option Status
  detail : List Byte
  committed : Bool
  issued : List Nat
  completed : List Nat
  reelOn : List Nat
  tscale : BitVec 32
  counts : List Nat
  contrib : Tbl (List Byte)
  written : List (Nat × Nat)
deriving DecidableEq, Repr

/-- A reservation in a stage's stash (R216). `off` is the place of an offloaded stump in the offload area. The block's stump: `ins` the
input bytes of its nodes, by node and region entry, and `notes` the 64-byte scale notes of its CONVERT nodes, by node (R211, R214).
`outs` are the bytes that its nodes wrote in the forward pass, which a replay forms again (R213). -/
structure Resv where
  mb : Nat
  block : Nat
  stump : Nat
  internal : Nat
  off : Option Nat
  ins : List (Nat × Nat × List Byte)
  notes : List (Nat × List Byte)
  outs : List (Nat × Nat × List Byte)
deriving DecidableEq, Repr

/-- A block's replay that stands in the stage's replay area: block, micro-batch, place and length (R212), and whether all its forward nodes
have run in it, as its backward tasks need, not only those up to the producer of a poisoned line (R220). -/
structure Replayed where
  block : Nat
  mb : Nat
  place : Nat
  len : Nat
  full : Bool
deriving DecidableEq, Repr

/-- Stash state of one stage (R212, R216 to R219). `waiting` holds the blocks (micro-batch, block) that have had to wait, `replayed` the
replays in the replay area, oldest first. -/
structure StashSt where
  resv : List Resv
  demoted : List (Nat × Nat)
  waiting : List (Nat × Nat)
  replayed : List Replayed
  poisons : List (Nat × Nat)
deriving DecidableEq, Repr

/-- A graph (R281 to R303). `seq` orders the graphs by acceptance (R375). -/
structure Graph where
  seq : Nat
  ctx : BitVec 32
  queue : Nat
  sqHead : Nat
  alive : BitVec 8
  hdr : GHeader
  nodes : List Node
  edges : List Edge
  stages : List StageEnt
  run : List NRun
  stash : List StashSt
deriving DecidableEq, Repr

/-- A gradient-buffer slot identity and its contents (R87, R88, R203 to R207, R288): the tile that holds it, and the tile set (DIEMASK and
TILEMASK) of the task that allocated it. -/
structure Slot where
  graph : Nat
  d : Nat
  t : Nat
  tileSet : BitVec 16 × BitVec 64
  image : Nat
  tensor : Word
  brow : Nat
  bcol : Nat
  grad : RegEnt
  resident : Bool
  mbCount : Nat
  mbLast : BitVec 32
  mask : BitVec 64
  vals : Tbl (BitVec 48)
  saved : Bool
  touched : Bool
deriving DecidableEq, Repr

/-- The NaN record of a die (R196, R197). -/
structure NanRec where
  armed : Bool
  halt : Bool
  count : Nat
  filled : Option (List Byte)
deriving DecidableEq, Repr

/-- What an end of a queue is bound to (R78, R106). A stream carries its descriptor, the next element, its program-order
position and the bundle that bound it; a transfer its number. -/
inductive Binding where
  | unbound
  | port (code : Nat)
  | program
  | stream (desc : BitVec 128) (next pos bundle : Nat)
  | dma (xfer : Nat)
deriving DecidableEq, Repr

/-- An entry of a queue: 64 data bytes, END, and the poisoned lines (region handle, line) that fed it, if any: with one it is marked
(R78, R85). -/
structure QEntry where
  data : List Byte
  last : Bool
  bad : List (Nat × Nat)
deriving DecidableEq, Repr

/-- A hardware queue (R78 to R81). -/
structure TQueue where
  entries : List QEntry
  prod : Binding
  cons : Binding
deriving DecidableEq, Repr

/-- An operand of an M or V operation, its descriptor latched at issue (R97, R101, R163). -/
inductive Opnd where
  | queue (n : Nat)
  | desc (d : BitVec 128)
  | none
deriving DecidableEq, Repr

/-- An M operation in its unit's queue (R97, R104). `vec` is the next vector or row; `buf` and `buf2` hold bytes popped
for it, `out` results that wait for room, `written` the bytes that have left through DST. `halt` says that it has produced a NaN under
HALT, so that the task stops when it completes (R198). -/
structure MOp where
  bundle : Nat
  pos : Nat
  op : Nat
  fmt : Nat
  src : Opnd
  src2 : Opnd
  dst : Opnd
  count : Nat
  tsx : BitVec 32
  tsw : BitVec 32
  axis : Bool
  acc : Bool
  ts : Bool
  gb : Nat
  started : Bool
  vec : Nat
  buf : List Byte
  buf2 : List Byte
  vlen : Option Nat
  out : List Byte
  written : Nat
  accs : List (BitVec 64 × Bool)
  masks : List (BitVec 64)
  halt : Bool
deriving DecidableEq, Repr

/-- A V operation in the vector engine's queue (R97, R105, R163). `vri` is the element it runs from; `idx` the index
register of a gather or scatter, once read. -/
structure VOp where
  bundle : Nat
  pos : Nat
  op : Nat
  ty : Nat
  vd : Nat
  vs1 : Nat
  vs2 : Nat
  vs3 : Nat
  mem : Opnd
  base : AWord
  stype : Nat
  vl : Nat
  vri : Nat
  resumes : Nat
  started : Bool
  idx : Option (BitVec 4096)
  replies : Tbl (BitVec 64)
  bad : List Nat
deriving DecidableEq, Repr

/-- A Q operation in the Q unit's queue (R106). -/
structure QOp where
  bundle : Nat
  pos : Nat
  op : Nat
  q : Nat
  consumer : Bool
  desc : BitVec 128
  port : Nat
  offset : Nat
  len : Nat
  region : Nat
  ctr : Nat
deriving DecidableEq, Repr

/-- An outstanding DMA transfer (R83, R84, R106). -/
structure Dma where
  id : Nat
  pos : Nat
  bundle : Nat
  inbound : Bool
  viaQueue : Option Nat
  desc : BitVec 128
  region : Nat
  offset : Nat
  len : Nat
  moved : Nat
  ctr : Nat
  prior : Binding
deriving DecidableEq, Repr

/-- An incomplete scratchpad access: program-order position, byte ranges, whether it writes, whether it waits (R76). -/
structure Access where
  pos : Nat
  ranges : List (Nat × Nat)
  writes : Bool
  waiting : Bool
deriving DecidableEq, Repr

/-- A block of weights in the array (R116, R121). -/
structure Block where
  fmt : Nat
  weights : List Byte
  scales : List Byte
  square : Bool
deriving DecidableEq, Repr

/-- The carry plane (R126, R127): the shape of the held MMUL and its accumulators. -/
structure Carry where
  axis : Bool
  count : Nat
  outs : Nat
  f64 : Bool
  accs : List (BitVec 64 × Bool)
deriving DecidableEq, Repr

/-- A loop a tile is inside (R109): number, first bundle of the body, END bundle. -/
structure LoopSt where
  n : Nat
  first : Nat
  last : Nat
deriving DecidableEq, Repr

/-- The long accumulator (R152): the sum in units of 2^-2148 and the flags of R153. -/
structure LongAcc where
  sum : Int
  nan : Bool
  pinf : Bool
  ninf : Bool
deriving DecidableEq, Repr

/-- The scratchpad (R66, R67, R85): bytes, rows whose written bit is set, poisoned rows, each with a line (region handle, line) that it
was written from. -/
structure Pad where
  bytes : Mem
  written : List Nat
  poison : List (Nat × Nat × Nat)
deriving DecidableEq, Repr

/-- One logical tile (R65, R94). `slotBind` pairs a slot number with an index into the module's slot list. `reread` holds the double-bit
errors that await firmware's re-read: program-order position, element, address (R70). `imemBad` says that an instruction-memory error
has been seen since the reel was copied, `imemSeen` since the task started (R93); `stopSlate` is the time of the stop at a cut point (R114). -/
structure Tile where
  owner : Option (Nat × Nat)
  a : Vector AWord 16
  p : BitVec 4
  lc : Vector (BitVec 32) 4
  lrc : Vector (BitVec 32) 4
  sd : Vector (BitVec 128) 32
  ctr : Vector (BitVec 32) 4
  vl : Nat
  long : Bool
  vpin : Bool
  v : Vector (BitVec 4096) 32
  acc : LongAcc
  chainNan : Option (Nat × BitVec 32)
  gateOn : Bool
  imem : List Byte
  reelId : Option (BitVec 32)
  imemBad : Bool
  imemSeen : Bool
  pc : Nat
  loops : List LoopSt
  doneSeen : Bool
  finished : Bool
  suspended : Bool
  reread : List (Nat × Nat × Nat)
  cutStop : Bool
  cutHit : Bool
  cutCount : Nat
  stopSlate : Nat
  nextPos : Nat
  nextXfer : Nat
  pad : Pad
  queues : Vector TQueue 16
  arrayQ : List MOp
  mvQ : List MOp
  vecQ : List VOp
  qQ : List QOp
  dmas : List Dma
  accesses : List Access
  loaded : Bool
  active : Option Block
  shadow : Option Block
  carry : Option Carry
  tone : Bool
  outcome : Option Status
  fault : List Byte
  slotBind : List (Nat × Nat)
deriving DecidableEq, Repr

/-- One compute die (R11, R57, R197, R411, R414). `cues` holds the pending cue times in rising order, each with the
successors (graph, node) that share it; the first 64 are armed (R57). -/
structure Die where
  inReset : Bool
  cues : Tbl (List (Nat × Nat))
  nan : NanRec
  tiles : Vector Tile 64
deriving DecidableEq, Repr

/-- Roots being computed or ready for a state region (R269, R270): region handle and offset, the snapshot's statistic
matrices with their sides, the update that took it (graph, node, take), and the roots once complete. -/
structure RootJob where
  handle : BitVec 32
  off : Nat
  proot : Nat
  eps : BitVec 32
  tol : BitVec 32
  iters : Nat
  sides : List Nat
  task : Nat × Nat × Nat
  stats : List (List (BitVec 32))
  roots : Option (List (List (BitVec 32) × Bool × BitVec 64))
deriving DecidableEq, Repr

/-- One update die (R255, R269, R412). -/
structure UDie where
  inReset : Bool
  jobs : List RootJob
deriving DecidableEq, Repr

/-- A fabric port (R346 to R348). Its working lanes follow from the flash-held lane maps. For each of its sixteen virtual channels (R352,
R355): `credits` counts the credits it has returned to the link partner, `spent` its own sending credits in use, and `buf` is its buffer,
with the packets that wait while the port retrains. -/
structure Port where
  up : Bool
  retraining : Bool
  credits : Vector Nat 16
  spent : Vector Nat 16
  buf : Vector (List Packet) 16
deriving DecidableEq, Repr

/-- A switch plane (R349, R350, R354). -/
structure Plane where
  number : Option (BitVec 24)
  inService : Bool
  heldOut : Bool
  lost : Bool
deriving DecidableEq, Repr

/-- The fabric side (R345 to R354). `sent` holds the packets that wait for their acknowledgement, each with the plane and the port it went
out on, or none while no plane is in service; `seqs` the next sequence number of each channel, sender and destination; `acks` the
acknowledgements that the module's endpoints have sent: channel, sender of the packet, its destination, sequence number. -/
structure Fabric where
  ports : Vector (Vector Port 4) 8
  planes : Vector Plane 8
  number : Option (BitVec 24)
  turn : Nat
  seqs : List ((Nat × BitVec 32 × BitVec 32) × Nat)
  sent : List (Option (Nat × Nat) × Packet)
  acks : List (Nat × BitVec 32 × BitVec 32 × Nat)
  seen : List (Nat × BitVec 32 × BitVec 32 × Nat)
  delivered : List Packet
  reorder : List Packet
  paceOut : List PaceMsg
deriving DecidableEq, Repr

/-- A segment an I/O die holds for the ingest agent (R359); `lostHere` when only its header is kept. -/
structure Seg where
  io : Nat
  slate : Nat
  bytes : List Byte
  lostHere : Bool
deriving DecidableEq, Repr

/-- Ingest (R355 to R361). -/
structure Ingest where
  buf : List Seg
  consumed : Tbl Nat
  unrouted : List (BitVec 32 × Nat)
  parked : Tbl (Nat × Nat × Nat × Nat)
deriving DecidableEq, Repr

/-- Error counts and scheduled tests (R425 to R427, R437). `lanes` holds what the checks of a lane have counted within the last second: lane,
time, and flit checks or symbols (R425). `pendingMeas` holds the ceilings measured (die, site, operating point) that wait
for the site's task to end (R37, R39). -/
structure FaultSt where
  transient : Vector Nat 9
  lasting : Vector Nat 9
  recent : List (TestRes × Nat)
  lanes : List (TestRes × Nat × Nat)
  pendingTests : List TestRes
  pendingMeas : List (Nat × Nat × Nat)
deriving DecidableEq, Repr

/-- The module without its fuses, its time and the host's tally channel. `flash` is the copy of the flash-held data in force, `flashOld` the
other copy, or none when its CRC-32C does not hold, and `flashOpen` says that a write may still be under way (R418). `tally` holds the
firmware's tally channel and, after it, those of the compute dies (R419). `pressed` holds the owner, stage and training step of every STASH_PRESSURE raised (R217). -/
structure Mod where
  life : Life
  flash : Flash
  flashOld : Option Flash
  flashOpen : Bool
  tally : Vector TallyCh 13
  mbx : Mailbox
  recs : RecBuf
  msix : Msix
  host : HostSide
  pwr : Power
  ptb : Ptb
  mem : MemSys
  graphs : Tbl Graph
  slots : List Slot
  dies : Vector Die 12
  udies : Vector UDie 2
  fab : Fabric
  ing : Ingest
  flt : FaultSt
  pressed : List ((BitVec 32 × Nat) × BitVec 32)
  lateMax : BitVec 32
  lateCount : BitVec 32
  tick : Nat
deriving DecidableEq, Repr

/-- The module. `pending` is the queue of waiting commands, first in first out. `tally` is the host's tally channel (R419). -/
structure State where
  pending : List Instr
  fuses : Fuses
  time : TimeState
  tally : TallyCh
  mod : Mod
deriving DecidableEq, Repr

/-! The parts right after power good. -/

def TallyCh.cold : TallyCh :=
  { poly := false, run := 0, active := false, stale := false, expected := 0, value := 0, busy := false, waiting := [] }

def TimeState.cold : TimeState :=
  { keeper := Vector.replicate 8 ⟨0, 0, 0⟩, replica := Vector.replicate 12 ⟨0, 0, 0⟩,
    offsets := Vector.replicate 8 none, locked := false, holdover := false, source := false, ppsSeen := false, ppsTicks := 0,
    planes := 0, ppsEn := false, ppsEdge := false, ppsSlate := 0, offset := 0 }

def Life.cold : Life :=
  { powered := true, pwrEn := true, stage := 0, pstate := .run, entering := none, trip := false, test := false, startFailed := [],
    coldStart := true, waking := false }

def Flash.cold : Flash :=
  { defaultCap := 0x1DB0#16, tripRecord := none, aged := Vector.replicate 12 (Vector.replicate 66 7),
    siteOf := Vector.replicate 12 (Vector.range 64), lost := [], failedSites := [], arraySpare := [], padRows := [],
    gbRows := [], retired := Vector.replicate 32 [], repaired := [], mappedOut := [], bridgeSpares := [],
    degraded := [], laneSpares := [], laneFails := [], lpRows := Vector.replicate 2 0, pathDelay := List.replicate 20 0 }

def Mailbox.cold : Mailbox :=
  { queues := Vector.replicate 64 none, q0Cfg := 0, q0SqBase := 0, q0CqBase := 0, winHandle := 0,
    winOffset := 0, inService := none, turn := 63, regionCount := 1, graphCount := 1 }

def RecBuf.cold : RecBuf := { write := 0, read := 0, units := [] }

/-- The MSI-X table after reset: every vector masked (bit 0 of byte 12 of its entry), the rest zero (PRESUMED, log 7). -/
def Msix.cold : Msix :=
  { table := (List.range 128).map (fun v => (16 * v + 12, 1#8)), pba := 0, isOpen := 0, merged := 0 }

def HostSide.cold : HostSide := { mem := [], msgs := [], tlp := none, smbus := none, power := .d0, aer := 0 }

def PUnit.cold : PUnit :=
  { pref := 0x05B6D#18, capPoint := 7, junction := 7, fellFrom := 7, hot := false, above := false, hotReads := 0, coolReads := 0, tj := 0, power := 0,
    held := false }

def StackSt.cold : StackSt := { temp := 0, doubled := false, hot := false, coolReads := 0 }

/-- PWR_CTRL after cold start (R401): TONE_EN 0x3F, VGATE_US 0x0014, TONE_W 0x0FA0, the rest zero. -/
def Power.ctrlCold : Word := 0x000003F000140FA0#64

def Power.cold (cap : BitVec 16) : Power :=
  { ctrl := Power.ctrlCold, cap := cap, floor := 0, p1ms := 0, vin := 0, i10us := 0, duty := 8, unreachable := false,
    below := 0, frameStart := 0, units := Vector.replicate 14 PUnit.cold, hbmStacks := Vector.replicate 32 StackSt.cold,
    announced := [], group := 0, lastPace := none, daily := none, lastDaily := none }

def Ptb.cold : Ptb := { regs := Vector.replicate 6 0 }

def MemSys.cold : MemSys :=
  { regions := [], reels := [], marked := [], failedCh := [], pendingRetire := [], stalled := [] }

def NanRec.cold : NanRec := { armed := true, halt := false, count := 0, filled := none }

def TQueue.empty : TQueue := { entries := [], prod := .unbound, cons := .unbound }

def Tile.cold : Tile :=
  { owner := none, a := Vector.replicate 16 0, p := 0, lc := Vector.replicate 4 0, lrc := Vector.replicate 4 0,
    sd := Vector.replicate 32 0, ctr := Vector.replicate 4 0, vl := 0, long := false, vpin := false,
    v := Vector.replicate 32 0, acc := ⟨0, false, false, false⟩, chainNan := none, gateOn := false, imem := [],
    reelId := none, imemBad := false, imemSeen := false, pc := 0, loops := [], doneSeen := false, finished := false, suspended := false,
    reread := [], cutStop := false, cutHit := false, cutCount := 0, stopSlate := 0, nextPos := 0, nextXfer := 0, pad := ⟨[], [], []⟩,
    queues := Vector.replicate 16 TQueue.empty, arrayQ := [], mvQ := [], vecQ := [], qQ := [], dmas := [],
    accesses := [], loaded := false, active := none, shadow := none, carry := none, tone := false, outcome := none,
    fault := [], slotBind := [] }

def Die.cold : Die :=
  { inReset := false, cues := [], nan := NanRec.cold, tiles := Vector.replicate 64 Tile.cold }

def UDie.cold : UDie := { inReset := false, jobs := [] }

def Port.cold : Port :=
  { up := false, retraining := false, credits := Vector.replicate 16 0, spent := Vector.replicate 16 0, buf := Vector.replicate 16 [] }

def Plane.cold : Plane := { number := none, inService := false, heldOut := false, lost := false }

def Fabric.cold : Fabric :=
  { ports := Vector.replicate 8 (Vector.replicate 4 Port.cold), planes := Vector.replicate 8 Plane.cold,
    number := none, turn := 0, seqs := [], sent := [], acks := [], seen := [], delivered := [], reorder := [], paceOut := [] }

def Ingest.cold : Ingest := { buf := [], consumed := [], unrouted := [], parked := [] }

def FaultSt.cold : FaultSt :=
  { transient := Vector.replicate 9 0, lasting := Vector.replicate 9 0, recent := [], lanes := [], pendingTests := [],
    pendingMeas := [] }

def Mod.cold : Mod :=
  { life := Life.cold, flash := Flash.cold, flashOld := some Flash.cold, flashOpen := false, tally := Vector.replicate 13 TallyCh.cold,
    mbx := Mailbox.cold, recs := RecBuf.cold, msix := Msix.cold, host := HostSide.cold, pwr := Power.cold 0x1DB0#16, ptb := Ptb.cold, mem := MemSys.cold, graphs := [], slots := [],
    dies := Vector.replicate 12 Die.cold, udies := Vector.replicate 2 UDie.cold, fab := Fabric.cold,
    ing := Ingest.cold, flt := FaultSt.cold, pressed := [], lateMax := 0, lateCount := 0, tick := 0 }

/-- The module at power good: an F module of stepping 1 with a zero serial number (log 3), every register at its cold
value, no stage reached, the command queue empty. -/
def State.reset : State :=
  { pending := [], fuses := ⟨.f, 0x01#8, List.replicate 16 0, 0⟩, time := TimeState.cold, tally := TallyCh.cold, mod := Mod.cold }

end Sys2Proof.Machine
end

