-- ==== Sys2Proof/Machine/Ops.lean ====
section
/-! DEFINITION. The named operations over memory, tables, registers, records, interrupts and completions that every
meaning uses. -/

namespace Sys2Proof.Machine

/-! Vectors and lists. -/

/-- Change element `i` of a fixed-length vector. -/
def vmod {α : Type} {n : Nat} (v : Vector α n) (i : Fin n) (f : α → α) : Vector α n :=
  v.set i.val (f v[i.val]) i.isLt

/-- Element `i`, or `d` past the end. -/
def vget {α : Type} {n : Nat} (v : Vector α n) (i : Nat) (d : α) : α :=
  if h : i < n then v[i] else d

/-- Change element `i` if there is one. -/
def vmodN {α : Type} {n : Nat} (v : Vector α n) (i : Nat) (f : α → α) : Vector α n :=
  if h : i < n then v.set i (f v[i]) h else v

/-- Change element `i` of a list if there is one. -/
def lmod {α : Type} (l : List α) (i : Nat) (f : α → α) : List α :=
  match l, i with
  | [], _ => []
  | x :: xs, 0 => f x :: xs
  | x :: xs, i + 1 => x :: lmod xs i f

/-! Tables: keys in rising order (the canonical form of `Tbl.wf`). -/

/-- The value under a key. -/
def Tbl.find {α : Type} (t : Tbl α) (k : Nat) : Option α :=
  match t with
  | [] => none
  | (k', v) :: r => if k = k' then some v else Tbl.find r k

/-- Put a value under a key, in key order. -/
def Tbl.put {α : Type} (t : Tbl α) (k : Nat) (v : α) : Tbl α :=
  match t with
  | [] => [(k, v)]
  | (k', v') :: r => if k < k' then (k, v) :: (k', v') :: r else if k = k' then (k, v) :: r else (k', v') :: Tbl.put r k v

/-- Remove a key. -/
def Tbl.del {α : Type} (t : Tbl α) (k : Nat) : Tbl α :=
  match t with
  | [] => []
  | (k', v') :: r => if k = k' then r else (k', v') :: Tbl.del r k

/-- Change the value under a key if there is one. -/
def Tbl.upd {α : Type} (t : Tbl α) (k : Nat) (f : α → α) : Tbl α :=
  match Tbl.find t k with
  | none => t
  | some v => Tbl.put t k (f v)

/-- Keys strictly rising. -/
def Tbl.wf {α : Type} (t : Tbl α) : Bool :=
  match t with
  | [] => true
  | (k, _) :: r => (match r with | [] => true | (k', _) :: _ => decide (k < k')) && Tbl.wf r

/-! Byte memory. -/

/-- Read one byte; an unlisted address reads as zero. -/
def Mem.read (m : Mem) (a : Nat) : Byte := (Tbl.find m a).getD 0

/-- Write one byte. Writing zero removes the entry, so equal memories are equal data. -/
def Mem.write (m : Mem) (a : Nat) (b : Byte) : Mem := if b = 0 then Tbl.del m a else Tbl.put m a b

/-- Read `n` bytes from `a` upward. -/
def Mem.readN (m : Mem) (a n : Nat) : List Byte := (List.range n).map (fun i => Mem.read m (a + i))

/-- Write a list of bytes from `a` upward. -/
def Mem.writeN (m : Mem) (a : Nat) (bs : List Byte) : Mem :=
  match bs with
  | [] => m
  | b :: r => Mem.writeN (Mem.write m a b) (a + 1) r

/-- The canonical form: addresses strictly rising, no zero byte listed. -/
def Mem.wf (m : Mem) : Bool := Tbl.wf m && m.all (fun c => decide (c.2 ≠ 0))

/-! Little-endian fields (R8). -/

/-- The number a byte list spells, low byte first. -/
def leNat (bs : List Byte) : Nat :=
  match bs with
  | [] => 0
  | b :: r => b.toNat + 256 * leNat r

/-- The `n` low bytes of a number, low byte first. -/
def natLe (n x : Nat) : List Byte :=
  match n with
  | 0 => []
  | n + 1 => BitVec.ofNat 8 x :: natLe n (x / 256)

/-- A field of `n` bytes at offset `o` of a byte list; bytes past the end read as zero. -/
def fieldAt (bs : List Byte) (o n : Nat) : Nat := leNat ((List.range n).map (fun i => bs.getD (o + i) 0))

/-- Bytes `o` to `o + n - 1` of a list, zero past the end. -/
def slice (bs : List Byte) (o n : Nat) : List Byte := (List.range n).map (fun i => bs.getD (o + i) 0)

/-- A list cut or zero-filled to `n` bytes. -/
def padTo (n : Nat) (bs : List Byte) : List Byte := slice bs 0 n

/-- Whether every byte of a range is zero. -/
def zeroAt (bs : List Byte) (o n : Nat) : Bool := fieldAt bs o n == 0

/-- Bits `[hi:lo]` of a number. -/
def bits (x hi lo : Nat) : Nat := x / 2 ^ lo % 2 ^ (hi + 1 - lo)

/-- Bit `i` of a number. -/
def bitAt (x i : Nat) : Bool := x / 2 ^ i % 2 == 1

/-- A number read as signed two's complement of width `w`. -/
def signed (w x : Nat) : Int := if 2 ^ (w - 1) ≤ x % 2 ^ w then (x % 2 ^ w : Int) - 2 ^ w else (x % 2 ^ w : Int)

/-- Saturating sum in `w` bits. -/
def satAdd (w a b : Nat) : Nat := min (a + b) (2 ^ w - 1)

/-- Round up to a multiple. -/
def roundUp (x m : Nat) : Nat := (x + m - 1) / m * m

/-- Quotient rounded up. -/
def ceilDiv (x m : Nat) : Nat := (x + m - 1) / m

/-- Write the part of a 64-bit register that an access reaches (R305). -/
def mergePart (part : RegPart) (old v : Word) : Word :=
  match part with
  | .whole => v
  | .low => (old &&& 0xFFFFFFFF00000000#64) ||| (v &&& 0xFFFFFFFF#64)
  | .high => (old &&& 0xFFFFFFFF#64) ||| (v <<< 32)

/-! Cyclic redundancy checks (R420): reflected, low bit first. -/

/-- Reverse the low `w` bits. -/
def reflectBits (w x : Nat) : Nat :=
  match w with
  | 0 => 0
  | w + 1 => x % 2 * 2 ^ w + reflectBits w (x / 2)

/-- `k` shift steps of the reflected register. -/
def crcBits (poly k v : Nat) : Nat :=
  match k with
  | 0 => v
  | k + 1 => crcBits poly k (if v % 2 = 1 then Nat.xor (v / 2) poly else v / 2)

/-- One byte into the running value. -/
def crcByte (poly v : Nat) (b : Byte) : Nat := crcBits poly 8 (Nat.xor v b.toNat)

/-- The polynomials of R420 in reflected form. -/
def crcPoly (poly : Bool) : Nat :=
  if poly then reflectBits 64 0x42F0E1EBA9EA3693 else reflectBits 32 0x1EDC6F41

/-- Initial value and final XOR of R420. -/
def crcOnes (poly : Bool) : Nat := if poly then 2 ^ 64 - 1 else 2 ^ 32 - 1

/-- Bytes into a running value. -/
def crcFeed (poly : Bool) (v : Nat) (bs : List Byte) : Nat :=
  let p := crcPoly poly
  bs.foldl (crcByte p) v

/-- The whole check value of a byte list. -/
def crcOf (poly : Bool) (bs : List Byte) : Nat := Nat.xor (crcFeed poly (crcOnes poly) bs) (crcOnes poly)

/-- CRC-32C, used for command entries (R312), reel images (R90) and ingest segments (R356). -/
def crc32c (bs : List Byte) : Nat := crcOf false bs

/-- CRC-64/XZ, used for structure fingerprints (R249). -/
def crc64 (bs : List Byte) : Nat := crcOf true bs

/-! The tally channels (R419 to R423). -/

/-- A channel of the module: 0 the host's, 1 the firmware's, 2 to 13 those of the compute dies (R419). -/
def State.channel (s : State) (i : Nat) : TallyCh :=
  if i = 0 then s.tally else vget s.mod.tally (i - 1) TallyCh.cold

/-- TLY_VALUE as it reads: 32 bits with POLY 0 (R420). -/
def TallyCh.shown (c : TallyCh) : Word := if c.poly then c.value else c.value &&& 0xFFFFFFFF#64

/-- TLY_FINAL: the running value with the final XOR (R420, R424). -/
def TallyCh.final (c : TallyCh) : Word := c.shown ^^^ (if c.poly then 0xFFFFFFFFFFFFFFFF#64 else 0xFFFFFFFF#64)

/-- A check that firmware makes on a channel of its own: a START with the counter that the channel expects, every byte fed and absorbed
(R421 to R423). TLY_FINAL is then the check value. -/
def TallyCh.check (poly : Bool) (bs : List Byte) (c : TallyCh) : TallyCh :=
  { c with expected := c.expected + 1, run := c.expected, active := true, poly := poly,
           value := BitVec.ofNat 64 (crcFeed poly (crcOnes poly) bs), busy := false, waiting := [] }

/-! Status codes. -/

/-- The 16-bit code of each status, as its rule gives it. -/
def Status.code (s : Status) : Nat :=
  match s with
  | .ok => 0x0000 | .okWithNotes => 0x0001 | .hostNote => 0x0002
  | .badDescriptor => 0x0101 | .engineAbsent => 0x0102 | .quotaTooSmall => 0x0103 | .slotsExceeded => 0x0104
  | .reelCheckFailed => 0x0105 | .capacityExceeded => 0x0106
  | .partialFault => 0x0201 | .takeLimit => 0x0202 | .lateCue => 0x0203 | .cutPointReached => 0x0204
  | .aborted => 0x0205 | .badStream => 0x0206 | .tileStall => 0x0207 | .badOperation => 0x0208
  | .arrayResidue => 0x0209 | .predecessorFailed => 0x020A | .tileLost => 0x020B | .dieRestarted => 0x020C
  | .siteFailed => 0x020D
  | .nanFirst => 0x0301 | .gradientSilent => 0x0302 | .flushHeavy => 0x0303 | .frozenSkipped => 0x0304
  | .resultOverflow => 0x0305 | .rootUnconverged => 0x0306 | .switchNan => 0x0307 | .thinNonfinite => 0x0308
  | .zeroPivot => 0x0401 | .tinyPivot => 0x0402 | .pivotOverflow => 0x0403 | .iterCap => 0x0404
  | .warmStartDiscarded => 0x0405 | .notPositive => 0x0406 | .breakdown => 0x0407
  | .actPoison => 0x0501 | .stashPressure => 0x0502 | .channelRetired => 0x0503 | .pageRetired => 0x0504
  | .scratchUncorrectable => 0x0505 | .slowUncorrectable => 0x0506 | .noSpace => 0x0507
  | .hbmUncorrectable => 0x0508 | .migrationStalled => 0x0509 | .hbmHot => 0x050A
  | .linkLaneSpared => 0x0601 | .planeLost => 0x0602 | .ingestGap => 0x0603 | .timeHoldover => 0x0604
  | .portDegraded => 0x0605 | .ingestUnrouted => 0x0606 | .planeRestored => 0x0607 | .addressConflict => 0x0608
  | .collectiveMismatch => 0x0609 | .collectiveAbandoned => 0x060A | .bridgeDegraded => 0x060B
  | .timeStepped => 0x060C
  | .capClamped => 0x0701 | .capUnreachable => 0x0702 | .paceFollow => 0x0703 | .ceilingLowered => 0x0704
  | .coreUndervolt => 0x0705 | .thermalLimit => 0x0706 | .thermalTrip => 0x0707 | .paceLapsed => 0x0708
  | .aliveStale => 0x0801 | .timeSetRefused => 0x0802 | .graphUnknown => 0x0803 | .cmdCrcFailed => 0x0804
  | .badCommand => 0x0805 | .contextDenied => 0x0806 | .notReady => 0x0807 | .objectBusy => 0x0808
  | .objectUnknown => 0x0809 | .graphsPending => 0x080A | .queueInvalid => 0x080B | .dieReset => 0x080C
  | .moduleReset => 0x080D | .startFailed => 0x080E | .selfTest => 0x0810
  | .engineFault => Config.engineFaultCode.toNat

/-- A completion that R290 counts as a success. -/
def Status.success (s : Status) : Bool :=
  match s with
  | .ok | .okWithNotes | .lateCue => true
  | _ => false

/-! What a meaning over the module reads and does not change: its fuses and its time. -/

/-- Fuses and time, read only. -/
structure Env where
  fuses : Fuses
  time : TimeState

/-- A command that changes the module and neither fuses, time, tally channels nor the command queue. -/
def runMod (f : Env → Mod → Mod) (s : State) : Host.Outcome State Fault Refusal :=
  .next { s with mod := f ⟨s.fuses, s.time⟩ s.mod }

/-- The 64-bit count a count of femtoseconds reads as (R47, R48: the integer part, in ns). -/
def TCount.ns (c : TCount) : Nat := c.fs / 1000000 % 2 ^ 64

/-- Slate of the IO0 keeper (R55). -/
def Env.now (e : Env) : Nat := (e.time.keeper[0]).ns

/-- Slate of compute die `d`'s replica (R55). -/
def Env.dieNow (e : Env) (d : Nat) : Nat := TCount.ns (vget e.time.replica d ⟨0, 0, 0⟩)

/-- Slate of an I/O die's keeper. -/
def Env.ioNow (e : Env) (io : Nat) : Nat := TCount.ns (vget e.time.keeper io ⟨0, 0, 0⟩)

/-- Slate of a unit: 0 to 11 compute dies; 12 and 13 the update dies, which C0 and C5 slate (R55). -/
def Env.unitNow (e : Env) (k : Nat) : Nat := e.dieNow (if k = 12 then 0 else if k = 13 then 5 else k)

/-- I/O sites that carry an I/O die (R15, R18). -/
def Grade.hasIo (g : Grade) (io : Nat) : Bool :=
  match g with
  | .m => io == 0 || io == 1 || io == 4 || io == 5
  | _ => decide (io < 8)

/-- HBM stacks a module of the grade carries (R18). -/
def Grade.hbmStacks (g : Grade) : Nat := match g with | .m => 32 | _ => 24

/-- Engines that the L grade has fused off (R18). -/
def Grade.hasFp64Engines (g : Grade) : Bool := match g with | .l => false | _ => true

/-- The compute die that hosts a stack (R12, R15). -/
def hostDie (st : Nat) : Nat :=
  if st < 24 then st / 2 else if st < 26 then 0 else if st < 28 then 6 else if st < 30 then 5 else 11

/-! Resource IDs (R429). -/

/-- Endpoint, kind, index. -/
def resId (endpoint kind index : Nat) : BitVec 32 := BitVec.ofNat 32 (endpoint * 2 ^ 24 + kind * 2 ^ 16 + index)

/-- Endpoint of a unit: compute dies 0x00 to 0x0B, update dies 0x10 and 0x11 (R351). -/
def unitEndpoint (k : Nat) : Nat := if k < 12 then k else 0x10 + (k - 12)

/-- Resource ID of a die itself. -/
def dieRes (k : Nat) : BitVec 32 := resId (unitEndpoint k) 0 0

/-- Resource ID of the management processor. -/
def mgmtRes : BitVec 32 := resId 0x1F 0 0

/-- Resource ID of an I/O die. -/
def ioRes (io : Nat) : BitVec 32 := resId (0x20 + io) 0 0

/-! Interrupts (R325). -/

/-- Whether vector `v` is masked in the MSI-X table (bit 0 of byte 12 of its 16-byte entry). -/
def Msix.masked (x : Msix) (v : Nat) : Bool := (Mem.read x.table (16 * v + 12)).getLsbD 0

/-- Send vector `v`, or set its pending bit while it is masked. -/
def Mod.sendVector (m : Mod) (v : Nat) : Mod :=
  if m.msix.masked v then { m with msix := { m.msix with pba := m.msix.pba ||| (1#128 <<< v) } }
  else { m with host := { m.host with msgs := m.host.msgs ++ [v] } }

/-- Raise vector `v`: sent at once and its 10 µs interval opened, or merged into the running interval (R325). -/
def Mod.raise (m : Mod) (v : Nat) : Mod :=
  if m.msix.isOpen.getLsbD v then { m with msix := { m.msix with merged := m.msix.merged ||| (1#128 <<< v) } }
  else
    let m := m.sendVector v
    { m with msix := { m.msix with isOpen := m.msix.isOpen ||| (1#128 <<< v) } }

/-- An access that the function does not take is answered with an Unsupported Request, which its error reporting records in bit 20 of the
uncorrectable error status (R304, R305; PRESUMED from PCIe, log 54). -/
def Mod.unsupported (m : Mod) : Mod := { m with host := { m.host with tlp := some .unsupported, aer := m.host.aer ||| 0x100000#32 } }

/-! Flash-held data (R417, R418). -/

/-- A write of flash-held data: it goes to the copy that is not in force, which is in force from then on; the former copy stays beside it
(R418). -/
def Mod.writeFlash (m : Mod) (f : Flash → Flash) : Mod := { m with flash := f m.flash, flashOld := some m.flash, flashOpen := true }

/-- Power is gone. Where that interrupts a write, the CRC-32C of the copy written does not hold, and the previous copy is in force (R418). -/
def Mod.flashLoss (cut : Bool) (m : Mod) : Mod :=
  match m.flashOld with
  | some f => if cut && m.flashOpen then { m with flash := f, flashOld := none, flashOpen := false } else { m with flashOpen := false }
  | none => { m with flashOpen := false }

/-! Event records (R322, R323). -/

/-- The 64 bytes of an event record (R322). -/
def recBytes (slate : Nat) (code : Status) (res : BitVec 32) (task take : Nat) (detail : List Byte) (ext : Nat) :
    List Byte :=
  natLe 8 slate ++ natLe 2 code.code ++ natLe 4 res.toNat ++ natLe 6 task ++ natLe 1 (min take 255) ++
    padTo 42 detail ++ natLe 1 ext

/-- Append units to the record buffer; the oldest are overwritten past 262,144 (R323). -/
def RecBuf.push (r : RecBuf) (ctx : Option (BitVec 32)) (units : List (List Byte)) (ext : Nat) : RecBuf :=
  let new := units.mapIdx (fun i b => { seq := r.write + i, head := i == 0, ext := ext, ctx := ctx, bytes := b })
  let w := r.write + units.length
  { r with write := w, units := (r.units ++ new).filter (fun u => decide (w ≤ u.seq + Config.recUnits)) }

/-- Units that the host has not consumed. -/
def RecBuf.unread (r : RecBuf) : Nat := r.write - r.read.toNat

/-- Vector 64 is raised when the unread units reach 196,608 (R325). `before` is their count before the change. -/
def Mod.recFull (m : Mod) (before : Nat) : Mod :=
  if before < 196608 && decide (196608 ≤ m.recs.unread) then m.raise 64 else m

/-- Vectors a written record raises: 64 for a full buffer, 66 for the power class (R325). -/
def Mod.recVectors (m : Mod) (before : Nat) (code : Status) : Mod :=
  let m := m.recFull before
  if code.code / 256 = 7 then m.raise 66 else m

/-- Write an event record with extension units. -/
def Mod.eventExt (m : Mod) (slate : Nat) (code : Status) (res : BitVec 32) (task take : Nat) (detail : List Byte)
    (ctx : Option (BitVec 32)) (extra : List (List Byte)) : Mod :=
  let head := recBytes slate code res task take detail extra.length
  ({ m with recs := m.recs.push ctx (head :: extra) extra.length }).recVectors m.recs.unread code

/-- Write a plain event record. -/
def Mod.event (m : Mod) (slate : Nat) (code : Status) (res : BitVec 32) (task take : Nat) (detail : List Byte)
    (ctx : Option (BitVec 32)) : Mod :=
  m.eventExt slate code res task take detail ctx []

/-- An event of a unit, with no task. -/
def Mod.unitEvent (m : Mod) (slate : Nat) (code : Status) (res : BitVec 32) (detail : List Byte) : Mod :=
  m.event slate code res 0 0 detail none

/-! Completions (R311, R314, R318). -/

/-- Entries of a ring. -/
def ringSize (log2 : Nat) : Nat := 2 ^ log2

/-- Whether a completion ring has no free entry. One entry is always left free, or a full ring would read as an empty
one (DEDUCED, log 10). -/
def HQueue.full (q : HQueue) : Bool :=
  decide ((q.cqTail + 1) % ringSize q.log2Cq = q.cqHead % ringSize q.log2Cq)

/-- The 32 bytes of a completion entry, with PHASE clear (R314). -/
def complBytes (slate : Nat) (st : Status) (sqid sqHead : Nat) (alive : BitVec 8) (flags : Nat) (ctx : BitVec 32)
    (result : List Byte) : List Byte :=
  natLe 8 slate ++ natLe 2 st.code ++ natLe 2 sqid ++ natLe 2 sqHead ++ [alive] ++ natLe 1 flags ++ natLe 4 ctx.toNat ++
    padTo 12 result

/-- Put a completion into the ring: PHASE is set into bit 0 of byte 0x0F, the ring index advances, and the phase turns
over at the end of each pass (R310). -/
def HQueue.write (q : HQueue) (mem : Mem) (entry : List Byte) : HQueue × Mem :=
  let e := lmod entry 15 (fun b => if q.phase then b ||| 1#8 else b)
  let addr := q.cqBase.toNat + q.cqTail * 32
  let next := (q.cqTail + 1) % ringSize q.log2Cq
  ({ q with cqTail := next, phase := if next = 0 then !q.phase else q.phase }, Mem.writeN mem addr e)

/-- Raise the vector of a queue: completions go out on vectors 0 to 63 (R325). -/
def Mod.raiseQueue (m : Mod) (v : Nat) : Mod := if v < 64 then m.raise v else m

/-- Post a completion to queue `n`, or hold it while the ring is full (R311). -/
def Mod.post (m : Mod) (n : Nat) (entry : List Byte) (irq : Bool) : Mod :=
  match vget m.mbx.queues n none with
  | none => m
  | some q =>
    if q.full || !q.held.isEmpty then
      { m with mbx := { m.mbx with queues := vmodN m.mbx.queues n (fun _ => some { q with held := q.held ++ [(irq, entry)] }) } }
    else
      let r := q.write m.host.mem entry
      let m := { m with mbx := { m.mbx with queues := vmodN m.mbx.queues n (fun _ => some r.1) },
                        host := { m.host with mem := r.2 } }
      if irq then m.raiseQueue q.vector else m

/-- Give a completion entry the slate at which it is written (R314). -/
def restamp (slate : Nat) (entry : List Byte) : List Byte := natLe 8 slate ++ entry.drop 8

/-- Write held completions while the ring has room, oldest first, each with the slate of its writing (R311, R314). -/
def HQueue.drain (slate k : Nat) (q : HQueue) (mem : Mem) : HQueue × Mem :=
  match k with
  | 0 => (q, mem)
  | k + 1 =>
    match q.held with
    | [] => (q, mem)
    | e :: r =>
      if q.full then (q, mem)
      else
        let w := HQueue.write { q with held := r } mem (restamp slate e.2)
        HQueue.drain slate k w.1 w.2

/-! Regions (R308, R316, R329, R335). -/

/-- Whether an address of a region lies in an undefined range; the tag its free value is applied to. -/
def undefTag (u : List Undef) (a : Nat) : Option Nat :=
  match u with
  | [] => none
  | r :: rs => if r.lo ≤ a && a < r.lo + r.len then some r.tag else undefTag rs a

/-- Read one byte of a region. -/
def Region.read (r : Region) (a : Nat) : Byte :=
  match undefTag r.undef a with
  | some t => Config.freeByte t a
  | none => Mem.read r.bytes a

/-- Read `n` bytes of a region. -/
def Region.readN (r : Region) (a n : Nat) : List Byte := (List.range n).map (fun i => r.read (a + i))

/-- Take a written range out of the undefined ranges. -/
def cutUndef (lo len : Nat) (u : List Undef) : List Undef :=
  u.flatMap (fun r =>
    let a := { r with len := min r.len (lo - r.lo) }
    let top := max r.lo (lo + len)
    let b := { r with lo := top, len := r.lo + r.len - top }
    if r.lo + r.len ≤ lo || lo + len ≤ r.lo then [r]
    else (if a.len = 0 then [] else [a]) ++ (if b.len = 0 then [] else [b]))

/-- Lines wholly inside `[lo, lo + len)`: a write of all 64 bytes of a line clears its poison (R335). -/
def coveredLine (lo len l : Nat) : Bool := decide (lo ≤ l * 64) && decide (l * 64 + 64 ≤ lo + len)

/-- Whether a line holds a byte of `[a, a + n)`. -/
def lineMeets (a n l : Nat) : Bool := decide (l * 64 < a + n) && decide (a < l * 64 + 64) && decide (0 < n)

/-- Write bytes into a region; those past its length are dropped. -/
def Region.writeN (r : Region) (a : Nat) (bs : List Byte) : Region :=
  let bs := bs.take (r.len - a)
  { r with bytes := Mem.writeN r.bytes a bs, undef := cutUndef a bs.length r.undef,
           poison := r.poison.filter (fun l => !coveredLine a bs.length l),
           replayed := r.replayed.filter (fun l => !lineMeets a bs.length l) }

/-- Whether any line of a byte range is poisoned (R329). -/
def Region.poisoned (r : Region) (a n : Nat) : Bool := r.poison.any (lineMeets a n)

/-- Mark a byte range undefined (R302, R303). -/
def Region.forget (r : Region) (a n tag : Nat) : Region :=
  if n = 0 then r else { r with undef := ⟨a, n, tag⟩ :: cutUndef a n r.undef }

/-- The region under a handle. -/
def Mod.region (m : Mod) (h : BitVec 32) : Option Region := Tbl.find m.mem.regions h.toNat

/-- Change a region. -/
def Mod.updRegion (m : Mod) (h : BitVec 32) (f : Region → Region) : Mod :=
  { m with mem := { m.mem with regions := Tbl.upd m.mem.regions h.toNat f } }

/-- Bytes of a region entry of a node (R284), from offset `o` of the entry. -/
def Mod.entRead (m : Mod) (r : RegEnt) (o n : Nat) : List Byte :=
  match m.region r.handle with
  | none => List.replicate n 0
  | some g => g.readN (r.off + o) n

/-- Write bytes into a region entry. -/
def Mod.entWrite (m : Mod) (r : RegEnt) (o : Nat) (bs : List Byte) : Mod :=
  m.updRegion r.handle (fun g => g.writeN (r.off + o) bs)

/-- The lines that a write of whole ranges of OUT entries has covered are in error no more (R335): the element writes of a part, or the entries of a transfer,
make one write of its range. -/
def Mod.heal (m : Mod) (r : RegEnt) (o n : Nat) : Mod :=
  m.updRegion r.handle (fun g => { g with poison := g.poison.filter (fun l => !coveredLine (r.off + o) n l) })

/-- Whether a page is out of reach: its channel has failed (ACT), or both channels of its pair have (PERSIST) (R328, R341). -/
def PageLoc.gone (failed : List (Nat × Nat)) (act : Bool) (p : PageLoc) : Bool :=
  if act then failed.contains (p.stack, 2 * p.pair + p.half)
  else failed.contains (p.stack, 2 * p.pair) && failed.contains (p.stack, 2 * p.pair + 1)

/-- Whether a byte range of a region meets a page that failed channels have put out of reach (R341). -/
def Region.inFailed (failed : List (Nat × Nat)) (r : Region) (a n : Nat) : Bool :=
  decide (0 < n) && !failed.isEmpty &&
    (List.range ((a + n - 1) / Config.pageBytes + 1 - a / Config.pageBytes)).any (fun i =>
      match r.pages[a / Config.pageBytes + i]? with
      | some p => p.gone failed (r.cls == .act)
      | none => false)

/-- Whether a byte range of a region lies in a line in error, as the host's window sees it (R308, R329, R341). -/
def Mod.regPoisoned (m : Mod) (g : Region) (a n : Nat) : Bool := g.poisoned a n || g.inFailed m.mem.failedCh a n

/-- Lines of a byte range that are in error, by poison or by a failed channel, and that no replay has made good (R220). -/
def Region.badLines (failed : List (Nat × Nat)) (r : Region) (a n : Nat) : List Nat :=
  (r.poison.filter (fun l => lineMeets a n l && !r.replayed.contains l)) ++
    (if r.inFailed failed a n then
      ((List.range ((a + n - 1) / 64 + 1 - a / 64)).map (fun i => a / 64 + i)).filter (fun l =>
        r.inFailed failed (l * 64) 64 && !r.replayed.contains l && !r.poison.contains l)
     else [])

/-- Whether a node's read of a byte range of an ACT region entry meets an error that no replay has made good (R220, R329, R341). -/
def Mod.entPoisoned (m : Mod) (r : RegEnt) (o n : Nat) : Bool :=
  match m.region r.handle with
  | none => false
  | some g => g.cls == .act && !(g.badLines m.mem.failedCh (r.off + o) n).isEmpty

/-- The first line of a byte range of a PERSIST region entry that cannot be decoded (R328, R336). -/
def Mod.entLost (m : Mod) (r : RegEnt) (o n : Nat) : Option Nat :=
  match m.region r.handle with
  | none => none
  | some g => if g.cls = .persist then (g.badLines m.mem.failedCh (r.off + o) n).head? else none

/-! Handles (R292, R316). -/

/-- The next value of a handle count that is neither zero, all ones nor in use, from `c` on. -/
def nextHandle (fuel width c : Nat) (ones : Bool) (used : Nat → Bool) : Nat :=
  match fuel with
  | 0 => c
  | fuel + 1 =>
    let c := c % 2 ^ width
    if c = 0 || (ones && c = 2 ^ width - 1) || used c then nextHandle fuel width (c + 1) ones used else c

/-! Dies, tiles, graphs, nodes. -/

def Mod.updDie (m : Mod) (d : Fin 12) (f : Die → Die) : Mod := { m with dies := vmod m.dies d f }

def Mod.tile (m : Mod) (d : Fin 12) (t : Fin 64) : Tile := (m.dies[d.val]).tiles[t.val]

def Mod.updTile (m : Mod) (d : Fin 12) (t : Fin 64) (f : Tile → Tile) : Mod :=
  m.updDie d (fun x => { x with tiles := vmod x.tiles t f })

def Mod.updUnit (m : Mod) (k : Fin 14) (f : PUnit → PUnit) : Mod :=
  { m with pwr := { m.pwr with units := vmod m.pwr.units k f } }

def Mod.updGraph (m : Mod) (g : Nat) (f : Graph → Graph) : Mod := { m with graphs := Tbl.upd m.graphs g f }

def Mod.updRun (m : Mod) (g n : Nat) (f : NRun → NRun) : Mod :=
  m.updGraph g (fun x => { x with run := lmod x.run n f })

/-- A node that has not started (R294). -/
def NRun.fresh : NRun :=
  { phase := .held, take := 0, counted := 0, grace := false, poisons := 0, blame := [], notes := [], start := 0, late := none,
    cued := [], cuedIn := [], on := [], taken := [], begun := [], parts := [], outcome := none, detail := [], committed := false, issued := [],
    completed := [], reelOn := [], tscale := 0, counts := [], contrib := [], written := [] }

/-- A node that no table holds, with every field zero. -/
def Node.blank : Node :=
  { ty := 0, phase := 0, takes := 0, flags := 0, mb := 0xFFFF, stage := 0xFF, block := 0xFF, reel := 0, dieMask := 0,
    udie := 0xFF, nslot := 0, tileMask := 0, cueT := 0, param := [], regs := [], reservedOk := true }

def Graph.node (g : Graph) (n : Nat) : Node := g.nodes.getD n Node.blank

def Graph.runOf (g : Graph) (n : Nat) : NRun := g.run.getD n NRun.fresh

/-- Task ID: graph handle in bits [47:24], node index in [23:0] (R292). -/
def taskId (g n : Nat) : Nat := g * 2 ^ 24 + n

/-- Dies of a mask, ascending. -/
def maskDies (mask : BitVec 16) : List (Fin 12) := (List.finRange 12).filter (fun d => mask.getLsbD d.val)

/-- Logical tiles of a mask, ascending. -/
def maskTiles (mask : BitVec 64) : List (Fin 64) := (List.finRange 64).filter (fun t => mask.getLsbD t.val)

/-- The tile set of a node in rank order: ascending die, then ascending logical tile (R285). -/
def Node.tiles (n : Node) : List (Fin 12 × Fin 64) :=
  (maskDies n.dieMask).flatMap (fun d => (maskTiles n.tileMask).map (fun t => (d, t)))

/-- Type code of a COPY (R285). -/
def tyCopy : Nat := 0x03

/-- Dies that a node occupies, ascending: a COPY the first of its DIEMASK, any other type all of them (R285). -/
def Node.dies (n : Node) : List Nat :=
  let l := (maskDies n.dieMask).map (fun d => d.val)
  if n.ty = tyCopy then l.take 1 else l

/-- Region entry `i` of a node; an unused entry where there is none. -/
def Node.reg (n : Node) (i : Nat) : RegEnt := n.regs.getD i ⟨0, 0xFF#8, 0, 0⟩

/-- Whether a graph has an unfinished node. -/
def NRun.isDone (r : NRun) : Bool := match r.phase with | .done _ => true | _ => false

def NRun.isRunning (r : NRun) : Bool := match r.phase with | .running => true | _ => false

/-- Advance the counter that free values are applied to (log 2). -/
def Mod.nextTick (m : Mod) : Mod := { m with tick := m.tick + 1 }

/-! Errors and their tests (R426). -/

/-- Fabric time of 24 hours, in ns. -/
def dayNs : Nat := 86400000000000

/-- An error of a resource: counted, and its targeted test scheduled unless one is pending (R426). -/
def Mod.noteError (e : Env) (m : Mod) (r : TestRes) : Mod :=
  { m with flt.recent := (m.flt.recent.filter (fun x => decide (e.now < x.2 + dayNs))) ++ [(r, e.now)],
           flt.pendingTests := if m.flt.pendingTests.contains r then m.flt.pendingTests else m.flt.pendingTests ++ [r] }

/-- Fabric time of one second, in ns. -/
def secNs : Nat := 1000000000

/-- The checks of a lane have met `k` errors more: once there have been more than `limit` within a second the lane counts as in error, and
the count begins anew (R425; DESIGN CHOICE, log 30: the spec does not say when a further error of the lane is detected). -/
def Mod.countLane (e : Env) (m : Mod) (r : TestRes) (k limit : Nat) : Mod :=
  let l := m.flt.lanes.filter (fun x => decide (e.now < x.2.1 + secNs))
  if limit < (l.filter (fun x => x.1 == r)).foldl (fun acc x => acc + x.2.2) k then
    ({ m with flt.lanes := l.filter (fun x => x.1 != r) }).noteError e r
  else { m with flt.lanes := l ++ [(r, e.now, k)] }

end Sys2Proof.Machine
end

