-- ==== Sys2Proof/Machine/Numerics.lean ====
section
/-! DEFINITION. Number formats, exact values and rounding (08_numerics: R168 to R184). A value is decoded to an exact
number, arithmetic is exact, and one rounding ends each operation. -/

namespace Sys2Proof.Machine

/-- A floating-point format (R168, R182): exponent and fraction bits, bias, whether it has infinities, and its NaNs:
0 none, 1 the IEEE pattern, 2 the all-ones code only. -/
structure FSpec where
  ebits : Nat
  fbits : Nat
  bias : Nat
  inf : Bool
  nans : Nat
deriving DecidableEq, Repr

/-- An exact value: NaN, an infinity, or ±m·2^e. -/
inductive FVal where
  | nan
  | inf (neg : Bool)
  | fin (neg : Bool) (m : Nat) (e : Int)
deriving DecidableEq, Repr

def fp64 : FSpec := ⟨11, 52, 1023, true, 1⟩
def fp32 : FSpec := ⟨8, 23, 127, true, 1⟩
def bf16 : FSpec := ⟨8, 7, 127, true, 1⟩
def fp16 : FSpec := ⟨5, 10, 15, true, 1⟩
def e4m3 : FSpec := ⟨4, 3, 7, false, 2⟩
def e5m2 : FSpec := ⟨5, 2, 15, true, 1⟩
def e3m2 : FSpec := ⟨3, 2, 3, false, 0⟩
def e2m3 : FSpec := ⟨2, 3, 1, false, 0⟩
def e2m1 : FSpec := ⟨2, 1, 1, false, 0⟩
/-- GW48 of the gradient buffer (R182). -/
def gw48 : FSpec := ⟨8, 39, 127, true, 1⟩

/-- The format a 4-bit code names (R100); integer codes have no entry of their own. -/
def fmtSpec (code : Nat) : FSpec :=
  match code with
  | 0 => fp64 | 1 => fp32 | 2 => bf16 | 3 => fp16 | 4 => e4m3 | 5 => e5m2 | 6 => e3m2 | 7 => e2m3 | _ => e2m1

/-- Element width in bits of a format code (R100, R168). -/
def fmtBits (code : Nat) : Nat :=
  match code with
  | 0 => 64 | 1 => 32 | 2 => 16 | 3 => 16 | 4 => 8 | 5 => 8 | 6 => 6 | 7 => 6 | 8 => 4 | 9 => 32 | _ => 16

/-- The MX element formats (R100, R116). -/
def isMx (code : Nat) : Bool := decide (4 ≤ code) && decide (code ≤ 8)

/-- The integer formats. -/
def isInt (code : Nat) : Bool := code == 9 || code == 10

def FSpec.width (f : FSpec) : Nat := 1 + f.ebits + f.fbits

/-- Largest finite magnitude as significand and exponent (R168). -/
def FSpec.maxFin (f : FSpec) : Nat × Int :=
  let top : Nat := if f.nans = 1 then 2 ^ f.ebits - 2 else 2 ^ f.ebits - 1
  let m : Nat := if f.nans = 2 then 2 ^ (f.fbits + 1) - 2 else 2 ^ (f.fbits + 1) - 1
  (m, (top : Int) - f.bias - f.fbits)

/-- Decode a code (R168). -/
def FSpec.decode (f : FSpec) (x : Nat) : FVal :=
  let neg := bitAt x (f.ebits + f.fbits)
  let ex := bits x (f.ebits + f.fbits - 1) f.fbits
  let fr := x % 2 ^ f.fbits
  let ones := 2 ^ f.ebits - 1
  if f.nans = 1 && ex = ones then (if fr = 0 then .inf neg else .nan)
  else if f.nans = 2 && ex = ones && fr = 2 ^ f.fbits - 1 then .nan
  else if ex = 0 then .fin neg fr (1 - (f.bias : Int) - f.fbits)
  else .fin neg (2 ^ f.fbits + fr) ((ex : Int) - f.bias - f.fbits)

/-- Canonical NaN (R175). Formats without NaN answer the zero code. -/
def FSpec.canonNan (f : FSpec) : Nat :=
  match f.nans with
  | 1 => (2 ^ f.ebits - 1) * 2 ^ f.fbits + (if f.fbits = 2 then 2 else 2 ^ (f.fbits - 1))
  | 2 => 2 ^ (f.ebits + f.fbits) - 1
  | _ => 0

/-- The sign bit. -/
def FSpec.sign (f : FSpec) (neg : Bool) : Nat := if neg then 2 ^ (f.ebits + f.fbits) else 0

/-- Infinity code. -/
def FSpec.infBits (f : FSpec) (neg : Bool) : Nat := f.sign neg + (2 ^ f.ebits - 1) * 2 ^ f.fbits

/-- Code of the largest finite value. -/
def FSpec.maxBits (f : FSpec) (neg : Bool) : Nat :=
  f.sign neg +
    (match f.nans with
     | 1 => (2 ^ f.ebits - 1) * 2 ^ f.fbits - 1
     | 2 => 2 ^ (f.ebits + f.fbits) - 2
     | _ => 2 ^ (f.ebits + f.fbits) - 1)

/-- Smallest exponent of a normal value. -/
def FSpec.emin (f : FSpec) : Int := 1 - (f.bias : Int)

/-- Code of n·2^q where q is the quantum of the value in the format. -/
def FSpec.pack (f : FSpec) (neg : Bool) (n : Nat) (q : Int) : Nat :=
  let n' := if n = 2 ^ (f.fbits + 1) then n / 2 else n
  let q' := if n = 2 ^ (f.fbits + 1) then q + 1 else q
  if n' < 2 ^ f.fbits then f.sign neg + n'
  else f.sign neg + (q' + f.fbits + f.bias).toNat * 2 ^ f.fbits + (n' - 2 ^ f.fbits)

/-- Quantum exponent for a non-zero magnitude m·2^e. -/
def FSpec.quantum (f : FSpec) (m : Nat) (e : Int) : Int := max ((Nat.log2 m : Int) + e) f.emin - f.fbits

/-- A magnitude split at quantum 2^q: how many whole quanta, and how the rest compares with one half
(0 none, 1 below, 2 equal, 3 above). `sticky` says that the magnitude is a little above m·2^e. -/
def splitAt (m : Nat) (e q : Int) (sticky : Bool) : Nat × Nat :=
  if q ≤ e then (m * 2 ^ (e - q).toNat, if sticky then 1 else 0)
  else
    let s := (q - e).toNat
    let r := m % 2 ^ s
    let h := 2 ^ (s - 1)
    (m / 2 ^ s, if r = 0 then (if sticky then 1 else 0) else if r < h then 1
                else if r = h then (if sticky then 3 else 2) else 3)

/-- Round to nearest, ties to even: the rounded number of quanta (R173). -/
def nearestEven (n rest : Nat) : Nat :=
  if rest = 3 then n + 1 else if rest = 2 then (if n % 2 = 1 then n + 1 else n) else n

/-- Round toward +∞ (R173: the amax and RATIO), for a non-negative magnitude. -/
def roundUpTo (n rest : Nat) : Nat := if rest = 0 then n else n + 1

/-- A rounded code and whether the rounding overflowed. -/
structure Res where
  bits : Nat
  ovf : Bool
deriving DecidableEq, Repr

/-- Whether n·2^q exceeds the largest finite value. -/
def FSpec.tooBig (f : FSpec) (n : Nat) (q : Int) : Bool :=
  let mx := f.maxFin
  if q ≤ mx.2 then decide (mx.1 * 2 ^ (mx.2 - q).toNat < n) else decide (mx.1 < n * 2 ^ (q - mx.2).toNat)

/-- Round ±m·2^e once to nearest even. Overflow gives the infinity, or the largest finite value when `sat` is set or
the format has no infinity (R173, R183, R187). -/
def FSpec.round (f : FSpec) (sat neg : Bool) (m : Nat) (e : Int) (sticky : Bool) : Res :=
  if m = 0 then ⟨f.sign neg, false⟩
  else
    let q := f.quantum m e
    let sp := splitAt m e q sticky
    let n := nearestEven sp.1 sp.2
    if f.tooBig n q then ⟨if sat || !f.inf then f.maxBits neg else f.infBits neg, true⟩
    else ⟨f.pack neg n q, false⟩

/-- Round a non-negative magnitude toward +∞, saturating at the largest finite value. -/
def FSpec.roundPos (f : FSpec) (m : Nat) (e : Int) (sticky : Bool) : Nat :=
  if m = 0 then 0
  else
    let q := f.quantum m e
    let sp := splitAt m e q sticky
    let n := roundUpTo sp.1 sp.2
    if f.tooBig n q then f.maxBits false else f.pack false n q

/-- Code of an exact value, rounded once. -/
def FSpec.ofVal (f : FSpec) (v : FVal) : Res :=
  match v with
  | .nan => ⟨f.canonNan, false⟩
  | .inf s => ⟨if f.inf then f.infBits s else f.maxBits s, false⟩
  | .fin s m e => f.round false s m e false

/-- −0 becomes +0 on a write (R174). -/
def FSpec.noNegZero (f : FSpec) (x : Nat) : Nat := if x = f.sign true then 0 else x

/-- Whether a code is NaN. -/
def FSpec.isNan (f : FSpec) (x : Nat) : Bool := match f.decode x with | .nan => true | _ => false

/-- Whether a code is finite. -/
def FSpec.isFin (f : FSpec) (x : Nat) : Bool := match f.decode x with | .fin _ _ _ => true | _ => false

/-- Whether a code is a NaN with the payload 0xF17 of a status NaN (R176). -/
def isStatusNan (code x : Nat) : Bool := (code == 0 && x == 0x7FF8000000000F17) || (code == 1 && x == 0x7FC00F17)

/-- The status NaN of FP64 or FP32 (R176). -/
def statusNan (code : Nat) : Nat := if code = 0 then 0x7FF8000000000F17 else 0x7FC00F17

/-! Exact arithmetic. -/

def FVal.neg (v : FVal) : FVal :=
  match v with
  | .nan => .nan
  | .inf s => .inf !s
  | .fin s m e => .fin (!s) m e

def FVal.abs (v : FVal) : FVal :=
  match v with
  | .nan => .nan
  | .inf _ => .inf false
  | .fin _ m e => .fin false m e

def FVal.isZero (v : FVal) : Bool := match v with | .fin _ 0 _ => true | _ => false
def FVal.isNan (v : FVal) : Bool := match v with | .nan => true | _ => false
def FVal.isFin (v : FVal) : Bool := match v with | .fin _ _ _ => true | _ => false
def FVal.isInf (v : FVal) : Bool := match v with | .inf _ => true | _ => false
def FVal.zero : FVal := .fin false 0 0
def FVal.one : FVal := .fin false 1 0
def FVal.ofNat (n : Nat) : FVal := .fin false n 0
def FVal.ofInt (n : Int) : FVal := .fin (decide (n < 0)) n.natAbs 0
/-- 2^k. -/
def FVal.pow2 (k : Int) : FVal := .fin false 1 k

/-- Exact product; ∞ × 0 is NaN. -/
def FVal.mul (a b : FVal) : FVal :=
  match a, b with
  | .nan, _ => .nan
  | _, .nan => .nan
  | .inf s, .inf t => .inf (s != t)
  | .inf s, .fin t m _ => if m = 0 then .nan else .inf (s != t)
  | .fin s m _, .inf t => if m = 0 then .nan else .inf (s != t)
  | .fin s m e, .fin t n k => .fin (s != t) (m * n) (e + k)

/-- Exact product by 2^k. -/
def FVal.scale (a : FVal) (k : Int) : FVal :=
  match a with
  | .fin s m e => .fin s m (e + k)
  | v => v

/-- Signed significand of a finite value. -/
def sigInt (s : Bool) (m : Nat) : Int := if s then -(m : Int) else (m : Int)

/-- Exact sum, IEEE signs of zero; +∞ and −∞ give NaN. -/
def FVal.add (a b : FVal) : FVal :=
  match a, b with
  | .nan, _ => .nan
  | _, .nan => .nan
  | .inf s, .inf t => if s = t then .inf s else .nan
  | .inf s, .fin _ _ _ => .inf s
  | .fin _ _ _, .inf t => .inf t
  | .fin s m e, .fin t n k =>
    let lo := min e k
    let v := sigInt s m * 2 ^ (e - lo).toNat + sigInt t n * 2 ^ (k - lo).toNat
    if v = 0 then .fin (s && t && (m == 0) && (n == 0)) 0 lo
    else .fin (decide (v < 0)) v.natAbs lo

def FVal.sub (a b : FVal) : FVal := a.add b.neg

/-- Exact comparison of values that are not NaN: a < b, with −0 equal to +0. -/
def FVal.lt (a b : FVal) : Bool :=
  match a, b with
  | .nan, _ => false
  | _, .nan => false
  | .inf s, .inf t => s && !t
  | .inf s, .fin _ _ _ => s
  | .fin _ _ _, .inf t => !t
  | .fin s m e, .fin t n k =>
    let lo := min e k
    decide (sigInt s m * 2 ^ (e - lo).toNat < sigInt t n * 2 ^ (k - lo).toNat)

def FVal.le (a b : FVal) : Bool := !a.isNan && !b.isNan && !(b.lt a)

/-- Floor of log2 of a non-zero finite magnitude. -/
def FVal.ilog2 (v : FVal) : Int := match v with | .fin _ m e => (Nat.log2 m : Int) + e | _ => 0

/-! Rounded operations. -/

/-- Exact quotient rounded once. A finite non-zero value by ±0 gives ±∞ and is no overflow (R149, R183). -/
def FSpec.div (f : FSpec) (a b : FVal) : Res :=
  match a, b with
  | .nan, _ => ⟨f.canonNan, false⟩
  | _, .nan => ⟨f.canonNan, false⟩
  | .inf _, .inf _ => ⟨f.canonNan, false⟩
  | .inf s, .fin t _ _ => ⟨f.infBits (s != t), false⟩
  | .fin s _ _, .inf t => ⟨f.sign (s != t), false⟩
  | .fin s m e, .fin t n k =>
    if n = 0 then (if m = 0 then ⟨f.canonNan, false⟩ else ⟨f.infBits (s != t), false⟩)
    else if m = 0 then ⟨f.sign (s != t), false⟩
    else
      let sh := f.fbits + 4 + Nat.log2 n - Nat.log2 m
      let num := m * 2 ^ sh
      f.round false (s != t) (num / n) (e - k - sh) (num % n != 0)

/-- Largest r below 2^k + r0 with r² ≤ n, bit by bit. -/
def isqrtFrom (k n r : Nat) : Nat :=
  match k with
  | 0 => r
  | k + 1 => isqrtFrom k n (if (r + 2 ^ k) * (r + 2 ^ k) ≤ n then r + 2 ^ k else r)

/-- Integer square root, rounded down. -/
def isqrt (n : Nat) : Nat := isqrtFrom (Nat.log2 n / 2 + 1) n 0

/-- Square root rounded once. −0 gives −0; a negative value gives NaN. -/
def FSpec.sqrt (f : FSpec) (a : FVal) : Res :=
  match a with
  | .nan => ⟨f.canonNan, false⟩
  | .inf s => if s then ⟨f.canonNan, false⟩ else ⟨f.infBits false, false⟩
  | .fin s m e =>
    if m = 0 then ⟨f.sign s, false⟩
    else if s then ⟨f.canonNan, false⟩
    else
      let sh0 := 2 * (f.fbits + 4)
      let sh := if (e - sh0) % 2 = 0 then sh0 else sh0 + 1
      let n := m * 2 ^ sh
      let r := isqrt n
      f.round false false r ((e - sh) / 2) (r * r != n)

/-- ln 2 · 2^w, truncated: Σ 2^w / (k·2^k). -/
def ln2Fixed (w : Nat) : Nat := ((List.range (w + 8)).map (fun i => 2 ^ w / ((i + 1) * 2 ^ (i + 1)))).foldl (· + ·) 0

/-- e^r · 2^w for r = x / 2^w, by the power series with `n` terms, each truncated. -/
def expSeries (w x n i term acc : Nat) : Nat :=
  match n with
  | 0 => acc
  | n + 1 =>
    let t := term * x / 2 ^ w / i
    expSeries w x n (i + 1) t (acc + t)

/-- Fraction bits that the exponential is formed with (log 11). -/
def expBits : Nat := 400

/-- e^a rounded once (R149). The power series is formed with 400 fraction bits (log 11). -/
def FSpec.exp (f : FSpec) (a : FVal) : Res :=
  match a with
  | .nan => ⟨f.canonNan, false⟩
  | .inf s => ⟨if s then 0 else f.infBits false, false⟩
  | .fin s m e =>
    if m = 0 then f.round false false 1 0 false
    else if 11 < (Nat.log2 m : Int) + e then
      (if s then f.round false false 1 (-8192) false else f.round false false 1 8192 false)
    else
      let w := expBits
      let x : Nat := if 0 ≤ e + w then m * 2 ^ (e + w).toNat else m / 2 ^ (-(e + w)).toNat
      let sx : Int := if s then -(x : Int) - 1 else (x : Int)
      let l := ln2Fixed w
      let k : Int := sx / (l : Int)
      let r : Nat := (sx - k * l).toNat
      let t := expSeries w r 120 1 (2 ^ w) (2 ^ w)
      f.round false false t (k - w) true

/-- The greater value under the comparison of VMAX (R149): a NaN operand gives NaN, +0 ranks above −0. -/
def FVal.max (a b : FVal) : FVal :=
  if a.isNan || b.isNan then .nan
  else if a.lt b then b else if b.lt a then a
  else match a with | .fin true 0 _ => b | _ => a

/-- The lesser value under the comparison of VMIN (R149). -/
def FVal.min (a b : FVal) : FVal :=
  if a.isNan || b.isNan then .nan
  else if a.lt b then a else if b.lt a then b
  else match a with | .fin false 0 _ => b | _ => a

/-- A finite value rounded to an integer, ties to even. -/
def FVal.toIntRne (v : FVal) : Int :=
  match v with
  | .fin s m e => let sp := splitAt m e 0 false; sigInt s (nearestEven sp.1 sp.2)
  | _ => 0

/-! Exact sums (R153). -/

/-- A running exact sum: a dyadic number and the flags of the infinite and NaN terms. -/
structure XSum where
  num : Int
  exp : Int
  nan : Bool
  pinf : Bool
  ninf : Bool
deriving DecidableEq, Repr

def XSum.zero : XSum := ⟨0, 0, false, false, false⟩

/-- Add a term exactly. -/
def XSum.add (a : XSum) (v : FVal) : XSum :=
  match v with
  | .nan => { a with nan := true }
  | .inf s => if s then { a with ninf := true } else { a with pinf := true }
  | .fin s m e =>
    if m = 0 then a
    else
      let lo := Min.min a.exp e
      { a with num := a.num * 2 ^ (a.exp - lo).toNat + sigInt s m * 2 ^ (e - lo).toNat, exp := lo }

/-- The value of a sum under R153. A sum that is zero is +0, though every term be -0 (DESIGN CHOICE, log 63: R153 gives it no sign). -/
def XSum.val (a : XSum) : FVal :=
  if a.nan || (a.pinf && a.ninf) then .nan
  else if a.pinf then .inf false
  else if a.ninf then .inf true
  else .fin (decide (a.num < 0)) a.num.natAbs a.exp

/-- The exact sum of a list of terms. -/
def xsum (l : List FVal) : FVal := (l.foldl XSum.add XSum.zero).val

/-- The long accumulator holds sums of FP64 values and products as multiples of 2^-2148 (R152). -/
def LongAcc.add (a : LongAcc) (v : FVal) : LongAcc :=
  match v with
  | .nan => { a with nan := true }
  | .inf s => if s then { a with ninf := true } else { a with pinf := true }
  | .fin s m e => { a with sum := a.sum + sigInt s m * 2 ^ (e + 2148).toNat }

/-- Its value under R153. -/
def LongAcc.val (a : LongAcc) : FVal := XSum.val ⟨a.sum, -2148, a.nan, a.pinf, a.ninf⟩

def LongAcc.zero : LongAcc := ⟨0, false, false, false⟩

/-! Packing (R171, R79). -/

/-- Element `i` of a byte list that packs `w`-bit elements from bit 0 of byte 0 upward. -/
def elemAt (bs : List Byte) (w i : Nat) : Nat :=
  let b := i * w
  fieldAt bs (b / 8) (w / 8 + 2) / 2 ^ (b % 8) % 2 ^ w

/-- Bytes that `n` elements of `w` bits fill. -/
def elemBytes (w n : Nat) : Nat := ceilDiv (n * w) 8

/-- The first `n` elements. -/
def elems (bs : List Byte) (w n : Nat) : List Nat := (List.range n).map (fun i => elemAt bs w i)

/-- An E8M0 scale (R170): none is NaN, otherwise the exponent. -/
def scaleExp (c : Byte) : Option Int := if c = 0xFF#8 then none else some ((c.toNat : Int) - 127)

/-- Whether a rounded result counts under R183: it is infinite because the rounding overflowed. -/
def ovfCount (r : Res) : Nat := if r.ovf then 1 else 0

end Sys2Proof.Machine
end

