-- ==== Sys2Proof/Machine/Operands.lean ====
section
/-! DEFINITION. The operand forms: fields of command entries (R312, R316), bundles and their slots (R95 to R107),
operand specifications (R101), stream descriptors (R72 to R74), and the tables of a submission image (R281 to R293). -/

namespace Sys2Proof.Machine

/-! Command entries (R312). -/

def entOpcode (e : List Byte) : Nat := fieldAt e 0 2
def entAlive (e : List Byte) : BitVec 8 := e.getD 2 0
def entFlags (e : List Byte) : Nat := fieldAt e 3 1
def entContext (e : List Byte) : BitVec 32 := BitVec.ofNat 32 (fieldAt e 4 4)
def entIrq (e : List Byte) : Bool := bitAt (entFlags e) 0
/-- CRC-32C over bytes 0x00 to 0x3B (R312). -/
def entCrcOk (e : List Byte) : Bool := fieldAt e 0x3C 4 == crc32c (slice e 0 0x3C)
/-- An argument of `n` bytes at entry offset `o` (R316). -/
def entArg (e : List Byte) (o n : Nat) : Nat := fieldAt e o n

/-! Bundles (R95, R96). -/

/-- A decoded bundle: its length in parcels, FENCE, and the words of its slots. -/
structure Bundle where
  mask : Nat
  len : Nat
  fence : Bool
  reserved : Nat
  a : Option Nat
  b : Option Nat
  m : Option Nat
  v : Option Nat
  q : Option Nat
  c : Option Nat
deriving DecidableEq, Repr

/-- Length in parcels that a MASK implies: 1 + 2·(A + B + C) + 4·(M + V + Q) (R95). -/
def maskLen (mask : Nat) : Nat :=
  1 + 2 * (bits mask 5 5 + bits mask 4 4 + bits mask 0 0) + 4 * (bits mask 3 3 + bits mask 2 2 + bits mask 1 1)

/-- The bundle whose header stands at parcel `i` (R95, R96); slots follow in the order A, B, M, V, Q, C. -/
def bundleAt (code : List Byte) (i : Nat) : Bundle :=
  let h := fieldAt code (2 * i) 2
  let mask := bits h 15 10
  let has := fun k => bitAt mask k
  let o0 := 2 * i + 2
  let oB := o0 + (if has 5 then 4 else 0)
  let oM := oB + (if has 4 then 4 else 0)
  let oV := oM + (if has 3 then 8 else 0)
  let oQ := oV + (if has 2 then 8 else 0)
  let oC := oQ + (if has 1 then 8 else 0)
  { mask := mask, len := bits h 9 5, fence := bitAt h 0, reserved := bits h 4 1,
    a := if has 5 then some (fieldAt code o0 4) else none,
    b := if has 4 then some (fieldAt code oB 4) else none,
    m := if has 3 then some (fieldAt code oM 8) else none,
    v := if has 2 then some (fieldAt code oV 8) else none,
    q := if has 1 then some (fieldAt code oQ 8) else none,
    c := if has 0 then some (fieldAt code oC 4) else none }

/-- Indices of the bundles of a code image, from parcel `i` on, while each lies within the code (R91 check 5). `none`
when a header breaks the chain. -/
def bundleChain (fuel : Nat) (code : List Byte) (parcels i : Nat) : Option (List Nat) :=
  match fuel with
  | 0 => none
  | fuel + 1 =>
    if i = parcels then some []
    else
      let b := bundleAt code i
      if b.reserved ≠ 0 || b.len ≠ maskLen b.mask || parcels < i + b.len then none
      else (bundleChain fuel code parcels (i + b.len)).map (fun l => i :: l)

/-- An operand specification (R101): queue, descriptor slot, none, or reserved. -/
inductive OpSpec where
  | queue (n : Nat)
  | slot (n : Nat)
  | none
  | reserved
deriving DecidableEq, Repr

/-- Decode a 6-bit operand specification (R101). -/
def opSpec (x : Nat) : OpSpec :=
  if bitAt x 5 then .slot (bits x 4 0)
  else if bitAt x 4 then (if x = 31 then .none else .reserved)
  else .queue (bits x 3 0)

def OpSpec.isOperand (s : OpSpec) : Bool := match s with | .queue _ => true | .slot _ => true | _ => false

/-! A, B and C slots: fields of a 32-bit word (R102, R107). -/

def slotOp (w : Nat) : Nat := bits w 31 26
def abD (w : Nat) : Nat := bits w 25 22
def abS1 (w : Nat) : Nat := bits w 21 18
def abS2 (w : Nat) : Nat := bits w 17 14
def abImm18 (w : Nat) : Nat := bits w 17 0
def abImm22 (w : Nat) : Nat := bits w 21 0
def abPd (w : Nat) : Nat := bits w 23 22
def abSd (w : Nat) : Nat := bits w 25 21
def abField (w : Nat) : Nat := bits w 20 18
def abN (w : Nat) : Nat := bits w 17 16
def cN (w : Nat) : Nat := bits w 25 24
def cTarget (w : Nat) : Nat := bits w 14 0
def cSense (w : Nat) : Bool := bitAt w 23
def cCount (w : Nat) : Nat := bits w 23 0

/-! M slot (R104), V slot (R105), Q slot (R106). -/

def mOp (w : Nat) : Nat := bits w 63 58
def mFmt (w : Nat) : Nat := bits w 57 54
def mSrc (w : Nat) : Nat := bits w 53 48
def mSrc2 (w : Nat) : Nat := bits w 47 42
def mDst (w : Nat) : Nat := bits w 41 36
def mAreg (w : Nat) : Nat := bits w 35 32
def mTsx (w : Nat) : Nat := bits w 31 28
def mTsw (w : Nat) : Nat := bits w 27 24
def mAxis (w : Nat) : Bool := bitAt w 23
def mAcc (w : Nat) : Bool := bitAt w 22
def mGb (w : Nat) : Nat := bits w 21 16
def mTs (w : Nat) : Bool := bitAt w 15

def vOp (w : Nat) : Nat := bits w 63 56
def vType (w : Nat) : Nat := bits w 55 52
def vVd (w : Nat) : Nat := bits w 51 47
def vVs1 (w : Nat) : Nat := bits w 46 42
def vVs2 (w : Nat) : Nat := bits w 41 37
def vVs3 (w : Nat) : Nat := bits w 36 32
def vMem (w : Nat) : Nat := bits w 31 26
def vAreg (w : Nat) : Nat := bits w 25 22
def vStype (w : Nat) : Nat := bits w 21 18

def qOp (w : Nat) : Nat := bits w 63 58
def qQ (w : Nat) : Nat := bits w 57 54
def qEnd (w : Nat) : Bool := bitAt w 53
def qSd (w : Nat) : Nat := bits w 52 48
def qPort (w : Nat) : Nat := bits w 47 44
def qAreg (w : Nat) : Nat := bits w 43 40
def qAlen (w : Nat) : Nat := bits w 39 36
def qRegion (w : Nat) : Nat := bits w 35 32
def qCtr (w : Nat) : Nat := bits w 31 30

/-! Stream descriptors (R72, R73). -/

def descBase (d : BitVec 128) : Nat := (d.extractLsb' 0 22).toNat
/-- Element size in bytes; ESIZE 7 is invalid (R72). -/
def descEsize (d : BitVec 128) : Nat := 2 ^ (d.extractLsb' 22 3).toNat
def descValid (d : BitVec 128) : Bool := (d.extractLsb' 22 3) != 7#3 && (d.extractLsb' 25 7) == 0#7
def descCount (d : BitVec 128) (i : Nat) : Nat := (d.extractLsb' (32 + 16 * i) 16).toNat
def descStride (d : BitVec 128) (i : Nat) : Int := (d.extractLsb' (80 + 16 * i) 16).toInt
/-- Elements of the stream (R73). -/
def descElems (d : BitVec 128) : Nat := descCount d 0 * descCount d 1 * descCount d 2
/-- Bytes the descriptor holds (R144). -/
def descBytes (d : BitVec 128) : Nat := descElems d * descEsize d

/-- Address of element `i` in the order of R73, i0 varying fastest. -/
def descAddr (d : BitVec 128) (i : Nat) : Int :=
  let c0 := descCount d 0
  let c1 := descCount d 1
  (descBase d : Int) +
    ((i % c0 : Nat) * descStride d 0 + (i / c0 % c1 : Nat) * descStride d 1 + (i / (c0 * c1) : Nat) * descStride d 2) *
      descEsize d

/-- Lowest and highest byte of the footprint (R74), for a stream with elements. -/
def descFoot (d : BitVec 128) : Int × Int :=
  let ext := fun i => ((descCount d i : Int) - 1) * descStride d i * descEsize d
  let lo := fun i => min 0 (ext i)
  let hi := fun i => max 0 (ext i)
  ((descBase d : Int) + lo 0 + lo 1 + lo 2, (descBase d : Int) + hi 0 + hi 1 + hi 2 + descEsize d - 1)

/-- The check of R74 (with the reserved bits of R72 under R10). -/
def descOk (d : BitVec 128) : Bool :=
  descValid d && descBase d % descEsize d == 0 &&
    (descElems d == 0 || (decide (0 ≤ (descFoot d).1) && decide ((descFoot d).2 < Config.padBytes)))

/-- The footprint as a range of an access (R76): none for an empty stream. -/
def descRanges (d : BitVec 128) : List (Nat × Nat) :=
  if descElems d = 0 then []
  else
    let f := descFoot d
    [(f.1.toNat, (f.2 - f.1 + 1).toNat)]

/-! Parameter blocks: a field of a node's PARAM. -/

/-- A field of the parameter block (R285). -/
def Node.par (n : Node) (o len : Nat) : Nat := fieldAt n.param o len

/-- The region entry a parameter byte names; `none` for 0xFF (R226). -/
def Node.parReg (n : Node) (o : Nat) : Option RegEnt :=
  let i := n.par o 1
  if i = 0xFF then none else some (n.reg i)

/-- The region entry a parameter byte names; an unused entry when it names none. -/
def Node.parEnt (n : Node) (o : Nat) : RegEnt := (n.parReg o).getD ⟨0, 0xFF#8, 0, 0⟩

/-! Node type codes (R285). -/

def tyTile : Nat := 0x01
def tyConvert : Nat := 0x02
def tyCollective : Nat := 0x04
def tyAssemble : Nat := 0x05
def tyFactor : Nat := 0x06
def tySolve : Nat := 0x07
def tyIter : Nat := 0x08
def tyUpdate : Nat := 0x09
def tyCue : Nat := 0x0A
def tyBarrier : Nat := 0x0B
def tyHostNote : Nat := 0x0C

/-! Reel header (R90). -/

def reelCode (image : List Byte) : List Byte := image.drop 128
def reelCodeLen (image : List Byte) : Nat := fieldAt image 0x08 4
def reelEntry (image : List Byte) : Nat := fieldAt image 0x0C 4
def reelIdOf (image : List Byte) : BitVec 32 := BitVec.ofNat 32 (fieldAt image 0x10 4)
def reelVpin (image : List Byte) : Bool := bitAt (fieldAt image 0x06 2) 0
def reelFp64 (image : List Byte) : Bool := bitAt (fieldAt image 0x06 2) 1
def reelLong (image : List Byte) : Bool := bitAt (fieldAt image 0x14 4) 0
def reelCrc (image : List Byte) : Nat := fieldAt image 0x7C 4
/-- Binding byte of an end: producer in [7:0], consumer in [15:8] (R90). -/
def reelBind (image : List Byte) (q : Nat) (consumer : Bool) : Nat :=
  fieldAt image (0x20 + 2 * q + (if consumer then 1 else 0)) 1

/-- The binding a header byte stands for (R90). -/
def bindOf (x : Nat) : Binding :=
  match bits x 7 4 with
  | 1 => .port (bits x 3 0)
  | 2 => .program
  | _ => .unbound

end Sys2Proof.Machine
end

