-- ==== Sys2Proof/Machine/Flags.lean ====
section
/-! DEFINITION. The status registers and the limits they report: MBX_STATUS, TIM_STATUS, PWR_STATUS, PWR_DIE_k, the
operating point in force (R33), ALERT_N, and the register map of WIN_REG (R305). -/

namespace Sys2Proof.Machine

/-- A field placed at bit `lo`. -/
def place (x lo : Nat) : Nat := x * 2 ^ lo

def boolNat (b : Bool) : Nat := if b then 1 else 0

/-! Running tasks and phases. -/

/-- Every node of the module with its graph handle, index and run state. -/
def Mod.allNodes (m : Mod) : List (Nat × Nat × Node × NRun) :=
  m.graphs.flatMap (fun g => g.2.nodes.mapIdx (fun i n => (g.1, i, n, g.2.runOf i)))

/-- Phases of the tasks running on a die. -/
def Mod.phasesOn (m : Mod) (d : Nat) : List Nat :=
  (m.allNodes.filter (fun x => x.2.2.2.isRunning && x.2.2.2.on.contains d)).map (fun x => x.2.2.1.phase)

/-- Preferred operating point of a phase (R401: bits [3p+2:3p] of PREF). -/
def PUnit.prefOf (u : PUnit) (p : Nat) : Nat := bits u.pref.toNat (3 * p + 2) (3 * p)

/-- The phase among running tasks whose preference is highest, ties to the lower code; IDLE with none (R297). -/
def pickPhase (u : PUnit) (ps : List Nat) : Nat :=
  let best := (ps.map u.prefOf).foldl max 0
  match (List.range 6).find? (fun p => ps.contains p && u.prefOf p == best) with
  | some p => p
  | none => 5

/-- A die's phase (R297). -/
def Mod.phase (m : Mod) (d : Nat) : Nat := pickPhase (vget m.pwr.units d PUnit.cold) (m.phasesOn d)

/-! Limits (R33). -/

/-- Aged ceiling of a site (R37). -/
def Flash.agedOf (f : Flash) (d site : Nat) : Nat := vget (vget f.aged d (Vector.replicate 66 7)) site 7

/-- Site of a logical tile (R430). -/
def Flash.site (f : Flash) (d t : Nat) : Nat := vget (vget f.siteOf d (Vector.range 64)) t t

def Flash.isLost (f : Flash) (d t : Nat) : Bool := f.lost.contains (d, t)

/-- The lowest aged ceiling among the sites of the die's active tiles (R38). -/
def Flash.dieCeiling (f : Flash) (d : Nat) : Nat :=
  ((List.range 64).filter (fun t => !f.isLost d t)).foldl (fun acc t => min acc (f.agedOf d (f.site d t))) 7

/-- Ceiling of a unit: update dies have none below OP7 (R38). -/
def Mod.ceiling (m : Mod) (k : Nat) : Nat := if k < 12 then m.flash.dieCeiling k else 7

/-- HBM thermal limit: OP3 while a hosted stack is hot (R344). -/
def Mod.hbmLimit (m : Mod) (k : Nat) : Nat :=
  if (List.range 32).any (fun st => hostDie st == k && decide (k < 12) && (vget m.pwr.hbmStacks st StackSt.cold).hot) then 3
  else 7

/-- The preference of a unit: of its phase; of UPDATE for an update die (R389). -/
def Mod.prefOp (m : Mod) (k : Nat) : Nat :=
  let u := vget m.pwr.units k PUnit.cold
  if k < 12 then u.prefOf (m.phase k) else u.prefOf 3

/-- Start limit: OP3 in stage B (R406). -/
def Mod.startLimit (m : Mod) : Nat := if m.life.stage = 2 then 3 else 7

/-- Limits of a unit that its pace group does not give, with the LIMIT code of each (R33, R401). -/
def Mod.ownLimits (m : Mod) (k : Nat) : List (Nat × Nat) :=
  let u := vget m.pwr.units k PUnit.cold
  [(1, m.prefOp k), (2, m.ceiling k), (3, u.junction), (4, m.hbmLimit k), (5, u.capPoint), (7, m.startLimit)]

/-- The lowest limit; among equals the first. -/
def lowest (l : List (Nat × Nat)) : Nat × Nat :=
  l.foldl (fun acc x => if x.2 < acc.2 then x else acc) (0, 8)

/-- The point a unit reaches under its own limits. -/
def Mod.ownOp (m : Mod) (k : Nat) : Nat := (lowest (m.ownLimits k)).2

def Mod.lockstep (m : Mod) : Bool := m.pwr.ctrl.getLsbD 47

/-- The lowest pace announced in force (R397, R398): operating point first, then duty. -/
def lowestPace (l : List PaceMsg) : Option PaceMsg :=
  l.foldl (fun acc x =>
    match acc with
    | none => some x
    | some y => if x.op < y.op || (x.op == y.op && decide (x.duty < y.duty)) then some x else some y) none

/-- The lockstep point (R33, R396 to R398). -/
def Mod.lockOp (m : Mod) : Nat :=
  let own := (List.range 12).foldl (fun acc k => min acc (m.ownOp k)) 7
  match lowestPace m.pwr.announced with
  | none => own
  | some p => min own p.op

/-- Limits of a unit (R33). -/
def Mod.limits (m : Mod) (k : Nat) : List (Nat × Nat) :=
  m.ownLimits k ++ (if m.lockstep && k < 12 then [(6, m.lockOp)] else [])

/-- The operating point in force (R33). -/
def Mod.opInForce (m : Mod) (k : Nat) : Nat := (lowest (m.limits k)).2

/-- What sets it (R401 LIMIT). -/
def Mod.limitCode (m : Mod) (k : Nat) : Nat := (lowest (m.limits k)).1

/-- The duty in force: the module's own, or a lower announced one (R392, R397, R398). -/
def Mod.dutyInForce (m : Mod) : Nat :=
  match if m.lockstep then lowestPace m.pwr.announced else none with
  | none => m.pwr.duty
  | some p => if p.op.val = 0 then min m.pwr.duty p.duty else m.pwr.duty

/-- The point that a unit's own limits other than its cap point allow. -/
def Mod.uncappedOwn (m : Mod) (k : Nat) : Nat := (lowest ((m.ownLimits k).filter (fun l => l.1 != 5))).2

/-- The lockstep point with every cap point left out of account. -/
def Mod.uncappedLock (m : Mod) : Nat :=
  let own := (List.range 12).foldl (fun acc k => min acc (m.uncappedOwn k)) 7
  match lowestPace m.pwr.announced with
  | none => own
  | some p => min own p.op

/-- The point that a unit's other limits allow, in lockstep those of the module's dies and of its pace group among them. -/
def Mod.uncappedOp (m : Mod) (k : Nat) : Nat :=
  if m.lockstep && decide (k < 12) then min (m.uncappedOwn k) m.uncappedLock else m.uncappedOwn k

/-- Whether a unit has come into service: C0 and U0 from stage B, the others from stage C (R404, R406). -/
def Mod.unitUp (m : Mod) (k : Nat) : Bool :=
  m.life.powered && !m.life.trip && m.life.pstate == .run && (decide (3 ≤ m.life.stage) || (m.life.stage == 2 && (k == 0 || k == 12)))

/-- PWR_STATUS.CAPPED: a die runs below its other limits because of its cap point (R391). -/
def Mod.capped (m : Mod) : Bool :=
  (List.range 14).any (fun k => m.unitUp k && decide ((vget m.pwr.units k PUnit.cold).capPoint < m.uncappedOp k))

/-- PWR_STATUS.FOLLOWING: another member's announcement sets the pace (R401). -/
def Mod.following (m : Mod) : Bool :=
  match if m.lockstep then lowestPace m.pwr.announced else none with
  | none => false
  | some p => decide (p.op.val < (List.range 12).foldl (fun acc k => min acc (m.ownOp k)) 7) ||
              (decide (p.op.val = 0) && decide (p.duty < m.pwr.duty))

/-- ALERT_N is low while CAPPED or UNREACHABLE is 1 or a die is under a junction or HBM limit (R445). -/
def Mod.alert (m : Mod) : Bool :=
  m.capped || m.pwr.unreachable ||
    (List.range 14).any (fun k => decide ((vget m.pwr.units k PUnit.cold).junction < 7) || decide (m.hbmLimit k < 7))

/-- Whether an enable of PTB_CTRL is set and acts (R438, R440). -/
def Mod.perturbed (m : Mod) : Bool := m.life.test && (m.ptb.regs[0] &&& 0x1F#64) != 0#64

/-! Registers. -/

/-- MBX_STATUS (R306). -/
def Mod.mbxStatus (m : Mod) : Word :=
  BitVec.ofNat 64 (place (boolNat m.life.test) 7 + place (if m.life.pstate = .park then 1 else 0) 4 + max 1 m.life.stage)

/-- MBX_GRADE (R25). -/
def Fuses.gradeReg (f : Fuses) : Word :=
  let p := boolNat f.grade.hasFp64Engines
  let sites := ((List.range 8).map (fun io => place (boolNat (f.grade.hasIo io)) io)).foldl (· + ·) 0
  let code := match f.grade with | .f => 0x46 | .m => 0x4D | .l => 0x4C
  BitVec.ofNat 64 (place (match f.grade with | .m => 0x40 | _ => 0x80) 40 + place f.grade.hbmStacks 32 +
    place f.stepping.toNat 24 + place p 18 + place p 17 + place p 16 + place sites 8 + code)

/-- TIM_STATUS (R64). -/
def TimeState.status (t : TimeState) : Word :=
  BitVec.ofNat 64 (place t.planes.toNat 8 + place (boolNat t.ppsSeen) 3 + place (boolNat t.source) 2 +
    place (boolNat t.holdover) 1 + boolNat t.locked)

/-- PWR_STATUS (R401). -/
def Mod.pwrStatus (m : Mod) : Word :=
  BitVec.ofNat 64 (place m.pwr.p1ms.toNat 48 + place m.pwr.vin.toNat 32 + place m.pwr.i10us.toNat 16 +
    place m.dutyInForce 8 + place (boolNat m.following) 3 + place (boolNat m.pwr.unreachable) 2 +
    place (boolNat (m.dutyInForce != 8)) 1 + boolNat m.capped)

/-- PWR_CAP (R401). -/
def Mod.pwrCap (m : Mod) : Word :=
  BitVec.ofNat 64 (place m.pwr.floor.toNat 48 + place m.flash.defaultCap.toNat 16 + m.pwr.cap.toNat)

/-- PWR_DIE_k (R401). LIMIT and OP read zero, their cold values, while the unit is not in service. -/
def Mod.pwrDie (m : Mod) (k : Nat) : Word :=
  let u := vget m.pwr.units k PUnit.cold
  let up := m.unitUp k
  BitVec.ofNat 64 (place u.power 48 + place (u.tj % 256) 40 + place (if up then m.limitCode k else 0) 32 +
    place (if up then m.opInForce k else 0) 29 + place (m.ceiling k) 26 + u.pref.toNat)

/-- Whether the I/O dies work: from stage A, and not in DEEP_PARK (R404, R413, R415). -/
def Mod.ioUp (m : Mod) : Bool :=
  m.life.powered && !m.life.trip && decide (1 ≤ m.life.stage) && m.life.pstate != .deepPark

/-- Whether the host port answers: the I/O dies work, and the PCIe function is in D0 (R304, R404; PRESUMED from PCIe, log 54). -/
def Mod.portUp (m : Mod) : Bool := m.ioUp && m.host.power == .d0

/-- TLY registers of a channel (R424). -/
def TallyCh.ctrl (c : TallyCh) : Word := BitVec.ofNat 64 (place (boolNat c.poly) 8)
def TallyCh.status (c : TallyCh) : Word :=
  BitVec.ofNat 64 (place c.run.toNat 8 + place (boolNat c.active) 1 + boolNat c.stale)

/-- The unit of the record buffer that a WIN_REG offset shows (R323). -/
def RecBuf.byteAt (r : RecBuf) (o : Nat) : Byte :=
  match r.units.find? (fun u => u.seq % Config.recUnits == o / 64) with
  | some u => u.bytes.getD (o % 64) 0
  | none => 0

/-- MBX_WIN_HANDLE.VALID: HANDLE names an allocated HBM region (R306, R308). -/
def Mod.winValid (m : Mod) : Bool :=
  match m.region m.mbx.winHandle with
  | some r => r.cls != .slow
  | none => false

end Sys2Proof.Machine
end

