-- ==== Sys2Proof/Machine/Mailbox.lean ====
section
/-! DEFINITION. The mailbox service (13_host_interface: R306 to R319): doorbells, the checks of each entry, the
round-robin service of the queues, completions, and the registers of queue 0. -/

namespace Sys2Proof.Machine

/-! Checks of an entry (R313). -/

/-- The opcodes of R316 with the stage each needs, whether it is for context 0 only, and the argument bytes it uses
(offset, length). -/
def opcodeRow (op : Nat) : Option (Nat × Bool × List (Nat × Nat)) :=
  match op with
  | 0x0001 => some (1, false, [(8, 8)])
  | 0x0002 => some (1, false, [(8, 8), (0x10, 2), (0x14, 4)])
  | 0x0003 => some (1, true, [(8, 8), (0x10, 8), (0x18, 8)])
  | 0x0004 => some (1, true, [(8, 1)])
  | 0x0010 => some (2, false, [(8, 8), (0x10, 4), (0x14, 1), (0x18, 4)])
  | 0x0011 => some (2, false, [(8, 8), (0x10, 3)])
  | 0x0012 => some (2, false, [(8, 4)])
  | 0x0020 => some (2, false, [(8, 4), (0x10, 8)])
  | 0x0021 => some (2, false, [(8, 4)])
  | 0x0030 => some (1, true, [(8, 4)])
  | 0x0031 => some (2, true, [(8, 4)])
  | 0x0032 => some (2, false, [(8, 2)])
  | 0x0040 => some (1, false, [(8, 8), (0x10, 8), (0x18, 4)])
  | 0x0041 => some (4, true, [(8, 8)])
  | 0x0050 => some (2, true, [(8, 1)])
  | 0x0051 => some (1, true, [])
  | 0x0052 => some (1, true, [])
  | 0x00F0 => some (3, true, [(8, 1)])
  | _ => none

/-- Argument bytes that no field uses are zero, and bytes 0x38 to 0x3B too (R312). -/
def entZero (e : List Byte) (used : List (Nat × Nat)) : Bool :=
  (List.range 52).all (fun i =>
    let o := 8 + i
    used.any (fun u => decide (u.1 ≤ o) && decide (o < u.1 + u.2)) || e.getD o 0 == 0)

/-- Arguments in range, per opcode (R316). -/
def argsOk (op : Nat) (e : List Byte) : Bool :=
  let a := entArg e
  match op with
  | 0x0001 => a 8 8 % 64 == 0
  | 0x0002 => a 8 8 % 64 == 0 && decide (a 0x10 2 ≤ 3)
  | 0x0003 => decide (1 ≤ a 8 1) && decide (a 8 1 ≤ 63) && decide (4 ≤ a 9 1) && decide (a 9 1 ≤ 16) &&
      decide (4 ≤ a 0xA 1) && decide (a 0xA 1 ≤ 16) && decide (a 0xB 1 ≤ 63) && a 0x10 8 % 4096 == 0 &&
      a 0x18 8 % 4096 == 0
  | 0x0004 => decide (1 ≤ a 8 1) && decide (a 8 1 ≤ 63)
  | 0x0010 => decide (a 0x14 1 ≤ 1) && (if a 0x14 1 = 1 then a 8 8 == 0 && a 0x10 4 == 0 else a 8 8 % 64 == 0 && a 0x18 4 == 0)
  | 0x0011 => a 8 8 != 0 && decide (a 0x10 1 ≤ 2) &&
      (if a 0x10 1 = 2 then decide (a 0x12 1 ≤ 1) else decide (a 0x11 1 ≤ 1) && decide (a 0x12 1 ≤ 11))
  | 0x0031 => decide (a 8 1 ≤ 5) && decide (a 9 1 ≤ 7) && decide (a 0xA 2 < 4096)
  | 0x0032 => (decide (a 8 1 ≤ 11) || a 8 1 == 0xFF) && decide (a 9 1 ≤ 1)
  | 0x0040 => a 8 8 % 64 == 0
  | 0x0050 => decide (a 8 1 ≤ 2)
  | 0x00F0 => decide (a 8 1 ≤ 1)
  | _ => true

/-- Commands served in PARK (R415). -/
def servedInPark (op : Nat) : Bool :=
  op == 0x01 || op == 0x02 || op == 0x40 || op == 0x30 || op == 0x03 || op == 0x04 || op == 0x50 || op == 0x51 || op == 0x52

/-- Dies that graphs of a context run on (R316: what another context may arm). -/
def Mod.ctxDies (m : Mod) (ctx : BitVec 32) : List Nat :=
  (List.range 12).filter (fun d => m.graphs.any (fun g => g.2.ctx == ctx && g.2.nodes.any (fun n => n.dies.contains d)))

/-- Whether a context may name the object of a command (R315): its own, or any for context 0. An unknown object is left
to the command. -/
def Mod.objectAllowed (m : Mod) (ctx : BitVec 32) (op : Nat) (e : List Byte) : Bool :=
  if ctx = 0 then true
  else
    match op with
    | 0x0012 => (match Tbl.find m.mem.regions (entArg e 8 4) with | some r => r.ctx == ctx | none => true)
    | 0x0010 => (match Tbl.find m.mem.reels (entArg e 0x18 4) with
                 | some r => entArg e 0x14 1 != 1 || r.ctx == ctx
                 | none => true)
    | 0x0021 => (match Tbl.find m.graphs (entArg e 8 4) with | some g => g.ctx == ctx | none => true)
    | 0x0032 =>
      let dies := if entArg e 8 1 = 0xFF then List.range 12 else [entArg e 8 1]
      dies.all (fun d => (m.ctxDies ctx).contains d)
    | _ => true

/-- The outcome of the checks of R313: the status of the first that fails, or none; the flag says that checks 1 and 2
passed, so that the expected counter advances. -/
def Mod.checkEntry (m : Mod) (q : HQueue) (e : List Byte) : Bool × Option Status :=
  let op := entOpcode e
  if !entCrcOk e then (false, some .cmdCrcFailed)
  else if entAlive e != q.alive then (false, some .aliveStale)
  else if entContext e != q.context then (true, some .contextDenied)
  else
    match opcodeRow op with
    | none => (true, some .badCommand)
    | some (stage, zeroOnly, used) =>
      if (zeroOnly && q.context != 0) || !m.objectAllowed q.context op e then (true, some .contextDenied)
      else if decide (1 < entFlags e) || !entZero e used || !argsOk op e then (true, some .badCommand)
      else if decide (m.life.stage < stage) || (m.life.pstate == .park && !servedInPark op) then (true, some .notReady)
      else (true, none)

/-! Service (R311, R319). -/

def Mod.updQueue (m : Mod) (n : Nat) (f : HQueue → HQueue) : Mod :=
  { m with mbx := { m.mbx with queues := vmodN m.mbx.queues n (fun q => q.map f) } }

def Mod.queue (m : Mod) (n : Nat) : Option HQueue := vget m.mbx.queues n none

/-- Whether a queue has an entry that may be fetched (R311: none while completions are held for ring space). -/
def HQueue.ready (q : HQueue) : Bool := !q.rung.isEmpty && !q.full && q.held.isEmpty

/-- RESET_MODULE and SHUTDOWN at a queue's head go first (R319). -/
def HQueue.urgent (q : HQueue) : Bool :=
  match q.rung with
  | [] => false
  | e :: _ => entOpcode e == 0x51 || entOpcode e == 0x52

/-- The next queue to serve: an urgent one, else round-robin in ascending number after the last (R311). -/
def Mod.nextQueue (m : Mod) : Option (Nat × HQueue) :=
  let order := (List.range 64).map (fun i => (m.mbx.turn + 1 + i) % 64)
  let ready := order.filterMap (fun n => match m.queue n with | some q => if q.ready then some (n, q) else none | none => none)
  match ready.find? (fun x => x.2.urgent) with
  | some x => some x
  | none => ready.head?

/-- Post the completion of a command entry of queue `n` (R314). -/
def Mod.postEntry (e : Env) (m : Mod) (n : Nat) (ent : List Byte) (st : Status) (flags : Nat) (result : List Byte) : Mod :=
  match m.queue n with
  | none => m
  | some q => m.post n (complBytes e.now st n q.sqHead (entAlive ent) flags (entContext ent) result) (entIrq ent)

/-- Fetch and check entries until one passes and is in service, or none is left (R311, R313). The firmware's tally channel computes each
entry's CRC-32C (R419). -/
def Mod.serve (fuel : Nat) (e : Env) (m : Mod) : Mod :=
  match fuel with
  | 0 => m
  | fuel + 1 =>
    if m.mbx.inService.isSome || !m.portUp then m
    else
      match m.nextQueue with
      | none => m
      | some (n, q) =>
        match q.rung with
        | [] => m
        | ent :: rest =>
          let m := { m with tally := vmodN m.tally 0 (fun c => c.check false (slice ent 0 0x3C)) }
          let chk := m.checkEntry q ent
          let m := m.updQueue n (fun q =>
            { q with rung := rest, sqHead := (q.sqHead + 1) % ringSize q.log2Sq, alive := if chk.1 then q.alive + 1 else q.alive })
          let m := { m with mbx := { m.mbx with turn := n } }
          match chk.2 with
          | none => { m with mbx := { m.mbx with inService := some (n, ent) } }
          | some st =>
            let result := if st = .aliveStale then [q.alive] else []
            Mod.serve fuel e (m.postEntry e n ent st 0 result)

/-- Entries rung and not consumed, over all queues: a bound on the fetches of one service run. -/
def Mod.rungCount (m : Mod) : Nat :=
  (List.range 64).foldl (fun acc n => acc + (match m.queue n with | some q => q.rung.length | none => 0)) 0

/-- Serve as far as possible. -/
def Mod.serveAll (e : Env) (m : Mod) : Mod := m.serve (m.rungCount + 1) e

/-- The command in service completes; service goes on (R311). -/
def Mod.complete (e : Env) (m : Mod) (n : Nat) (ent : List Byte) (st : Status) (result : List Byte) : Mod :=
  let m := { m with mbx := { m.mbx with inService := none } }
  (m.postEntry e n ent st 0 result).serveAll e

/-- Run `f` on the command in service when its opcode is `op` and its entry meets `ok`; else there is nothing to do. -/
def Mod.command (m : Mod) (op : Nat) (ok : List Byte → Bool) (f : Nat → List Byte → Mod) : Mod :=
  match m.mbx.inService with
  | none => m
  | some (n, ent) => if entOpcode ent = op && ok ent then f n ent else m

/-! Doorbells (R310). -/

/-- An event record with QUEUE_INVALID or GRAPHS_PENDING of the mailbox. -/
def Mod.mbxEvent (e : Env) (m : Mod) (st : Status) : Mod := m.unitEvent e.now st mgmtRes []

/-- MBX_SQ_DB_n: a new tail; `entries` is what the ring holds from the old tail on. -/
def ringSq (n : Fin 64) (v : Word) (entries : List (List Byte)) (e : Env) (m : Mod) : Mod :=
  if !m.portUp then m
  else
    let tail := bits v.toNat 15 0
    match m.queue n with
    | none => m.mbxEvent e .queueInvalid
    | some q =>
      let size := ringSize q.log2Sq
      if size ≤ tail then m.mbxEvent e .queueInvalid
      else
        let count := (tail + size - q.sqTail) % size
        let new := (List.range count).map (fun i => padTo 64 (entries.getD i []))
        (m.updQueue n (fun q => { q with sqTail := tail, rung := q.rung ++ new })).serveAll e

/-- MBX_CQ_DB_n: a new head; held completions are written, and fetching goes on (R310, R311). -/
def ringCq (n : Fin 64) (v : Word) (e : Env) (m : Mod) : Mod :=
  if !m.portUp then m
  else
    let head := bits v.toNat 15 0
    match m.queue n with
    | none => m.mbxEvent e .queueInvalid
    | some q =>
      if ringSize q.log2Cq ≤ head then m.mbxEvent e .queueInvalid
      else
        let r := HQueue.drain e.now q.held.length { q with cqHead := head } m.host.mem
        let irq := (q.held.take (q.held.length - r.1.held.length)).any (fun x => x.1)
        let m := { m with mbx := { m.mbx with queues := vmod m.mbx.queues n (fun _ => some r.1) },
                          host := { m.host with mem := r.2 } }
        let m := if irq then m.raiseQueue q.vector else m
        m.serveAll e

def execMbxSqDb (n : Fin 64) (v : Word) (entries : List (List Byte)) (s : State) : Host.Outcome State Fault Refusal :=
  runMod (ringSq n v entries) s

def execMbxCqDb (n : Fin 64) (v : Word) (s : State) : Host.Outcome State Fault Refusal := runMod (ringCq n v) s

/-! Queue 0 (R306, R307). -/

/-- A newly created queue (R310, R313: expected counter 0, phase 1). -/
def HQueue.create (sq cq : Word) (log2Sq log2Cq vector : Nat) (ctx : BitVec 32) : HQueue :=
  { sqBase := sq, cqBase := cq, log2Sq := log2Sq, log2Cq := log2Cq, vector := vector, context := ctx, alive := 0,
    sqHead := 0, sqTail := 0, cqTail := 0, cqHead := 0, phase := true, rung := [], held := [] }

/-- Fields of MBX_Q0_CFG; reserved bits stay zero (R306). -/
def q0Mask : Word := 0xFF1F1F01#64

/-- Whether a graph submitted through queue `n` is unfinished (R307, R317). -/
def Mod.graphsOn (m : Mod) (n : Nat) : Bool := m.graphs.any (fun g => g.2.queue == n)

/-- A write to MBX_Q0_CFG (R306, R307). With ENABLE 0, a change of the fields is looked at before unfinished graphs (DESIGN CHOICE, log 67), and
without a queue 0 the fields are stored (DEDUCED, log 67). -/
def writeQ0Cfg (v : Word) (e : Env) (m : Mod) : Mod :=
  if !m.portUp then m
  else
    let v := v &&& q0Mask
    let sqL := bits v.toNat 12 8
    let cqL := bits v.toNat 20 16
    match m.queue 0 with
    | none =>
      if v.getLsbD 0 then
        if 4 ≤ sqL && sqL ≤ 16 && 4 ≤ cqL && cqL ≤ 16 then
          let q := HQueue.create m.mbx.q0SqBase m.mbx.q0CqBase sqL cqL (bits v.toNat 31 24) 0
          { m with mbx := { m.mbx with q0Cfg := v, queues := vmodN m.mbx.queues 0 (fun _ => some q) } }
        else m.mbxEvent e .queueInvalid
      else { m with mbx := { m.mbx with q0Cfg := v } }
    | some _ =>
      if v.getLsbD 0 || (v ||| 1#64) != (m.mbx.q0Cfg ||| 1#64) then m.mbxEvent e .queueInvalid
      else if m.graphsOn 0 then m.mbxEvent e .graphsPending
      else
        { m with mbx := { m.mbx with q0Cfg := v, queues := vmodN m.mbx.queues 0 (fun _ => none) } }

def execMbxQ0CfgCreate (v : Word) (s : State) : Host.Outcome State Fault Refusal := runMod (writeQ0Cfg v) s
def execMbxQ0CfgDelete (v : Word) (s : State) : Host.Outcome State Fault Refusal := runMod (writeQ0Cfg v) s

/-- A write to MBX_Q0_SQBASE or MBX_Q0_CQBASE: refused while queue 0 exists (R307). -/
def writeQ0Base (cq : Bool) (part : RegPart) (v : Word) (e : Env) (m : Mod) : Mod :=
  match m.queue 0 with
  | some _ => m.mbxEvent e .queueInvalid
  | none =>
    let mask := 0xFFFFFFFFFFFFF000#64
    if cq then { m with mbx := { m.mbx with q0CqBase := mergePart part m.mbx.q0CqBase v &&& mask } }
    else { m with mbx := { m.mbx with q0SqBase := mergePart part m.mbx.q0SqBase v &&& mask } }

end Sys2Proof.Machine
end

