-- ==== Sys2Proof/Machine/Clock.lean ====
section
/-! DEFINITION. Fabric time (03_fabric_time: R47 to R54, R64): the tick, the exchange with the leaf switches, the beacon,
holdover, the 1PPS input and TIME_SET. -/

namespace Sys2Proof.Machine

/-- Femtoseconds in a nanosecond. -/
def fsNs : Nat := 1000000

/-- The part of a correction that one tick may apply: at most 200 ppm of 1.6 ns (R49). -/
def slewPart (c : Int) : Int := max (-(Config.slewFs : Int)) (min (Config.slewFs : Int) c)

/-- What one tick adds beyond 1.6 ns: the rate correction in force and the part of the offset due, together at most 200 ppm (R49). -/
def TCount.extra (c : TCount) : Int := slewPart (c.rate + c.corr)

/-- One tick of a keeper or replica (R48, R49). -/
def TCount.tick (c : TCount) : TCount :=
  { c with fs := ((c.fs + Config.tickFs : Nat) + c.extra).toNat, corr := c.corr - (c.extra - c.rate) }

/-- A keeper steers by an offset: it is slewed, and the rate correction is set anew, to a free value of at most 200 ppm (R49, R53; the
spec gives no control law, log 13). -/
def TCount.steer (fs : Int) (c : TCount) : TCount := { c with corr := fs, rate := slewPart (Config.rateCorrection fs c.rate) }

/-- Step a count forward (R52, R54). -/
def TCount.jump (c : TCount) (fs : Nat) : TCount := { c with fs := c.fs + fs }

/-- Set a count at first lock (R52). -/
def TCount.setTo (c : TCount) (fs : Nat) : TCount := { c with fs := fs, corr := 0 }

/-- Ticks of 1.6 ns in 1.1 s. -/
def ppsHold : Nat := 687500000

/-- PPS_SEEN falls 1.1 s after the last selected edge, whatever steps the count makes meanwhile (R64). -/
def TimeState.agePps (t : TimeState) : TimeState :=
  if t.ppsSeen then { t with ppsSeen := decide (t.ppsTicks < ppsHold), ppsTicks := t.ppsTicks + 1 } else t

/-- Every keeper and replica ticks. -/
def TimeState.tickAll (t : TimeState) : TimeState :=
  { t with keeper := t.keeper.map TCount.tick, replica := t.replica.map TCount.tick }

/-- A tick of the module: fabric time runs from power good in every state but loss of power (R403, R415). -/
def State.clockTick (s : State) : State :=
  if s.mod.life.powered then { s with time := s.time.tickAll.agePps } else s

/-- Every keeper and replica steps forward. -/
def TimeState.jumpAll (t : TimeState) (fs : Nat) : TimeState :=
  { t with keeper := t.keeper.map (fun c => c.jump fs), replica := t.replica.map (fun c => c.jump fs) }

/-- Every keeper and replica is set (R52: all others follow IO0, R48). -/
def TimeState.setAll (t : TimeState) (fs : Nat) : TimeState :=
  { t with keeper := t.keeper.map (fun c => c.setTo fs), replica := t.replica.map (fun c => c.setTo fs) }

/-- Put a number into a rising list. -/
def insertInt (x : Int) (l : List Int) : List Int :=
  match l with
  | [] => [x]
  | y :: r => if x ≤ y then x :: y :: r else y :: insertInt x r

/-- Median; of an even number, the mean of the two middle ones, rounded down (DESIGN CHOICE, log 13). -/
def medianOf (l : List Int) : Int :=
  let v := l.foldr insertInt []
  let h := v.length / 2
  if v.length % 2 = 1 then v.getD h 0 else (v.getD (h - 1) 0 + v.getD h 0) / 2

/-- Planes that contribute to the median: in service, with an offset (R49, R50). -/
def contributors (f : Fabric) (offs : Vector (Option Int) 8) : List Nat :=
  (List.range 8).filter (fun n =>
    (vget f.planes n Plane.cold).inService && (vget offs n none).isSome)

/-- The PLANES field. -/
def planeMask (l : List Nat) : BitVec 8 := l.foldl (fun acc n => acc ||| (1#8 <<< n)) 0#8

/-- Whether the keeper of IO0 steers to the 1PPS input: on the time source, with PPS_EN, while the signal is present (R51). -/
def TimeState.onPps (t : TimeState) : Bool := t.source && t.ppsEn && t.ppsSeen

/-- The keeper of IO0 steers by an offset. -/
def TimeState.steer (t : TimeState) (fs : Int) : TimeState := { t with keeper := t.keeper.set 0 ((t.keeper[0]).steer fs) }

/-- One exchange on a plane in service: the plane's offset is the module's count less fabric time, in ns (DEDUCED,
log 13). A plane's offset stands as measured until its next exchange (DESIGN CHOICE, log 13); the set of first lock, which moves the
count by the median, moves each of them by as much. A forward step of fabric time is followed by the same amount (R54). First lock
sets the count once, and its record is slated by the count after the set (R52; DESIGN CHOICE, log 13); later exchanges slew (R49, R53), except on a source that steers to its 1PPS input (R51). -/
def exchange (plane : Fin 8) (offset : Int) (step : Nat) (source : Bool) (s : State) : State :=
  let t := if s.time.locked then s.time.jumpAll (step * fsNs) else s.time
  let offs := vmod t.offsets plane (fun _ => some offset)
  let who := contributors s.mod.fab offs
  let med := medianOf (who.filterMap (fun n => vget offs n none))
  let t := { t with offsets := offs, planes := planeMask who, offset := BitVec.ofInt 64 med, source := source }
  if t.locked then
    { s with time := { (if t.onPps then t else t.steer (-med * fsNs)) with holdover := false } }
  else
    let before := (t.keeper[0]).ns
    let t := { t with offsets := offs.map (fun (o : Option Int) => o.map (fun x => x - med)) }
    let t := { t.setAll ((t.keeper[0]).fs - med * fsNs).toNat with locked := true, holdover := false }
    let after := (t.keeper[0]).ns
    let detail := natLe 8 before ++ natLe 8 after
    { s with time := t, mod := s.mod.unitEvent after .timeStepped (ioRes 0) detail }

/-- Whether the links of a plane may carry an exchange: the module is powered, not in DEEP_PARK, and the plane is in
service (R52, R350, R415). -/
def Mod.planeUp (m : Mod) (n : Nat) : Bool :=
  m.ioUp && (vget m.fab.planes n Plane.cold).inService

/-- TIME_EXCHANGE (R49, R52 to R54). A plane out of service makes no exchange. -/
def execTimeExchange (plane : Fin 8) (offset : Int) (step : Nat) (source : Bool) (s : State) :
    Host.Outcome State Fault Refusal :=
  if s.fuses.grade.hasIo plane then
    .next (if s.mod.planeUp plane then exchange plane offset step source s else s)
  else .fault .absentUnit

/-- A receiver of the beacon steers to what the beacon carries, corrected by its calibrated path delay (R48). The beacon, when it
arrives, is as old as its transit: with the delay calibrated to the transit the receiver follows IO0 exactly. -/
def TCount.follow (ref : Nat) (transit delay : Nat) (c : TCount) : TCount :=
  { c with corr := (ref : Int) - transit + delay - c.fs }

/-- The beacon at every keeper but IO0's and at every replica, with the transit of each path in femtoseconds. Receivers are numbered
keepers 0 to 7, then replicas. -/
def TimeState.beacon (t : TimeState) (transit delays : List Nat) : TimeState :=
  let ref := (t.keeper[0]).fs
  { t with keeper := t.keeper.mapFinIdx (fun i c _ => if i = 0 then c else c.follow ref (transit.getD i 0) (delays.getD i 0)),
           replica := t.replica.mapFinIdx (fun i c _ => c.follow ref (transit.getD (8 + i) 0) (delays.getD (8 + i) 0)) }

/-- TIME_BEACON (R48, R49). -/
def execTimeBeacon (transit : List Nat) (s : State) : Host.Outcome State Fault Refusal :=
  .next (if s.mod.life.powered then { s with time := s.time.beacon transit s.mod.flash.pathDelay } else s)

/-- Enter holdover, with the last rate correction kept (R53, R415): from a locked state only (DEDUCED, log 13). -/
def State.holdOver (s : State) : State :=
  if s.time.locked && !s.time.holdover then
    { s with time := { s.time with holdover := true },
             mod := s.mod.unitEvent (s.time.keeper[0]).ns .timeHoldover (ioRes 0) [] }
  else s

/-- TIME_HOLDOVER (R53). -/
def execTimeHoldover (s : State) : Host.Outcome State Fault Refusal :=
  .next (if s.mod.life.powered then s.holdOver else s)

/-- Distance to the nearest whole second, in femtoseconds (R51). -/
def ppsError (fs : Nat) : Int :=
  let sec := 1000000000 * fsNs
  let r := fs % sec
  if 2 * r ≤ sec then -(r : Int) else (sec : Int) - r

/-- PPS_EDGE (R51): the selected edge is captured; the source with PPS_EN steers to it. PPS_SEEN is set by the edge that PPS_EDGE selects alone
(R64 says a 1PPS edge; DESIGN CHOICE, log 13). -/
def execPpsEdge (falling : Bool) (s : State) : Host.Outcome State Fault Refusal :=
  if s.mod.life.powered && falling == s.time.ppsEdge then
    let t := { s.time with ppsSeen := true, ppsTicks := 0, ppsSlate := BitVec.ofNat 64 (s.time.keeper[0]).ns }
    .next { s with time := if t.onPps then t.steer (ppsError (t.keeper[0]).fs) else t }
  else .next s

/-- Whether TIME_SET is accepted: on the time source, and not backward (R54). A set to the present count is accepted as a step of
zero (DESIGN CHOICE, log 13). -/
def timeSetOk (v : Nat) (s : State) : Bool := s.time.source && decide ((s.time.keeper[0]).ns ≤ v)

/-- TIME_SET (R54). -/
def execTimeSet (s : State) : Host.Outcome State Fault Refusal :=
  match s.mod.mbx.inService with
  | none => .next s
  | some (n, ent) =>
    if entOpcode ent = 0x0041 then
      let v := entArg ent 8 8
      if timeSetOk v s then
        let t := s.time.jumpAll (v * fsNs - (s.time.keeper[0]).fs)
        .next { s with time := t, mod := s.mod.complete ⟨s.fuses, t⟩ n ent .ok [] }
      else .next { s with mod := s.mod.complete ⟨s.fuses, s.time⟩ n ent .timeSetRefused [] }
    else .next s

end Sys2Proof.Machine
end

