-- ==== Sys2Proof/Machine/Memory.lean ====
section
/-! DEFINITION. Module memory (14_hbm: R326 to R343; R308, R316, R317): pages, regions, the memory window, retirement,
channel failure and migration. -/

namespace Sys2Proof.Machine

/-! Stacks and pages. -/

/-- 4 KiB pages of one channel (R326, R332). -/
def channelPages : Nat := Config.channelBytes / Config.pageBytes

/-- Pairs of a stack that are not mapped out. -/
def Mod.pairsIn (m : Mod) (st : Nat) : List Nat :=
  (List.range 16).filter (fun j => !m.flash.mappedOut.contains (st, j))

/-- Stacks in service, ascending (R332, R340). -/
def Mod.stacksIn (m : Mod) (g : Grade) : List Nat :=
  (List.range g.hbmStacks).filter (fun st => !(m.pairsIn st).isEmpty)

/-- Raw HBM capacity in service, in MB: 4.5 GB for each pair (R28, R321). -/
def Mod.rawMB (m : Mod) (g : Grade) : Nat :=
  (List.range g.hbmStacks).foldl (fun acc st => acc + 4500 * (m.pairsIn st).length) 0

/-- A page in use: its class (PERSIST or not) and place. -/
structure Used where
  persist : Bool
  loc : PageLoc
deriving DecidableEq, Repr

/-- Pages of regions, and of the reel store, which is PERSIST (R92). -/
def Mod.usedPages (m : Mod) : List Used :=
  m.mem.regions.flatMap (fun r => r.2.pages.map (fun p => ⟨r.2.cls == .persist, p⟩)) ++
    m.mem.reels.flatMap (fun r => r.2.pages.map (fun p => ⟨true, p⟩))

/-- The HBM page address of R343. -/
def pageAddr (st ch page : Nat) : BitVec 32 := BitVec.ofNat 32 (st * 2 ^ 25 + ch * 2 ^ 20 + page)
def addrStack (a : BitVec 32) : Nat := bits a.toNat 29 25
def addrChannel (a : BitVec 32) : Nat := bits a.toNat 24 20
def addrPage (a : BitVec 32) : Nat := bits a.toNat 19 0

/-- Retirement entries of a stack (R338). -/
def Mod.retiredOf (m : Mod) (st : Nat) : List (BitVec 32) := vget m.flash.retired st []

/-- Entries of one channel's part of the table. -/
def Mod.retiredCh (m : Mod) (st ch : Nat) : Nat := ((m.retiredOf st).filter (fun a => addrChannel a == ch)).length

/-- Channels a page of a class occupies at a place: both of the pair for PERSIST, one for ACT (R328, R329). -/
def PageLoc.channels (p : PageLoc) (persist : Bool) : List Nat :=
  if persist then [2 * p.pair, 2 * p.pair + 1] else [2 * p.pair + p.half]

/-- Whether two pages share a channel page. -/
def clash (persist : Bool) (p : PageLoc) (u : Used) : Bool :=
  p.stack == u.loc.stack && p.pair == u.loc.pair && p.page == u.loc.page && (persist || u.persist || p.half == u.loc.half)

/-- Whether a page is free for a class: unused, and not retired (R338). -/
def Mod.pageFree (m : Mod) (used : List Used) (persist : Bool) (p : PageLoc) : Bool :=
  !used.any (clash persist p) &&
    !(p.channels persist).any (fun ch => (m.retiredOf p.stack).contains (pageAddr p.stack ch p.page))

/-- The first free page of a pair. At most `used + retired` pages are taken, so the search is bounded. -/
def Mod.freeInPair (m : Mod) (used : List Used) (persist : Bool) (st pair : Nat) : Option PageLoc :=
  let n := min channelPages (used.length + (m.retiredOf st).length + 1)
  (List.range n).findSome? (fun page =>
    (if persist then [0] else [0, 1]).findSome? (fun half =>
      let p : PageLoc := ⟨st, pair, half, page⟩
      if m.pageFree used persist p then some p else none))

/-- Whether a pair is marked for map-out: by a failed channel or a full table, or because a channel of it holds more than 256 retirement
entries, which flash keeps through every reset (R339). -/
def Mod.isMarked (m : Mod) (st j : Nat) : Bool :=
  m.mem.marked.contains (st, j) || decide (256 < m.retiredCh st (2 * j)) || decide (256 < m.retiredCh st (2 * j + 1))

/-- Pairs that may receive new pages: in service and not marked (R332, R340). -/
def Mod.openPairs (m : Mod) (st : Nat) : List Nat := (m.pairsIn st).filter (fun j => !m.isMarked st j)

/-- The first free page of a stack: the lowest pair, then the lowest page (DESIGN CHOICE, log 15: R332 leaves the choice
to the allocator). -/
def Mod.freeInStack (m : Mod) (used : List Used) (persist : Bool) (st : Nat) : Option PageLoc :=
  (m.openPairs st).findSome? (m.freeInPair used persist st)

/-- Place `n` pages over a turn order of stacks: a stack with no free page passes its turn to the next (R332). -/
def Mod.place (m : Mod) (persist : Bool) (order : List Nat) (n turn : Nat) (used : List Used) : Option (List PageLoc) :=
  match n with
  | 0 => some []
  | n + 1 =>
    let k := order.length
    let pick := (List.range k).findSome? (fun i =>
      let st := order.getD ((turn + i) % k) 0
      (m.freeInStack used persist st).map (fun p => (i, p)))
    match pick with
    | none => none
    | some (i, p) => (m.place persist order n ((turn + i + 1) % k) (⟨persist, p⟩ :: used)).map (fun l => p :: l)

/-- Channel pages in use on the open pairs of some stacks: two for each PERSIST page, one for each ACT page (R330). -/
def Mod.halvesUsed (m : Mod) (order : List Nat) : Nat :=
  m.usedPages.foldl (fun acc u =>
    if order.contains u.loc.stack && (m.openPairs u.loc.stack).contains u.loc.pair then acc + (if u.persist then 2 else 1) else acc) 0

/-- Retired channel pages on the open pairs of some stacks, each once (R338). -/
def Mod.halvesRetired (m : Mod) (order : List Nat) : Nat :=
  order.foldl (fun acc st =>
    acc + ((m.retiredOf st).foldl (fun (l : List (BitVec 32)) a =>
      if (m.openPairs st).contains (addrChannel a / 2) && !l.contains a then a :: l else l) []).length) 0

/-- The raw capacity free on the stacks that a placement permits, in channel pages (R330). -/
def Mod.freeHalves (m : Mod) (order : List Nat) : Nat :=
  order.foldl (fun acc st => acc + 2 * channelPages * (m.openPairs st).length) 0 - m.halvesUsed order - m.halvesRetired order

/-- Place the pages of a region or a reel. -/
def Mod.placeAll (m : Mod) (persist : Bool) (order : List Nat) (n turn : Nat) : Option (List PageLoc) :=
  if m.freeHalves order < n * (if persist then 2 else 1) then none
  else m.place persist order n turn m.usedPages

/-- The stacks a placement permits, in turn order: those of the die, or all in service from (handle mod S) on (R332). -/
def Mod.turnOrder (m : Mod) (g : Grade) (spread : Bool) (die : Nat) : List Nat :=
  let inn := m.stacksIn g
  if spread then inn else inn.filter (fun st => hostDie st == die)

/-- Half pages beside an ACT page in use or a retired page: an ACT page that takes one takes no whole pair page. -/
def Mod.halfSpots (m : Mod) (used : List Used) (sts : List Nat) : List PageLoc :=
  ((used.filter (fun u => !u.persist)).map (fun u => { u.loc with half := 1 - u.loc.half })) ++
    sts.flatMap (fun st => (m.retiredOf st).map (fun a => ⟨st, addrChannel a / 2, 1 - addrChannel a % 2, addrPage a⟩))

/-- Whether an ACT page may be moved to make room: its pair is open, and it does not wait for its retirement. -/
def Mod.mayMovePage (m : Mod) (p : PageLoc) : Bool :=
  (m.openPairs p.stack).contains p.pair && !m.mem.pendingRetire.contains (pageAddr p.stack (2 * p.pair + p.half) p.page)

/-- A place for an ACT page that spares the whole pair pages of the stacks `order`: a free half page beside another page, else a page of a
stack outside `order`, else any, on the stacks that its placement permits. -/
def Mod.packPage (g : Grade) (m : Mod) (order : List Nat) (used : List Used) (r : Region) : Option PageLoc :=
  let sts := m.turnOrder g r.spread r.die
  let fits := fun (x : PageLoc) => sts.contains x.stack && (m.openPairs x.stack).contains x.pair && m.pageFree used false x
  match (m.halfSpots used sts).find? fits with
  | some x => some x
  | none => (sts.filter (fun st => !order.contains st) ++ sts.filter order.contains).findSome? (m.freeInStack used false)

/-- New places for the pages of an ACT region that may move; the others stay. `used` are the pages that hold their places. -/
def Mod.packPages (g : Grade) (m : Mod) (order : List Nat) (r : Region) (l : List PageLoc) (used : List Used) :
    Option (List PageLoc × List Used) :=
  match l with
  | [] => some ([], used)
  | p :: l =>
    if m.mayMovePage p then
      match m.packPage g order used r with
      | none => none
      | some x => (m.packPages g order r l (⟨false, x⟩ :: used)).map (fun y => (x :: y.1, y.2))
    else (m.packPages g order r l used).map (fun y => (p :: y.1, y.2))

/-- Move the ACT pages together, those of LOCAL regions before those that may lie on any stack, so that PERSIST pages find whole pair pages on
the stacks `order` (R330, R332: every choice and every later move of a page changes timing only). -/
def Mod.repack (g : Grade) (m : Mod) (order : List Nat) : Option Mod :=
  let act := m.mem.regions.filter (fun r => r.2.cls == .act)
  let fixed := m.usedPages.filter (fun u => u.persist || !m.mayMovePage u.loc)
  ((act.filter (fun r => !r.2.spread) ++ act.filter (fun r => r.2.spread)).foldl (fun acc r =>
    acc.bind (fun (y : Mod × List Used) => (m.packPages g order r.2 r.2.pages y.2).map (fun z =>
      (y.1.updRegion (BitVec.ofNat 32 r.1) (fun k => { k with pages := z.1 }), z.2)))) (some (m, fixed))).map (fun y => y.1)

/-- Place the pages of a region or a reel; ACT pages move together where PERSIST pages find no room though the raw capacity is free. -/
def Mod.placeMoving (g : Grade) (m : Mod) (persist : Bool) (order : List Nat) (n turn : Nat) : Option (Mod × List PageLoc) :=
  match m.placeAll persist order n turn with
  | some l => some (m, l)
  | none =>
    if !persist || m.freeHalves order < 2 * n then none
    else (m.repack g order).bind (fun m => (m.placeAll persist order n turn).map (fun l => (m, l)))

/-- Where a turn order starts: at stack number (`h` mod S), or the next in service (R332). -/
def startTurn (order : List Nat) (h : Nat) : Nat :=
  if order.isEmpty then 0 else (order.findIdx? (fun st => decide (h % order.length ≤ st))).getD 0

/-! ALLOC_REGION and FREE_REGION (R316, R317, R330, R332). -/

/-- Bytes of slow-tier regions on an update die. -/
def Mod.slowUsed (m : Mod) (u : Nat) : Nat :=
  m.mem.regions.foldl (fun acc r => if r.2.cls = .slow && r.2.die = u then acc + r.2.len else acc) 0

/-- A new region. -/
def Region.new (cls : RClass) (spread : Bool) (die len : Nat) (ctx : BitVec 32) (pages : List PageLoc) : Region :=
  { cls := cls, spread := spread, die := die, len := len, ctx := ctx, bytes := [], undef := [], poison := [], replayed := [],
    pages := pages, states := [] }

def classOf (x : Nat) : RClass := if x = 0 then .persist else if x = 1 then .act else .slow

/-- ALLOC_REGION: the module and the region of a handle, or none when it cannot be met. -/
def Mod.allocate (m : Mod) (g : Grade) (h : Nat) (cls : RClass) (spread : Bool) (die len : Nat) (ctx : BitVec 32) :
    Option (Mod × Region) :=
  match cls with
  | .slow =>
    if m.slowUsed die + len ≤ Config.slowBytes then some (m, Region.new .slow false die len ctx []) else none
  | c =>
    let order := m.turnOrder g spread die
    let turn := if spread then startTurn order h else 0
    (m.placeMoving g (c == .persist) order (len / Config.pageBytes) turn).map (fun x =>
      (x.1, Region.new c spread die len ctx x.2))

/-- ALLOC_REGION. -/
def allocRegion (e : Env) (m : Mod) : Mod :=
  m.command 0x0011 (fun _ => true) (fun n ent =>
    let len := roundUp (entArg ent 8 8) Config.pageBytes
    let cls := classOf (entArg ent 0x10 1)
    let spread := entArg ent 0x11 1 == 1
    let die := entArg ent 0x12 1
    let stageB := decide (m.life.stage < 3)
    if stageB && (die != 0 || (cls != .slow && spread)) then m.complete e n ent .notReady []
    else
      let h := nextHandle (m.mem.regions.length + 3) 32 m.mbx.regionCount.toNat true
        (fun k => (Tbl.find m.mem.regions k).isSome)
      match m.allocate e.fuses.grade h cls spread die len (entContext ent) with
      | none => m.complete e n ent .noSpace []
      | some (m, r) =>
        let m := { m with mem.regions := Tbl.put m.mem.regions h r, mbx.regionCount := BitVec.ofNat 32 (h + 1) }
        m.complete e n ent .ok (natLe 4 h ++ natLe 8 len))

def execAllocRegion (s : State) : Host.Outcome State Fault Refusal := runMod allocRegion s

/-- Region handles a node names (R284). -/
def Node.handles (n : Node) : List (BitVec 32) := (n.regs.filter (fun r => r.kind != 0xFF#8)).map (fun r => r.handle)

/-- Region handles a graph names: its nodes', its stages' and its cut region's. -/
def Graph.handles (g : Graph) : List (BitVec 32) :=
  g.nodes.flatMap Node.handles ++ g.stages.flatMap (fun x => [x.stumps, x.acts, x.replay, x.offload]) ++ [g.hdr.cutRegion]

/-- Whether an unfinished graph names a region (R317). -/
def Mod.regionBusy (m : Mod) (h : Nat) : Bool := m.graphs.any (fun g => g.2.handles.contains (BitVec.ofNat 32 h))

/-- Root jobs of a freed region end (R270). -/
def UDie.dropJobs (h : Nat) (u : UDie) : UDie := { u with jobs := u.jobs.filter (fun j => j.handle.toNat != h) }

/-! Memory events (R343). -/

/-- The page of a region's line, as an HBM page address (its data channel). -/
def Region.lineAddr (r : Region) (l : Nat) : Option (BitVec 32) :=
  (r.pages[l * 64 / Config.pageBytes]?).map (fun p =>
    pageAddr p.stack (2 * p.pair + (if r.cls = .act then p.half else 0)) p.page)

/-- Detail bytes of a memory event (R343). -/
def Mod.memDetail (g : Grade) (m : Mod) (a : BitVec 32) (cls : Nat) : List Byte :=
  natLe 4 a.toNat ++ natLe 1 cls ++ natLe 2 (m.retiredCh (addrStack a) (addrChannel a)) ++
    natLe 2 (m.retiredOf (addrStack a)).length ++ natLe 8 (m.rawMB g)

/-- A memory event of the stack of a page address. -/
def Mod.memEvent (e : Env) (m : Mod) (st : Status) (a : BitVec 32) (cls : Nat) : Mod :=
  m.unitEvent (e.dieNow (hostDie (addrStack a))) st (resId (hostDie (addrStack a)) 5 (addrStack a))
    (m.memDetail e.fuses.grade a cls)

/-- Detail bytes of a task that a PERSIST line which cannot be decoded has ended (R336, R343). -/
def Mod.lostDetail (e : Env) (m : Mod) (h : BitVec 32) (l : Nat) : List Byte :=
  m.memDetail e.fuses.grade (((m.region h).bind (fun r => r.lineAddr l)).getD 0) 0

/-! WIN_MEM (R308). -/

/-- Bytes of a window access that lie in the mapped region: none when VALID is 0. -/
def Mod.winRegion (m : Mod) : Option Region := if m.winValid then m.region m.mbx.winHandle else none

/-- The event of a window read that meets a line in error: ACT_POISON for an ACT line; for a PERSIST line that cannot be decoded
HBM_UNCORRECTABLE, with the page of the first such line (R308, R343; log 15). -/
def Mod.winEvent (e : Env) (m : Mod) (r : Region) (a n : Nat) : Mod :=
  if r.cls = .act then m.unitEvent e.now .actPoison mgmtRes []
  else m.memEvent e .hbmUncorrectable (((r.badLines m.mem.failedCh a n).head?.bind r.lineAddr).getD 0) 0

/-- WIN_MEM_READ: bytes outside the region read zero; an ACT line in error gives a poisoned answer and counts as an
ACT_POISON event (R308). A PERSIST line that cannot be decoded gives a poisoned answer too, with HBM_UNCORRECTABLE (DESIGN CHOICE,
log 15: R336 names reading tasks only). -/
def winMemRead (x len : Nat) (e : Env) (m : Mod) : Mod :=
  if !m.portUp then m
  else
    match m.winRegion with
    | none => { m with host.tlp := some (.data (List.replicate len 0)) }
    | some r =>
      let a := m.mbx.winOffset.toNat + x
      let inside := min len (r.len - a)
      let bytes := padTo len (r.readN a inside)
      if m.regPoisoned r a inside then ({ m with host.tlp := some (.poisoned bytes) }).winEvent e r a inside
      else { m with host.tlp := some (.data bytes) }

def execWinMemRead (x len : Nat) (s : State) : Host.Outcome State Fault Refusal := runMod (winMemRead x len) s

/-- WIN_MEM_WRITE: bytes outside the region are dropped (R308). -/
def winMemWrite (x : Nat) (data : List Byte) (_e : Env) (m : Mod) : Mod :=
  if m.portUp && m.winValid then
    m.updRegion m.mbx.winHandle (fun r => r.writeN (m.mbx.winOffset.toNat + x) data)
  else m

def execWinMemWrite (x : Nat) (data : List Byte) (s : State) : Host.Outcome State Fault Refusal :=
  runMod (winMemWrite x data) s

/-! Errors (R335, R336, R426). -/

/-- Put a line of a region into the poisoned state. -/
def Region.markLine (r : Region) (l : Nat) : Region :=
  if r.poison.contains l then r else { r with poison := r.poison ++ [l] }

/-- A new error in a line: it is poisoned, and what a replay wrote for it is in error too. -/
def Region.poisonLine (r : Region) (l : Nat) : Region :=
  { r.markLine l with replayed := r.replayed.filter (fun k => k != l) }

/-- Lines of a page index of a region. -/
def pageLines (i : Nat) : List Nat := (List.range 64).map (fun k => i * 64 + k)

/-- Whether the decoder restores a PERSIST line of a pair (R328, R341): with both channels in service up to 32 wrong bytes, or a half that
is absent or fails its tag; with one channel failed the line is restored from the other half alone, which must be sound. -/
def decodes (failed : List (Nat × Nat)) (p : PageLoc) (x : LineErr) : Bool :=
  let dataOut := failed.contains (p.stack, 2 * p.pair)
  let checkOut := failed.contains (p.stack, 2 * p.pair + 1)
  match dataOut, checkOut, x with
  | true, true, _ => false
  | _, _, .both => false
  | false, false, .bytes n => decide (n ≤ 32)
  | false, false, .half _ => true
  | _, _, .bytes n => n == 0
  | d, _, .half check => check != d

/-- An error met in line `l` of region `h`: a PERSIST line is rewritten corrected or is lost, an ACT line is poisoned; the row test follows
(R335, R336). -/
def Mod.meetLine (e : Env) (m : Mod) (h l : Nat) (x : LineErr) : Mod :=
  match Tbl.find m.mem.regions h with
  | none => m
  | some r =>
    match r.pages[l * 64 / Config.pageBytes]?, r.lineAddr l with
    | some p, some a =>
      if r.cls = .slow || r.len ≤ l * 64 then m
      else
        let m := if r.cls = .persist && decodes m.mem.failedCh p x then m
          else m.updRegion (BitVec.ofNat 32 h) (fun r => r.poisonLine l)
        m.noteError e (.hbmRow a)
    | _, _ => m

/-- The page of a region that lies at an HBM page address: handle and index. A PERSIST page is named by either channel of its pair. -/
def Mod.pageAt (m : Mod) (a : BitVec 32) : Option (Nat × Nat) :=
  m.mem.regions.findSome? (fun r =>
    (r.2.pages.findIdx? (fun p =>
      p.stack == addrStack a && p.page == addrPage a && (p.channels (r.2.cls == .persist)).contains (addrChannel a))).map
        (fun i => (r.1, i)))

/-- Whether a reel has a page at an HBM page address. -/
def Reel.holds (r : Reel) (a : BitVec 32) : Bool :=
  r.pages.any (fun p => p.stack == addrStack a && p.page == addrPage a && p.pair == addrChannel a / 2)

/-- A reel with a page at an HBM page address meets an error there. -/
def Reel.meet (failed : List (Nat × Nat)) (a : BitVec 32) (x : LineErr) (r : Reel) : Reel :=
  let bad := r.pages.any (fun p =>
    p.stack == addrStack a && p.page == addrPage a && p.pair == addrChannel a / 2 && !decodes failed p x)
  { r with lost := r.lost || bad }

/-- Whether a reel cannot be read: a line of it cannot be decoded, or both channels of a pair that holds a page of it have failed (R328,
R336, R341). -/
def Mod.reelLost (m : Mod) (r : Reel) : Bool := r.lost || r.pages.any (fun p => p.gone m.mem.failedCh false)

/-- Detail bytes of a task that such a reel has ended: the address of its first page out of reach, else of its first page (R343; which page
holds a line lost earlier is not kept: DESIGN CHOICE, log 15). -/
def Mod.reelDetail (e : Env) (m : Mod) (r : Reel) : List Byte :=
  let p := (r.pages.find? (fun p => p.gone m.mem.failedCh false)).getD (r.pages.headD ⟨0, 0, 0, 0⟩)
  m.memDetail e.fuses.grade (pageAddr p.stack (2 * p.pair) p.page) 0

/-- An error met in a line of an HBM page, of a region, of the reel store or of neither: the line is corrected, poisoned or lost, and its row is
tested (R335, R336). -/
def Mod.meetPage (e : Env) (m : Mod) (a : BitVec 32) (line : Fin 64) (x : LineErr) : Mod :=
  match m.pageAt a with
  | some (h, i) => m.meetLine e h (i * 64 + line.val) x
  | none => ({ m with mem.reels := m.mem.reels.map (fun (r : Nat × Reel) => (r.1, r.2.meet m.mem.failedCh a x)) }).noteError e (.hbmRow a)

/-- The error that an access meets takes effect before the access reads (R260, R336): it leaves an HBM line corrected, poisoned or lost, and
the row of an HBM or a slow-tier line is tested. -/
def Mod.meetError (e : Env) (m : Mod) (err : EngErr) : Mod :=
  match err with
  | .hbm a line x => m.meetPage e a line x
  | .slow u row _ => m.noteError e (.lpRow u row)
  | _ => m

/-- HBM_SCRUB: every line of every stack in service, those of the reel store among them; `errs` are the lines in error (R335). -/
def hbmScrub (errs : List (BitVec 32 × Fin 64 × LineErr)) (e : Env) (m : Mod) : Mod :=
  (errs.filter (fun x => (m.stacksIn e.fuses.grade).contains (addrStack x.1))).foldl (fun m x => m.meetPage e x.1 x.2.1 x.2.2) m

def execHbmScrub (errs : List (BitVec 32 × Fin 64 × LineErr)) (s : State) : Host.Outcome State Fault Refusal := runMod (hbmScrub errs) s

/-- HBM_ECC_POLL: a row with 16 or more corrections within 24 hours is tested (R336). -/
def hbmEccPoll (reports : List EccReport) (e : Env) (m : Mod) : Mod :=
  if m.unitUp 0 then
    reports.foldl (fun acc r => if 16 ≤ r.count then acc.noteError e (.hbmRow r.pageAddr) else acc) m
  else m

def execHbmEccPoll (reports : List EccReport) (s : State) : Host.Outcome State Fault Refusal := runMod (hbmEccPoll reports) s

/-! Migration and retirement (R338 to R342). -/

/-- Replace page `i` of a page list. -/
def movePage (pages : List PageLoc) (i : Nat) (p : PageLoc) : List PageLoc := lmod pages i (fun _ => p)

/-- Where a page in use may move: any other pair of its die's stacks for LOCAL, any stack for SPREAD and reels (R340). -/
def Mod.newHome (m : Mod) (g : Grade) (spread : Bool) (die : Nat) (persist : Bool) : Option PageLoc :=
  (m.turnOrder g spread die).findSome? (m.freeInStack m.usedPages persist)

/-- Whether a page uses a channel page of a set. -/
def usesPage (sel : PageLoc → List Nat → Bool) (persist : Bool) (p : PageLoc) : Bool := sel p (p.channels persist)

/-- The first page in use that a selection names: region handle (or reel), page index. -/
def Mod.findPage (m : Mod) (sel : PageLoc → List Nat → Bool) : Option (Bool × Nat × Nat) :=
  let reg := m.mem.regions.findSome? (fun r =>
    (r.2.pages.findIdx? (usesPage sel (r.2.cls == .persist))).map (fun i => (false, r.1, i)))
  match reg with
  | some x => some x
  | none => m.mem.reels.findSome? (fun r => (r.2.pages.findIdx? (usesPage sel true)).map (fun i => (true, r.1, i)))

/-- Move one page: PERSIST contents corrected, ACT lines of a failed channel poisoned, PERSIST lines of a pair whose channels have both
failed lost (R338, R340, R341). `none` when no page is free. -/
def Mod.moveOne (m : Mod) (g : Grade) (x : Bool × Nat × Nat) (poisonAct : Bool) : Option Mod :=
  if x.1 then
    (m.newHome g true 0 true).map (fun p =>
      { m with mem.reels := Tbl.upd m.mem.reels x.2.1 (fun r =>
          { r with lost := r.lost || (r.pages[x.2.2]?).any (fun q => q.gone m.mem.failedCh false), pages := movePage r.pages x.2.2 p }) })
  else
    match Tbl.find m.mem.regions x.2.1 with
    | none => some m
    | some r =>
      (m.newHome g r.spread r.die (r.cls == .persist)).map (fun p =>
        m.updRegion (BitVec.ofNat 32 x.2.1) (fun r =>
          let bad := (r.cls == .act && poisonAct) || r.inFailed m.mem.failedCh (x.2.2 * Config.pageBytes) Config.pageBytes
          let r := if bad then (pageLines x.2.2).foldl Region.markLine r else r
          { r with pages := movePage r.pages x.2.2 p }))

/-- The pair of a page address. -/
def addrPair (a : BitVec 32) : Nat × Nat := (addrStack a, addrChannel a / 2)

/-- Migration of a pair finds no free page: it stops, and says so once (R342). -/
def Mod.stall (e : Env) (m : Mod) (a : BitVec 32) : Mod :=
  if m.mem.stalled.contains (addrPair a) then m
  else ({ m with mem.stalled := m.mem.stalled ++ [addrPair a] }).memEvent e .migrationStalled a 0xFF

/-- Mark a pair for map-out (R339). -/
def Mod.markPair (m : Mod) (st pair : Nat) : Mod :=
  if m.mem.marked.contains (st, pair) || m.flash.mappedOut.contains (st, pair) then m
  else { m with mem.marked := m.mem.marked ++ [(st, pair)] }

/-- The pair of a stack with the most retirement entries, the lowest number among equals (R339). -/
def Mod.worstPair (m : Mod) (st : Nat) : Nat :=
  let count := fun j => m.retiredCh st (2 * j) + m.retiredCh st (2 * j + 1)
  (m.pairsIn st).foldl (fun acc j => if count acc < count j then j else acc) ((m.pairsIn st).headD 0)

/-- Entries a stack's retirement table holds (R338). -/
def tableMax : Nat := 4096

/-- Retire a page: its contents migrate first; then it is entered in the table and PAGE_RETIRED is raised (R338); the
pair is marked once its channel holds more than 256 entries, or when the table is full (R339). -/
def Mod.retirePage (e : Env) (m : Mod) (a : BitVec 32) : Mod :=
  let st := addrStack a
  let sel := fun (p : PageLoc) (chs : List Nat) => p.stack == st && p.page == addrPage a && chs.contains (addrChannel a)
  let found := m.findPage sel
  let cls : Nat :=
    match found with
    | some (false, h, _) => (match Tbl.find m.mem.regions h with | some r => if r.cls = .act then 1 else 0 | none => 0xFF)
    | some (true, _, _) => 0
    | none => 0xFF
  if tableMax ≤ (m.retiredOf st).length then
    ({ m with mem.pendingRetire := m.mem.pendingRetire ++ [a] }).markPair st (m.worstPair st)
  else
    let enter := fun (m : Mod) =>
      let m := m.writeFlash (fun f => { f with retired := vmodN f.retired st (fun l => l ++ [a]) })
      m.memEvent e .pageRetired a cls
    match found with
    | none => enter m
    | some x =>
      -- the page is listed as retired while its contents move, so that they do not move onto itself
      let blocked := { m with flash.retired := vmodN m.flash.retired st (fun l => l ++ [a]) }
      match blocked.moveOne e.fuses.grade x true with
      | some m' => enter { m' with flash.retired := m.flash.retired }
      | none => ({ m with mem.pendingRetire := m.mem.pendingRetire ++ [a] }).stall e a

/-- Page retirements that waited proceed (R339, R342). -/
def Mod.retirePending (e : Env) (m : Mod) : Mod :=
  let l := m.mem.pendingRetire
  l.foldl (Mod.retirePage e) { m with mem.pendingRetire := [] }

/-- A marked pair with no page left is mapped out, and CHANNEL_RETIRED is raised; its retirement entries leave the table
and retirements that waited proceed (R339, R340). -/
def Mod.mapOut (e : Env) (m : Mod) (st pair : Nat) : Mod :=
  let mine := fun (a : BitVec 32) => addrChannel a / 2 == pair
  let m := m.writeFlash (fun f =>
    { f with mappedOut := f.mappedOut ++ [(st, pair)], retired := vmodN f.retired st (fun l => l.filter (fun a => !mine a)) })
  let m := { m with mem.marked := m.mem.marked.filter (fun x => x != (st, pair)),
                    mem.failedCh := m.mem.failedCh.filter (fun x => !(x.1 == st && x.2 / 2 == pair)) }
  (m.memEvent e .channelRetired (pageAddr st (2 * pair) 0) 0xFF).retirePending e

/-- Pages of one pair. -/
def ofPair (st pair : Nat) (p : PageLoc) (_ : List Nat) : Bool := p.stack == st && p.pair == pair

/-- A pair that no page in use lies in is mapped out at once (R28, R340). -/
def Mod.mapOutEmpty (e : Env) (m : Mod) (st pair : Nat) : Mod :=
  if (m.findPage (ofPair st pair)).isNone then m.mapOut e st pair else m

/-- FREE_REGION and the remove form of LOAD_REEL free pages: migration that found none resumes, and page retirements that waited proceed
(R342). -/
def Mod.pagesFreed (e : Env) (m : Mod) : Mod := ({ m with mem.stalled := [] }).retirePending e

/-- FREE_REGION (R317). -/
def freeRegion (e : Env) (m : Mod) : Mod :=
  m.command 0x0012 (fun _ => true) (fun n ent =>
    let h := entArg ent 8 4
    if (Tbl.find m.mem.regions h).isNone then m.complete e n ent .objectUnknown []
    else if m.regionBusy h then m.complete e n ent .objectBusy []
    else
      let m := { m with mem.regions := Tbl.del m.mem.regions h, udies := m.udies.map (UDie.dropJobs h) }
      (m.pagesFreed e).complete e n ent .ok [])

def execFreeRegion (s : State) : Host.Outcome State Fault Refusal := runMod freeRegion s

/-- MIGRATION_PAGE: one page of a marked pair moves; the last one maps the pair out (R340, R342). -/
def migrationPage (st : Fin 32) (pair : Fin 16) (e : Env) (m : Mod) : Mod :=
  if !m.isMarked st pair || m.flash.mappedOut.contains (st.val, pair.val) || m.mem.stalled.contains (st.val, pair.val) ||
      !m.unitUp (hostDie st) then m
  else
    let sel := ofPair st pair
    match m.findPage sel with
    | none => m.mapOut e st pair
    | some x =>
      match m.moveOne e.fuses.grade x false with
      | none => m.stall e (pageAddr st (2 * pair.val) 0)
      | some m => m.mapOutEmpty e st pair

def execMigrationPage (st : Fin 32) (pair : Fin 16) (s : State) : Host.Outcome State Fault Refusal :=
  if st.val < s.fuses.grade.hbmStacks then runMod (migrationPage st pair) s else .fault .absentUnit

/-- Whether the stacks are powered and train or are trained: from stage A's end on, while the module runs (R327, R404). -/
def Mod.hbmAlive (m : Mod) : Bool := m.life.powered && !m.life.trip && m.life.pstate == .run && decide (1 ≤ m.life.stage)

/-- CHANNEL_FAILED, in service or at training: the pair is marked; PERSIST lines are reconstructed from the other channel, ACT lines of the
channel are poisoned from now on (R327, R341). A pair without pages is mapped out in the same step (R28). The fault is counted as
lasting in its class (R425, R437). -/
def channelFailed (st ch : Fin 32) (e : Env) (m : Mod) : Mod :=
  if m.mem.failedCh.contains (st.val, ch.val) || m.flash.mappedOut.contains (st.val, ch.val / 2) || !m.hbmAlive then m
  else
    let m := { m with mem.failedCh := m.mem.failedCh ++ [(st.val, ch.val)],
                      flt.lasting := vmodN m.flt.lasting 7 (fun x => satAdd 32 x 1) }
    (m.markPair st (ch.val / 2)).mapOutEmpty e st (ch.val / 2)

def execChannelFailed (st : Fin 32) (ch : Fin 32) (s : State) : Host.Outcome State Fault Refusal :=
  if st.val < s.fuses.grade.hbmStacks then runMod (channelFailed st ch) s else .fault .absentUnit

end Sys2Proof.Machine
end

