-- ==== Sys2Proof/Machine/Power.lean ====
section
/-! DEFINITION. Power, pacing and thermal control (17_power: R386 to R402), the HBM temperature response (R344) and the
tile ceilings (R36 to R40). -/

namespace Sys2Proof.Machine

/-! The dailies (R402). -/

/-- Change the open snapshot, if there is one. -/
def Mod.daily (m : Mod) (f : Dailies → Dailies) : Mod := { m with pwr.daily := m.pwr.daily.map f }

/-- Change one die's part of the open snapshot. -/
def Mod.dailyDie (m : Mod) (d : Nat) (f : DailyDie → DailyDie) : Mod :=
  m.daily (fun x => { x with dies := vmodN x.dies d f })

/-- Counts of one pipeline stage: demotions, waits, replays, offloads. -/
def Mod.dailyStage (m : Mod) (j : Nat) (f : Nat × Nat × Nat × Nat → Nat × Nat × Nat × Nat) : Mod :=
  m.daily (fun x => { x with stages := vmodN x.stages j f })

/-- Lowest operating point of each die in service (R402). -/
def Mod.noteOps (m : Mod) : Mod :=
  (List.range 12).foldl (fun acc d =>
    if m.unitUp d then acc.dailyDie d (fun x => { x with minOp := min x.minOp (m.opInForce d) }) else acc) m

/-! Pace (R396 to R399). -/

/-- The cause code of a limit code (R397): cap, junction, HBM, ceiling; 0 for any other. -/
def paceCause (limit : Nat) : Fin 6 :=
  match limit with
  | 5 => 1 | 3 => 2 | 4 => 3 | 2 => 4 | _ => 0

/-- Limits whose action makes a member pace-setting (R397): ceiling, junction, HBM and cap. -/
def Mod.paceLimits (m : Mod) (k : Nat) : List (Nat × Nat) :=
  (m.ownLimits k).filter (fun l => l.1 != 7)

/-- The point the module's dies reach without the start limit, and the limit that sets it. -/
def Mod.ownPace (m : Mod) : Nat × Nat :=
  lowest ((List.range 12).map (fun k => lowest (m.paceLimits k)))

/-- The point that phase preferences alone would give. -/
def Mod.prefPace (m : Mod) : Nat := (List.range 12).foldl (fun acc k => min acc (m.prefOp k)) 7

/-- The pace message this module has in force, if it is pace-setting (R397). -/
def Mod.ownMessage (e : Env) (m : Mod) : Option PaceMsg :=
  match m.fab.number with
  | none => none
  | some num =>
    let p := m.ownPace
    if m.lockstep && m.pwr.group != 0 && (decide (p.2 < m.prefPace) || m.pwr.duty != 8) then
      some { member := num, op := Fin.ofNat 8 p.2, duty := m.pwr.duty, slate := BitVec.ofNat 64 e.now,
             cause := if m.pwr.duty != 8 then 5 else paceCause p.1 }
    else none

/-- Broadcast a pace message on VC1. -/
def Mod.sendPace (m : Mod) (p : PaceMsg) : Mod :=
  ({ m with fab.paceOut := m.fab.paceOut ++ [p] }).daily (fun x => { x with paceSent := satAdd 32 x.paceSent 1 })

/-- Broadcast a change of the module's pace, or its return with cause 0 (R397). -/
def Mod.syncPace (e : Env) (m : Mod) : Mod :=
  match m.pwr.lastPace, m.ownMessage e with
  | none, none => m
  | none, some p => ({ m with pwr.lastPace := some p }).sendPace p
  | some q, some p =>
    if q.op = p.op && q.duty = p.duty then m else ({ m with pwr.lastPace := some p }).sendPace p
  | some _, none =>
    let m' := { m with pwr.lastPace := none }
    match m.fab.number with
    | none => m'
    | some num =>
      if m.lockstep && m.pwr.group != 0 then
        m'.sendPace { member := num, op := Fin.ofNat 8 m.ownPace.2, duty := m.pwr.duty, cause := 0,
                      slate := BitVec.ofNat 64 e.now }
      else m'

/-- The lowest point that the module's dies reach under their own limits. -/
def Mod.ownLow (m : Mod) : Nat := (List.range 12).foldl (fun acc k => min acc (m.ownOp k)) 7

/-- The pace the module's dies are held to: point and duty. An announcement counts in lockstep class only (R396, R398). -/
def Mod.pace (m : Mod) : Nat × Nat := (if m.lockstep then m.lockOp else m.ownLow, m.dutyInForce)

/-- PACE_FOLLOW (R398): cause and module number of the pace-setting module. -/
def Mod.paceFollow (e : Env) (m : Mod) : Mod :=
  match lowestPace m.pwr.announced with
  | none => m
  | some p =>
    (m.unitEvent e.now .paceFollow mgmtRes (natLe 1 p.cause.val ++ natLe 3 p.member.toNat)).daily
      (fun x => { x with paceFollow := satAdd 32 x.paceFollow 1 })

/-! Room tone (R137, R400) and IDLE (R414). -/

/-- Whether the enable of a die's phase allows room tone. -/
def Mod.toneEnabled (m : Mod) (d : Nat) : Bool := m.pwr.ctrl.getLsbD (36 + m.phase d)

/-- Whether cap pressure, pacing or the response above 100 °C keeps room tone off a die (R394, R400). -/
def Mod.toneBarred (m : Mod) (d : Nat) : Bool :=
  m.capped || m.dutyInForce != 8 || (vget m.pwr.units d PUnit.cold).above

/-- Whether room tone may start on a die (R400): the phase's enable, no cap pressure or pacing, no junction response, W not 0. -/
def Mod.toneAllowed (m : Mod) (d : Nat) : Bool :=
  m.toneEnabled d && !m.toneBarred d && bits m.pwr.ctrl.toNat 15 0 != 0

/-- Stop room tone on a die (R394, R400). -/
def Die.toneOff (x : Die) : Die := { x with tiles := x.tiles.map (fun t => { t with tone := false }) }

/-- After a change of limits, of the duty or of the running tasks, room tone stops on the dies where it may no longer run. A change of the
enables or of W alone waits for the next gap (R400). -/
def Mod.trimTone (m before : Mod) : Mod :=
  { m with dies := m.dies.mapFinIdx (fun d x _ =>
      if m.toneBarred d || (m.phase d != before.phase d && !m.toneEnabled d) then x.toneOff else x) }

/-- IDLE: no task of any graph is running or pending on the die, and its room tone has ended. The array datapaths of such a die are
gated; the next task placed on it ends the state. It follows from the rest of the state, and no state is lost in it (R413, R414). -/
def Mod.idle (m : Mod) (d : Nat) : Bool :=
  m.unitUp d && !m.allNodes.any (fun x => x.2.2.1.dies.contains d && !x.2.2.2.isDone) &&
    !(vget m.dies d Die.cold).tiles.toList.any (fun t => t.tone)

/-- Apply a change of a limit or of an announcement, and let the pace and room tone answer it (R397, R398, R400). -/
def Mod.withPace (e : Env) (m : Mod) (f : Mod → Mod) : Mod :=
  let m' := f m
  let m' := if m'.lockstep && m'.following && decide (m'.pace ≠ m.pace) then m'.paceFollow e else m'
  ((m'.trimTone m).syncPace e).noteOps

/-! Commands (R389, R390). -/

/-- Clamp a cap (R390). -/
def clampCap (w : Nat) : Nat := max 2400 (min 7600 w)

/-- SET_CAP: the cap in force, clamped; a cap raised releases the hold of R393. -/
def setCap (e : Env) (m : Mod) : Mod :=
  m.command 0x0030 (fun _ => true) (fun n ent =>
    let w := entArg ent 8 4
    let c := clampCap w
    let raised := decide (m.pwr.cap.toNat < c)
    let m := { m with pwr.cap := BitVec.ofNat 16 c, pwr.unreachable := m.pwr.unreachable && !raised,
                      pwr.floor := if raised then 0 else m.pwr.floor }
    let m := m.daily (fun x => { x with minCap := min x.minCap c })
    m.complete e n ent (if c = w then .ok else .capClamped) (natLe 4 c))

def execSetCap (s : State) : Host.Outcome State Fault Refusal := runMod setCap s

/-- Replace the preference of one phase (R401: bits [3p+2:3p]). -/
def PUnit.setPref (u : PUnit) (p op : Nat) : PUnit :=
  let mask : BitVec 18 := 7#18 <<< (3 * p)
  { u with pref := (u.pref &&& ~~~mask) ||| (BitVec.ofNat 18 op <<< (3 * p)) }

/-- The preferences a SET_PHASE_OP changes: the dies of its DIEMASK; with 0, every die and the update dies (R389). -/
def Mod.setPrefs (m : Mod) (p op : Nat) (mask : BitVec 16) : Mod :=
  { m with pwr.units := m.pwr.units.mapFinIdx (fun k u _ =>
      if mask = 0 || (decide (k < 12) && mask.getLsbD k) then u.setPref p op else u) }

/-- SET_PHASE_OP (R389). -/
def setPhaseOp (e : Env) (m : Mod) : Mod :=
  m.command 0x0031 (fun _ => true) (fun n ent =>
    let m := m.withPace e (fun m => m.setPrefs (entArg ent 8 1) (entArg ent 9 1) (BitVec.ofNat 16 (entArg ent 0xA 2)))
    m.complete e n ent .ok [])

def execSetPhaseOp (s : State) : Host.Outcome State Fault Refusal := runMod setPhaseOp s

/-! PWR_CTRL (R396, R401). -/

/-- Writable bits of PWR_CTRL. -/
def pwrCtrlMask : Word := 0xFFFF83F0FFFFFFFF#64

/-- PACE_GROUP of a PWR_CTRL value. -/
def paceGroupOf (v : Word) : BitVec 16 := v.extractLsb' 48 16

/-- VGATE_US: the vector idle timeout in µs. -/
def Mod.vgateUs (m : Mod) : Nat := bits m.pwr.ctrl.toNat 31 16

/-- With VGATE_US 0 every vector engine of a die is on: those that were gated wake, each counted in the dailies (R167, R400;
DEDUCED, log 69). -/
def Mod.keepEngines (m : Mod) (d : Fin 12) : Mod :=
  if m.vgateUs != 0 || !m.unitUp d || (m.dies[d.val]).inReset then m
  else
    let gated := ((m.dies[d.val]).tiles.toList.filter (fun t => !t.gateOn)).length
    (m.updDie d (fun x => { x with tiles := x.tiles.map (fun t => { t with gateOn := true }) })).dailyDie d
      (fun x => { x with wakes := satAdd 32 x.wakes gated })

/-- A write to PWR_CTRL: the module registers with its leaf switches for a non-zero group (R396); the announcements of
another group no longer reach it. VGATE_US 0 turns every vector engine on (R400). -/
def writePwrCtrl (part : RegPart) (v : Word) (e : Env) (m : Mod) : Mod :=
  if !m.portUp then m
  else
    let m := m.withPace e (fun m =>
      let c := mergePart part m.pwr.ctrl v &&& pwrCtrlMask
      let g := paceGroupOf c
      { m with pwr.ctrl := c, pwr.group := g,
               pwr.announced := if g = m.pwr.group then m.pwr.announced else [] })
    (List.finRange 12).foldl Mod.keepEngines m

def execPwrCtrlWrite (part : RegPart) (v : Word) (s : State) : Host.Outcome State Fault Refusal :=
  runMod (writePwrCtrl part v) s

/-! Pace messages. -/

/-- Whether pace messages reach the module: registered for a group, with its links up, whatever its class (R396, R415). -/
def Mod.hearsPace (m : Mod) : Bool := m.ioUp && m.pwr.group != 0

/-- PACE_MESSAGE (R398, R399): an announcement comes into force, or ends with cause 0. A registered module in free-running class keeps
what is announced, and follows it once its class is lockstep (R396). -/
def paceMessage (p : PaceMsg) (e : Env) (m : Mod) : Mod :=
  if m.hearsPace && m.fab.number != some p.member then
    m.withPace e (fun m =>
      let others := m.pwr.announced.filter (fun x => x.member != p.member)
      { m with pwr.announced := if p.cause = 0 then others else others ++ [p] })
  else m

def execPaceMessage (msg : PaceMsg) (s : State) : Host.Outcome State Fault Refusal := runMod (paceMessage msg) s

/-- PACE_REPEAT: a pace-setting member repeats its message (R397). -/
def paceRepeat (e : Env) (m : Mod) : Mod :=
  match m.pwr.lastPace with
  | none => m
  | some p => if m.hearsPace && m.lockstep then m.sendPace { p with slate := BitVec.ofNat 64 e.now } else m

def execPaceRepeat (s : State) : Host.Outcome State Fault Refusal := runMod paceRepeat s

/-- PACE_LAPSED (R399): the event names the module. -/
def paceLapsed (member : BitVec 24) (e : Env) (m : Mod) : Mod :=
  if m.pwr.announced.any (fun x => x.member == member) then
    let m := m.unitEvent e.now .paceLapsed mgmtRes (natLe 3 member.toNat)
    m.withPace e (fun m => { m with pwr.announced := m.pwr.announced.filter (fun x => x.member != member) })
  else m

def execPaceLapsed (member : BitVec 24) (s : State) : Host.Outcome State Fault Refusal := runMod (paceLapsed member) s

/-! The cap controller (R391 to R393). -/

def PUnit.capDown (u : PUnit) : PUnit := { u with capPoint := u.capPoint - 1 }
def PUnit.capUp (u : PUnit) : PUnit := { u with capPoint := min 7 (u.capPoint + 1) }

/-- Change the cap points of the units that meet a condition. -/
def Mod.capMove (m : Mod) (sel : Nat → Bool) (f : PUnit → PUnit) : Mod :=
  { m with pwr.units := m.pwr.units.mapFinIdx (fun k u _ => if sel k then f u else u) }

/-- Whether the cap loops act: the module is past stage A, not in DEEP_PARK, and no trip has switched it off (R391, R402). -/
def Mod.metering (m : Mod) : Bool := m.life.powered && !m.life.trip && decide (1 ≤ m.life.stage)

/-- CAP_FAST_LOOP: current in 0.1 A, voltage in 10 mV, so that their product is in mW. Above 1.1 × cap every cap point
falls one (R391). The input is measured from power good on, in every stage and power state (R446). -/
def capFast (current voltage : Nat) (e : Env) (m : Mod) : Mod :=
  if !m.life.powered then m
  else
    let m := { m with pwr.i10us := BitVec.ofNat 16 (min current 0xFFFF), pwr.vin := BitVec.ofNat 16 (min voltage 0xFFFF) }
    if m.metering && decide (1100 * m.pwr.cap.toNat < current * voltage) then
      m.withPace e (fun m => m.capMove (fun _ => true) PUnit.capDown)
    else m

def execCapFastLoop (current voltage : Nat) (s : State) : Host.Outcome State Fault Refusal :=
  runMod (capFast current voltage) s

/-- Whether every die and update die has a cap point of OP0 (R392). -/
def Mod.allCapped (m : Mod) : Bool := m.pwr.units.toList.all (fun u => u.capPoint == 0)

/-- Units that the loops see: those in service. -/
def Mod.upUnits (m : Mod) : List Nat := (List.range 14).filter m.unitUp

/-- Highest and lowest operating points in force. -/
def Mod.topOp (m : Mod) : Nat := m.upUnits.foldl (fun acc k => max acc (m.opInForce k)) 0
def Mod.lowOp (m : Mod) : Nat := m.upUnits.foldl (fun acc k => min acc (m.opInForce k)) 7

/-- One interval above the cap (R391 to R393). -/
def Mod.overCap (e : Env) (m : Mod) (floor : Nat) : Mod :=
  let m := { m with pwr.below := 0 }
  if !m.allCapped then
    let top := m.topOp
    m.withPace e (fun m => m.capMove (fun k => m.unitUp k && m.opInForce k == top) PUnit.capDown)
  else if 1 < m.pwr.duty then m.withPace e (fun m => { m with pwr.duty := m.pwr.duty - 1 })
  else if m.pwr.unreachable then m
  else
    let f := min floor 0xFFFF
    ({ m with pwr.unreachable := true, pwr.floor := BitVec.ofNat 16 f }).unitEvent e.now .capUnreachable mgmtRes
      (natLe 2 f)

/-- One interval below 0.97 × cap: the duty returns to 8 step by step, and with a duty of 8 the lowest dies' cap points rise after 5
such intervals in a row (R391, R392). -/
def Mod.underCap (e : Env) (m : Mod) : Mod :=
  let m := { m with pwr.unreachable := false, pwr.floor := 0, pwr.below := min 5 (m.pwr.below + 1) }
  if m.pwr.duty < 8 then m.withPace e (fun m => { m with pwr.duty := m.pwr.duty + 1 })
  else if m.pwr.below < 5 then m
  else
    let low := m.lowOp
    m.withPace e (fun m =>
      ({ m with pwr.below := 0 }).capMove (fun k => m.unitUp k && m.opInForce k == low) PUnit.capUp)

/-- What one slow-loop interval adds to the dailies: 1 ms of its power and of each die's operating point (R402; log 14). -/
def Mod.dailyMs (m : Mod) (watts : Nat) : Mod :=
  let m1 := m.daily (fun x =>
    { x with energy := satAdd 64 x.energy watts, maxP := max x.maxP (min watts 0xFFFF),
             minCap := min x.minCap m.pwr.cap.toNat,
             belowDuty := if m.dutyInForce < 8 then satAdd 32 x.belowDuty 1000 else x.belowDuty })
  (List.range 12).foldl (fun acc d =>
    if m.unitUp d then
      acc.dailyDie d (fun x =>
        { x with opTime := vmodN x.opTime (m.opInForce d) (fun t => satAdd 32 t 1000),
                 toneUs := if (vget m.dies d Die.cold).tiles.toList.any (fun t => t.tone) then satAdd 32 x.toneUs 1000
                           else x.toneUs })
    else acc) m1

/-- The power of each unit over the last 1 ms (R401). -/
def Mod.meterUnits (m : Mod) (units : List Nat) : Mod :=
  { m with pwr.units := m.pwr.units.mapFinIdx (fun k u _ => { u with power := min (units.getD k 0) 0xFFFF }) }

/-- CAP_SLOW_LOOP: mean input power over 1 ms, the floor that firmware would estimate, and the power of each unit (R391 to R393,
R401). The loops go on in PARK, where no die is at an operating point: cap points stay, and the duty and the hold follow the power. The
mean power is measured in every stage and power state (R446). -/
def capSlow (watts floor : Nat) (units : List Nat) (e : Env) (m : Mod) : Mod :=
  let m := if m.life.powered then { m with pwr.p1ms := BitVec.ofNat 16 (min watts 0xFFFF) } else m
  if !m.metering then m
  else
    let m := (m.meterUnits units).dailyMs watts
    let cap := m.pwr.cap.toNat
    if cap < watts then m.overCap e floor
    else if 100 * watts < 97 * cap then m.underCap e
    else { m with pwr.below := 0 }

def execCapSlowLoop (watts floor : Nat) (units : List Nat) (s : State) : Host.Outcome State Fault Refusal :=
  runMod (capSlow watts floor units) s

/-- PACING_FRAME: the 8 µs frame that fabric time lies in starts (R392). -/
def pacingFrame (e : Env) (m : Mod) : Mod := { m with pwr.frameStart := e.now / 8000 * 8000 }

def execPacingFrame (s : State) : Host.Outcome State Fault Refusal := runMod pacingFrame s

/-- Whether a die may issue bundles and start tasks: always at duty 8/8, else in the first n µs of the frame (R392). -/
def Mod.paceOpen (e : Env) (m : Mod) (d : Nat) : Bool :=
  m.dutyInForce == 8 || decide (e.dieNow d - m.pwr.frameStart < 1000 * m.dutyInForce)

/-! Temperature (R394, R344). -/

/-- Junction response above 100 °C: one point at once, below the point in force when the limit comes into force, then one more each
1 ms (ten readings). -/
def PUnit.heat (u : PUnit) (op : Nat) : PUnit :=
  if !u.above || !u.hot then
    { u with hot := true, above := true, junction := (if u.hot then u.junction else op) - 1,
             fellFrom := if u.hot then u.fellFrom else op, hotReads := 0, coolReads := 0 }
  else if u.hotReads = 9 then { u with junction := u.junction - 1, hotReads := 0, coolReads := 0 }
  else { u with hotReads := u.hotReads + 1, coolReads := 0 }

/-- Junction response at 95 °C or below: once 10 ms have passed since the first such reading, one point up for each further 1 ms, until
the limit is lifted. Readings come every 100 µs, so the first rise falls on the 111th. The limit is lifted when it is back at the point
that was in force before it fell, as in the worked example under R399 (DEDUCED, log 51). -/
def PUnit.cool (u : PUnit) : PUnit :=
  let c := u.coolReads + 1
  if u.hot && decide (111 ≤ c) && c % 10 == 1 then
    if u.fellFrom ≤ u.junction + 1 then
      { u with junction := 7, fellFrom := 7, hot := false, above := false, hotReads := 0, coolReads := 0 }
    else { u with junction := u.junction + 1, above := false, hotReads := 0, coolReads := c }
  else { u with above := false, hotReads := 0, coolReads := if u.hot then c else 0 }

/-- Whether the domains of the dies are on (R386, R413). -/
def Mod.diesOn (m : Mod) : Bool := m.life.powered && !m.life.trip && m.life.pstate == .run

/-- JUNCTION_READ of unit `k` (R394). A powered unit that is not in service yet is read, and has no limit to move. -/
def junctionRead (k : Fin 14) (temp : Nat) (e : Env) (m : Mod) : Mod :=
  if !m.unitUp k then (if m.diesOn then m.updUnit k (fun u => { u with tj := temp }) else m)
  else
    let first := decide (100 < temp) && !(vget m.pwr.units k PUnit.cold).hot
    let op := m.opInForce k
    let m := m.withPace e (fun m => m.updUnit k (fun u =>
      let u := { u with tj := temp }
      if 100 < temp then u.heat op else if temp ≤ 95 then u.cool else { u with above := false, hotReads := 0, coolReads := 0 }))
    let m := m.dailyDie k (fun x => { x with maxTj := max x.maxTj (min temp 255) })
    let m := if 100 < temp && k < 12 then { m with dies := vmodN m.dies k Die.toneOff } else m
    if first then m.unitEvent (e.unitNow k) .thermalLimit (dieRes k) [] else m

def execJunctionRead (k : Fin 14) (temp : Nat) (s : State) : Host.Outcome State Fault Refusal :=
  runMod (junctionRead k temp) s

/-- Resource ID of an HBM stack: kind 5 under its host die. -/
def stackRes (st : Nat) : BitVec 32 := resId (hostDie st) 5 st

/-- A stack's response to a reading (R344). -/
def StackSt.read (x : StackSt) (temp : Nat) : StackSt :=
  let d := if 85 < temp then true else if temp ≤ 82 then false else x.doubled
  let c := if temp ≤ 90 then x.coolReads + 1 else 0
  if 95 < temp then { temp := temp, doubled := d, hot := true, coolReads := 0 }
  else if x.hot && c < 10 then { temp := temp, doubled := d, hot := true, coolReads := c }
  else { temp := temp, doubled := d, hot := x.hot && decide (90 < temp), coolReads := 0 }

/-- Whether a stack is powered and read: its die in service, or the module in PARK with its memories in self-refresh (R344, R386). -/
def Mod.stackRead (m : Mod) (st : Nat) : Bool :=
  m.unitUp (hostDie st) || (m.life.powered && !m.life.trip && m.life.pstate == .park)

/-- Whether an HBM stack is present and powered: its memory rail stays on in PARK (R386, R413). -/
def Mod.stackOn (g : Grade) (m : Mod) (st : Nat) : Bool :=
  decide (st < g.hbmStacks) && m.life.powered && !m.life.trip && m.life.pstate != .deepPark

/-- HBM_TEMP_READ (R344). A powered stack whose die is not in service yet is read alone. -/
def hbmTempRead (st : Fin 32) (temp : Nat) (e : Env) (m : Mod) : Mod :=
  if !m.stackRead st then
    (if m.stackOn e.fuses.grade st then { m with pwr.hbmStacks := vmod m.pwr.hbmStacks st (fun x => { x with temp := temp }) } else m)
  else
    let first := decide (95 < temp) && !(m.pwr.hbmStacks[st.val]).hot
    let m := m.withPace e (fun m => { m with pwr.hbmStacks := vmod m.pwr.hbmStacks st (fun x => x.read temp) })
    if first then m.unitEvent (e.dieNow (hostDie st)) .hbmHot (stackRes st) [] else m

def execHbmTempRead (st : Fin 32) (temp : Nat) (s : State) : Host.Outcome State Fault Refusal :=
  if st.val < s.fuses.grade.hbmStacks then runMod (hbmTempRead st temp) s else .fault .absentUnit

/-! Tile ceilings and sites (R37 to R40, R430). -/

/-- Active sites of a die with their logical tiles. -/
def Flash.active (f : Flash) (d : Nat) : List (Nat × Nat) :=
  ((List.range 64).filter (fun t => !f.isLost d t)).map (fun t => (f.site d t, t))

/-- Sites that carry no logical tile and have not failed. -/
def Flash.freeSites (f : Flash) (d : Nat) : List Nat :=
  (List.range 66).filter (fun x => !(f.active d).any (fun a => a.1 == x) && !f.failedSites.contains (d, x))

/-- The free spare with the highest aged ceiling, the lower number among equals (R430). -/
def Flash.bestSpare (f : Flash) (d : Nat) : Option Nat :=
  (f.freeSites d).foldl (fun acc x =>
    match acc with
    | none => some x
    | some y => if f.agedOf d y < f.agedOf d x then some x else some y) none

/-- Move a logical tile to a site. -/
def Flash.moveTile (f : Flash) (d t site : Nat) : Flash :=
  { f with siteOf := vmodN f.siteOf d (fun v => vmodN v t (fun _ => site)) }

/-- The site that CEILING_LOWERED names: the lowest active site whose aged ceiling is the die ceiling. The spec does not say which when
several share it (DESIGN CHOICE, log 53). -/
def Flash.ceilingSite (f : Flash) (d : Nat) : Nat :=
  ((List.range 66).find? (fun x => (f.active d).any (fun a => a.1 == x) && f.agedOf d x == f.dieCeiling d)).getD 0

/-- Apply a change of the site maps or ceilings of a die; CEILING_LOWERED names the die and the site that sets the new
ceiling by its resource ID, and carries the old and the new ceiling (R40, R429). -/
def Mod.withCeiling (e : Env) (m : Mod) (d : Nat) (f : Mod → Mod) : Mod :=
  let m' := m.withPace e f
  let old := m.flash.dieCeiling d
  let new := m'.flash.dieCeiling d
  if old = new then m'
  else m'.unitEvent (e.dieNow d) .ceilingLowered (resId d 1 (m'.flash.ceilingSite d)) (natLe 1 old ++ natLe 1 new)

/-- The aged ceiling falls to a measured value below it; it is never raised (R37). -/
def Flash.age (f : Flash) (d site op : Nat) : Flash :=
  { f with aged := vmodN f.aged d (fun v => vmodN v site (fun x => min x op)) }

/-- Whether a site whose aged ceiling is below OP5 is spared out: a free spare has one of OP5 or higher (R39). -/
def Flash.sparesLow (f : Flash) (d site : Nat) : Bool :=
  decide (f.agedOf d site < 5) && (f.active d).any (fun a => a.1 == site) &&
    (match f.bestSpare d with | some x => decide (5 ≤ f.agedOf d x) | none => false)

/-- Spare out the tile of a site whose aged ceiling is below OP5 when a free spare has one of OP5 or higher (R39). -/
def Flash.spareLow (f : Flash) (d site : Nat) : Flash :=
  match (f.active d).find? (fun a => a.1 == site), f.bestSpare d with
  | some (_, t), some x => if f.agedOf d site < 5 && 5 ≤ f.agedOf d x then f.moveTile d t x else f
  | _, _ => f

end Sys2Proof.Machine
end

