-- ==== Sys2Proof/Machine/Tile.lean ====
section
/-! DEFINITION. The tile (04_tile: R65 to R89): scratchpad, queues, the order of overlapping accesses, faults of a take, and
the NaN record of a die (R195 to R199). -/

namespace Sys2Proof.Machine

/-! Scratchpad (R66, R67, R85). -/

/-- Rows that a byte range touches. -/
def rowsOf (a n : Nat) : List Nat := if n = 0 then [] else (List.range ((a + n - 1) / 64 + 1 - a / 64)).map (fun i => a / 64 + i)

/-- Write bytes: the rows' written bits are set and their poison marks cleared (R67, R85). -/
def Pad.writeN (p : Pad) (a : Nat) (bs : List Byte) : Pad :=
  let rows := rowsOf a bs.length
  { bytes := Mem.writeN p.bytes a bs,
    written := rows.foldl (fun w r => if w.contains r then w else w ++ [r]) p.written,
    poison := p.poison.filter (fun r => !rows.contains r.1) }

/-- Read bytes; a row whose written bit is clear reads zero (its bytes were dropped at the start of the take, R67). -/
def Pad.readN (p : Pad) (a n : Nat) : List Byte := Mem.readN p.bytes a n

/-- The poisoned lines that the rows of a range were written from. -/
def Pad.badOf (p : Pad) (a n : Nat) : List (Nat × Nat) :=
  (p.poison.filter (fun r => (rowsOf a n).contains r.1)).map (fun r => r.2)

/-- Whether a range meets a poisoned row. -/
def Pad.poisoned (p : Pad) (a n : Nat) : Bool := !(p.badOf a n).isEmpty

/-- Mark the rows of a range poisoned, written from a line (R85). -/
def Pad.mark (p : Pad) (line : Nat × Nat) (a n : Nat) : Pad :=
  { p with poison := (rowsOf a n).foldl (fun w r => if w.contains (r, line) then w else w ++ [(r, line)]) p.poison }

/-- Address of element `i` of a checked descriptor. -/
def elemAddr (d : BitVec 128) (i : Nat) : Nat := (descAddr d i).toNat

/-- Bytes of elements `i` to `i + n - 1` of a stream (R73). -/
def Pad.readElems (p : Pad) (d : BitVec 128) (i n : Nat) : List Byte :=
  (List.range n).flatMap (fun k => p.readN (elemAddr d (i + k)) (descEsize d))

/-- Write elements `i` to `i + n - 1` of a stream from bytes. -/
def Pad.writeElems (p : Pad) (d : BitVec 128) (i n : Nat) (bs : List Byte) : Pad :=
  let e := descEsize d
  (List.range n).foldl (fun p k => p.writeN (elemAddr d (i + k)) (slice bs (k * e) e)) p

/-- The poisoned lines that those elements' rows were written from. -/
def Pad.elemsBad (p : Pad) (d : BitVec 128) (i n : Nat) : List (Nat × Nat) :=
  if p.poison.isEmpty then [] else (List.range n).flatMap (fun k => p.badOf (elemAddr d (i + k)) (descEsize d))

/-- Bytes `o` to `o + n - 1` that a stream yields (R131, R144). -/
def Pad.readBytes (p : Pad) (d : BitVec 128) (o n : Nat) : List Byte :=
  let e := descEsize d
  (List.range n).map (fun k => Mem.read p.bytes (elemAddr d ((o + k) / e) + (o + k) % e))

/-- Write bytes `o` upward along a stream. -/
def Pad.writeBytes (p : Pad) (d : BitVec 128) (o : Nat) (bs : List Byte) : Pad :=
  let e := descEsize d
  bs.foldl (fun (acc : Pad × Nat) b => (acc.1.writeN (elemAddr d (acc.2 / e) + acc.2 % e) [b], acc.2 + 1)) (p, o) |>.1

/-- The poisoned lines that bytes `o` to `o + n - 1` of a stream meet. -/
def Pad.bytesBad (p : Pad) (d : BitVec 128) (o n : Nat) : List (Nat × Nat) :=
  let e := descEsize d
  if n = 0 then [] else p.elemsBad d (o / e) ((o + n - 1) / e + 1 - o / e)

/-! Order of overlapping accesses (R76, R77). -/

def rangeMeets (a b : Nat × Nat) : Bool := decide (a.1 < b.1 + b.2) && decide (b.1 < a.1 + a.2)

/-- Whether an access must wait: an earlier incomplete access overlaps it and one of the two writes. -/
def Tile.blocked (t : Tile) (pos : Nat) (ranges : List (Nat × Nat)) (writes : Bool) : Bool :=
  t.accesses.any (fun a => decide (a.pos < pos) && (a.writes || writes) && a.ranges.any (fun r => ranges.any (rangeMeets r)))

/-- The accesses an issued operation or stream holds. -/
def Tile.accessOf (t : Tile) (pos : Nat) : List Access := t.accesses.filter (fun a => a.pos == pos)

/-- Whether the accesses at a position may move: none is blocked, none is marked waiting. -/
def Tile.accessFree (t : Tile) (pos : Nat) : Bool :=
  (t.accessOf pos).all (fun a => !a.waiting && !t.blocked pos a.ranges a.writes)

/-- Whether the access of one operand of the operation at a position may move: no access with its footprint is marked waiting. An access that
is held holds its own operand alone (R76). -/
def Tile.mayMove (t : Tile) (pos : Nat) (ranges : List (Nat × Nat)) (writes : Bool) : Bool :=
  (t.accessOf pos).all (fun a => a.writes != writes || a.ranges != ranges || !a.waiting)

/-- Whether the reads at a position may move. -/
def Tile.readsFree (t : Tile) (pos : Nat) : Bool := (t.accessOf pos).all (fun a => a.writes || !a.waiting)

/-- Mark the blocked accesses at a position as waiting. -/
def Tile.holdAccess (t : Tile) (pos : Nat) : Tile :=
  { t with accesses := t.accesses.map (fun a =>
      if a.pos == pos && t.blocked pos a.ranges a.writes then { a with waiting := true } else a) }

/-- The accesses at a position have completed. -/
def Tile.endAccess (t : Tile) (pos : Nat) : Tile := { t with accesses := t.accesses.filter (fun a => a.pos != pos) }

/-- The read of one operand of the operation at a position has completed, with its last element, though the operation goes on (R76). -/
def Tile.endRead (t : Tile) (pos : Nat) (ranges : List (Nat × Nat)) : Tile :=
  { t with accesses := t.accesses.eraseP (fun a => a.pos == pos && !a.writes && a.ranges == ranges) }

/-- ACCESS_PROCEEDS: a waiting access whose earlier overlapping access has completed proceeds (R76). -/
def Tile.proceed (t : Tile) (pos : Nat) : Tile :=
  { t with accesses := t.accesses.map (fun a =>
      if a.pos == pos && !t.blocked pos a.ranges a.writes then { a with waiting := false } else a) }

def execAccessProceeds (d : Fin 12) (t : Fin 64) (pos : Nat) (s : State) : Host.Outcome State Fault Refusal :=
  runMod (fun _ m => m.updTile d t (fun x => x.proceed pos)) s

/-! Queues (R78 to R80). -/

def queueDepth : Nat := 64

def Tile.queue (t : Tile) (q : Nat) : TQueue := vget t.queues q TQueue.empty
def Tile.updQueue (t : Tile) (q : Nat) (f : TQueue → TQueue) : Tile := { t with queues := vmodN t.queues q f }
/-- Whether an entry is marked poisoned (R85). -/
def QEntry.poisoned (x : QEntry) : Bool := !x.bad.isEmpty
def TQueue.room (q : TQueue) : Bool := decide (q.entries.length < queueDepth)
def TQueue.push (q : TQueue) (x : QEntry) : TQueue := { q with entries := q.entries ++ [x] }
def TQueue.drop (q : TQueue) : TQueue := { q with entries := q.entries.tail }

/-- Whether a stream or transfer bound to an end has moved its last element (R81). -/
def Tile.drained (t : Tile) (b : Binding) : Bool :=
  match b with
  | .stream d next _ _ => decide (descElems d ≤ next)
  | .dma x => !t.dmas.any (fun y => y.id == x && decide (y.moved < y.len))
  | _ => true

/-- Elements of a stream that one entry carries (R79). -/
def perEntry (d : BitVec 128) : Nat := 64 / descEsize d

/-! The running take. -/

/-- The graph and node that own a tile. -/
def Mod.ownerOf (m : Mod) (d : Fin 12) (t : Fin 64) : Option (Graph × Nat × Nat) :=
  match (m.tile d t).owner with
  | none => none
  | some (g, n) => (Tbl.find m.graphs g).map (fun gr => (gr, g, n))

/-- Whether a tile's task runs a take that no fault has ended (R299), on a die that is not held or in reset. A tile that has
stopped at a cut point issues no bundle, but its engines run on (R113). -/
def Mod.tileLive (m : Mod) (d : Fin 12) (t : Fin 64) : Bool :=
  match m.ownerOf d t with
  | none => false
  | some (gr, _, n) =>
    let r := gr.runOf n
    r.isRunning && r.outcome.isNone && (m.tile d t).outcome.isNone && !(m.tile d t).finished &&
      !(m.dies[d.val]).inReset && !(vget m.pwr.units d PUnit.cold).held && m.unitUp d

/-- Whether the operation, stream or transfer at a position awaits firmware's re-read of a word (R70). -/
def Tile.awaits (t : Tile) (pos : Nat) : Bool := t.reread.any (fun x => x.1 == pos)

/-- A double-bit error met at element `elem` of the access at a position (R70). -/
def Tile.doubleBit (t : Tile) (pos elem addr : Nat) : Tile := { t with reread := t.reread ++ [(pos, elem, addr)] }

/-- Reel ID of the node that owns a tile. -/
def Mod.tileReel (m : Mod) (d : Fin 12) (t : Fin 64) : Nat :=
  match m.ownerOf d t with
  | none => noReel
  | some (gr, _, n) => if (gr.node n).ty = tyTile then (gr.node n).reel.toNat else noReel
where
  /-- Reel ID of nodes without a reel (R196). -/
  noReel : Nat := 0xFFFFFFFF

/-- Slot codes of R436: 1 A to 6 C. -/
def slotM : Nat := 3
def slotV : Nat := 4
def slotQ : Nat := 5

/-- Detail bytes of a fault record from 0x15 on (R436). -/
def faultDetail (engine op slot : Nat) (module : Bool) (reel bundle vri resumes addr : Nat) : List Byte :=
  natLe 1 engine ++ natLe 1 op ++ natLe 1 (slot + if module then 128 else 0) ++ natLe 4 reel ++ natLe 4 bundle ++
    natLe 4 vri ++ natLe 1 resumes ++ List.replicate 3 0 ++ natLe 8 addr

/-- VRI field of faults that are no element faults. -/
def noVri : Nat := 0xFFFFFFFF

/-- End the take of the tile's task with a status. The first fault of a take is the one it carries. -/
def Mod.failTile (m : Mod) (d : Fin 12) (t : Fin 64) (st : Status) (detail : List Byte) : Mod :=
  match (m.tile d t).owner with
  | none => m
  | some (g, n) =>
    let m := m.updTile d t (fun x => { x with outcome := some (x.outcome.getD st), fault := if x.outcome.isNone then detail else x.fault })
    m.updRun g n (fun r => if r.outcome.isNone then { r with outcome := some st, detail := detail } else r)

/-- The lines whose poison ended the take of the tile's task, for the recompute (R220). -/
def Mod.blameTile (m : Mod) (d : Fin 12) (t : Fin 64) (bad : List (Nat × Nat)) : Mod :=
  match (m.tile d t).owner with
  | none => m
  | some (g, n) => m.updRun g n (fun r => if r.outcome.isNone then { r with blame := bad } else r)

/-- A fault of an M, V or Q operation that names no element. -/
def Mod.failOp (m : Mod) (d : Fin 12) (t : Fin 64) (st : Status) (engine op slot bundle : Nat) : Mod :=
  m.failTile d t st (faultDetail engine op slot false (m.tileReel d t) bundle noVri 0 0)

/-- Add to a note of a task (R183, R237, R382): notes of one code and extra value are one note. -/
def addNote (notes : List Note) (code : Status) (count lowest extra : Nat) : List Note :=
  match notes with
  | [] => [⟨code, count, lowest, extra⟩]
  | x :: r => if x.code = code && x.extra = extra then { x with count := x.count + count, lowest := min x.lowest lowest } :: r
              else x :: addNote r code count lowest extra

/-- Count results that an overflow made infinite (R183). -/
def Mod.noteOverflow (m : Mod) (d : Fin 12) (t : Fin 64) (k : Nat) : Mod :=
  match (m.tile d t).owner with
  | none => m
  | some (g, n) => if k = 0 then m else m.updRun g n (fun r => { r with notes := addNote r.notes .resultOverflow k 0 0 })

/-! The NaN record (R195 to R199). -/

/-- Where NaNs were written: engine, operation, output format, whether in module memory, reel, bundle or matrix index,
and the element index and address of the first. -/
structure NanSite where
  engine : Nat
  op : Nat
  fmt : Nat
  module : Bool
  reel : Nat
  bundle : Nat
  elem : Nat
  addr : Nat
deriving DecidableEq, Repr

/-- The 64 bytes of the NaN record (R196). -/
def nanBytes (slate : Nat) (res : BitVec 32) (task take : Nat) (x : NanSite) (count : Nat) (halt : Bool) : List Byte :=
  natLe 8 slate ++ natLe 2 (Status.code .nanFirst) ++ natLe 4 res.toNat ++ natLe 6 task ++ natLe 1 (min take 255) ++
    natLe 1 x.engine ++ natLe 1 x.op ++ natLe 1 (x.fmt + if x.module then 128 else 0) ++ natLe 4 x.reel ++
    natLe 4 x.bundle ++ natLe 4 x.elem ++ List.replicate 4 0 ++ natLe 8 x.addr ++ natLe 4 count ++
    natLe 1 (if halt then 1 else 0) ++ List.replicate 11 0

/-- NaNs of one operation reach a die's record together: the count rises by all of them, and an armed record is filled by
the first (R197, R199; log 16). Vector 65 is raised when it fills (R325). -/
def Mod.produceNan (e : Env) (m : Mod) (d : Fin 12) (g n take k : Nat) (x : NanSite) : Mod :=
  if k = 0 then m
  else
    let r := (m.dies[d.val]).nan
    let count := satAdd 32 r.count k
    if r.armed then
      let bytes := nanBytes (e.dieNow d) (dieRes d) (taskId g n) take x count r.halt
      let ctx := (Tbl.find m.graphs g).map (fun gr => gr.ctx)
      let m := m.updDie d (fun y => { y with nan := { r with armed := false, count := count, filled := some bytes } })
      (({ m with recs := m.recs.push ctx [bytes] 0 }).recVectors m.recs.unread .nanFirst).raise 65
    else m.updDie d (fun y => { y with nan := { r with count := count } })

/-- NaNs that a tile's operation wrote reach the die's record. -/
def Mod.tileNan (e : Env) (m : Mod) (d : Fin 12) (t : Fin 64) (k : Nat) (x : NanSite) : Mod :=
  match m.ownerOf d t with
  | none => m
  | some (gr, g, n) => m.produceNan e d g n (gr.runOf n).take k x

/-- Whether the policy of a die is HALT (R197). -/
def Mod.halts (m : Mod) (d : Fin 12) : Bool := (m.dies[d.val]).nan.halt

/-- An operation that has produced a NaN under HALT has completed: the task stops with NAN_FIRST (R198). -/
def Mod.haltTile (m : Mod) (d : Fin 12) (t : Fin 64) (halt : Bool) : Mod := if halt then m.failTile d t .nanFirst [] else m

/-- ARM_NAN_RECORD (R197): armed, count cleared, policy set. -/
def NanRec.arm (_r : NanRec) (halt : Bool) : NanRec := { armed := true, halt := halt, count := 0, filled := none }

def armNan (e : Env) (m : Mod) : Mod :=
  m.command 0x0032 (fun _ => true) (fun n ent =>
    let die := entArg ent 8 1
    let halt := entArg ent 9 1 == 1
    let m := { m with dies := m.dies.mapFinIdx (fun k x _ =>
      if die = 0xFF || k = die then { x with nan := x.nan.arm halt } else x) }
    m.complete e n ent .ok [])

def execArmNanRecord (s : State) : Host.Outcome State Fault Refusal := runMod armNan s

/-! Scratchpad errors (R69, R70, R426). -/

/-- A single-bit error is corrected and counted, and its row test scheduled (R69, R426). -/
def Mod.padError (e : Env) (m : Mod) (d : Fin 12) (t : Fin 64) (addr : Nat) : Mod :=
  m.noteError e (.padRow d (Fin.ofNat 66 (m.flash.site d t)) (Fin.ofNat 16 (bits addr 9 6)) (bits addr 21 10))

end Sys2Proof.Machine
end

