-- ==== Sys2Proof/Machine/Cues.lean ====
section
/-! DEFINITION. Cues and the starts of tasks (03_fabric_time: R55 to R64; R287, R289, R295, R439). -/

namespace Sys2Proof.Machine

/-- Whether a unit runs work: in service, not in reset, its rail not held. -/
def Mod.unitRuns (m : Mod) (k : Nat) : Bool :=
  m.unitUp k && !(vget m.pwr.units k PUnit.cold).held &&
    !(if k < 12 then (vget m.dies k Die.cold).inReset else (vget m.udies (k - 12) UDie.cold).inReset)

/-- Parts a node's work is divided into: tiles of a CONVERT, dies of the dense solver nodes (R226, R301). -/
def Node.partCount (n : Node) : Nat :=
  if n.ty = tyConvert then n.tiles.length
  else if n.ty = tyAssemble || n.ty = tyFactor || n.ty = tySolve then n.dies.length
  else 1

/-- Whether a node's units hold what its parts have read until the last of them does the work (R226, R301; DESIGN CHOICE, log 21): the tile
groups of an ITER_SOLVE, the update die of an UPDATE. -/
def Node.joint (x : Node) : Bool := x.ty == tyIter || x.ty == tyUpdate

/-- The parts of an engine node that a tile is at work on: a CONVERT's own parts of the tile that are not done, unless a retry has moved them to
another die; every part of a joint node until all are done. -/
def NRun.tileParts (r : NRun) (x : Node) (p : Fin 12 × Fin 64) : List Nat :=
  let k := r.parts.length / max 1 x.partCount
  (List.range r.parts.length).filter (fun i =>
    match r.parts[i]? with
    | none => false
    | some q =>
      if x.ty = tyConvert then !q.done && q.unit == p.1.val && x.tiles[i / k]? == some p
      else x.joint && !r.parts.all (fun q => q.done))

/-- Whether a take is running on a tile: a TILE take that has started, or parts of an engine node, without an outcome. -/
def Mod.takeOpen (m : Mod) (d : Fin 12) (t : Fin 64) : Bool :=
  match m.ownerOf d t with
  | none => false
  | some (gr, _, n) =>
    let r := gr.runOf n
    r.isRunning && r.outcome.isNone && (r.taken.contains d.val || (r.on.contains d.val && !(r.tileParts (gr.node n) (d, t)).isEmpty))

/-- The unit that a node's part runs on first: 0 to 11 compute dies, 12 and 13 update dies. -/
def Node.partUnit (n : Node) (part : Nat) : Nat :=
  if n.ty = tyConvert then (match n.tiles[part]? with | some x => x.1.val | none => 0)
  else if n.ty = tyAssemble || n.ty = tyFactor || n.ty = tySolve then n.dies.getD part 0
  else if n.udie < 2 then 12 + n.udie
  else n.dies.headD 0

/-- Whether a node runs on some unit. -/
def Node.placed (n : Node) : Bool := !n.dies.isEmpty || decide (n.udie < 2)

/-- The resource that a task's event records name: the tile site of the first tile of a node with tiles, the die of its first part
otherwise, the management processor for a node with no unit (R322, R429; log 12). -/
def Mod.nodeRes (m : Mod) (x : Node) : BitVec 32 :=
  match x.tiles with
  | p :: _ => resId p.1.val 1 (m.flash.site p.1 p.2)
  | [] => if x.placed then dieRes (x.partUnit 0) else mgmtRes

/-- An event of a task: slated by the unit of its first part, though the task spans several dies (DESIGN CHOICE, log 62: R55 does not say
which of their replicas); the management processor for a node with no unit (R55, R322). -/
def Mod.taskEvent (e : Env) (m : Mod) (g n : Nat) (st : Status) (detail : List Byte) : Mod :=
  match Tbl.find m.graphs g with
  | none => m
  | some gr =>
    let x := gr.node n
    let k := x.partUnit 0
    m.event (if x.placed then e.unitNow k else e.now) st (m.nodeRes x) (taskId g n)
      (gr.runOf n).take detail (some gr.ctx)

/-- One note in a record's detail: code, count, lowest place; the residual of a failed root, the bit of a matrix flag, or bucket
and element of a collective follow (log 12). -/
def Note.bytes (x : Note) (coll : Bool) : List Byte :=
  natLe 2 x.code.code ++ natLe 4 x.count ++
    (if coll then natLe 4 (x.lowest / 2 ^ 32) ++ natLe 4 (x.lowest % 2 ^ 32) else natLe 4 x.lowest) ++
    (if x.code = .rootUnconverged then natLe 8 x.extra else if x.extra = 0 then [] else natLe 1 (x.extra - 1))

/-- Notes packed into the details of event records, none divided: `cur` fills the first, each holds at most `cap` bytes. -/
def packNotes (cap : Nat) (cur : List Byte) (l : List (List Byte)) : List (List Byte) :=
  match l with
  | [] => [cur]
  | b :: r => if cur.length + b.length ≤ cap then packNotes cap (cur ++ b) r else cur :: packNotes cap b r

/-- The details of the event records that carry a task's notes, after its lateness if it was late: what the 42 detail bytes of one record do
not hold goes into further records of the same code (R61, R183, R237; DESIGN CHOICE, log 12). -/
def NRun.noteDetails (r : NRun) (ty : Nat) : List (List Byte) :=
  packNotes 42 (match r.late with | some l => natLe 8 l | none => []) (r.notes.map (fun x => x.bytes (ty == tyCollective)))

/-- Edges into a node. -/
def Graph.into (g : Graph) (n : Nat) : List Edge := g.edges.filter (fun x => x.succ == n)

/-- Successors of a node. -/
def Graph.succs (g : Graph) (n : Nat) : List Nat := (g.edges.filter (fun x => x.pred == n)).map (fun x => x.succ)

/-- Insert a number into a rising list without repeats. -/
def insertNat (x : Nat) (l : List Nat) : List Nat :=
  match l with
  | [] => [x]
  | y :: r => if x < y then x :: y :: r else if x = y then y :: r else y :: insertNat x r

/-- The dies whose comparators cue a node: its own, or a proxy (R59). A COPY on an update die is cued as an UPDATE there (DESIGN CHOICE,
log 62: R59's list does not name it). -/
def Node.cueDies (x : Node) : List Nat :=
  if x.udie = 0 then [0] else if x.udie = 1 then [5] else if x.dies.isEmpty then [0] else x.dies

/-- Whether a proxy cues the node (R59). -/
def Node.proxied (x : Node) : Bool := decide (x.udie < 2) || x.dies.isEmpty

/-- The dies whose comparators must fire for a node's launch time: for a CUE node, every die that holds a successor (R57, R287). A CUE node
without successors needs none, and completes as soon as its edges allow (DESIGN CHOICE, log 56). -/
def Graph.cueNeeds (g : Graph) (n : Nat) : List Nat :=
  let x := g.node n
  if x.cueT = 0 then []
  else if x.ty = tyCue then ((g.succs n).flatMap (fun i => (g.node i).cueDies)).foldr insertNat []
  else x.cueDies

/-- Whether a node's cue, if it has one, has fired on every die that it needs (R287, R372). -/
def Graph.cueFired (g : Graph) (n : Nat) : Bool := (g.cueNeeds n).all (fun d => (g.runOf n).cued.contains d)

/-- Whether a node's cue, if it has one, has fired for a start on a die (R58, R295). -/
def Graph.cueFiredOn (g : Graph) (n d : Nat) : Bool := !(g.cueNeeds n).contains d || (g.runOf n).cued.contains d

/-- Whether the launch of a proxied node waits for its proxy die: a comparator for its own cue, or for that of a CUE before it, has fired there
while the die did not run (R63). -/
def Graph.cueHeld (g : Graph) (n : Nat) : Bool :=
  let x := g.node n
  let waits := fun (i : Nat) => x.cueDies.any (fun d => (g.runOf i).cuedIn.contains d)
  x.proxied && ((x.ty != tyCue && waits n) || (g.into n).any (fun e => (g.node e.pred).ty == tyCue && waits e.pred))

/-- A die runs again: the launches of the comparators that have fired there meanwhile go out (R63). -/
def Mod.cuesProceed (m : Mod) (d : Nat) : Mod :=
  { m with graphs := m.graphs.map (fun (g : Nat × Graph) =>
      (g.1, { g.2 with run := g.2.run.map (fun r => { r with cuedIn := r.cuedIn.filter (fun k => k != d) }) })) }

/-- The launch time that a node is measured against: its own, which stands for its only cue predecessor (R287), else the latest of its
CUE predecessors' (R60; DESIGN CHOICE, log 62: R60 does not say which, where they differ). -/
def Graph.cueTime (g : Graph) (n : Nat) : Option Nat :=
  let x := g.node n
  if x.cueT != 0 then some x.cueT
  else
    ((g.into n).filter (fun e => (g.node e.pred).ty == tyCue)).foldl (fun acc e =>
      some (max (acc.getD 0) (g.node e.pred).cueT)) none

/-- The delay that cue jitter adds after a comparator fires: up to MAX_NS of PTB_CUE while the enable is set, drawn from the seeded
generator (R63, R439; a free value, log 2). -/
def Mod.cueJitter (m : Mod) (t : Nat) : Nat :=
  if (m.ptb.regs[0]).getLsbD 4 then
    Config.ptbDraw (bits (m.ptb.regs[0]).toNat 63 32) t % (bits (m.ptb.regs[5]).toNat 19 0 + 1)
  else 0

/-- How late a node starts at `now`: its start less its launch time, when the start lies outside the 48 ns, or 100 ns for a proxied node,
of R58 and R59. A start within that time is not late, whatever has delayed it: the last sentence of R60 is taken before its first two
(DESIGN CHOICE, log 56). Jitter does not count (R63): the whole of the draw is taken off, and widens that time, though it may have run out
before the task was ready (DESIGN CHOICE, log 62). -/
def Graph.lateness (g : Graph) (jitter now n : Nat) : Option Nat :=
  match g.cueTime n with
  | none => none
  | some t => if t + (if (g.node n).proxied then 100 else 48) + jitter < now then some (now - t - jitter) else none

/-- The larger of two latenesses. -/
def worseLate (a b : Option Nat) : Option Nat :=
  match a, b with
  | some x, some y => some (max x y)
  | some x, none => some x
  | none, y => y

/-- A node issues its first bundle or operation on a die, or, where a proxy cues it, anywhere: its start by the local replica or the
proxy's, and its lateness, measured on the first take (R55, R59, R60, R62). The retry of one part is a later take (DESIGN CHOICE, log 62). -/
def Mod.beginOn (e : Env) (m : Mod) (g n die : Nat) : Mod :=
  match Tbl.find m.graphs g with
  | none => m
  | some gr =>
    let x := gr.node n
    let r := gr.runOf n
    let d := if x.proxied then x.cueDies.headD 0 else die
    if r.begun.contains d then m
    else
      let now := e.dieNow d
      let late := if r.take ≤ 1 then gr.lateness (m.cueJitter ((gr.cueTime n).getD 0)) now n else none
      m.updRun g n (fun r =>
        { r with begun := r.begun ++ [d], start := if r.begun.isEmpty then now else r.start, late := worseLate r.late late })

/-- A node that is late once: TIM_LATE follows a task whose lateness is now known (R64). -/
def Mod.countLate (m : Mod) (before after : Option Nat) : Mod :=
  match after with
  | none => m
  | some l =>
    { m with lateMax := BitVec.ofNat 32 (max m.lateMax.toNat (min l (2 ^ 32 - 1))),
             lateCount := if before.isSome then m.lateCount else BitVec.ofNat 32 (satAdd 32 m.lateCount.toNat 1) }

/-- Lateness of a node so far. -/
def Mod.lateOf (m : Mod) (g n : Nat) : Option Nat :=
  match Tbl.find m.graphs g with | some gr => (gr.runOf n).late | none => none

/-- The first bundle or operation of a node on a die, with its effect on TIM_LATE (R55, R60, R64). -/
def Mod.begin (e : Env) (m : Mod) (g n die : Nat) : Mod :=
  let m' := m.beginOn e g n die
  m'.countLate (m.lateOf g n) (m'.lateOf g n)

/-- The first operation of a node on each of a list of dies. -/
def Mod.beginAll (e : Env) (m : Mod) (g n : Nat) (dies : List Nat) : Mod := dies.foldl (fun m d => m.begin e g n d) m

end Sys2Proof.Machine
end

