-- ==== Sys2Proof/Machine/Reels.lean ====
section
/-! DEFINITION. The reel store (05_reels: R90 to R92, R98, R102, R106, R107, R111, R149, R451): the checks of LOAD_REEL and
its remove form. -/

namespace Sys2Proof.Machine

/-! Field rules of one slot (check 6 of R91). -/

/-- A and B slots (R102). -/
def abOk (w : Nat) : Bool :=
  match slotOp w with
  | 0x00 => w == 0
  | 0x01 | 0x02 | 0x04 | 0x05 => bits w 13 0 == 0
  | 0x03 | 0x08 | 0x09 => true
  | 0x06 | 0x07 => bits w 17 6 == 0
  | 0x10 | 0x11 | 0x12 | 0x13 | 0x14 => bits w 25 24 == 0 && bits w 13 0 == 0
  | 0x18 => abField w != 7 && bits w 13 0 == 0
  | 0x1C => bits w 25 22 == 0 && bits w 15 0 == 0
  | 0x1D | 0x1E => bits w 21 18 == 0 && bits w 15 0 == 0
  | _ => false

/-- C slots (R107). -/
def cOk (w : Nat) : Bool :=
  match slotOp w with
  | 0x00 => w == 0
  | 0x01 => bits w 23 15 == 0
  | 0x02 => bits w 25 15 == 0
  | 0x03 => bits w 22 15 == 0
  | 0x04 => true
  | 0x3F => bits w 25 0 == 0
  | _ => false

/-- Whether an operand specification names an operand, or none (R101). -/
def isOperand (x : Nat) : Bool := (opSpec x).isOperand
def isNone (x : Nat) : Bool := x == 31

/-- Tensor-scale fields of an M slot: used with TS, else zero (R451). -/
def mTsOk (w : Nat) : Bool := mTs w || (mTsx w == 0 && mTsw w == 0)

/-- The table of R451. -/
def mOk (w : Nat) : Bool :=
  let low := bits w 14 0 == 0
  let plain := mTsx w == 0 && mTsw w == 0 && !mAxis w && !mTs w && !mAcc w
  let src2 := if isMx (mFmt w) then isOperand (mSrc2 w) else isNone (mSrc2 w)
  match mOp w with
  | 0 => w == 0
  | 1 => low && decide (mFmt w ≤ 8) && isOperand (mSrc w) && src2 && isNone (mDst w) && mAreg w == 0 && plain && mGb w == 0
  | 2 => low && decide (mFmt w ≤ 8) && isOperand (mSrc w) && src2 && mTsOk w &&
      (if mAcc w then isNone (mDst w) && decide (mGb w ≤ 41)
       else (isOperand (mDst w) || isNone (mDst w)) && mGb w == 0)
  | 3 => low && mFmt w == 0 && isNone (mSrc w) && isNone (mSrc2 w) && isOperand (mDst w) && mAreg w == 0 && plain &&
      decide (mGb w ≤ 41)
  | 4 => low && mFmt w == 0 && isOperand (mSrc w) && isNone (mSrc2 w) && isNone (mDst w) && mAreg w == 0 && plain &&
      decide (mGb w ≤ 41)
  | 5 => low && decide (mFmt w ≤ 3) && isOperand (mSrc w) && isOperand (mSrc2 w) && isOperand (mDst w) && plain && mGb w == 0
  | _ => false

/-- The six formats of the vector engine (R100). -/
def vFmt (f : Nat) : Bool := decide (f ≤ 3) || f == 9 || f == 10
def vFloat (f : Nat) : Bool := decide (f ≤ 3)

/-- Source formats of the widening operations (R149). -/
def widens (ty st : Nat) : Bool := (ty == 1 && (st == 2 || st == 3)) || (ty == 0 && st == 1)

/-- Which fields an operation uses: VD, VS1, VS2, VS3, MEM, AREG, STYPE. -/
structure VUse where
  vd : Bool := false
  s1 : Bool := false
  s2 : Bool := false
  s3 : Bool := false
  mem : Bool := false
  areg : Bool := false
  st : Bool := false

/-- Unused fields are zero, and MEM is 0b01_1111 unless used (R149). -/
def vUnused (w : Nat) (u : VUse) : Bool :=
  (u.vd || vVd w == 0) && (u.s1 || vVs1 w == 0) && (u.s2 || vVs2 w == 0) && (u.s3 || vVs3 w == 0) &&
    (if u.mem then isOperand (vMem w) else isNone (vMem w)) && (u.areg || vAreg w == 0) && (u.st || vStype w == 0)

/-- V slots (R149, R152). VD of a DOT.D that keeps its accumulator and VS3 of one that continues count as used fields, which may hold anything
(DESIGN CHOICE, log 63: R149 does not say). -/
def vOk (w : Nat) : Bool :=
  let t := vType w
  let st := vStype w
  let two : VUse := { vd := true, s1 := true, s2 := true }
  let one : VUse := { vd := true, s1 := true }
  let three : VUse := { vd := true, s1 := true, s2 := true, s3 := true }
  if vOp w = 0 then w == 0
  else bits w 17 0 == 0 &&
    match vOp w with
    | 0x01 => vFmt t && vUnused w { areg := true }
    | 0x02 => vFmt t && vUnused w { vd := true, mem := true }
    | 0x03 => vFmt t && vUnused w { s1 := true, mem := true }
    | 0x04 => vFmt t && vUnused w { vd := true, s2 := true, areg := true }
    | 0x05 => vFmt t && vUnused w { s1 := true, s2 := true, areg := true }
    | 0x06 => vFmt t && vUnused w { vd := true, s2 := true, areg := true, st := true }
    | 0x07 => vFmt t && vUnused w { s1 := true, s2 := true, areg := true, st := true }
    | 0x10 | 0x11 | 0x12 | 0x14 | 0x15 => vFmt t && vUnused w two
    | 0x13 => vFloat t && vUnused w three
    | 0x16 => decide (t ≤ 1) && vUnused w two
    | 0x17 => decide (t ≤ 1) && vUnused w one
    | 0x18 => widens t st && vUnused w { two with st := true }
    | 0x19 => widens t st && vUnused w { three with st := true }
    | 0x1A => t == 0 && decide (st < 4) &&
        vUnused w { three with st := true }
    | 0x1C => vFloat t && vUnused w { vd := true, s1 := true, s3 := true }
    | 0x1D => decide (t ≤ 1) && vUnused w { vd := true, s1 := true, s3 := true }
    | 0x1E => vFloat t && vUnused w one
    | 0x20 => vFmt t && vFmt st && t != st && vUnused w { one with st := true }
    | _ => false

/-- Whether a port suits an end: consumer ports 0, 1, 3, 4, 6; producer ports 2, 5, 7 (R106). -/
def portSuits (port : Nat) (consumer : Bool) : Bool :=
  if consumer then port == 0 || port == 1 || port == 3 || port == 4 || port == 6 else port == 2 || port == 5 || port == 7

/-- Which fields a Q operation uses: Q and END, SD, PORT, AREG, ALEN, REGION and CTR. -/
structure QUse where
  q : Bool := false
  sd : Bool := false
  port : Bool := false
  dma : Bool := false
  len : Bool := false

def qUnused (w : Nat) (u : QUse) : Bool :=
  (u.q || (qQ w == 0 && !qEnd w)) && (u.sd || qSd w == 0) && (u.port || qPort w == 0) &&
    (u.dma || (qAreg w == 0 && qRegion w == 0 && qCtr w == 0)) && (u.len || qAlen w == 0)

/-- Q slots (R106). -/
def qOk (w : Nat) : Bool :=
  if qOp w = 0 then w == 0
  else bits w 29 0 == 0 &&
    match qOp w with
    | 0x01 => qUnused w { q := true, sd := true }
    | 0x02 => qUnused w { q := true, port := true } && portSuits (qPort w) (qEnd w)
    | 0x03 | 0x04 => qUnused w { q := true }
    | 0x08 | 0x09 => qUnused w { sd := true, dma := true }
    | 0x0A => qUnused w { q := true, dma := true, len := true } && !qEnd w
    | 0x0B => qUnused w { q := true, dma := true, len := true } && qEnd w
    | _ => false

/-- A slot that is absent, or meets its rule. -/
def slotOk (f : Nat → Bool) (w : Option Nat) : Bool := match w with | none => true | some w => f w

/-- Check 6 on one bundle. -/
def Bundle.fieldsOk (b : Bundle) : Bool :=
  slotOk abOk b.a && slotOk abOk b.b && slotOk mOk b.m && slotOk vOk b.v && slotOk qOk b.q && slotOk cOk b.c

/-! Register writes of one bundle (check 9 of R91; R98). Registers are numbered A0 to A15 as 0 to 15, predicates from 16,
loop counts from 20. -/

def abWrites (w : Nat) : List Nat :=
  match slotOp w with
  | 0x01 | 0x02 | 0x03 | 0x04 | 0x05 | 0x06 | 0x07 | 0x08 | 0x09 | 0x1D | 0x1E => [abD w]
  | 0x10 | 0x11 | 0x12 | 0x13 | 0x14 => [16 + abPd w]
  | 0x1C => [20 + abN w]
  | _ => []

def Bundle.writes (b : Bundle) : List Nat :=
  (b.a.map abWrites).getD [] ++ (b.b.map abWrites).getD [] ++
    (match b.v with | some w => if vOp w = 1 then [vAreg w] else [] | none => [])

/-- No value twice. -/
def allDistinct (l : List Nat) : Bool :=
  match l with
  | [] => true
  | x :: r => !r.contains x && allDistinct r

/-! Branches and loops (checks 7, 8 and 11 of R91; R111). -/

def Bundle.cOp (b : Bundle) : Nat := match b.c with | some w => slotOp w | none => 0

/-- The branch or loop target of a bundle. -/
def Bundle.target (b : Bundle) : Option Nat :=
  match b.c with
  | some w => if slotOp w = 1 || slotOp w = 2 || slotOp w = 3 then some (cTarget w) else none
  | none => none

/-- A loop of a reel: its LOOP bundle, number, first and last bundle of its body. -/
structure Loop where
  at_ : Nat
  n : Nat
  first : Nat
  last : Nat
deriving DecidableEq, Repr

def Loop.inside (l : Loop) (i : Nat) : Bool := decide (l.first ≤ i) && decide (i ≤ l.last)

/-- Loops of a code, in bundle order. -/
def loopsOf (code : List Byte) (idx : List Nat) : List Loop :=
  idx.filterMap (fun i =>
    let b := bundleAt code i
    match b.c with
    | some w => if slotOp w = 1 then some ⟨i, cN w, i + b.len, cTarget w⟩ else none
    | none => none)

/-- The rules of R111 for one bundle: a loop against the others, a branch against every body, an END bundle. Where the bodies of two loops cross,
the LOOP bundle that stands inside the other body offends (DESIGN CHOICE, log 44). -/
def bundleFlowOk (loops : List Loop) (code : List Byte) (i : Nat) : Bool :=
  let b := bundleAt code i
  let isLoop := b.cOp == 1
  let isBranch := b.cOp == 2 || b.cOp == 3
  let own := loops.filter (fun l => l.at_ == i)
  let loopOk := own.all (fun l =>
    decide (l.first ≤ l.last) &&
      loops.all (fun o => !o.inside l.at_ || (decide (l.last ≤ o.last) && o.n != l.n)))
  let branchOk := match b.target with
    | some t => !isBranch || loops.all (fun o => o.inside i == o.inside t)
    | none => true
  let endOk := !loops.any (fun l => l.last == i) || (!isLoop && !isBranch)
  loopOk && branchOk && endOk

/-- Index of the first bundle that breaks the chain, or none (check 5 of R91). -/
def chainBreak (fuel : Nat) (code : List Byte) (parcels i : Nat) : Option Nat :=
  match fuel with
  | 0 => some i
  | fuel + 1 =>
    if i = parcels then none
    else
      let b := bundleAt code i
      if b.reserved ≠ 0 || b.len ≠ maskLen b.mask || parcels < i + b.len then some i
      else chainBreak fuel code parcels (i + b.len)

/-- What LOAD_REEL answers: passed, a failed check with its detail and bundle index, or ENGINE_ABSENT. -/
inductive ReelCheck where
  | ok
  | failed (detail idx : Nat)
  | engineAbsent
deriving DecidableEq, Repr

/-- Bundle index of a check that concerns no bundle. -/
def noIndex : Nat := 0xFFFFFFFF

/-- Binding bytes (R90): kind 0, 1 or 2; the port is zero unless the kind is 1, and suits its end. -/
def bindOk (x : Nat) (consumer : Bool) : Bool :=
  match bits x 7 4 with
  | 0 | 2 => bits x 3 0 == 0
  | 1 => portSuits (bits x 3 0) consumer
  | _ => false

/-- Check 4 of R91. -/
def headerOk (im : List Byte) : Bool :=
  bits (fieldAt im 6 2) 15 2 == 0 && bits (fieldAt im 0x14 4) 31 1 == 0 && zeroAt im 0x18 8 && zeroAt im 0x40 60 &&
    (List.range 16).all (fun q => bindOk (reelBind im q false) false && bindOk (reelBind im q true) true)

/-- First bundle that fails a test. -/
def firstBad (idx : List Nat) (ok : Nat → Bool) : Option Nat := idx.find? (fun i => !ok i)

/-- Checks 1 to 11 of R91 on an image of `len` bytes. -/
def imageCheck (im : List Byte) (len : Nat) : ReelCheck :=
  let cl := reelCodeLen im
  let code := reelCode im
  let parcels := cl / 2
  if len ≠ 128 + cl || cl % 2 ≠ 0 || cl < 2 || 65536 < cl then .failed 0x01 noIndex
  else if fieldAt im 0 4 ≠ 0x4C454552 || fieldAt im 4 2 ≠ 1 then .failed 0x02 noIndex
  else if reelCrc im ≠ crc32c (slice im 0 0x7C ++ code) then .failed 0x03 noIndex
  else if !headerOk im then .failed 0x04 noIndex
  else
    match chainBreak (parcels + 1) code parcels 0, bundleChain (parcels + 1) code parcels 0 with
    | some i, _ => .failed 0x06 i
    | none, none => .failed 0x06 noIndex
    | none, some idx =>
      match firstBad idx (fun i => (bundleAt code i).fieldsOk) with
      | some i => .failed 0x07 i
      | none =>
        if !idx.contains (reelEntry im) then .failed 0x05 noIndex
        else
          match firstBad idx (fun i => match (bundleAt code i).target with | some t => idx.contains t | none => true) with
          | some i => .failed 0x05 i
          | none =>
            let loops := loopsOf code idx
            match firstBad idx (bundleFlowOk loops code) with
            | some i => .failed 0x09 i
            | none =>
              match firstBad idx (fun i => allDistinct (bundleAt code i).writes) with
              | some i => .failed 0x0A i
              | none =>
                let fp64 := fun i => match (bundleAt code i).m with
                  | some w => reelFp64 im || !((mOp w == 1 || mOp w == 2 || mOp w == 5) && mFmt w == 0)
                  | none => true
                match firstBad idx fp64 with
                | some i => .failed 0x0B i
                | none =>
                  let z := idx.getLastD 0
                  let op := (bundleAt code z).cOp
                  if (op == 2 || op == 0x3F) && !loops.any (fun l => l.last == z) then .ok else .failed 0x0D z

/-- Whether two images are the same reel (R92: REEL_ID, CODE_LEN and CRC match). -/
def sameReel (a b : List Byte) : Bool := reelCodeLen a == reelCodeLen b && reelCrc a == reelCrc b

/-- Reels the store holds (R92). -/
def reelMax : Nat := 65536

/-- Place a reel that passed every check (R92). The store is PERSIST memory; its pages are spread from (REEL_ID mod S) on
(DESIGN CHOICE, log 15). -/
def Mod.storeReel (g : Grade) (m : Mod) (ctx : BitVec 32) (im : List Byte) : Status × Mod :=
  let id := (reelIdOf im).toNat
  if (Tbl.find m.mem.reels id).isSome then (.ok, m)
  else if reelMax ≤ m.mem.reels.length then (.capacityExceeded, m)
  else
    let order := m.turnOrder g true 0
    match m.placeMoving g true order (ceilDiv im.length Config.pageBytes) (startTurn order id) with
    | none => (.noSpace, m)
    | some (m, pages) => (.ok, { m with mem.reels := Tbl.put m.mem.reels id { ctx := ctx, image := im, pages := pages, lost := false } })

/-- The checks of R91, the store among them. -/
def Mod.reelCheck (g : Grade) (m : Mod) (im : List Byte) (len : Nat) : ReelCheck :=
  match imageCheck im len with
  | .ok =>
    match Tbl.find m.mem.reels (reelIdOf im).toNat with
    | some r => if sameReel r.image im then (if reelFp64 im && !g.hasFp64Engines then .engineAbsent else .ok)
                else .failed 0x0E 0
    | none => if reelFp64 im && !g.hasFp64Engines then .engineAbsent else .ok
  | r => r

/-- The firmware's tally channel computes the CRC of check 3, once checks 1 and 2 have passed (R91, R419). -/
def Mod.reelTally (m : Mod) (im : List Byte) (len : Nat) : Mod :=
  match imageCheck im len with
  | .failed 0x01 _ | .failed 0x02 _ => m
  | _ => { m with tally := vmodN m.tally 0 (fun c => c.check false (slice im 0 0x7C ++ reelCode im)) }

/-- LOAD_REEL: the module reads the image from host memory. A failure carries the detail code in bytes 0 to 3 and the
bundle index in bytes 4 to 7 of RESULT (R91; DESIGN CHOICE, log 12: the spec gives no bytes). -/
def loadReel (image : List Byte) (e : Env) (m : Mod) : Mod :=
  m.command 0x0010 (fun ent => entArg ent 0x14 1 == 0) (fun n ent =>
    let len := entArg ent 0x10 4
    let im := padTo len image
    let m := m.reelTally im len
    match m.reelCheck e.fuses.grade im len with
    | .failed d i => m.complete e n ent .reelCheckFailed (natLe 4 d ++ natLe 4 i)
    | .engineAbsent => m.complete e n ent .engineAbsent []
    | .ok =>
      let r := m.storeReel e.fuses.grade (entContext ent) im
      r.2.complete e n ent r.1 (if r.1 = .ok then natLe 4 (reelIdOf im).toNat else []))

def execLoadReel (image : List Byte) (s : State) : Host.Outcome State Fault Refusal := runMod (loadReel image) s

/-- Whether an unfinished graph names a reel (R317). -/
def Mod.reelBusy (m : Mod) (id : BitVec 32) : Bool :=
  m.graphs.any (fun g => g.2.nodes.any (fun n => n.ty == tyTile && n.reel == id))

/-- REEL_REMOVE (R92, R317). -/
def reelRemove (e : Env) (m : Mod) : Mod :=
  m.command 0x0010 (fun ent => entArg ent 0x14 1 == 1) (fun n ent =>
    let id := entArg ent 0x18 4
    if (Tbl.find m.mem.reels id).isNone then m.complete e n ent .objectUnknown []
    else if m.reelBusy (BitVec.ofNat 32 id) then m.complete e n ent .objectBusy []
    else (({ m with mem.reels := Tbl.del m.mem.reels id }).pagesFreed e).complete e n ent .ok (natLe 4 id))

def execReelRemove (s : State) : Host.Outcome State Fault Refusal := runMod reelRemove s

end Sys2Proof.Machine
end

