-- ==== Sys2Proof/Machine/Bundle.lean ====
section
/-! DEFINITION. Issue of a bundle (05_reels: R97 to R110, R113; R146, R147, R166): the address unit, the flow of control,
and the operations that join their units' queues. -/

namespace Sys2Proof.Machine

/-! The address unit (R102, R103). -/

/-- Registers that the slots of one bundle write; every slot reads the tile as it stood before (R97). -/
def Tile.areg (t : Tile) (i : Nat) : AWord := vget t.a i 0

/-- A shift by 48 or more gives zero (R103). -/
def shl48 (x : AWord) (k : Nat) : AWord := if 48 ≤ k then 0 else x <<< k
def shr48 (x : AWord) (k : Nat) : AWord := if 48 ≤ k then 0 else x >>> k

/-- Signed immediates of R102. -/
def imm18 (w : Nat) : AWord := BitVec.ofInt 48 (signed 18 (abImm18 w))
def imm22 (w : Nat) : AWord := BitVec.ofInt 48 (signed 22 (abImm22 w))

/-- The value that an A-register operation writes (R102). -/
def abValue (t : Tile) (w : Nat) : Option AWord :=
  let x := t.areg (abS1 w)
  let y := t.areg (abS2 w)
  match slotOp w with
  | 0x01 => some (x + y)
  | 0x02 => some (x - y)
  | 0x03 => some (x + imm18 w)
  | 0x04 => some (shl48 x (y.toNat % 64))
  | 0x05 => some (shr48 x (y.toNat % 64))
  | 0x06 => some (shl48 x (abImm18 w % 64))
  | 0x07 => some (shr48 x (abImm18 w % 64))
  | 0x08 => some (imm22 w)
  | 0x09 => some ((BitVec.ofNat 48 (abImm22 w) <<< 26) ||| (t.areg (abD w) &&& 0x3FFFFFF#48))
  | 0x1D => some (BitVec.ofNat 48 (vget t.lc (abN w) 0).toNat)
  | 0x1E => some (BitVec.ofNat 48 (vget t.lrc (abN w) 0).toNat)
  | _ => none

/-- The predicate that a comparison writes (R102). -/
def abPred (t : Tile) (w : Nat) : Option Bool :=
  let x := t.areg (abS1 w)
  let y := t.areg (abS2 w)
  match slotOp w with
  | 0x10 => some (x == y)
  | 0x11 => some (x != y)
  | 0x12 => some (x.slt y)
  | 0x13 => some (x.ult y)
  | 0x14 => some (!x.slt y)
  | _ => none

/-- A field of a descriptor replaced (SDSET, R102). -/
def setField (old : BitVec 128) (lo len : Nat) (v : Nat) : BitVec 128 :=
  let mask : BitVec 128 := BitVec.ofNat 128 ((2 ^ len - 1) * 2 ^ lo)
  (old &&& ~~~mask) ||| BitVec.ofNat 128 (v % 2 ^ len * 2 ^ lo)

/-- SDSET (R102): FIELD 0 writes bits [24:0] and clears [31:25]; 1 to 3 the counts; 4 to 6 the strides. -/
def sdset (old : BitVec 128) (field : Nat) (src : AWord) : BitVec 128 :=
  match field with
  | 0 => setField old 0 32 (src.toNat % 2 ^ 25)
  | 7 => old
  | f => setField old (32 + 16 * (f - 1)) 16 src.toNat

/-- Apply an A or B slot to the new tile `t'`, reading the old tile `t` (R97). -/
def abApply (t t' : Tile) (w : Nat) : Tile :=
  match slotOp w with
  | 0x18 => { t' with sd := vmodN t'.sd (abSd w) (fun o => sdset o (abField w) (t.areg (abS2 w))) }
  | 0x1C => { t' with lc := vmodN t'.lc (abN w) (fun _ => (t.areg (abS1 w)).setWidth 32) }
  | _ =>
    match abValue t w, abPred t w with
    | some v, _ => { t' with a := vmodN t'.a (abD w) (fun _ => v) }
    | none, some b =>
      let bit : BitVec 4 := 1#4 <<< abPd w
      { t' with p := if b then t'.p ||| bit else t'.p &&& ~~~bit }
    | none, none => t'

/-- Largest vector length of a format (R145). -/
def vlMax (long : Bool) (ty : Nat) : Nat := (if long then 4096 else 128) / fmtBits ty

/-- SETVL (R146). -/
def setvl (t t' : Tile) (w : Nat) : Tile :=
  let k := min (t.areg (vAreg w)).toNat (vlMax t.long (vType w))
  { t' with vl := k, a := vmodN t'.a (vAreg w) (fun _ => BitVec.ofNat 48 k) }

/-! Flow of control (R107, R109, R110). -/

/-- After the issue of a bundle that ends loops: each loop that ends here counts one down, the inner one first; the first
that has iterations left sends issue back to its body. -/
def loopEnd (loops : List LoopSt) (lrc : Vector (BitVec 32) 4) (i next : Nat) :
    List LoopSt × Vector (BitVec 32) 4 × Nat :=
  match loops with
  | [] => ([], lrc, next)
  | l :: r =>
    if l.last = i then
      let left := vget lrc l.n 0 - 1
      let lrc := vmodN lrc l.n (fun _ => left)
      if left = 0 then loopEnd r lrc i next else (l :: r, lrc, l.first)
    else (l :: r, lrc, next)

/-- Where issue goes after the bundle at `i`, and the loops it is in. The innermost loop stands first. A LOOP with count zero goes on after its
END (R109); a loop around it that ends at the same bundle is left with it, its LRC as it stands (DESIGN CHOICE, log 44: R109 does not say). -/
def Tile.flow (t t' : Tile) (code : List Byte) (b : Bundle) (i : Nat) : Tile :=
  let next := i + b.len
  match b.c with
  | some w =>
    match slotOp w with
    | 0x01 =>
      let n := cN w
      let k := vget t.lc n 0
      let t' := { t' with lrc := vmodN t'.lrc n (fun _ => k) }
      if k = 0 then
        let after := cTarget w + (bundleAt code (cTarget w)).len
        { t' with pc := after, loops := t'.loops.filter (fun l => decide (l.first ≤ after) && decide (after ≤ l.last)) }
      else { t' with pc := next, loops := ⟨n, next, cTarget w⟩ :: t'.loops.filter (fun l => l.n != n) }
    | 0x02 => { t' with pc := cTarget w }
    | 0x03 => { t' with pc := if t.p.getLsbD (cN w) == cSense w then cTarget w else next }
    | op =>
      let r := loopEnd t'.loops t'.lrc i next
      { t' with loops := r.1, lrc := r.2.1, pc := r.2.2, doneSeen := t'.doneSeen || op == 0x3F }
  | none =>
    let r := loopEnd t'.loops t'.lrc i next
    { t' with loops := r.1, lrc := r.2.1, pc := r.2.2 }

/-! Issue of M, V and Q operations (R97): operands, descriptors and lengths are latched. -/

/-- An operand as latched. -/
def Tile.latch (t : Tile) (x : Nat) : Opnd :=
  match opSpec x with
  | .queue n => .queue n
  | .slot n => .desc (vget t.sd n 0)
  | _ => .none

/-- Footprint of a latched descriptor operand; none for one that its use will refuse (R74, R76). -/
def Opnd.ranges (o : Opnd) : List (Nat × Nat) :=
  match o with
  | .desc d => if descOk d then descRanges d else []
  | _ => []

/-- An access at a position, if it has a footprint. -/
def access (pos : Nat) (ranges : List (Nat × Nat)) (writes : Bool) : List Access :=
  if ranges.isEmpty then [] else [⟨pos, ranges, writes, false⟩]

/-- The whole scratchpad: a gather or scatter until its addresses are formed (R76). -/
def wholePad : List (Nat × Nat) := [(0, Config.padBytes)]

/-- The M operation a slot issues. -/
def Tile.mIssue (t : Tile) (pos i w : Nat) : MOp :=
  { bundle := i, pos := pos, op := mOp w, fmt := mFmt w, src := t.latch (mSrc w), src2 := t.latch (mSrc2 w),
    dst := t.latch (mDst w), count := (t.areg (mAreg w)).toNat, tsx := (t.areg (mTsx w)).setWidth 32,
    tsw := (t.areg (mTsw w)).setWidth 32, axis := mAxis w, acc := mAcc w, ts := mTs w, gb := mGb w, started := false,
    vec := 0, buf := [], buf2 := [], vlen := none, out := [], written := 0, accs := [], masks := [], halt := false }

/-- The V operation a slot issues. -/
def Tile.vIssue (t : Tile) (pos i w : Nat) : VOp :=
  { bundle := i, pos := pos, op := vOp w, ty := vType w, vd := vVd w, vs1 := vVs1 w, vs2 := vVs2 w, vs3 := vVs3 w,
    mem := t.latch (vMem w), base := t.areg (vAreg w), stype := vStype w, vl := t.vl, vri := 0, resumes := 0,
    started := false, idx := none, replies := [], bad := [] }

/-- The Q operation a slot issues. -/
def Tile.qIssue (t : Tile) (pos i w : Nat) : QOp :=
  { bundle := i, pos := pos, op := qOp w, q := Sys2Proof.Machine.qQ w, consumer := qEnd w, desc := vget t.sd (qSd w) 0, port := qPort w,
    offset := (t.areg (qAreg w)).toNat, len := (t.areg (qAlen w)).toNat, region := qRegion w, ctr := qCtr w }

/-- Accesses of an M operation, one for each descriptor operand: two are read, one is written. They have one position, so that none of them
waits for another: R76 gives the operands of one operation no order, and where its source and destination overlap it reads what it has
written so far (DESIGN CHOICE, log 61). -/
def MOp.accesses (o : MOp) : List Access :=
  access o.pos o.src.ranges false ++ access o.pos o.src2.ranges false ++ access o.pos o.dst.ranges true

/-- Accesses of a V operation (R155, R156). -/
def VOp.accesses (o : VOp) : List Access :=
  match o.op with
  | 0x02 => access o.pos o.mem.ranges false
  | 0x03 => access o.pos o.mem.ranges true
  | 0x04 => access o.pos wholePad false
  | 0x05 => access o.pos wholePad true
  | _ => []

/-- Accesses of a Q operation: a stream it binds, a transfer it starts (R76). -/
def QOp.accesses (o : QOp) : List Access :=
  let r := Opnd.ranges (.desc o.desc)
  match o.op with
  | 0x01 => access o.pos r o.consumer
  | 0x08 => access o.pos r true
  | 0x09 => access o.pos r false
  | _ => []

/-- Operations a unit's queue holds (R97). -/
def unitDepth : Nat := 8

/-- Slot operations other than NOP, per unit. -/
def Bundle.mReal (b : Bundle) : Option Nat := b.m.filter (fun w => mOp w != 0)
def Bundle.vReal (b : Bundle) : Option Nat := b.v.filter (fun w => decide (1 < vOp w))
def Bundle.qReal (b : Bundle) : Option Nat := b.q.filter (fun w => qOp w != 0)

/-- Every unit that the bundle names can accept its operation (R97), and a gated vector engine has woken (R166). -/
def Tile.accepts (t : Tile) (b : Bundle) : Bool :=
  (match b.mReal with
   | some w => if mOp w = 5 then decide (t.mvQ.length < unitDepth) else decide (t.arrayQ.length < unitDepth)
   | none => true) &&
  (match b.vReal with | some _ => t.gateOn && decide (t.vecQ.length < unitDepth) | none => true) &&
  (match b.qReal with | some _ => decide (t.qQ.length < unitDepth) | none => true)

/-- WAITC (R107). -/
def Tile.waitOk (t : Tile) (b : Bundle) : Bool :=
  match b.c with
  | some w => slotOp w != 4 || decide (cCount w ≤ (vget t.ctr (cN w) 0).toNat)
  | none => true

/-- Every operation, stream and transfer has completed (R99, R107). -/
def Tile.quiet (t : Tile) : Bool :=
  t.arrayQ.isEmpty && t.mvQ.isEmpty && t.vecQ.isEmpty && t.qQ.isEmpty && t.dmas.isEmpty &&
    t.queues.toList.all (fun q => t.drained q.prod && t.drained q.cons)

/-- Operations that are array work in the sense of R137: MLOAD, MMUL and MGRAD. -/
def arrayWork (op : Nat) : Bool := op == 1 || op == 2 || op == 3

/-- Put the operations of a bundle into their queues. In program order the accesses of a bundle's M slot stand before those of its V
slot, and these before those of its Q slot (DESIGN CHOICE, log 55). Array work ends room tone (R137). -/
def Tile.enqueue (t t' : Tile) (b : Bundle) (i : Nat) : Tile :=
  let pos := 4 * t.nextPos
  let t' := { t' with nextPos := t.nextPos + 1 }
  let t' := match b.mReal with
    | some w =>
      let o := t.mIssue pos i w
      let t' := { t' with accesses := t'.accesses ++ o.accesses, tone := t'.tone && !arrayWork (mOp w) }
      if mOp w = 5 then { t' with mvQ := t'.mvQ ++ [o] } else { t' with arrayQ := t'.arrayQ ++ [o] }
    | none => t'
  let t' := match b.vReal with
    | some w =>
      let o := t.vIssue (pos + 1) i w
      { t' with accesses := t'.accesses ++ o.accesses, vecQ := t'.vecQ ++ [o] }
    | none => t'
  match b.qReal with
  | some w =>
    let o := t.qIssue (pos + 2) i w
    { t' with accesses := t'.accesses ++ o.accesses, qQ := t'.qQ ++ [o] }
  | none => t'

/-- Issue the bundle at the program counter: A, B and C operations complete, the others join their queues. Where two SDSETs of the bundle
write one field of one slot, the B slot's value stays (DESIGN CHOICE, log 55). -/
def Tile.issue (t : Tile) (cutHere : Bool) : Tile :=
  let b := bundleAt t.imem t.pc
  let t' := if cutHere then { t with cutCount := t.cutCount + 1 } else t
  let t' := match b.a with | some w => abApply t t' w | none => t'
  let t' := match b.b with | some w => abApply t t' w | none => t'
  let t' := match b.v with | some w => if vOp w = 1 then setvl t t' w else t' | none => t'
  t.flow (t.enqueue t' b t.pc) t.imem b t.pc

/-- Whether the next bundle may issue, the cut point and pacing apart. -/
def Tile.canIssue (t : Tile) : Bool :=
  let b := bundleAt t.imem t.pc
  !t.doneSeen && !t.suspended && t.accepts b && t.waitOk b && (!b.fence || t.quiet)

/-- Whether a graph's cut point names a node (R112). -/
def Graph.cutsNode (g : Graph) (n : Nat) : Bool := bitAt g.hdr.flags 1 && g.hdr.cutNode == n

/-- Pass count of the cut point; 0 means 1 (R281). -/
def Graph.cutPass (g : Graph) : Nat := max 1 g.hdr.cutPass

/-- The row test of an instruction-memory word (R68, R69; DESIGN CHOICE, log 55: the word's row of 64 bytes). -/
def Mod.imemRow (m : Mod) (d : Fin 12) (t : Fin 64) (addr : Nat) : TestRes :=
  .imemRow d (Fin.ofNat 66 (m.flash.site d t)) (addr / 64)

/-- A memory error in the words of the bundle to be fetched: a single-bit error is corrected and counted, a double-bit error fails the
take; either way the reel is copied again before the tile's next task or take uses it (R69, R70, R93). -/
def Mod.fetchError (e : Env) (m : Mod) (d : Fin 12) (t : Fin 64) (err : OpErr) : Mod :=
  let met := fun (m : Mod) (a : Nat) => (m.noteError e (m.imemRow d t a)).updTile d t (fun x => { x with imemBad := true, imemSeen := true })
  match err with
  | .single a => met m a
  | .double _ a =>
    (met m a).failTile d t .scratchUncorrectable (faultDetail 0 0 0 false (m.tileReel d t) (m.tile d t).pc noVri 0 0)
  | _ => m

/-- BUNDLE_ISSUE: a tile stops instead of issuing the named bundle for the pass count, as soon as that bundle is the next one, though
a WAITC, a FENCE or a full unit would hold it yet (R113; DESIGN CHOICE, log 55: the spec does not say whether it must be able to issue). The
first bundle on a die is the task's
start there (R55). -/
def bundleIssue (d : Fin 12) (t : Fin 64) (err : OpErr) (e : Env) (m : Mod) : Mod :=
  match m.ownerOf d t with
  | none => m
  | some (gr, g, n) =>
    let x := m.tile d t
    if !m.tileLive d t || x.cutStop || x.doneSeen || x.suspended || !m.paceOpen e d then m
    else
      let named := gr.cutsNode n && x.pc == gr.hdr.cutBundle
      if named && decide (gr.cutPass ≤ x.cutCount + 1) then
        m.updTile d t (fun x => { x with cutStop := true, cutHit := true, stopSlate := e.dieNow d })
      else
        let m := m.fetchError e d t err
        if m.tileLive d t && x.canIssue then
          (m.begin e g n d).updTile d t (fun x =>
            let y := x.issue named
            if y.doneSeen then { y with stopSlate := e.dieNow d } else y)
        else m

def execBundleIssue (d : Fin 12) (t : Fin 64) (err : OpErr) (s : State) : Host.Outcome State Fault Refusal :=
  runMod (bundleIssue d t err) s

/-- DONE: the tile's part of the take ends once everything it issued has completed (R107). A tile that executes DONE
while another has stopped at the cut point stops as well (R113). -/
def doneTile (d : Fin 12) (t : Fin 64) (e : Env) (m : Mod) : Mod :=
  let x := m.tile d t
  if m.tileLive d t && !x.cutStop && x.doneSeen && x.quiet && !x.suspended then
    m.updTile d t (fun x => { x with finished := true, stopSlate := e.dieNow d })
  else m

def execDone (d : Fin 12) (t : Fin 64) (s : State) : Host.Outcome State Fault Refusal := runMod (doneTile d t) s

/-! The vector power gate (R165 to R167). -/

/-- Whether the vector engine is idle (R165). -/
def Tile.vectorIdle (t : Tile) : Bool := t.vecQ.isEmpty && !t.suspended

/-- VECTOR_IDLE_TIMEOUT: an idle engine is gated, unless VPIN holds it on until the take ends, or VGATE_US is 0 (R165, R167, R400). -/
def vectorIdleTimeout (d : Fin 12) (t : Fin 64) (_e : Env) (m : Mod) : Mod :=
  let x := m.tile d t
  let pinned := x.vpin && m.takeOpen d t
  if x.gateOn && x.vectorIdle && !pinned && m.vgateUs != 0 then m.updTile d t (fun x => { x with gateOn := false }) else m

def execVectorIdleTimeout (d : Fin 12) (t : Fin 64) (s : State) : Host.Outcome State Fault Refusal :=
  runMod (vectorIdleTimeout d t) s

/-- Turn the engine on; each wake is counted in the dailies (R167). -/
def Mod.wakeVector (m : Mod) (d : Fin 12) (t : Fin 64) : Mod :=
  if (m.tile d t).gateOn then m
  else (m.updTile d t (fun x => { x with gateOn := true })).dailyDie d (fun x => { x with wakes := satAdd 32 x.wakes 1 })

/-- VECTOR_WAKE: 300 ns after a bundle with a V operation became next to issue, the engine is on (R166). -/
def vectorWake (d : Fin 12) (t : Fin 64) (_e : Env) (m : Mod) : Mod :=
  let x := m.tile d t
  if m.tileLive d t && (bundleAt x.imem x.pc).vReal.isSome && !x.doneSeen then m.wakeVector d t else m

def execVectorWake (d : Fin 12) (t : Fin 64) (s : State) : Host.Outcome State Fault Refusal := runMod (vectorWake d t) s

/-- ROOM_TONE_END: the window has passed; no state but the tone changes (R137, R138). -/
def execRoomToneEnd (d : Fin 12) (t : Fin 64) (s : State) : Host.Outcome State Fault Refusal :=
  runMod (fun _ m => m.updTile d t (fun x => { x with tone := false })) s

/-- A tile whose array has no work left runs room tone (R137). -/
def Tile.gap (x : Tile) : Tile := if x.arrayQ.any (fun o => arrayWork o.op) then x else { x with tone := true }

/-- A gap of the array starts when it has no array work left: room tone runs from there (R137). -/
def Mod.gap (m : Mod) (d : Fin 12) (t : Fin 64) : Mod :=
  if m.toneAllowed d then m.updTile d t Tile.gap else m

/-- The operations that a take left in the units' queues are gone with it, a suspended one and re-reads among them (R162, R165); a gap starts
where array work was among them (R137). -/
def Mod.dropOps (m : Mod) (d : Fin 12) (t : Fin 64) : Mod :=
  let had := (m.tile d t).arrayQ.any (fun o => arrayWork o.op)
  let m := m.updTile d t (fun x => { x with arrayQ := [], mvQ := [], vecQ := [], qQ := [], suspended := false, reread := [] })
  if had then m.gap d t else m

/-- A die that enters service has no array work: its tiles are in a gap (R137). With VGATE_US 0 its vector engines are on (R400; log
69). -/
def Mod.gapDie (m : Mod) (d : Fin 12) : Mod :=
  let m := m.keepEngines d
  if m.toneAllowed d then m.updDie d (fun x => { x with tiles := x.tiles.map Tile.gap }) else m

end Sys2Proof.Machine
end

