-- ==== Sys2Proof/Machine/Array.lean ====
section
/-! DEFINITION. The matrix array and the matrix-vector path (06_matrix_array: R116 to R136, R141 to R144; R177 to R183). -/

namespace Sys2Proof.Machine

/-! Geometry (R116, R123). -/

/-- Products per element per step. -/
def mP (fmt : Nat) : Nat := if fmt ≤ 1 then 1 else if fmt ≤ 3 then 2 else if fmt = 8 then 8 else 4

/-- Reduction length of a stationary block. -/
def mK (fmt : Nat) : Nat := 64 * mP fmt

/-- Weight and scale bytes of a block. -/
def weightBytes (fmt : Nat) : Nat := elemBytes (fmtBits fmt) (mK fmt * 64)
def scaleBytes (fmt : Nat) : Nat := if isMx fmt then mK fmt / 32 * 64 else 0

/-- Result format: FP64 in FP64 mode, else FP32 (R124). -/
def outFmt (fmt : Nat) : Nat := if fmt = 0 then 0 else 1
def outSpec (fmt : Nat) : FSpec := if fmt = 0 then fp64 else fp32

/-- Operand bytes and scale bytes of one vector, and outputs of one vector. -/
def vecIn (fmt : Nat) (axis : Bool) : Nat := if axis then 64 else mK fmt
def vecOuts (fmt : Nat) (axis : Bool) : Nat := if axis then mK fmt else 64
def vecBytes (fmt : Nat) (axis : Bool) : Nat := elemBytes (fmtBits fmt) (vecIn fmt axis)
def vecScales (fmt : Nat) (axis : Bool) : Nat := if isMx fmt then vecIn fmt axis / 32 else 0
def outBytes (fmt : Nat) : Nat := fmtBits (outFmt fmt) / 8

/-! Operand checks (R74, R108, R144). -/

/-- Ports of the array, of the matrix-vector path and of the vector engine (R106). -/
def arrayPorts : List Nat := [0, 1, 2]
def mvPorts : List Nat := [3, 4, 5]
def vecPorts : List Nat := [6, 7]

/-- Whether an end may be an operand of a unit: bound to program, or to an engine port of the unit (R108). -/
def bindsTo (ports : List Nat) (b : Binding) : Bool :=
  match b with
  | .program => true
  | .port c => ports.contains c
  | _ => false

/-- The status that an operand of a unit ends the take with, if any: `need` is the bytes the operation moves. -/
def Tile.operandFault (t : Tile) (ports : List Nat) (o : Opnd) (write : Bool) (need : Nat) : Option Status :=
  match o with
  | .none => none
  | .queue n => if bindsTo ports (if write then (t.queue n).prod else (t.queue n).cons) then none else some .badOperation
  | .desc d => if !descOk d then some .badStream else if descBytes d < need then some .badOperation else none

/-- The first fault of a list. Where one operation has several, those of SRC, SRC2 and DST come before its other ones (R74, R108; DESIGN
CHOICE, log 61: the spec gives them no order). -/
def firstFault (l : List (Option Status)) : Option Status := l.findSome? id

/-! Moving operands. -/

/-- What a read of an operand gives: not there yet, poisoned (by which lines), or bytes and the tile after it. -/
inductive Got where
  | wait (t : Tile) (buf : List Byte)
  | poison (bad : List (Nat × Nat))
  | bytes (bs : List Byte) (t : Tile)

/-- Pop entries of a queue until `need` bytes are in hand (R80). -/
def popBytes (k q need : Nat) (buf : List Byte) (t : Tile) : Got :=
  match k with
  | 0 => .wait t buf
  | k + 1 =>
    if need ≤ buf.length then .bytes (buf.take need) t
    else
      match (t.queue q).entries with
      | [] => .wait t buf
      | x :: _ => if x.poisoned then .poison x.bad else popBytes k q need (buf ++ x.data) (t.updQueue q TQueue.drop)

/-- Read `need` bytes of an operand of the operation at `pos`: from byte `o` of a descriptor, unless its access waits (R76), or from a queue,
where each vector starts on a new entry (R123; DEDUCED, log 17). What has come before stands in `buf`. -/
def Tile.fetch (t : Tile) (pos : Nat) (x : Opnd) (o need : Nat) (buf : List Byte) : Got :=
  match x with
  | .none => .bytes [] t
  | .desc d =>
    if !buf.isEmpty && decide (need ≤ buf.length) then .bytes (buf.take need) t
    else if !t.mayMove pos x.ranges false then .wait t buf
    else (match t.pad.bytesBad d o need with | [] => .bytes (t.pad.readBytes d o need) t | bad => .poison bad)
  | .queue q => popBytes (need / 64 + 2) q need buf t

/-- What a read of both operands of an array operation gives: what has come so far, poisoned, or the bytes of both. -/
inductive Got2 where
  | wait (t : Tile) (buf buf2 : List Byte)
  | poison (bad : List (Nat × Nat))
  | bytes (a b : List Byte) (t : Tile)

/-- Read `n` bytes of SRC and `k` of SRC2, each as far as it has come: a held or empty operand does not hold the other, whose queue is popped
up to the entries of this one vector (R122; DESIGN CHOICE, log 61: the spec does not say how far). -/
def Tile.fetch2 (t : Tile) (o : MOp) (a n b k : Nat) : Got2 :=
  match t.fetch o.pos o.src a n o.buf with
  | .poison bad => .poison bad
  | .wait t buf =>
    (match t.fetch o.pos o.src2 b k o.buf2 with
     | .poison bad => .poison bad
     | .wait t buf2 => .wait t buf buf2
     | .bytes y t => .wait t buf y)
  | .bytes x t =>
    match t.fetch o.pos o.src2 b k o.buf2 with
    | .poison bad => .poison bad
    | .wait t buf2 => .wait t x buf2
    | .bytes y t => .bytes x y t

/-- An operand that has been read to its end: its access has completed (R76). -/
def Tile.endOperand (t : Tile) (pos : Nat) (x : Opnd) (last : Bool) : Tile := if last then t.endRead pos x.ranges else t

/-- Push bytes into a queue while there is room: full entries, and at the end the rest, with END on the last (R79, R124). -/
def pushBytes (k q : Nat) (last : Bool) (bs : List Byte) (t : Tile) : List Byte × Tile :=
  match k with
  | 0 => (bs, t)
  | k + 1 =>
    if bs.isEmpty || (bs.length < 64 && !last) || !(t.queue q).room then (bs, t)
    else
      let rest := bs.drop 64
      let x : QEntry := ⟨padTo 64 (bs.take 64), last && rest.isEmpty, []⟩
      pushBytes k q last rest (t.updQueue q (fun y => y.push x))

/-! The array's heads. -/

/-- The operation of kind `op` that the array may execute: the one at the head of its queue, or an MLOAD behind a head that has started,
since a load runs while an earlier MMUL uses the active plane (R97, R121). The take is live. -/
def Mod.arrayHead (m : Mod) (d : Fin 12) (t : Fin 64) (op : Nat) : Option MOp :=
  if !m.tileLive d t then none
  else
    match (m.tile d t).arrayQ with
    | [] => none
    | [o] => if o.op = op then some o else none
    | o :: o2 :: _ => if o.op = op then some o else if op = 1 && o2.op = 1 && o.started && o.op != 1 then some o2 else none

/-- An operation of the array's queue replaced. -/
def Tile.setArray (t : Tile) (o : MOp) : Tile := { t with arrayQ := t.arrayQ.map (fun x => if x.pos == o.pos then o else x) }

/-- An array operation has completed: its accesses end, a gap may start, and under HALT a NaN it has produced stops the task (R137,
R198). -/
def Mod.endArray (m : Mod) (d : Fin 12) (t : Fin 64) (o : MOp) : Mod :=
  let m := m.updTile d t (fun x => ({ x with arrayQ := x.arrayQ.filter (fun y => y.pos != o.pos) }).endAccess o.pos)
  (if arrayWork o.op then m.gap d t else m).haltTile d t o.halt

/-- A fault of an array operation: engine code 0x01. -/
def Mod.failArray (m : Mod) (d : Fin 12) (t : Fin 64) (o : MOp) (st : Status) : Mod :=
  m.failOp d t st 0x01 o.op slotM o.bundle

/-- An array operation meets a poisoned row or entry (R85). -/
def Mod.poisonArray (m : Mod) (d : Fin 12) (t : Fin 64) (o : MOp) (bad : List (Nat × Nat)) : Mod :=
  (m.blameTile d t bad).failArray d t o .actPoison

/-- Address of a NaN in a gradient-buffer slot (R196). -/
def gbAddr (gb : Nat) : Nat := 0xFFFFFFFFFFFFFF00 + gb

/-- The row of a word in error: of the scratchpad, or of the gradient buffer where the address is a slot's (R69, R89, R426). -/
def Mod.wordError (e : Env) (m : Mod) (d : Fin 12) (t : Fin 64) (elem addr : Nat) : Mod :=
  if addr < 2 ^ 63 then m.padError e d t addr
  else m.noteError e (.gbRow d (Fin.ofNat 66 (m.flash.site d t)) elem)

/-- What an array operation's reads meet: a corrected word is counted, a double-bit one awaits firmware's re-read (R69, R70), in the
scratchpad, or, for an operation that uses a slot, in a row of the gradient buffer (R89, R425). Otherwise it goes on as `f` says. -/
def Mod.meetWord (e : Env) (m : Mod) (d : Fin 12) (t : Fin 64) (o : MOp) (slots : Bool) (err : OpErr) (f : Mod → Mod) : Mod :=
  let reads := (m.tile d t).readsFree o.pos
  match err with
  | .double elem addr => if reads then m.updTile d t (fun x => x.doubleBit o.pos elem addr) else f m
  | .single addr => f (if reads then m.padError e d t addr else m)
  | .gb row corrected =>
    if !slots then f m
    else if corrected then f (m.wordError e d t row (gbAddr o.gb))
    else m.updTile d t (fun x => x.doubleBit o.pos row (gbAddr o.gb))
  | _ => f m

/-- Run `f` on the operation that the array may execute. Its accesses that an earlier one blocks are marked as waiting; each holds its own
operand (R76). -/
def Mod.runArray (m : Mod) (d : Fin 12) (t : Fin 64) (op : Nat) (f : Mod → MOp → Mod) : Mod :=
  match m.arrayHead d t op with
  | none => m
  | some o => if (m.tile d t).awaits o.pos then m else f (m.updTile d t (fun x => x.holdAccess o.pos)) o

/-- A fault of an operation that has not begun. Bindings and descriptors are checked when an operation begins: a rebind of a queue end that it
uses does not end it afterwards (R108; DESIGN CHOICE, log 61). -/
def MOp.startFault (o : MOp) (l : List (Option Status)) : Option Status := if o.started then none else firstFault l

/-! MLOAD (R119 to R121). -/

/-- Whether every aligned square of 32 k by 32 columns has one scale (R119). -/
def squareScales (scales : List Byte) : Bool :=
  (List.range (scales.length / 32)).all (fun j =>
    (List.range 32).all (fun i => scales.getD (32 * j + i) 0 == scales.getD (32 * j) 0))

/-- The load has completed: the block stands in the shadow plane. -/
def Tile.load (t : Tile) (o : MOp) (w s : List Byte) : Tile :=
  { t with shadow := some { fmt := o.fmt, weights := w, scales := s, square := !isMx o.fmt || squareScales s }, loaded := true }

/-- MLOAD. -/
def mload (d : Fin 12) (t : Fin 64) (err : OpErr) (e : Env) (m : Mod) : Mod :=
  m.runArray d t 1 (fun m o =>
    let x := m.tile d t
    match o.startFault [x.operandFault arrayPorts o.src false (weightBytes o.fmt),
                        x.operandFault arrayPorts o.src2 false (scaleBytes o.fmt)] with
    | some st => m.failArray d t o st
    | none =>
      m.meetWord e d t o false err (fun m =>
        match (m.tile d t).fetch2 o 0 (weightBytes o.fmt) 0 (scaleBytes o.fmt) with
        | .poison bad => m.poisonArray d t o bad
        | .wait x a b =>
          let x := (x.endOperand o.pos o.src (decide (a.length = weightBytes o.fmt))).endOperand o.pos o.src2
            (decide (b.length = scaleBytes o.fmt))
          m.updTile d t (fun _ => x.setArray { o with started := true, buf := a, buf2 := b })
        | .bytes w s x => (m.updTile d t (fun _ => x.load o w s)).endArray d t o))

def execMload (d : Fin 12) (t : Fin 64) (err : OpErr) (s : State) : Host.Outcome State Fault Refusal :=
  runMod (mload d t err) s

/-! Accumulation (R125, R177 to R179). -/

/-- An accumulator: its code and whether a rounding of its chain overflowed. -/
abbrev Acc := Nat × Bool

/-- One rounding of an addition into an accumulator. -/
def accAdd (f : FSpec) (a : Acc) (v : FVal) : Acc :=
  let r := f.ofVal ((f.decode a.1).add v)
  (r.bits, a.2 || r.ovf)

/-- A product in FP32, BF16 and FP16 modes: one whose FP32 rounding would overflow enters as an infinity (R178). -/
def fp32Product (p : FVal) : FVal × Bool :=
  match p with
  | .fin s _ _ => if (fp32.ofVal p).ovf then (.inf s, true) else (p, false)
  | _ => (p, false)

/-- The chain of FP64, FP32, BF16 and FP16 modes, in ascending order. -/
def plainChain (fmt : Nat) (a : Acc) (terms : List (FVal × FVal)) : Acc :=
  terms.foldl (fun a x =>
    let p := x.1.mul x.2
    if fmt = 0 then accAdd fp64 a p
    else
      let q := fp32Product p
      accAdd fp32 (a.1, a.2 || q.2) q.1) a

/-- The contribution of one MX block (R179). -/
def mxBlock (sx sw : Byte) (terms : List (FVal × FVal)) : FVal :=
  match scaleExp sx, scaleExp sw with
  | some a, some b => (xsum (terms.map (fun x => x.1.mul x.2))).scale (a + b)
  | _, _ => .nan

/-- The two operands of a vector: element values and its scales. -/
structure VecIn where
  xs : List FVal
  scales : List Byte

def readVec (fmt : Nat) (axis : Bool) (data scales : List Byte) : VecIn :=
  { xs := (elems data (fmtBits fmt) (vecIn fmt axis)).map (fmtSpec fmt).decode, scales := scales }

/-- Weight (k, n) of a block (R120). -/
def Block.weight (b : Block) (k n : Nat) : FVal := (fmtSpec b.fmt).decode (elemAt b.weights (fmtBits b.fmt) (k * 64 + n))

/-- Scale of block (k/32, n). -/
def Block.scale (b : Block) (k n : Nat) : Byte := b.scales.getD (k / 32 * 64 + n) 0

/-- Output `o` of one vector from accumulator `a` (R117, R118, R125). -/
def vecOutput (b : Block) (fmt : Nat) (axis : Bool) (v : VecIn) (o : Nat) (a : Acc) : Acc :=
  let w := fun i => if axis then b.weight o i else b.weight i o
  let sc := fun i => if axis then b.scale o i else b.scale i o
  let n := vecIn fmt axis
  if isMx fmt then
    (List.range (n / 32)).foldl (fun a j =>
      accAdd fp32 a (mxBlock (v.scales.getD j 0) (sc (32 * j))
        ((List.range 32).map (fun i => (v.xs.getD (32 * j + i) .zero, w (32 * j + i)))))) a
  else plainChain fmt a ((List.range n).map (fun i => (v.xs.getD i .zero, w i)))

/-! Tensor scales (R180, R181). -/

/-- A tensor scale is positive, finite and normal (R181). -/
def tscaleOk (x : BitVec 32) : Bool := !x.getLsbD 31 && decide (1 ≤ bits x.toNat 30 23) && decide (bits x.toNat 30 23 ≤ 254)

/-- A final accumulator times its tensor scales, exactly. -/
def scaled (o : MOp) (v : FVal) : FVal :=
  if o.ts then (v.mul (fp32.decode o.tsx.toNat)).mul (fp32.decode o.tsw.toNat) else v

/-! Slots (R129 to R131). -/

/-- The module's slot behind a slot number of the task. -/
def Mod.slotOf (m : Mod) (d : Fin 12) (t : Fin 64) (gb : Nat) : Option (Nat × Slot) :=
  match (m.tile d t).slotBind.find? (fun b => b.1 == gb) with
  | none => none
  | some b => (m.slots[b.2]?).map (fun s => (b.2, s))

def Mod.updSlot (m : Mod) (i : Nat) (f : Slot → Slot) : Mod := { m with slots := lmod m.slots i f }

/-- Slot numbers that an ACC MMUL touches. -/
def MOp.gbs (o : MOp) : List Nat :=
  if o.axis then (List.range (mK o.fmt / 64)).map (fun i => o.gb + i) else [o.gb]

/-- Slot number, row and column of output `k` of vector `v` (R129). -/
def MOp.place (o : MOp) (v k : Nat) : Nat × Nat × Nat :=
  if o.axis then (o.gb + k / 64, k % 64, v % 64) else (o.gb, v % 64, k)

/-- Whether a result is masked (R131). -/
def MOp.masked (o : MOp) (v k : Nat) : Bool :=
  let p := o.place v k
  o.acc && (o.masks.getD (p.1 - o.gb) 0).getLsbD p.2.1

/-- A value of a slot (R88: cleared to zero at allocation). -/
def Slot.get (s : Slot) (i : Nat) : Nat := ((Tbl.find s.vals i).getD 0).toNat
def Slot.set (s : Slot) (i x : Nat) : Slot :=
  { s with vals := if x = 0 then Tbl.del s.vals i else Tbl.put s.vals i (BitVec.ofNat 48 x) }

/-- NaN site of an array or matrix-vector operation. -/
def Mod.mSite (m : Mod) (d : Fin 12) (t : Fin 64) (engine : Nat) (o : MOp) (fmt elem addr : Nat) : NanSite :=
  { engine := engine, op := o.op, fmt := fmt, module := false, reel := m.tileReel d t, bundle := o.bundle, elem := elem,
    addr := addr }

/-- One addition into a slot element: the new code, the element, and whether its rounding overflowed (R129, R180). -/
def Slot.add (s : Slot) (o : MOp) (k code : Nat) (ovf : Bool) : Nat × Bool :=
  let x := gw48.ofVal ((gw48.decode (s.get k)).add (scaled o ((outSpec o.fmt).decode code)))
  let y := gw48.noNegZero x.bits
  (y, (gw48.decode y).isInf && (x.ovf || ovf))

/-- Add one result of vector `v`; a NaN in the slot is kept with its element and address (R196). -/
def Mod.addResult (d : Fin 12) (t : Fin 64) (o : MOp) (v : Nat) (x : Mod × List (Nat × Nat)) (r : Nat × Acc) :
    Mod × List (Nat × Nat) :=
  let p := o.place v r.1
  match x.1.slotOf d t p.1 with
  | none => x
  | some (i, s) =>
    let k := p.2.1 * 64 + p.2.2
    let y := s.add o k r.2.1 r.2.2
    let m := (x.1.updSlot i (fun s => { s.set k y.1 with touched := true })).noteOverflow d t (if y.2 then 1 else 0)
    (m, if gw48.isNan y.1 then x.2 ++ [(k, gbAddr p.1)] else x.2)

/-- The NaN with the lowest element index, of those that reach the record together (R199). -/
def firstNan (l : List (Nat × Nat)) : Option (Nat × Nat) :=
  match l with
  | [] => none
  | x :: r => (match firstNan r with | some y => some (if y.1 < x.1 then y else x) | none => some x)

/-- Add the results of vector `v` into their slots (R129); its NaNs reach the record together (R199, log 16). -/
def Mod.accumulate (e : Env) (m : Mod) (d : Fin 12) (t : Fin 64) (o : MOp) (v : Nat) (res : List (Nat × Acc)) : Mod × Bool :=
  let x := res.foldl (Mod.addResult d t o v) (m, [])
  match firstNan x.2 with
  | none => (x.1, false)
  | some n => (x.1.tileNan e d t x.2.length (x.1.mSite d t 0x01 o 1 n.1 n.2), x.1.halts d)

/-! MMUL (R121 to R132, R144). -/

/-- FP64 mode holds twice as much in the carry plane (R126). -/
def carrySize (count outs : Nat) (f64 : Bool) : Nat := count * outs * (if f64 then 2 else 1)

/-- A held MMUL. -/
def MOp.held (o : MOp) : Bool := !o.acc && o.dst == .none

/-- The block an MMUL uses: the one loaded since the last MMUL, else the active one. -/
def Tile.blockFor (t : Tile) : Option Block := match t.shadow with | some b => some b | none => t.active

/-- Whether the formats of data and weights go together (R108). -/
def formatsMeet (data weights : Nat) : Bool :=
  if isMx data then isMx weights && mP data == mP weights else data == weights

/-- What ends an MMUL before any element moves (R108, R119, R127, R128, R144, R181). -/
def Mod.mmulFault (m : Mod) (d : Fin 12) (t : Fin 64) (o : MOp) : Option Status :=
  let x := m.tile d t
  let outs := vecOuts o.fmt o.axis
  let f64 := o.fmt == 0
  let bad := fun (b : Bool) => if b then some Status.badOperation else none
  firstFault
    [x.operandFault arrayPorts o.src false (o.count * vecBytes o.fmt o.axis),
     x.operandFault arrayPorts o.src2 false (o.count * vecScales o.fmt o.axis),
     x.operandFault arrayPorts o.dst true (o.count * outs * outBytes o.fmt),
     (match x.blockFor with
      | none => some .badOperation
      | some b => bad (!formatsMeet o.fmt b.fmt || (o.axis && isMx o.fmt && !b.square))),
     bad (o.ts && (!tscaleOk o.tsx || !tscaleOk o.tsw)),
     bad (o.held && (o.ts || decide (32768 < carrySize o.count outs f64))),
     (match x.carry with
      | some c => bad (c.axis != o.axis || c.count != o.count || c.outs != outs || c.f64 != f64)
      | none => none),
     bad (o.acc && (o.gbs.any (fun g => decide (41 < g)) || o.gbs.any (fun g => (m.slotOf d t g).isNone)))]

/-- An ACC MMUL waits until its slots are saved and resident (R204, R206). -/
def Mod.slotsReady (m : Mod) (d : Fin 12) (t : Fin 64) (o : MOp) : Bool :=
  !o.acc || o.gbs.all (fun g => match m.slotOf d t g with | some (_, s) => s.saved && s.resident | none => false)

/-- Start: the planes swap, and the masks are latched (R121, R131). -/
def Mod.mmulStart (m : Mod) (d : Fin 12) (t : Fin 64) (o : MOp) : Mod :=
  let masks := if o.acc then o.gbs.map (fun g => match m.slotOf d t g with | some (_, s) => s.mask | none => 0) else []
  m.updTile d t (fun x =>
    ({ x with active := x.blockFor, shadow := none }).setArray { o with started := true, masks := masks })

/-- The results of vector `v`: output index and accumulator of each that is not masked (R132). -/
def vecResults (b : Block) (carry : Option Carry) (o : MOp) (v : VecIn) : List (Nat × Acc) :=
  let outs := vecOuts o.fmt o.axis
  (List.range outs).filterMap (fun k =>
    if o.masked o.vec k then none
    else
      let a0 : Acc := match carry with
        | some c => (match c.accs[o.vec * outs + k]? with | some a => (a.1.toNat, a.2) | none => (0, false))
        | none => (0, false)
      some (k, vecOutput b o.fmt o.axis v k a0))

/-- Where byte `o` of DST lies: a scratchpad address, or 0 for a queue, whose entries have none (R196; DESIGN CHOICE, log 37). -/
def Opnd.addrAt (x : Opnd) (o : Nat) : Nat :=
  match x with
  | .desc d => elemAddr d (o / descEsize d) + o % descEsize d
  | _ => 0

/-- Drain results through DST: codes in order, −0 written as +0 (R124, R174, R180). The codes join `out`; a NaN under HALT is remembered
until the operation completes (R198). -/
def Mod.drainResults (e : Env) (m : Mod) (d : Fin 12) (t : Fin 64) (engine : Nat) (o : MOp) (first : Nat)
    (vals : List (Nat × Acc)) : Mod × MOp :=
  let f := outSpec o.fmt
  let w := outBytes o.fmt
  let codes := vals.map (fun r =>
    let x := f.ofVal (scaled o (f.decode r.2.1))
    let c := f.noNegZero x.bits
    (r.1, c, (f.decode c).isInf && (x.ovf || r.2.2)))
  let m := m.noteOverflow d t (codes.filter (fun c => c.2.2)).length
  let nans := codes.filter (fun c => f.isNan c.2.1)
  let m := match nans with
    | [] => m
    | c :: _ =>
      let elem := first + c.1
      m.tileNan e d t nans.length (m.mSite d t engine o (outFmt o.fmt) elem (o.dst.addrAt (elem * w)))
  (m, { o with out := o.out ++ codes.flatMap (fun c => natLe w c.2.1), halt := o.halt || (!nans.isEmpty && m.halts d) })

/-- Move the waiting results of an operation out through DST, unless its access waits (R76). `last` says that no more will come. -/
def Tile.flush (t : Tile) (o : MOp) (last : Bool) : Tile × MOp :=
  match o.dst with
  | .desc d =>
    if !t.mayMove o.pos o.dst.ranges true then (t, o)
    else ({ t with pad := t.pad.writeBytes d o.written o.out }, { o with out := [], written := o.written + o.out.length })
  | .queue q =>
    let r := pushBytes (o.out.length / 64 + 1) q last o.out t
    (r.2, { o with out := r.1, written := o.written + (o.out.length - r.1.length) })
  | .none => (t, { o with out := [] })

/-- Steps that an operand of `n` bytes a vector takes: a queue moves 64 bytes a step, a descriptor 256 (R123). -/
def Opnd.steps (x : Opnd) (n : Nat) : Nat := match x with | .queue _ => ceilDiv n 64 | .desc _ => ceilDiv n 256 | .none => 0

/-- Steps per vector of an MMUL whose results leave the tile (R123). -/
def MOp.vecSteps (o : MOp) : Nat :=
  max (max (if o.fmt = 0 then 4 else 1) (o.src.steps (vecBytes o.fmt o.axis)))
    (max (o.src2.steps (vecScales o.fmt o.axis)) (o.dst.steps (vecOuts o.fmt o.axis * outBytes o.fmt)))

/-- Result bytes that stand in the array while its drain has no room: those of the vectors that enter within the 129 steps, four times as many
in FP64, before the first of them leaves (R122, R124; DEDUCED, log 61). -/
def MOp.inside (o : MOp) : Nat :=
  ceilDiv (if o.fmt = 0 then 516 else 129) o.vecSteps * (vecOuts o.fmt o.axis * outBytes o.fmt)

/-- The end of an MMUL: a held one leaves its accumulators in the carry plane, any other with vectors clears it (R126, R127). -/
def Mod.mmulEnd (m : Mod) (d : Fin 12) (t : Fin 64) (o : MOp) : Mod :=
  let c : Option Carry :=
    if o.held then
      some { axis := o.axis, count := o.count, outs := vecOuts o.fmt o.axis, f64 := o.fmt == 0, accs := o.accs }
    else none
  (m.updTile d t (fun x => { x with carry := c })).endArray d t o

/-- Vectors one after another, as far as operands and the drain allow, and before vector `stop` (R122, R124, R136). -/
def mmulRun (stop k : Nat) (d : Fin 12) (t : Fin 64) (e : Env) (m : Mod) : Mod :=
  match k with
  | 0 => m
  | k + 1 =>
    match m.arrayHead d t 2 with
    | none => m
    | some o =>
      let last := decide (o.count ≤ o.vec)
      let fl := (m.tile d t).flush o last
      let o := fl.2
      let m := m.updTile d t (fun _ => fl.1.setArray o)
      if last then (if o.out.isEmpty then m.mmulEnd d t o else m)
      else if stop ≤ o.vec then m
      else if !o.out.isEmpty && decide (o.inside ≤ o.out.length) then m
      else
        let x := m.tile d t
        match x.active with
        | none => m
        | some b =>
          let bs := vecBytes o.fmt o.axis
          let ss := vecScales o.fmt o.axis
          let ends := decide (o.count = o.vec + 1)
          match x.fetch2 o (o.vec * bs) bs (o.vec * ss) ss with
          | .poison bad => m.poisonArray d t o bad
          | .wait x p q =>
            let x := (x.endOperand o.pos o.src (ends && decide (p.length = bs))).endOperand o.pos o.src2 (ends && decide (q.length = ss))
            m.updTile d t (fun _ => x.setArray { o with buf := p, buf2 := q })
          | .bytes data sc x =>
            let x := (x.endOperand o.pos o.src ends).endOperand o.pos o.src2 ends
            let res := vecResults b x.carry o (readVec o.fmt o.axis data sc)
            let o' := { o with vec := o.vec + 1, buf := [], buf2 := [] }
            let m := m.updTile d t (fun _ => x)
            if o.acc then
              let r := m.accumulate e d t o o.vec res
              mmulRun stop k d t e (r.1.updTile d t (fun x => x.setArray { o' with halt := o.halt || r.2 }))
            else if o.held then
              let accs := o.accs ++ res.map (fun r => (BitVec.ofNat 64 r.2.1, r.2.2))
              mmulRun stop k d t e (m.updTile d t (fun x => x.setArray { o' with accs := accs }))
            else
              let r := m.drainResults e d t 0x01 o (o.vec * vecOuts o.fmt o.axis) res
              mmulRun stop k d t e (r.1.updTile d t (fun x => x.setArray { r.2 with vec := o'.vec, buf := [], buf2 := [] }))

/-- A residue mismatch of a row, met with a vector whose results have reached the drain: they and all later ones of the take are not written,
and the row is tested (R136). -/
def Mod.residueFails (e : Env) (m : Mod) (d : Fin 12) (t : Fin 64) (row : Nat) : Mod :=
  (m.noteError e (.arrayRow d (Fin.ofNat 66 (m.flash.site d t)) (Fin.ofNat 65 row))).failTile d t .arrayResidue []

/-- Whether the results before the next vector of an operation have left: a queue holds back those that do not fill an entry (R79). -/
def MOp.drained (o : MOp) : Bool := match o.dst with | .queue _ => decide (o.out.length < 64) | _ => o.out.isEmpty

/-- Run an MMUL before vector `stop`. -/
def Mod.mmulUpTo (e : Env) (m : Mod) (d : Fin 12) (t : Fin 64) (o : MOp) (stop : Nat) : Mod :=
  mmulRun stop (2 * o.count + 2) d t e (if o.started then m else m.mmulStart d t o)

/-- MMUL. One without vectors completes at once (R124), before any check (DESIGN CHOICE, log 61: R108 names no exception for it); a residue
mismatch fails the take once the results before it have been written (R136). -/
def mmul (d : Fin 12) (t : Fin 64) (err : OpErr) (e : Env) (m : Mod) : Mod :=
  m.runArray d t 2 (fun m o =>
    if o.count = 0 then m.endArray d t o
    else
      match if o.started then none else m.mmulFault d t o with
      | some st => m.failArray d t o st
      | none =>
        if !m.slotsReady d t o then m
        else
          match err with
          | .residue row vec =>
            let m := m.mmulUpTo e d t o vec
            (match m.arrayHead d t 2 with
             | some o' =>
               if o'.pos = o.pos && decide (vec ≤ o'.vec) && decide (o'.vec < o'.count) && o'.drained &&
                   (match (m.tile d t).fetch2 o' (o'.vec * vecBytes o'.fmt o'.axis) (vecBytes o'.fmt o'.axis)
                      (o'.vec * vecScales o'.fmt o'.axis) (vecScales o'.fmt o'.axis) with | .bytes .. => true | _ => false) then
                 m.residueFails e d t row
               else m
             | none => m)
          | _ => m.meetWord e d t o o.acc err (fun m => m.mmulUpTo e d t o o.count))

def execMmul (d : Fin 12) (t : Fin 64) (err : OpErr) (s : State) : Host.Outcome State Fault Refusal :=
  runMod (mmul d t err) s

/-! MGRAD (R130, R182). -/

/-- The 4,096 values of a slot as FP32. -/
def Slot.readOut (s : Slot) : List (Nat × Acc) :=
  (List.range 4096).map (fun i => let r := fp32.ofVal (gw48.decode (s.get i)); (i, (r.bits, r.ovf)))

/-- An operation of the array has started (R121). -/
def Mod.startArray (m : Mod) (d : Fin 12) (t : Fin 64) (o : MOp) : Mod := m.updTile d t (fun x => x.setArray { o with started := true })

/-- MGRAD: the slot leaves as 64 rows of 64 FP32 values and is unchanged; a spilled slot is waited for (R206). The last entry that it pushes
to a queue carries END, as that of an MMUL does (DESIGN CHOICE, log 61: R130 does not say). -/
def mgrad (d : Fin 12) (t : Fin 64) (err : OpErr) (e : Env) (m : Mod) : Mod :=
  m.runArray d t 3 (fun m o =>
    let o := { o with fmt := 1, ts := false }
    match o.startFault [(m.tile d t).operandFault arrayPorts o.dst true 16384,
                        if (m.slotOf d t o.gb).isNone then some .badOperation else none] with
    | some st => m.failArray d t o st
    | none =>
      match m.slotOf d t o.gb with
      | none => m
      | some (_, s) =>
        if !s.resident then m
        else
          m.meetWord e d t o (!o.started) err (fun m =>
            let r := if o.started then (m, o) else m.drainResults e d t 0x01 o 0 s.readOut
            let fl := (r.1.tile d t).flush { r.2 with started := true } true
            let m := r.1.updTile d t (fun _ => fl.1.setArray fl.2)
            if fl.2.out.isEmpty then m.endArray d t fl.2 else m))

def execMgrad (d : Fin 12) (t : Fin 64) (err : OpErr) (s : State) : Host.Outcome State Fault Refusal := runMod (mgrad d t err) s

/-! MMASK (R131). -/

/-- MMASK: 8 bytes of SRC become the mask of a slot. -/
def mmask (d : Fin 12) (t : Fin 64) (err : OpErr) (e : Env) (m : Mod) : Mod :=
  m.runArray d t 4 (fun m o =>
    match o.startFault [(m.tile d t).operandFault arrayPorts o.src false 8,
                        if (m.slotOf d t o.gb).isNone then some .badOperation else none] with
    | some st => m.failArray d t o st
    | none =>
      match m.slotOf d t o.gb with
      | none => m
      | some (i, s) =>
        if !s.resident then m
        else
          m.meetWord e d t o false err (fun m =>
            match (m.tile d t).fetch o.pos o.src 0 8 o.buf with
            | .poison bad => m.poisonArray d t o bad
            | .wait _ _ => m.startArray d t o
            | .bytes bs x =>
              let m := m.updTile d t (fun _ => x)
              (m.updSlot i (fun s => { s with mask := BitVec.ofNat 64 (leNat bs) })).endArray d t o))

def execMmask (d : Fin 12) (t : Fin 64) (err : OpErr) (s : State) : Host.Outcome State Fault Refusal :=
  runMod (mmask d t err) s

/-! MVEC (R140 to R144). -/

/-- Vector buffer of the path. -/
def mvBuffer : Nat := 8192

/-- Pop the vector up to and including the END entry; a vector beyond the buffer is a fault (R141).
An entry that is poisoned and would overflow it too ends the take with ACT_POISON (DESIGN CHOICE, log 61: the spec gives no order). -/
def popVector (k q : Nat) (buf : List Byte) (t : Tile) : Got × Bool :=
  match k with
  | 0 => (.wait t buf, false)
  | k + 1 =>
    match (t.queue q).entries with
    | [] => (.wait t buf, false)
    | x :: _ =>
      if x.poisoned then (.poison x.bad, false)
      else if mvBuffer < buf.length + 64 then (.wait t buf, true)
      else
        let t := t.updQueue q TQueue.drop
        if x.last then (.bytes (buf ++ x.data) t, false) else popVector k q (buf ++ x.data) t

/-- One row: the chain of its products with the vector, from +0 in ascending column order (R143). -/
def mvRow (fmt : Nat) (l : Nat) (row vec : List Byte) : Acc :=
  let w := fmtBits fmt
  let f := fmtSpec fmt
  plainChain fmt (0, false) ((List.range l).map (fun i => (f.decode (elemAt vec w i), f.decode (elemAt row w i))))

/-- A fault of the path: engine code 0x02. -/
def Mod.failMv (m : Mod) (d : Fin 12) (t : Fin 64) (o : MOp) (st : Status) : Mod := m.failOp d t st 0x02 o.op slotM o.bundle

/-- The path meets a poisoned row or entry (R85). -/
def Mod.poisonMv (m : Mod) (d : Fin 12) (t : Fin 64) (o : MOp) (bad : List (Nat × Nat)) : Mod :=
  (m.blameTile d t bad).failMv d t o .actPoison

/-- Pop entries of a queue until `need` bytes are in hand; rows follow one another through the entries, so that the rest of the last one
begins the next row (R141). -/
def popPacked (k q need : Nat) (buf : List Byte) (t : Tile) : Got × List Byte :=
  match k with
  | 0 => (.wait t buf, [])
  | k + 1 =>
    if need ≤ buf.length then (.bytes (buf.take need) t, buf.drop need)
    else
      match (t.queue q).entries with
      | [] => (.wait t buf, [])
      | x :: _ => if x.poisoned then (.poison x.bad, []) else popPacked k q need (buf ++ x.data) (t.updQueue q TQueue.drop)

/-- Read row `i` of `bs` bytes of the matrix; the second value is what is left over of a queue's last entry. -/
def Tile.fetchRow (t : Tile) (pos : Nat) (x : Opnd) (i bs : Nat) (buf : List Byte) : Got × List Byte :=
  match x with
  | .queue q => popPacked (bs / 64 + 2) q bs buf t
  | _ => (t.fetch pos x (i * bs) bs buf, [])

/-- The operation at the head of the path has completed (R198). -/
def Mod.endMv (m : Mod) (d : Fin 12) (t : Fin 64) (o : MOp) : Mod :=
  (m.updTile d t (fun x => ({ x with mvQ := x.mvQ.tail }).endAccess o.pos)).haltTile d t o.halt

/-- Rows one after another, as far as operands and room allow, and before row `stop` (R136): with an entry's worth of results that DST does not take, the path holds
(DESIGN CHOICE, log 61: the spec gives the path no room for results). -/
def mvecRun (stop k : Nat) (d : Fin 12) (t : Fin 64) (e : Env) (m : Mod) : Mod :=
  match k with
  | 0 => m
  | k + 1 =>
    match (m.tile d t).mvQ with
    | [] => m
    | o :: rest =>
      if !m.tileLive d t then m
      else
        let last := decide (o.count ≤ o.vec)
        let fl := (m.tile d t).flush o last
        let o := fl.2
        let put := fun (x : Tile) (o : MOp) => { x with mvQ := o :: rest }
        let m := m.updTile d t (fun _ => put fl.1 o)
        if last then
          (if o.out.isEmpty then m.endMv d t o else m)
        else if decide (stop ≤ o.vec) || decide (64 ≤ o.out.length) then m
        else
          let l := (o.vlen.getD 0)
          let bs := l * (fmtBits o.fmt / 8)
          match (m.tile d t).fetchRow o.pos o.src o.vec bs o.buf with
          | (.poison bad, _) => m.poisonMv d t o bad
          | (.wait x buf, _) => m.updTile d t (fun _ => put x { o with buf := buf })
          | (.bytes row x, left) =>
            let m := m.updTile d t (fun _ => x.endOperand o.pos o.src (decide (o.count = o.vec + 1)))
            let r := m.drainResults e d t 0x02 { o with ts := false } o.vec [(0, mvRow o.fmt l row o.buf2)]
            mvecRun stop k d t e (r.1.updTile d t (fun x => put x { r.2 with vec := o.vec + 1, buf := left }))

/-- What ends an MVEC before any element moves (R74, R108, R144): `l` is the vector's length where a descriptor gives it, else 0. -/
def Tile.mvecFault (t : Tile) (o : MOp) (l : Nat) : Option Status :=
  firstFault [t.operandFault mvPorts o.src2 false 0,
              (match o.src2 with | .desc ds => if mvBuffer < descBytes ds then some .badOperation else none | _ => none),
              t.operandFault mvPorts o.src false (o.count * l * (fmtBits o.fmt / 8)),
              t.operandFault mvPorts o.dst true (o.count * outBytes o.fmt)]

/-- The vector's length before it is read: a descriptor gives it. -/
def MOp.descLen (o : MOp) : Nat := match o.src2 with | .desc ds => descBytes ds / (fmtBits o.fmt / 8) | _ => 0

/-- What ends an MVEC once the length of its vector is known: a matrix descriptor with fewer bytes than its rows hold
(R144). A vector from a queue has been popped by then (DESIGN CHOICE, log 61: R144 says before any element moves). -/
def Tile.rowsFault (t : Tile) (o : MOp) (l : Nat) : Option Status :=
  match o.src with
  | .queue _ => none
  | x => t.operandFault mvPorts x false (o.count * l * (fmtBits o.fmt / 8))

/-- The vector is in the buffer: check the matrix operand against its length, then run the rows (R144). Bytes of a
descriptor that make no whole element count for nothing (DESIGN CHOICE, log 61: R141 does not say what L is then). -/
def Mod.mvecRows (e : Env) (m : Mod) (d : Fin 12) (t : Fin 64) (o : MOp) (stop : Nat) (vec : List Byte) : Mod :=
  let l := vec.length / (fmtBits o.fmt / 8)
  match (m.tile d t).rowsFault o l with
  | some st => m.failMv d t o st
  | none =>
    let o := { o with vlen := some l, buf := [], buf2 := vec }
    mvecRun stop (2 * o.count + 2) d t e (m.updTile d t (fun x => ({ x with mvQ := o :: x.mvQ.tail }).endOperand o.pos o.src2 true))

/-- MVEC reads its vector, then its rows before row `stop` (R141). -/
def Mod.mvecGo (e : Env) (m : Mod) (d : Fin 12) (t : Fin 64) (o : MOp) (stop : Nat) : Mod :=
  let x := m.tile d t
  if o.vlen.isSome then mvecRun stop (2 * o.count + 2) d t e m
  else
    match o.startFault [x.mvecFault o o.descLen] with
    | some st => m.failMv d t o st
    | none =>
      match o.src2 with
      | .desc ds =>
        if !x.mayMove o.pos o.src2.ranges false then m
        else
          (match x.pad.bytesBad ds 0 (descBytes ds) with
           | [] => m.mvecRows e d t o stop (x.pad.readBytes ds 0 (descBytes ds))
           | bad => m.poisonMv d t o bad)
      | .queue q =>
        (match popVector (queueDepth + 1) q o.buf x with
         | (.poison bad, _) => m.poisonMv d t o bad
         | (.wait x b, tooMany) =>
           let m := m.updTile d t (fun _ => { x with mvQ := { o with started := true, buf := b } :: x.mvQ.tail })
           if tooMany then m.failMv d t o .badOperation else m
         | (.bytes vec x, _) => (m.updTile d t (fun _ => x)).mvecRows e d t o stop vec)
      | .none => m

/-- MVEC. One without rows completes at once, before any check (DESIGN CHOICE, log 61: R108 names no exception for it); accesses that an
earlier one blocks are marked as waiting, and each holds its own operand (R76, R141). The path has no rows of its own to test after a
residue mismatch: the array row that the command names is tested (R136; DESIGN CHOICE, log 30). -/
def mvec (d : Fin 12) (t : Fin 64) (err : OpErr) (e : Env) (m : Mod) : Mod :=
  let x := m.tile d t
  match x.mvQ with
  | [] => m
  | o :: _ =>
    if !m.tileLive d t || x.awaits o.pos then m
    else if o.count = 0 then m.endMv d t o
    else
      let m := m.updTile d t (fun x => x.holdAccess o.pos)
      match err with
      | .residue row vec =>
        let m := m.mvecGo e d t o vec
        (match (m.tile d t).mvQ with
         | o' :: _ =>
           if o'.pos = o.pos && o'.vlen.isSome && decide (vec ≤ o'.vec) && decide (o'.vec < o'.count) && o'.drained && m.tileLive d t &&
               (match ((m.tile d t).fetchRow o'.pos o'.src o'.vec ((o'.vlen.getD 0) * (fmtBits o'.fmt / 8)) o'.buf).1 with
                | .bytes .. => true
                | _ => false) then
             m.residueFails e d t row
           else m
         | [] => m)
      | _ => m.meetWord e d t o false err (fun m => m.mvecGo e d t o o.count)

def execMvec (d : Fin 12) (t : Fin 64) (err : OpErr) (s : State) : Host.Outcome State Fault Refusal :=
  runMod (mvec d t err) s

end Sys2Proof.Machine
end

