-- ==== Sys2Proof/Machine/Fabric.lean ====
section
/-! DEFINITION. The fabric side of the module (15_fabric: R345 to R354): ports, planes, addresses, and packets. -/

namespace Sys2Proof.Machine

/-! Ports and lanes (R346, R348). -/

/-- Resource ID of a plane: kind 4 of its I/O die (R429). -/
def planeRes (n : Nat) : BitVec 32 := resId (0x20 + n) 4 n

/-- The lane that carries data lane `l` of an I/O die: its spare where one has replaced it. -/
def Flash.carrier (f : Flash) (io l : Nat) : Nat :=
  match f.laneSpares.find? (fun x => x.1 == io && x.2.1 == l) with
  | some x => x.2.2
  | none => l

/-- Working lanes of a port: its four data lanes less those that have failed and have no spare. -/
def Flash.working (f : Flash) (io port : Nat) : Nat :=
  ((List.range 4).filter (fun i => !f.laneFails.contains (io, f.carrier io (4 * port + i)))).length

/-- A port of the module. -/
def Mod.port (m : Mod) (io port : Nat) : Port := vget (vget m.fab.ports io (Vector.replicate 4 Port.cold)) port Port.cold

def Mod.updPort (m : Mod) (io port : Nat) (f : Port → Port) : Mod :=
  { m with fab.ports := vmodN m.fab.ports io (fun v => vmodN v port f) }

def Mod.plane (m : Mod) (n : Nat) : Plane := vget m.fab.planes n Plane.cold

def Mod.updPlane (m : Mod) (n : Nat) (f : Plane → Plane) : Mod := { m with fab.planes := vmodN m.fab.planes n f }

/-- Whether the fabric links of the module are trained or train: from stage C, and not in DEEP_PARK (R349, R361, R415). -/
def Mod.linksUp (m : Mod) : Bool := m.ioUp && decide (3 ≤ m.life.stage)

/-- Whether a port of a plane is up. -/
def Mod.anyPortUp (m : Mod) (n : Nat) : Bool := (List.range 4).any (fun p => (m.port n p).up)

/-- Planes in service, ascending. -/
def Mod.planesIn (m : Mod) : List Nat := (List.range 8).filter (fun n => (m.plane n).inService)

/-- Flit-check errors of a bridge lane, and corrected symbols of a fabric lane, that one second may bring (R425). -/
def flitLimit : Nat := 16
def symbolLimit : Nat := 1000000

/-- LINK_RETRY: the sender resends the packet from its replay buffer, in order; that changes timing only (R347), and no state of the model.
A fabric lane is in error at an uncorrectable codeword or above 10⁶ corrected symbols within 1 s, a bridge lane above 16 flit-check errors
within 1 s: the error is counted, and the lane's eye scan scheduled (R425, R426). -/
def linkRetry (io : Fin 8) (err : LinkErr) (e : Env) (m : Mod) : Mod :=
  match err with
  | .crc => m
  | .fabric lane => m.noteError e (.fabricLane io lane)
  | .symbols lane k => m.countLane e (.fabricLane io lane) k symbolLimit
  | .bridge edge group lane => m.countLane e (.bridgeLane edge group lane) 1 flitLimit

def execLinkRetry (io : Fin 8) (_port : Fin 4) (_vc : Fin 16) (err : LinkErr) (s : State) : Host.Outcome State Fault Refusal :=
  if s.fuses.grade.hasIo io then runMod (linkRetry io err) s else .fault .absentUnit

/-- A port that has retrained sends what its buffers hold (R348). -/
def Port.retrained (p : Port) : Port := { p with retraining := false, buf := Vector.replicate 16 [] }

/-- PORT_RETRAINED (R348): packets held meanwhile proceed; no packet is lost. -/
def portRetrained (io port : Nat) (_e : Env) (m : Mod) : Mod :=
  if (m.port io port).retraining then m.updPort io port Port.retrained else m

def execPortRetrained (io : Fin 8) (port : Fin 4) (s : State) : Host.Outcome State Fault Refusal :=
  if s.fuses.grade.hasIo io then runMod (portRetrained io port) s else .fault .absentUnit

/-- A port without its link: its sending credits come anew with the next training (log 60), and the packets of its buffers go out elsewhere. -/
def Port.down (p : Port) : Port :=
  { p with up := false, retraining := false, spent := Vector.replicate 16 0, buf := Vector.replicate 16 [] }

/-- A port whose link has trained (R348, R350). -/
def Port.trained (p : Port) : Port := if p.up then p else { p with up := true, buf := Vector.replicate 16 [] }

/-- A packet goes out on a virtual channel: it spends a credit of the channel (R352; R352 gives no number of credits, and the model never runs
out of them: DESIGN CHOICE, log 60), and waits in the channel's buffer while the port retrains (R348). -/
def Port.send (pkt : Packet) (p : Port) : Port :=
  { p with spent := vmod p.spent pkt.vc (fun k => k + 1), buf := if p.retraining then vmod p.buf pkt.vc (fun l => l ++ [pkt]) else p.buf }

/-- A sending credit of a channel comes back: with the acknowledgement of the packet that spent it (DESIGN CHOICE, log 60). -/
def Port.release (vc : Fin 16) (p : Port) : Port := { p with spent := vmod p.spent vc (fun k => k - 1) }

/-- A packet that has arrived on a virtual channel has left the channel's buffer, and its credit goes back (R352, R355). -/
def Port.credit (vc : Fin 16) (p : Port) : Port := { p with credits := vmod p.credits vc (fun k => k + 1) }

/-! Discovery (R349 to R351). -/

/-- The module number that no module has (R351). -/
def reservedNumber : BitVec 24 := 0xFFFFFF#24

/-! Packets sent (R351 to R354). -/

/-- Endpoints that exist (R351, R20). -/
def Grade.endpoint (g : Grade) (ep : Nat) : Bool :=
  decide (ep < 0x0C) || ep == 0x10 || ep == 0x11 || ep == 0x1F || (decide (0x20 ≤ ep) && g.hasIo (ep - 0x20))

/-- Channels with acknowledgement and exactly one delivery: VC0 and VC3 to VC15 (R353). -/
def reliable (vc : Nat) : Bool := vc != 1 && vc != 2

/-- Planes that packets may take: in service, with a port up. A plane none of whose ports is up for less than 1 ms is not lost yet, but
carries nothing (R348, R354). -/
def Mod.planesOpen (m : Mod) : List Nat := m.planesIn.filter m.anyPortUp

/-- The plane a packet goes out on, if one may be taken: the lowest on VC0; elsewhere the planes share the packets, here in
turn (DESIGN CHOICE, log 28; it changes timing only). -/
def Mod.planeFor (m : Mod) (vc turn : Nat) : Option Nat :=
  let l := m.planesOpen
  if vc = 0 then l.head? else l[turn % max 1 l.length]?

/-- The next sequence number of a channel, sender and destination (log 28). -/
def Fabric.seqFor (f : Fabric) (k : Nat × BitVec 32 × BitVec 32) : Nat :=
  match f.seqs.find? (fun x => x.1 == k) with
  | some x => x.2
  | none => 0

/-- The port of a plane that a packet goes out on: its ports that are up share the packets in turn (DESIGN CHOICE, log 60). -/
def Mod.portFor (m : Mod) (plane turn : Nat) : Nat :=
  let l := (List.range 4).filter (fun p => (m.port plane p).up)
  l.getD (turn % max 1 l.length) 0

/-- The way a packet goes out: plane and port, or none while no plane may be taken. -/
def Mod.wayFor (m : Mod) (vc turn : Nat) : Option (Nat × Nat) := (m.planeFor vc turn).map (fun n => (n, m.portFor n turn))

/-- A packet on its way: the port that carries it sends it. -/
def Mod.carry (m : Mod) (x : Option (Nat × Nat) × Packet) : Mod :=
  match x.1 with
  | some w => m.updPort w.1 w.2 (Port.send x.2)
  | none => m

/-- Send a packet from an endpoint of the module and keep it until it is acknowledged (R353). With no plane in service it waits. -/
def Mod.sendPacket (m : Mod) (vc : Fin 16) (ep : Nat) (dst : BitVec 32) (payload : List Byte) : Mod :=
  let src := BitVec.ofNat 32 ((m.fab.number.getD 0).toNat * 256 + ep)
  let k := (vc.val, src, dst)
  let seq := m.fab.seqFor k
  let pkt : Packet := { vc := vc, src := src, dst := dst, seq := seq, payload := payload }
  let out := (m.wayFor vc.val m.fab.turn, pkt)
  let m := { m with fab.turn := m.fab.turn + 1,
                    fab.seqs := (m.fab.seqs.filter (fun (x : (Nat × BitVec 32 × BitVec 32) × Nat) => x.1 != k)) ++ [(k, seq + 1)],
                    fab.sent := m.fab.sent ++ [out] }
  m.carry out

/-- Send the unacknowledged packets again that went out on a way which `lost` names (`none`: that wait for one), over the ports that are up
(R348, R353, R354). -/
def Mod.resend (m : Mod) (lost : Option (Nat × Nat) → Bool) : Mod :=
  let again := fun (x : Option (Nat × Nat) × Packet) => lost x.1
  let anew := fun (x : Option (Nat × Nat) × Packet) => (m.wayFor x.2.vc.val x.2.seq, x.2)
  let sent := m.fab.sent.map (fun (x : Option (Nat × Nat) × Packet) => if again x then anew x else x)
  ((m.fab.sent.filter again).map anew).foldl Mod.carry { m with fab.sent := sent }

/-- A port loses its link: its unacknowledged packets, those in its buffers among them, go out on another port of the plane or on another plane,
so that none is lost (R348, R353). -/
def Mod.dropPort (m : Mod) (io port : Nat) : Mod := (m.updPort io port Port.down).resend (fun w => w == some (io, port))

/-- PORT_DOWN: a port loses its link; its plane stays in service for now (R348, R354). -/
def portDown (io port : Nat) (_e : Env) (m : Mod) : Mod := m.dropPort io port

def execPortDown (io : Fin 8) (port : Fin 4) (s : State) : Host.Outcome State Fault Refusal :=
  if s.fuses.grade.hasIo io then runMod (portDown io port) s else .fault .absentUnit

/-- HELLO: a trained port's hello is answered with a module number. The first plane to answer sets the number in force; a plane that
offers another is held out of service; a lost plane is restored (R350, R354). -/
def hello (plane : Fin 8) (port : Fin 4) (number : BitVec 24) (e : Env) (m : Mod) : Mod :=
  if !m.linksUp || number = reservedNumber || m.flash.working plane port < 2 then m
  else
    let m := m.updPort plane port Port.trained
    let n := m.fab.number.getD number
    let m := { m with fab.number := some n }
    if n = number then
      let back := (m.plane plane).lost
      let m := (m.updPlane plane (fun _ => { number := some number, inService := true, heldOut := false, lost := false })).resend Option.isNone
      if back then m.unitEvent (e.ioNow plane) .planeRestored (planeRes plane) [] else m
    else
      let m := m.updPlane plane (fun p => { p with number := some number, inService := false, heldOut := true })
      m.unitEvent (e.ioNow plane) .addressConflict (planeRes plane) []

def execHello (plane : Fin 8) (port : Fin 4) (number : BitVec 24) (s : State) : Host.Outcome State Fault Refusal :=
  if s.fuses.grade.hasIo plane then runMod (hello plane port number) s else .fault .absentUnit

/-- PLANE_LOST: the plane leaves sending, and its unacknowledged packets are sent again on the remaining planes (R354). The fault is
counted in its class (R425, R437). -/
def planeLost (n : Nat) (e : Env) (m : Mod) : Mod :=
  let m := m.updPlane n (fun _ => { number := none, inService := false, heldOut := false, lost := true })
  let m := { m.resend (fun w => w.map Prod.fst == some n) with flt.lasting := vmodN m.flt.lasting 5 (fun x => satAdd 32 x 1) }
  m.unitEvent (e.ioNow n) .planeLost (planeRes n) []

/-- Remove a plane from the time median (R50, R354). PLANES goes on telling what the last median was made of (R64). -/
def TimeState.dropPlane (t : TimeState) (n : Fin 8) : TimeState := { t with offsets := vmod t.offsets n (fun _ => none) }

/-- PLANE_LOST. Nothing happens unless the plane was in service or held out and all its ports are down. -/
def execPlaneLost (plane : Fin 8) (s : State) : Host.Outcome State Fault Refusal :=
  if !s.fuses.grade.hasIo plane then .fault .absentUnit
  else if ((s.mod.plane plane).inService || (s.mod.plane plane).heldOut) && !s.mod.anyPortUp plane then
    .next { s with time := s.time.dropPlane plane, mod := planeLost plane ⟨s.fuses, s.time⟩ s.mod }
  else .next s

/-- Whether a packet of this channel, sender, destination and sequence number has been accepted. -/
def Fabric.has (f : Fabric) (p : Packet) : Bool := f.seen.contains (p.vc.val, p.src, p.dst, p.seq)

/-- Packets of a pair of endpoints that a channel in send order has delivered: the sequence number it waits for (log 28). -/
def Fabric.expected (f : Fabric) (p : Packet) : Nat :=
  (f.delivered.filter (fun x => x.vc == p.vc && x.src == p.src && x.dst == p.dst)).length

/-- Channels that deliver in send order across planes: VC0 and VC3 (R352). On VC1 each plane's link keeps the order. -/
def inOrder (vc : Nat) : Bool := vc == 0 || vc == 3

/-- Deliver waiting packets of such channels whose turn has come; at most `k` can. -/
def Fabric.settle (k : Nat) (f : Fabric) : Fabric :=
  match k with
  | 0 => f
  | k + 1 =>
    match f.reorder.find? (fun x => x.seq == f.expected x) with
    | none => f
    | some x => Fabric.settle k { f with delivered := f.delivered ++ [x], reorder := f.reorder.filter (fun y => y != x) }

/-- Accept a packet: VC0 and VC3 restore the send order of its pair (R352). -/
def Fabric.accept (f : Fabric) (p : Packet) : Fabric :=
  let f := if reliable p.vc.val then { f with seen := f.seen ++ [(p.vc.val, p.src, p.dst, p.seq)] } else f
  if inOrder p.vc.val then
    let f := { f with reorder := f.reorder ++ [p] }
    f.settle f.reorder.length
  else { f with delivered := f.delivered ++ [p] }

/-- The destination endpoint acknowledges a packet of a reliable channel, a repeated one too (R353). -/
def Fabric.acknowledge (f : Fabric) (p : Packet) : Fabric :=
  if reliable p.vc.val then { f with acks := f.acks ++ [(p.vc.val, p.src, p.dst, p.seq)] } else f

/-- PACKET_RECEIVED: its channel's credit goes back; for an endpoint that exists it is acknowledged, and one already accepted is discarded
(R351 to R353). -/
def packetReceived (plane : Fin 8) (port : Fin 4) (p : Packet) (e : Env) (m : Mod) : Mod :=
  if !m.planeUp plane then m
  else
    let m := m.updPort plane port (Port.credit p.vc)
    if m.fab.number != some (p.dst.extractLsb' 8 24) || !e.fuses.grade.endpoint (bits p.dst.toNat 7 0) then m
    else if reliable p.vc.val && m.fab.has p then { m with fab := m.fab.acknowledge p }
    else { m with fab := (m.fab.accept p).acknowledge p }

def execPacketReceived (plane : Fin 8) (port : Fin 4) (pkt : Packet) (s : State) : Host.Outcome State Fault Refusal :=
  if s.fuses.grade.hasIo plane then runMod (packetReceived plane port pkt) s else .fault .absentUnit

/-- PACKET_ACKNOWLEDGED: the sender's copy is released (R353), and the sending credit that it spent (R352). -/
def packetAcknowledged (vc : Fin 16) (src dst : BitVec 32) (seq : Nat) (_e : Env) (m : Mod) : Mod :=
  let mine := fun (x : Option (Nat × Nat) × Packet) => x.2.vc == vc && x.2.src == src && x.2.dst == dst && x.2.seq == seq
  (m.fab.sent.filter mine).foldl (fun m x =>
    match x.1 with
    | some w => m.updPort w.1 w.2 (Port.release vc)
    | none => m) { m with fab.sent := m.fab.sent.filter (fun x => !mine x) }

def execPacketAcknowledged (vc : Fin 16) (src dst : BitVec 32) (seq : Nat) (s : State) : Host.Outcome State Fault Refusal :=
  runMod (packetAcknowledged vc src dst seq) s

end Sys2Proof.Machine
end

