-- ==== Sys2Proof/Machine/Tensor.lean ====
section
/-! DEFINITION. Tensors in region entries (R171) and the conversion of their elements (R171, R172, R185 to R189, R286). -/

namespace Sys2Proof.Machine

/-! Tensors in region entries. -/

/-- Element `i` of a packed tensor with `w`-bit elements, from the first byte of an entry. -/
def Mod.entCode (m : Mod) (r : RegEnt) (w i : Nat) : Nat :=
  leNat (m.entRead r (i * w / 8) (w / 8 + 2)) / 2 ^ (i * w % 8) % 2 ^ w

/-- Element `i` of a tensor in a floating-point format, as an exact value. -/
def Mod.entVal (m : Mod) (r : RegEnt) (fmt i : Nat) : FVal := (fmtSpec fmt).decode (m.entCode r (fmtBits fmt) i)

/-- Write one packed element. -/
def Mod.setCode (m : Mod) (r : RegEnt) (w i code : Nat) : Mod :=
  if w % 8 = 0 then m.entWrite r (i * (w / 8)) (natLe (w / 8) code)
  else
    let o := i * w / 8
    let s := i * w % 8
    let k := (s + w + 7) / 8
    let old := leNat (m.entRead r o k)
    let new := old - old / 2 ^ s % 2 ^ w * 2 ^ s + code % 2 ^ w * 2 ^ s
    m.entWrite r o (natLe k new)

/-- Write elements from index `i` upward. -/
def Mod.setCodes (m : Mod) (r : RegEnt) (w i : Nat) (codes : List Nat) : Mod :=
  match codes with
  | [] => m
  | c :: l => Mod.setCodes (m.setCode r w i c) r w (i + 1) l

/-- Part `i` of `p` of a contiguous split of `n` items (DESIGN CHOICE, log 21: R226 and R301 give no sizes). -/
def shareOf (n p i : Nat) : Nat × Nat := (n * i / p, n * (i + 1) / p)

/-! Exact quotients. -/

/-- Floor of log2 of a/b for positive finite values. -/
def quotLog2 (a b : FVal) : Int :=
  let d := a.ilog2 - b.ilog2
  if (b.scale d).le a then d else d - 1

/-- Least k with a ≤ b·2^k, for positive finite values: the ceiling of log2 of a/b. -/
def quotClog2 (a b : FVal) : Int :=
  let d := a.ilog2 - b.ilog2
  if a.le (b.scale d) then d else d + 1

/-- a/b · 2^k rounded once, saturating (R185, R187): for finite a and positive finite b. -/
def FSpec.quot (f : FSpec) (a b : FVal) (k : Int) : Res :=
  match a, b with
  | .fin s m e, .fin _ n x =>
    if m = 0 || n = 0 then ⟨0, false⟩
    else
      let sh := f.fbits + 4 + Nat.log2 n
      let num := m * 2 ^ sh
      f.round true s (num / n) (e - x - sh + k) (num % n != 0)
  | _, _ => ⟨0, false⟩

/-! The parameters of a CONVERT (R286). -/

structure Cvt where
  rows : Nat
  cols : Nat
  sfmt : Nat
  tfmt : Nat
  square : Bool
  bdim : Bool
deriving DecidableEq, Repr

def Node.cvt (n : Node) : Cvt :=
  { rows := n.par 0 4, cols := n.par 4 4, sfmt := n.par 8 1, tfmt := n.par 9 1, square := bitAt (n.par 0xA 1) 0,
    bdim := bitAt (n.par 0xA 1) 1 }

def Cvt.elems (c : Cvt) : Nat := c.rows * c.cols

/-- Index of the scale of element (r, k) (R171). -/
def Cvt.scaleIdx (c : Cvt) (r k : Nat) : Nat := if c.bdim then r / 32 * c.cols + k else r * ceilDiv c.cols 32 + k / 32

/-- Number of scales of the tensor. -/
def Cvt.scales (c : Cvt) : Nat := if c.bdim then ceilDiv c.rows 32 * c.cols else c.rows * ceilDiv c.cols 32

/-- Rows that one unit of a split holds: 32 where blocks or squares span rows. -/
def Cvt.unitRows (c : Cvt) : Nat := if (isMx c.tfmt && (c.bdim || c.square)) then 32 else 1

/-- Rows of part `i` of `p`. -/
def Cvt.partRows (c : Cvt) (p i : Nat) : Nat × Nat :=
  let u := c.unitRows
  let s := shareOf (ceilDiv c.rows u) p i
  (min c.rows (s.1 * u), min c.rows (s.2 * u))

/-- The exact source value of element (r, k) (R172, R185). The tensor scale of an MX source is taken as 1 (DEDUCED, log 22). -/
def Mod.cvtSource (m : Mod) (n : Node) (c : Cvt) (r k : Nat) : FVal :=
  let v := m.entVal (n.parEnt 0xB) c.sfmt (r * c.cols + k)
  if isMx c.sfmt then
    match scaleExp (BitVec.ofNat 8 (m.entCode (n.parEnt 0x10) 8 (c.scaleIdx r k))) with
    | none => .nan
    | some s => v.scale s
  else v

/-- Counts of a conversion: flushes, saturations, special inputs, overflows, NaNs, the first NaN's index, the amax. -/
structure CvtCount where
  flush : Nat
  sat : Nat
  special : Nat
  ovf : Nat
  nans : Nat
  first : Option Nat
  amax : FVal

def CvtCount.zero : CvtCount := ⟨0, 0, 0, 0, 0, none, .zero⟩

def FVal.nonzero (v : FVal) : Bool := v.isFin && !v.isZero

/-- Count an input. -/
def CvtCount.input (c : CvtCount) (v : FVal) : CvtCount :=
  if v.isFin then { c with amax := c.amax.max v.abs } else { c with special := c.special + 1 }

/-- Count `k` NaN outputs, the first at index `i`. -/
def CvtCount.nan (c : CvtCount) (i k : Nat) : CvtCount :=
  if k = 0 then c
  else { c with nans := c.nans + k, first := some (match c.first with | some j => min i j | none => i) }

/-- One element of a target without block scales, or of an MX element format with its block exponent `s` (R185, R187, R188). -/
def cvtElem (tfmt : Nat) (t : FVal) (s : Int) (i : Nat) (v : FVal) (c : CvtCount) : Nat × CvtCount :=
  let f := fmtSpec tfmt
  let c := c.input v
  match v with
  | .nan => (f.canonNan, c.nan i 1)
  | .inf sg => if f.inf then (f.infBits sg, c) else (f.canonNan, c.nan i 1)
  | v =>
    if tfmt ≤ 1 then
      let r := f.ofVal v
      (f.noNegZero r.bits, { c with ovf := c.ovf + ovfCount r })
    else
      let r := f.quot v t (-s)
      let code := f.noNegZero r.bits
      (code, { c with sat := c.sat + ovfCount r, flush := c.flush + (if v.nonzero && code = 0 then 1 else 0) })

/-- Exponent of the largest normal value of an element format (R186). -/
def emaxOf (tfmt : Nat) : Int := match tfmt with | 4 => 8 | 5 => 15 | 6 => 4 | _ => 2

/-- Block exponent (R186). -/
def blockExp (tfmt : Nat) (t : FVal) (vals : List FVal) : Int :=
  let a := (vals.filter FVal.isFin).foldl (fun acc v => acc.max v.abs) FVal.zero
  if a.isZero then 0 else max (-127) (min 127 (quotLog2 a t - emaxOf tfmt))

/-- Element formats without special values (R188). -/
def noSpecials (tfmt : Nat) : Bool := tfmt == 6 || tfmt == 7 || tfmt == 8

/-- Convert one group of elements, a block or a square: codes and scale code (R186 to R189). `g` pairs indices and values. -/
def cvtGroup (tfmt : Nat) (t : FVal) (g : List (Nat × FVal)) (c : CvtCount) : List (Nat × Nat) × Nat × CvtCount :=
  let bad := noSpecials tfmt && g.any (fun x => !x.2.isFin)
  if bad then
    let c := g.foldl (fun c x => c.input x.2) c
    (g.map (fun x => (x.1, 0)), 0xFF, c.nan (g.headD (0, .nan)).1 g.length)
  else
    let s := blockExp tfmt t (g.map (fun x => x.2))
    let r := g.foldl (fun (acc : List (Nat × Nat) × CvtCount) x =>
      let y := cvtElem tfmt t s x.1 x.2 acc.2
      (acc.1 ++ [(x.1, y.1)], y.2)) ([], c)
    (r.1, (s + 127).toNat, r.2)

/-- Element coordinates of the groups in a range of rows. -/
def Cvt.groups (c : Cvt) (lo hi : Nat) : List (List (Nat × Nat)) :=
  let rect := fun (r0 rn k0 kn : Nat) =>
    (List.range rn).flatMap (fun i => (List.range kn).map (fun j => (r0 + i, k0 + j)))
  let kb := ceilDiv c.cols 32
  if c.square || c.bdim then
    (List.range (ceilDiv (hi - lo) 32)).flatMap (fun i =>
      let r0 := lo + 32 * i
      let rn := min 32 (hi - r0)
      if c.square then (List.range kb).map (fun j => rect r0 rn (32 * j) (min 32 (c.cols - 32 * j)))
      else (List.range c.cols).map (fun k => rect r0 rn k 1))
  else
    (List.range (hi - lo)).flatMap (fun i => (List.range kb).map (fun j => rect (lo + i) 1 (32 * j) (min 32 (c.cols - 32 * j))))

/-- Convert the rows of a part: memory after it and its counts. -/
def Mod.cvtRows (m : Mod) (n : Node) (c : Cvt) (t : FVal) (lo hi : Nat) : Mod × CvtCount :=
  let w := fmtBits c.tfmt
  let dst := n.parEnt 0xC
  if isMx c.tfmt then
    (c.groups lo hi).foldl (fun (acc : Mod × CvtCount) g =>
      let vals := g.map (fun x => (x.1 * c.cols + x.2, m.cvtSource n c x.1 x.2))
      let r := cvtGroup c.tfmt t vals acc.2
      let m' := r.1.foldl (fun m x => m.setCode dst w x.1 x.2) acc.1
      let m' := g.foldl (fun m x => m.setCode (n.parEnt 0xD) 8 (c.scaleIdx x.1 x.2) r.2.1) m'
      (m', r.2.2)) (m, CvtCount.zero)
  else
    (List.range ((hi - lo) * c.cols)).foldl (fun (acc : Mod × CvtCount) i =>
      let idx := lo * c.cols + i
      let r := cvtElem c.tfmt t 0 idx (m.cvtSource n c (idx / c.cols) (idx % c.cols)) acc.2
      (acc.1.setCode dst w idx r.1, r.2)) (m, CvtCount.zero)

end Sys2Proof.Machine
end

