-- ==== Sys2Proof/Machine/Stash.lean ====
section
/-! DEFINITION. Edges (R289, R290), blocks, the activation stash, replays and the recompute rules (09_backward: R200,
R210 to R221). -/

namespace Sys2Proof.Machine

/-! Edges (R290). -/

/-- Phase codes (R283). -/
def phFwd : Nat := 0
def phBwd : Nat := 1

/-- Whether every byte of a range lies in completed result ranges. -/
def rangesCover (l : List (Nat × Nat)) (a n : Nat) : Bool :=
  (List.range n).all (fun i => l.any (fun r => decide (r.1 ≤ a + i) && decide (a + i < r.1 + r.2)))

/-- Whether a successor of a collective holds an IN entry in the result's region, and every such entry lies within the result bytes of
completed buckets (R373). -/
def Graph.earlyBytes (g : Graph) (x : Edge) : Bool :=
  let p := g.node x.pred
  let d := p.parEnt 0x19
  let ins := (g.node x.succ).regs.filter (fun r => r.kind == 0#8 && r.handle == d.handle)
  p.ty == tyCollective && !ins.isEmpty && ins.all (fun r => rangesCover (g.runOf x.pred).written r.off r.len)

/-- Whether a successor may start before a collective completes; one that has started keeps its edge satisfied (R373). -/
def Graph.earlyOk (g : Graph) (x : Edge) : Bool :=
  g.earlyBytes x && ((g.runOf x.pred).isRunning || (g.runOf x.succ).isRunning)

/-- Whether an edge is satisfied: by a success, along a tolerant edge by any completion but ABORTED, or early by the buckets of
a collective. -/
def Graph.edgeSat (g : Graph) (x : Edge) : Bool :=
  match (g.runOf x.pred).phase with
  | .done st => if x.tol then st != .aborted else st.success
  | _ => g.earlyOk x

/-- Whether a non-tolerant edge can no longer be satisfied. -/
def Graph.edgeDead (g : Graph) (x : Edge) : Bool :=
  match (g.runOf x.pred).phase with
  | .done st => !x.tol && !st.success
  | _ => false

/-- Every edge into a node is satisfied. -/
def Graph.edgesOk (g : Graph) (n : Nat) : Bool := (g.into n).all g.edgeSat

/-! Blocks (R210). -/

def Graph.stage (g : Graph) (j : Nat) : StageEnt := g.stages.getD j ⟨0, 0, 0, 0, 0, 0, 0, []⟩
def Graph.stashOf (g : Graph) (j : Nat) : StashSt := g.stash.getD j ⟨[], [], [], [], []⟩
def StageEnt.block (x : StageEnt) (b : Nat) : BlockEnt := x.blocks.getD b ⟨0, 0, 0⟩
def BlockEnt.keep (b : BlockEnt) : Nat := b.policy.toNat % 4
def BlockEnt.mayOffload (b : BlockEnt) : Bool := b.policy.getLsbD 2

/-- Whether a node belongs to a declared block. -/
def Graph.declared (g : Graph) (n : Node) : Bool :=
  decide (n.stage < g.stages.length) && decide (n.block < (g.stage n.stage).blocks.length)

/-- Nodes of a block for one micro-batch in one phase. -/
def Graph.blockNodes (g : Graph) (phase j b mb : Nat) : List Nat :=
  (List.range g.nodes.length).filter (fun i =>
    let n := g.node i
    n.phase == phase && n.stage == j && n.block == b && n.mb == mb)

/-- The policy of a block for a micro-batch, demotions counted (R217). -/
def Graph.policyOf (g : Graph) (j mb b : Nat) : Nat :=
  let p := ((g.stage j).block b).keep
  if p = 0 && (g.stashOf j).demoted.contains (mb, b) then 1 else p

/-! Admission of micro-batches (R200, R217). -/

/-- No micro-batch (R283). -/
def noMb : Nat := 0xFFFF

/-- Micro-batches of the stage's forward nodes that are still to complete, declared block or not; the number of no micro-batch stands for those
without one. One whose forward nodes have all ended needs no admission. -/
def Graph.fwdMbs (g : Graph) (j : Nat) : List Nat :=
  ((List.range g.nodes.length).filter (fun i =>
    let n := g.node i
    n.phase == phFwd && n.stage == j && !(g.runOf i).isDone)).map (fun i => (g.node i).mb)

/-- Whether a node has started: one that a failed predecessor or an abort ended has not. -/
def NRun.hasRun (r : NRun) : Bool :=
  match r.phase with
  | .running => true
  | .done st => st != .predecessorFailed && st != .aborted
  | _ => false

/-- The stage has admitted a micro-batch of the graph once one of its blocks is reserved or one of its forward nodes has started. -/
def Graph.admitted (g : Graph) (j mb : Nat) : Bool :=
  (g.stashOf j).resv.any (fun r => r.mb == mb) ||
    (List.range g.nodes.length).any (fun i =>
      let n := g.node i
      n.phase == phFwd && n.stage == j && n.mb == mb && (g.runOf i).hasRun)

/-- Whether a block has started for a micro-batch. -/
def Graph.blockStarted (g : Graph) (j mb b : Nat) : Bool :=
  (g.blockNodes phFwd j b mb).any (fun i => (g.runOf i).isRunning || (g.runOf i).isDone)

/-- Whether a block of another micro-batch of the stage has had to wait and has not started yet: no further micro-batch is admitted, but the
block that waits retries (R217). -/
def Graph.holding (g : Graph) (j mb : Nat) : Bool := (g.stashOf j).waiting.any (fun x => x.1 != mb && !g.blockStarted j x.1 x.2)

/-- The graphs of one owner that carry the same training step (R200). -/
def Mod.stepGraphs (m : Mod) (g : Graph) : List Graph :=
  (m.graphs.map (fun y => y.2)).filter (fun y => y.ctx == g.ctx && y.hdr.step == g.hdr.step)

/-- Within one training step a stage admits forward micro-batches in ascending index, whichever graphs carry them, and none further while
a block waits (R200, R217). -/
def Mod.mayAdmit (m : Mod) (g : Graph) (j mb : Nat) : Bool :=
  let l := m.stepGraphs g
  let adm := fun k => l.any (fun y => y.admitted j k)
  mb == noMb || adm mb ||
    (l.all (fun y => !y.holding j mb) && l.all (fun y => (y.fwdMbs j).all (fun k => decide (mb ≤ k) || adm k)))

/-! Reservations (R216 to R218). -/

/-- Bytes in use of the quota, and the ranges in use of the offload area. -/
def StashSt.used (s : StashSt) : Nat := s.resv.foldl (fun acc r => if r.off.isSome then acc else acc + r.stump + r.internal) 0
def StashSt.offUsed (s : StashSt) : List (Nat × Nat) := s.resv.filterMap (fun r => r.off.map (fun a => (a, r.stump)))

def StashSt.has (s : StashSt) (mb b : Nat) : Bool := s.resv.any (fun r => r.mb == mb && r.block == b)

/-- The lowest place for `need` bytes below `limit` beside the ranges in use. -/
def freePlace (taken : List (Nat × Nat)) (need limit : Nat) : Option Nat :=
  let ok := fun a => decide (a + need ≤ limit) && !taken.any (fun r => rangeMeets r (a, need))
  ((0 :: taken.map (fun r => r.1 + r.2)).filter ok).foldl (fun acc a => some (min a (acc.getD a))) none

/-- Whether a footprint fits in the quota. -/
def StageEnt.fits (x : StageEnt) (s : StashSt) (n : Nat) : Bool := decide (s.used + n ≤ x.quota)

/-- The place of a stump in the offload area, if it has room (the lowest; DESIGN CHOICE, log 18). -/
def StageEnt.offPlace (x : StageEnt) (s : StashSt) (stump : Nat) : Option Nat :=
  if x.offload = 0xFFFFFFFF#32 then none else freePlace s.offUsed stump x.offloadLen

/-- Enter a reservation. -/
def StashSt.take (s : StashSt) (mb b stump internal : Nat) (off : Option Nat) : StashSt :=
  { s with resv := s.resv ++ [⟨mb, b, stump, internal, off, [], [], []⟩] }

/-- Release internal activations of a micro-batch's blocks that are not running, newest block first, until a stump fits; each released
block is demoted (R216, R218). `idle` tells which blocks of the micro-batch have finished. -/
def releaseActs (fuel : Nat) (x : StageEnt) (idle : Nat → Bool) (mb stump : Nat) (s : StashSt) : StashSt :=
  match fuel with
  | 0 => s
  | fuel + 1 =>
    if x.fits s stump then s
    else
      match s.resv.filter (fun r => r.mb == mb && decide (0 < r.internal) && idle r.block) with
      | [] => s
      | kept =>
        let b := kept.foldl (fun acc r => max acc r.block) 0
        let resv := s.resv.map (fun r => if r.mb == mb && r.block == b then { r with internal := 0 } else r)
        releaseActs fuel x idle mb stump { s with resv := resv, demoted := s.demoted ++ [(mb, b)] }

/-- What a reservation did: the stash after it, the demotions, waits and offloads it made, and whether it found the stash full. -/
structure ResvOut where
  stash : StashSt
  demoted : Nat
  waited : Nat
  offloads : Nat
  full : Bool

/-- Blocks that step 1 of R217 demotes: KEEP_ALL blocks from this one on. -/
def Graph.demotable (g : Graph) (j mb b : Nat) : List (Nat × Nat) :=
  ((List.range (g.stage j).blocks.length).filter (fun k => decide (b ≤ k) && g.policyOf j mb k == 0)).map (fun k => (mb, k))

/-- Node types that compute nothing (R287). -/
def Node.bare (x : Node) : Bool := x.ty == tyCue || x.ty == tyBarrier || x.ty == tyHostNote

/-- Whether no forward node of a block runs for a micro-batch, and its activations may be replayed: all that compute have completed. -/
def Graph.blockIdle (g : Graph) (j mb b : Nat) : Bool := (g.blockNodes phFwd j b mb).all (fun i => (g.node i).bare || (g.runOf i).isDone)

/-- Whether a micro-batch is the oldest whose stumps or activations stand in the stash (R218). -/
def StashSt.oldest (s : StashSt) (mb : Nat) : Bool := (s.resv.filter (fun r => r.off.isNone)).all (fun r => decide (mb ≤ r.mb))

/-- The steps of R217 after a failed reservation. -/
def Graph.underPressure (g : Graph) (j mb b : Nat) : ResvOut :=
  let x := g.stage j
  let e := x.block b
  let s := g.stashOf j
  let dem := g.demotable j mb b
  let s := { s with demoted := s.demoted ++ dem }
  let offload := fun (p : Nat) => (⟨s.take mb b e.stump 0 (some p), dem.length, 0, 1, true⟩ : ResvOut)
  let wait : ResvOut :=
    let known := s.waiting.contains (mb, b)
    ⟨if known then s else { s with waiting := s.waiting ++ [(mb, b)] }, dem.length, boolNat (!known), 0, true⟩
  if e.keep = 2 then (match x.offPlace s e.stump with | some p => offload p | none => wait)
  else if x.fits s e.stump then ⟨s.take mb b e.stump 0 none, dem.length, 0, 0, true⟩
  else
    match if e.mayOffload then x.offPlace s e.stump else none with
    | some p => offload p
    | none =>
      let s' := if s.oldest mb then releaseActs (s.resv.length + 1) x (g.blockIdle j mb) mb e.stump s else s
      if x.fits s' e.stump then
        ⟨s'.take mb b e.stump 0 none, dem.length + (s'.demoted.length - s.demoted.length), 0, 0, true⟩
      else wait

/-- A reservation of a block for a micro-batch (R216, R217). -/
def Graph.reserve (g : Graph) (j mb b : Nat) : ResvOut :=
  let x := g.stage j
  let e := x.block b
  let s := g.stashOf j
  let p := g.policyOf j mb b
  let internal := if p = 0 then e.internal else 0
  if p = 2 then
    match x.offPlace s e.stump with
    | some a => ⟨s.take mb b e.stump 0 (some a), 0, 0, 1, false⟩
    | none => g.underPressure j mb b
  else if x.fits s (e.stump + internal) then ⟨s.take mb b e.stump internal none, 0, 0, 0, false⟩
  else g.underPressure j mb b

/-- Whether a block of a micro-batch asks for its footprint: unreserved, with a forward node that has not run and whose edges
are satisfied. -/
def Graph.asks (g : Graph) (j mb b : Nat) : Bool :=
  !(g.stashOf j).has mb b &&
    (g.blockNodes phFwd j b mb).any (fun i =>
      (match (g.runOf i).phase with | .held => true | .released => true | _ => false) && g.edgesOk i)

/-- The blocks that ask for their footprint and whose micro-batch is admitted or may be, lowest micro-batch and block first. -/
def Mod.askers (m : Mod) (g : Graph) (j : Nat) : List (Nat × Nat) :=
  (((g.fwdMbs j).filter (m.mayAdmit g j)).foldr insertNat []).flatMap (fun mb =>
    ((List.range (g.stage j).blocks.length).filter (g.asks j mb)).map (fun b => (mb, b)))

/-- The block that reserves next: the first that asks and whose reservation changes anything. A block that waits does not keep the blocks
of admitted micro-batches from reserving (R217). -/
def Mod.nextResv (m : Mod) (g : Graph) (j : Nat) : Option (Nat × Nat) :=
  (m.askers g j).find? (fun x => decide ((g.reserve j x.1 x.2).stash ≠ g.stashOf j))

def Graph.setStash (g : Graph) (j : Nat) (s : StashSt) : Graph := { g with stash := lmod g.stash j (fun _ => s) }

/-- The place of a block's stump in the offload area. -/
def StashSt.offOf (s : StashSt) (mb b : Nat) : Option Nat :=
  (s.resv.find? (fun r => r.mb == mb && r.block == b)).bind (fun r => r.off)

/-- IN and OUT entries of a node, with their places in its list. -/
def Node.ents (x : Node) (kind : BitVec 8) : List (Nat × RegEnt) := ((x.regs.mapIdx (fun i r => (i, r))).filter (fun y => y.2.kind == kind))

/-- Whether two region entries share bytes. -/
def RegEnt.meets (a b : RegEnt) : Bool := a.handle == b.handle && rangeMeets (a.off, a.len) (b.off, b.len)

/-- The entries through which a forward node reads its block's input: IN entries of ACT class, or in the stash region of stumps, that no node
of the block writes (R211, R220; DESIGN CHOICE, log 18: the spec names no entry as the block's input). -/
def Mod.stumpEnts (m : Mod) (g : Graph) (x : Node) : List (Nat × RegEnt) :=
  let mine := (g.blockNodes phFwd x.stage x.block x.mb).flatMap (fun i => (g.node i).ents 1#8)
  (x.ents 0#8).filter (fun y =>
    (y.2.handle == (g.stage x.stage).stumps || (match m.region y.2.handle with | some r => r.cls == .act | none => false)) &&
      !mine.any (fun o => o.2.meets y.2))

/-- A change of the reservations of a node's block. -/
def Graph.updResv (g : Graph) (x : Node) (f : Resv → Resv) : Graph :=
  let s := g.stashOf x.stage
  { g with stash := lmod g.stash x.stage (fun _ =>
      { s with resv := s.resv.map (fun v => if v.mb == x.mb && v.block == x.block then f v else v) }) }

/-- CONVERT nodes of a block, each with a scale note in its stump (R214). -/
def Graph.converts (g : Graph) (j b mb : Nat) : List Nat := (g.blockNodes phFwd j b mb).filter (fun i => (g.node i).ty == tyConvert)

/-- The bytes of a stump: the inputs in the order in which the nodes first read them, and the scale notes in node order in its last bytes
(R211, R214; the order is a DESIGN CHOICE, log 18). -/
def Resv.bytes (v : Resv) (convs : List Nat) : List Byte :=
  padTo (v.stump - 64 * convs.length) (v.ins.flatMap (fun y => y.2.2)) ++
    convs.flatMap (fun i => match v.notes.find? (fun y => y.1 == i) with | some y => y.2 | none => List.replicate 64 0)

/-- A reservation with its inputs and notes as a stump's bytes hold them. -/
def Resv.unpack (v : Resv) (convs : List Nat) (bs : List Byte) : Resv :=
  { v with ins := (v.ins.foldl (fun (acc : List (Nat × Nat × List Byte) × Nat) y =>
             (acc.1 ++ [(y.1, y.2.1, slice bs acc.2 y.2.2.length)], acc.2 + y.2.2.length)) ([], 0)).1,
           notes := convs.mapIdx (fun k i => (i, slice bs (v.stump - 64 * convs.length + 64 * k) 64)) }

/-- An offloaded stump stands in the stage's offload area (R211). -/
def Mod.putStump (m : Mod) (gh : Nat) (x : Node) : Mod :=
  match Tbl.find m.graphs gh with
  | none => m
  | some g =>
    match (g.stashOf x.stage).resv.find? (fun v => v.mb == x.mb && v.block == x.block) with
    | none => m
    | some v =>
      match v.off with
      | none => m
      | some a => m.updRegion (g.stage x.stage).offload (fun r => r.writeN a (v.bytes (g.converts x.stage x.block x.mb)))

/-- A forward node of a block that computes starts: the inputs that it reads are kept in the block's stump (R211). -/
def Mod.keepInputs (m : Mod) (gh n : Nat) : Mod :=
  match Tbl.find m.graphs gh with
  | none => m
  | some g =>
    let x := g.node n
    if x.phase != phFwd || !g.declared x || x.bare then m
    else
      let new := (m.stumpEnts g x).map (fun y => (n, y.1, m.entRead y.2 0 y.2.len))
      let known := fun (v : Resv) (y : Nat × Nat × List Byte) =>
        v.ins.any (fun z => decide ((g.node z.1).reg z.2.1 = x.reg y.2.1))
      (m.updGraph gh (fun g => g.updResv x (fun v => { v with ins := v.ins ++ new.filter (fun y => !known v y) }))).putStump gh x

/-- A forward node of a block has succeeded: the bytes that it wrote are those that a replay forms again (R213). -/
def Mod.keepOutputs (m : Mod) (gh n : Nat) : Mod :=
  match Tbl.find m.graphs gh with
  | none => m
  | some g =>
    let x := g.node n
    if x.phase != phFwd || !g.declared x || x.bare then m
    else
      let new := (x.ents 1#8).map (fun y => (n, y.1, m.entRead y.2 0 y.2.len))
      m.updGraph gh (fun g => g.updResv x (fun v => { v with outs := v.outs.filter (fun y => y.1 != n) ++ new }))

/-- Whether a stage has raised STASH_PRESSURE in this training step; if not, it has now (R217). -/
def Mod.press (m : Mod) (g : Graph) (j : Nat) : Mod × Bool :=
  if m.pressed.contains ((g.ctx, j), g.hdr.step) then (m, false)
  else ({ m with pressed := m.pressed ++ [((g.ctx, j), g.hdr.step)] }, true)

/-- STASH_RESERVATION. STASH_PRESSURE is raised once per stage and training step (R217). -/
def stashReservation (gh : Nat) (j : Fin 8) (e : Env) (m : Mod) : Mod :=
  match Tbl.find m.graphs gh with
  | none => m
  | some g =>
    match m.nextResv g j with
    | none => m
    | some (mb, b) =>
      let r := g.reserve j mb b
      let m := m.updGraph gh (fun g => g.setStash j r.stash)
      let m := m.dailyStage j (fun x => (satAdd 32 x.1 r.demoted, satAdd 32 x.2.1 r.waited, x.2.2.1, satAdd 32 x.2.2.2 r.offloads))
      if r.full then
        let y := m.press g j
        if y.2 then y.1.event e.now .stashPressure mgmtRes 0 0 [] (some g.ctx) else m
      else m

def execStashReservation (g : Nat) (stage : Fin 8) (s : State) : Host.Outcome State Fault Refusal :=
  runMod (stashReservation g stage) s

/-- A block's footprint is released when its backward tasks for the micro-batch have completed (R211). -/
def Graph.releaseBlock (g : Graph) (n : Nat) : Graph :=
  let x := g.node n
  if x.phase = phBwd && g.declared x && (g.blockNodes phBwd x.stage x.block x.mb).all (fun i => (g.runOf i).isDone) then
    let s := g.stashOf x.stage
    g.setStash x.stage
      { s with resv := s.resv.filter (fun r => !(r.mb == x.mb && r.block == x.block)),
               waiting := s.waiting.filter (fun r => r != (x.mb, x.block)),
               replayed := s.replayed.filter (fun r => !(r.block == x.block && r.mb == x.mb)) }
  else g

/-- A forward node of a stage starts only when its micro-batch is admitted, one of a declared block only with its block's reservation
(R200, R216). -/
def Mod.reserved (m : Mod) (g : Graph) (n : Nat) : Bool :=
  let x := g.node n
  x.phase != phFwd || decide (g.stages.length ≤ x.stage) ||
    (m.mayAdmit g x.stage x.mb && (!g.declared x || (g.stashOf x.stage).has x.mb x.block))

/-- Whether a block of a micro-batch has been replayed as its backward tasks need: whole (R212). -/
def StashSt.isReplayed (s : StashSt) (b mb : Nat) : Bool := s.replayed.any (fun r => r.block == b && r.mb == mb && r.full)

/-- Whether a block of a micro-batch, reserved, keeps no activations and stands in no whole replay. -/
def Graph.wantsReplay (g : Graph) (j mb b : Nat) : Bool :=
  (g.stashOf j).has mb b && g.policyOf j mb b != 0 && !(g.stashOf j).isReplayed b mb

/-- A backward node of a block whose activations are not kept starts only after the replay (R211, R212). -/
def Graph.replayDone (g : Graph) (n : Nat) : Bool :=
  let x := g.node n
  x.phase != phBwd || !g.declared x || !g.wantsReplay x.stage x.mb x.block

/-! Replay and recompute (R212 to R214, R220, R221). -/

/-- OUT entries of a node. -/
def Node.outs (n : Node) : List RegEnt := n.regs.filter (fun r => r.kind == 1#8)

/-- A replay of a byte range of an ACT region: its lines in error are read from the replay area from now on, with the bits they
had (R212, R213, R220; log 18). -/
def Region.replay (failed : List (Nat × Nat)) (r : Region) (a n : Nat) : Region :=
  if r.cls = .act then { r with replayed := r.replayed ++ r.badLines failed a n } else r

/-- A region entry is replayed. -/
def Mod.replayEnt (m : Mod) (r : RegEnt) : Mod := m.updRegion r.handle (fun g => g.replay m.mem.failedCh r.off r.len)

/-- The details of a replayed node's records: its notes, and the replay mark in the last byte of each (R212; DESIGN CHOICE, log 18: the
spec gives the mark no place). -/
def replayDetails (r : NRun) (ty : Nat) : List (List Byte) :=
  (packNotes 41 [] (r.notes.map (fun x => x.bytes (ty == tyCollective)))).map (fun d => padTo 41 d ++ [1#8])

/-- Put kept bytes back where their nodes' entries have them. -/
def Mod.putKept (m : Mod) (g : Graph) (l : List (Nat × Nat × List Byte)) : Mod :=
  l.foldl (fun m y => m.entWrite ((g.node y.1).reg y.2.1) 0 y.2.2) m

/-- What a replayed node writes to its OUT entries: a CONVERT converts the block's inputs and the earlier outputs again, with the tensor scale
of its note; any other node writes what its inputs give, the bits of the forward pass (R213, R214). -/
def Mod.replayOuts (m : Mod) (g : Graph) (v : Resv) (done : List (Nat × Nat × List Byte)) (i : Nat) : List (Nat × Nat × List Byte) :=
  let x := g.node i
  if x.ty = tyConvert then
    match v.notes.find? (fun y => y.1 == i) with
    | none => []
    | some note =>
      let m' := m.putKept g (v.ins ++ done)
      let m' := (m'.cvtRows x x.cvt (fp32.decode (fieldAt note.2 8 4)) 0 x.cvt.rows).1
      (x.ents 1#8).map (fun y => (i, y.1, m'.entRead y.2 0 y.2.len))
  else v.outs.filter (fun y => y.1 == i)

/-- A forward node has run again: its readers find its outputs in the replay area, and a node that had notes writes its records with
the replay mark. No scale record, watch record, freeze map, update state or error memory is written, and no NaN is produced (R212 to R214). -/
def Mod.replayNode (e : Env) (m : Mod) (gh i : Nat) (g : Graph) (outs : List (Nat × Nat × List Byte)) : Mod :=
  let x := g.node i
  let r := g.runOf i
  let m := outs.foldl (fun m o => m.replayEnt (x.reg o.2.1)) m
  if r.notes.isEmpty then m
  else (replayDetails r x.ty).foldl (fun m d =>
    m.event (e.unitNow (x.partUnit 0)) .okWithNotes (m.nodeRes x) (taskId gh i) r.take d (some g.ctx)) m

/-- Whether a replay that stands in the area may be overwritten: none of its block's backward nodes runs. -/
def Graph.spent (g : Graph) (j : Nat) (r : Replayed) : Bool := (g.blockNodes phBwd j r.block r.mb).all (fun i => !(g.runOf i).isRunning)

/-- Room for `len` bytes in the replay area, overwriting older replays that no running node reads: those that stay, and the place. -/
def Graph.replayRoom (fuel : Nat) (g : Graph) (j len : Nat) (l : List Replayed) : Option (List Replayed × Nat) :=
  match freePlace (l.map (fun r => (r.place, r.len))) len (g.stage j).replayLen with
  | some p => some (l, p)
  | none =>
    match fuel with
    | 0 => none
    | fuel + 1 =>
      match l.findIdx? (g.spent j) with
      | none => none
      | some i => Graph.replayRoom fuel g j len (l.eraseIdx i)

/-- A block's stump for a replay, its bytes, and the inputs and notes in them: fetched from the offload area where it went there (R211, R220). -/
def Mod.fetchStump (m : Mod) (g : Graph) (j b mb : Nat) : Option (List Byte × Resv) :=
  let convs := g.converts j b mb
  ((g.stashOf j).resv.find? (fun v => v.mb == mb && v.block == b)).map (fun v =>
    match v.off, m.region (g.stage j).offload with
    | some a, some r => let bs := r.readN a v.stump; (bs, v.unpack convs bs)
    | _, _ => (v.bytes convs, v))

/-- The forward nodes of a block that a replay up to node `upto` runs: those that compute and have completed. -/
def Graph.replayNodes (g : Graph) (j b mb upto : Nat) : List Nat :=
  (g.blockNodes phFwd j b mb).filter (fun i => !(g.node i).bare && (g.runOf i).isDone && decide (i ≤ upto))

/-- Whether every unit of a node's placement runs (R42). -/
def Mod.nodeRuns (m : Mod) (x : Node) : Bool := x.dies.all m.unitRuns && (decide (2 ≤ x.udie) || m.unitRuns (12 + x.udie))

/-- Whether a region can be reached: the update die of a slow-tier region runs (R412). -/
def Mod.tierRuns (m : Mod) (h : BitVec 32) : Bool :=
  match m.region h with
  | some r => r.cls != .slow || m.unitRuns (12 + r.die)
  | none => true

/-- Whether the stump of a forward node's block lies in an offload area whose update die does not run: its store and its fetch wait (R412). -/
def Mod.stumpHeld (m : Mod) (g : Graph) (j b mb : Nat) : Bool :=
  ((g.stashOf j).offOf mb b).isSome && !m.tierRuns (g.stage j).offload

/-- Whether a forward node of a declared block waits for the update die to which its block's stump is offloaded (R412). -/
def Mod.storeHeld (m : Mod) (gr : Graph) (n : Nat) : Bool :=
  let x := gr.node n
  x.phase == phFwd && gr.declared x && !x.bare && m.stumpHeld gr x.stage x.block x.mb

/-- The replays that stay in a stage's area when a block is replayed, and the place of its replay (R212). -/
def Graph.replayPlace (g : Graph) (j b mb : Nat) : Option (List Replayed × Nat) :=
  let s := g.stashOf j
  let blk := (g.stage j).block b
  Graph.replayRoom s.replayed.length g j (blk.stump + blk.internal) (s.replayed.filter (fun r => !(r.block == b && r.mb == mb)))

/-- Whether a block's replay up to node `upto` may run: the units of its nodes' placement run, the area has room, and its stump can be fetched
(R42, R212, R412). -/
def Mod.mayReplay (m : Mod) (g : Graph) (k : Nat × Nat × Nat) (upto : Nat) : Bool :=
  (g.replayNodes k.1 k.2.1 k.2.2 upto).all (fun i => m.nodeRuns (g.node i)) && (g.replayPlace k.1 k.2.1 k.2.2).isSome &&
    !m.stumpHeld g k.1 k.2.1 k.2.2

/-- Replay a block's completed forward nodes, up to node `upto`, from its stump into the stage's replay area: the stump, then the outputs, in
node order (R212, R220; the order is a DESIGN CHOICE, log 18). The lines that the replay forms are in error no more for their readers. -/
def Mod.replayBlock (e : Env) (m : Mod) (gh j b mb upto : Nat) : Mod :=
  match Tbl.find m.graphs gh with
  | none => m
  | some g =>
    let x := g.stage j
    let len := (x.block b).stump + (x.block b).internal
    match g.replayPlace j b mb, m.fetchStump g j b mb with
    | some (kept, p), some (bs, v) =>
      let ran := g.replayNodes j b mb upto
      let full := (g.blockNodes phFwd j b mb).all (fun i => (g.node i).bare || ran.contains i)
      let outs := ran.foldl (fun acc i => acc ++ m.replayOuts g v acc i) []
      let area := (bs ++ outs.flatMap (fun o => o.2.2)).take len
      let m := (m.updRegion x.replay (fun r => r.writeN p area)).replayEnt ⟨x.replay, 0#8, p, area.length⟩
      let m := ran.foldl (fun m i => m.replayNode e gh i g (outs.filter (fun y => y.1 == i))) m
      let m := m.dailyStage j (fun x => (x.1, x.2.1, satAdd 32 x.2.2.1 1, x.2.2.2))
      m.updGraph gh (fun g => let s := g.stashOf j; g.setStash j { s with replayed := kept ++ [⟨b, mb, p, len, full⟩] })
    | _, _ => m

/-- The blocks of a stage that want a replay and whose forward nodes have completed, in the order of the backward tasks that need them:
those whose edges are satisfied before the others (R212). -/
def Graph.nextReplay (g : Graph) (j : Nat) : Option (Nat × Nat) :=
  let l := (List.range g.nodes.length).filter (fun i =>
    let x := g.node i
    x.phase == phBwd && x.stage == j && g.declared x && !(g.runOf i).isDone && !(g.runOf i).isRunning &&
      g.wantsReplay j x.mb x.block && g.blockIdle j x.mb x.block)
  (match l.find? g.edgesOk with | some i => some i | none => l.head?).map (fun i => ((g.node i).block, (g.node i).mb))

/-- Whether a line of a region is recomputable (R220). -/
def Graph.recomputable (g : Graph) (h : BitVec 32) : Bool :=
  g.stages.any (fun x => x.acts == h || x.replay == h) ||
    g.nodes.any (fun n => n.phase == phFwd && g.declared n && n.outs.any (fun r => r.handle == h))

/-- The forward node of a declared block that wrote a line: one of the reader's micro-batch before the others. -/
def Graph.producer (g : Graph) (n : Nat) (line : Nat × Nat) : Option Nat :=
  let wrote := fun i =>
    let y := g.node i
    y.phase == phFwd && g.declared y &&
      y.outs.any (fun r => r.handle.toNat == line.1 && rangeMeets (r.off, r.len) (line.2 * 64, 64))
  let l := (List.range g.nodes.length).filter wrote
  match l.find? (fun i => (g.node i).mb == (g.node n).mb) with | some i => some i | none => l.head?

/-- The replay that stands at a line of the stage's replay area, of any stage: its stage, block and micro-batch. -/
def Graph.replayAt (g : Graph) (line : Nat × Nat) : Option (Nat × Nat × Nat) :=
  (List.range g.stages.length).findSome? (fun j =>
    if (g.stage j).replay.toNat != line.1 then none
    else ((g.stashOf j).replayed.find? (fun r => rangeMeets (r.place, r.len) (line.2 * 64, 64))).map (fun r => (j, r.block, r.mb)))

/-- The stage, block and micro-batch that a poisoned line met by node `n` counts for: its producer's, that of the replay that wrote it, else
the reader's own (DEDUCED, log 18). -/
def Graph.poisonKey (g : Graph) (n : Nat) (line : Nat × Nat) : Nat × Nat × Nat :=
  match g.producer n line with
  | some p => let y := g.node p; (y.stage, y.block, y.mb)
  | none => (g.replayAt line).getD (let y := g.node n; (y.stage, y.block, y.mb))

/-- The blocks that the lines of one take count for, each once. -/
def Graph.poisonKeys (g : Graph) (n : Nat) (lines : List (Nat × Nat)) : List (Nat × Nat × Nat) :=
  (lines.map (g.poisonKey n)).foldl (fun l k => if l.contains k then l else l ++ [k]) []

/-- Poisonings of a block and micro-batch so far. -/
def Graph.poisonings (g : Graph) (k : Nat × Nat × Nat) : Nat :=
  ((g.stashOf k.1).poisons.filter (fun p => p == k.2)).length

/-- Count a poisoning of each block that the lines of one take name (R221). Poisonings of nodes outside every stage are counted in the node
itself. -/
def Mod.countPoison (m : Mod) (gh n : Nat) (lines : List (Nat × Nat)) : Mod :=
  let m := m.updRun gh n (fun r => { r with poisons := r.poisons + 1 })
  m.updGraph gh (fun g => (g.poisonKeys n lines).foldl (fun g k =>
    let s := g.stashOf k.1
    g.setStash k.1 { s with poisons := s.poisons ++ [k.2] }) g)

/-- Whether the poisonings of a block that the lines name have reached five (R221). -/
def Graph.poisonedOut (g : Graph) (n : Nat) (lines : List (Nat × Nat)) : Bool :=
  (g.poisonKeys n lines).any (fun k =>
    if k.1 < g.stash.length then decide (5 ≤ g.poisonings k) else decide (5 ≤ (g.runOf n).poisons))

/-- The lines in error that a byte range of a region entry meets: region handle and line. -/
def Mod.entBad (m : Mod) (r : RegEnt) (o n : Nat) : List (Nat × Nat) :=
  match m.region r.handle with
  | none => []
  | some g => if g.cls = .act then (g.badLines m.mem.failedCh (r.off + o) n).map (fun l => (r.handle.toNat, l)) else []

/-- A line of the stage's STUMPS region that cannot be decoded, met while a stump is read: one that the error names, or one lost earlier among
the inputs that lie there (R336). -/
def Mod.stumpLost (m : Mod) (g : Graph) (k : Nat × Nat × Nat) (err : EngErr) : Option Nat :=
  let x := g.stage k.1
  let kept : List RegEnt := match (g.stashOf k.1).resv.find? (fun v => v.mb == k.2.2 && v.block == k.2.1) with
    | some v => v.ins.map (fun (y : Nat × Nat × List Byte) => (g.node y.1).reg y.2.1)
    | none => []
  match (kept.filter (fun r => r.handle == x.stumps)).findSome? (fun r => m.entLost r 0 r.len), err with
  | some l, _ => some l
  | none, .hbm a line _ =>
    (match m.pageAt a, m.region x.stumps with
     | some (h, i), some r =>
       if h = x.stumps.toNat && (r.badLines m.mem.failedCh (64 * (64 * i + line.val)) 64) != [] then some (64 * i + line.val) else none
     | _, _ => none)
  | none, _ => none

/-- What the read of a block's stump ends its task with, if it cannot be read: a slow-tier line of an offloaded stump, or a line of the
stage's STUMPS (R260, R336). -/
def Mod.stumpFault (e : Env) (m : Mod) (g : Graph) (k : Nat × Nat × Nat) (err : EngErr) : Option (Status × List Byte) :=
  match (g.stashOf k.1).offOf k.2.2 k.2.1 with
  | some _ => if err.slowLost then some (.slowUncorrectable, []) else none
  | none => (m.stumpLost g k err).map (fun l => (.hbmUncorrectable, m.lostDetail e (g.stage k.1).stumps l))

/-- How far the replay of a block goes for the lines that a reader has met: for a forward reader up to their producer, else to its end (R220). -/
def Graph.upto (g : Graph) (n : Nat) (lines : List (Nat × Nat)) (k : Nat × Nat × Nat) : Nat :=
  if (g.node n).phase != phFwd then g.nodes.length
  else (lines.filter (fun l => decide (g.poisonKey n l = k))).foldl (fun u l => max u ((g.producer n l).getD g.nodes.length)) 0

/-- Lines in error that a recompute has made good for their readers (R220). -/
def Mod.madeGood (m : Mod) (lines : List (Nat × Nat)) : Mod :=
  lines.foldl (fun m l => m.replayEnt ⟨BitVec.ofNat 32 l.1, 0#8, l.2 * 64, 64⟩) m

/-- Whether lines in error can be recomputed, each in a region that R220 names. -/
def Graph.allRecomputable (g : Graph) (lines : List (Nat × Nat)) : Bool :=
  !lines.isEmpty && lines.all (fun l => g.recomputable (BitVec.ofNat 32 l.1))

/-- Whether the recompute of the lines that ended a take has to wait: a unit that it runs on, or the update die of an offloaded stump, does not
run, or the replay area has no room yet (R42, R212, R412). -/
def Mod.recomputeHeld (m : Mod) (gh n : Nat) (lines : List (Nat × Nat)) : Bool :=
  match Tbl.find m.graphs gh with
  | none => false
  | some g => g.allRecomputable lines && !(g.poisonKeys n lines).all (fun k => m.mayReplay g k (g.upto n lines k))

/-- The recompute of the lines that ended a take, before its reader goes on: each block that they count for is replayed, for a forward reader
up to the producer, and the reader finds the replayed values (R220, R300). -/
def Mod.recompute (e : Env) (m : Mod) (gh n : Nat) (lines : List (Nat × Nat)) : Mod :=
  match Tbl.find m.graphs gh with
  | none => m
  | some g => ((g.poisonKeys n lines).foldl (fun m k => m.replayBlock e gh k.1 k.2.1 k.2.2 (g.upto n lines k)) m).madeGood lines

/-- A take that poisoned lines ended: the poisonings are counted, and the lines are recomputed for the next take. Otherwise the task ends: with
ACT_POISON where a line is not recomputable or its block has been poisoned five times, or as the stump's read ends it (R220, R221, R260). -/
def Mod.poisonedTake (e : Env) (m : Mod) (gh n : Nat) (lines : List (Nat × Nat)) (err : EngErr) : Mod × Option (Status × List Byte) :=
  match Tbl.find m.graphs gh with
  | none => (m, none)
  | some g =>
    if !g.allRecomputable lines then (m, some (.actPoison, []))
    else
      let m := m.countPoison gh n lines
      match Tbl.find m.graphs gh with
      | none => (m, none)
      | some g =>
        if g.poisonedOut n lines then (m, some (.actPoison, []))
        else
          match (g.poisonKeys n lines).findSome? (fun k => m.stumpFault e g k err) with
          | some f => (m, some f)
          | none => (m.recompute e gh n lines, none)

end Sys2Proof.Machine
end

