-- ==== Sys2Proof/Machine/Vector.lean ====
section
/-! DEFINITION. The vector engine (07_vector_engine: R145 to R164; R69, R70, R85, R86). -/

namespace Sys2Proof.Machine

/-! Registers (R145). -/

/-- Element `i` of a register with `w`-bit elements. -/
def vElem (v : BitVec 4096) (w i : Nat) : Nat := v.toNat / 2 ^ (i * w) % 2 ^ w

/-- Set element `i`. -/
def vSetElem (v : BitVec 4096) (w i x : Nat) : BitVec 4096 :=
  let mask : BitVec 4096 := BitVec.ofNat 4096 ((2 ^ w - 1) * 2 ^ (i * w))
  (v &&& ~~~mask) ||| BitVec.ofNat 4096 (x % 2 ^ w * 2 ^ (i * w))

/-- Set elements from `i` upward. -/
def vSetElems (v : BitVec 4096) (w i : Nat) (xs : List Nat) : BitVec 4096 :=
  match xs with
  | [] => v
  | x :: r => vSetElems (vSetElem v w i x) w (i + 1) r

def Tile.vreg (t : Tile) (r : Nat) : BitVec 4096 := vget t.v r 0
def Tile.setV (t : Tile) (r w i : Nat) (xs : List Nat) : Tile := { t with v := vmodN t.v r (fun v => vSetElems v w i xs) }

/-- Elements `0` to `n - 1` of a register as codes. -/
def Tile.vcodes (t : Tile) (r w n : Nat) : List Nat := (List.range n).map (vElem (t.vreg r) w)

/-! The head of the unit's queue. -/

/-- The operation at the head of the queue when it is `op` and may execute: the take is live and the tile is not suspended
(R97, R162). -/
def Mod.vecHead (m : Mod) (d : Fin 12) (t : Fin 64) (op : Nat) : Option VOp :=
  let x := m.tile d t
  match x.vecQ with
  | [] => none
  | o :: _ => if o.op = op && m.tileLive d t && !x.suspended then some o else none

def Tile.setVec (t : Tile) (o : VOp) : Tile := { t with vecQ := o :: t.vecQ.tail }

/-- A vector operation has completed. -/
def Tile.endVec (t : Tile) (o : VOp) : Tile := ({ t with vecQ := t.vecQ.tail }).endAccess o.pos

/-- A fault of the operation that names no element. -/
def Mod.failVec (m : Mod) (d : Fin 12) (t : Fin 64) (o : VOp) (st : Status) : Mod := m.failOp d t st 0x03 o.op slotV o.bundle

/-- An element fault that ends the take (R161, R164): the record names VRI, the operation and the address. -/
def Mod.failElem (m : Mod) (d : Fin 12) (t : Fin 64) (o : VOp) (st : Status) (vri : Nat) (module : Bool) (addr : Nat) : Mod :=
  m.failTile d t st (faultDetail 0x03 o.op slotV module (m.tileReel d t) o.bundle vri o.resumes addr)

/-- Resumptions after which a further element fault ends the take (R164). -/
def resumeLimit : Nat := 4

/-- A resumable element fault: the tile suspends at VRI, or the take fails after four resumptions (R160 to R164). -/
def Mod.elemFault (m : Mod) (d : Fin 12) (t : Fin 64) (o : VOp) (st : Status) (vri : Nat) (module : Bool) (addr : Nat) : Mod :=
  if resumeLimit ≤ o.resumes then m.failElem d t o st vri module addr
  else m.updTile d t (fun x => { (x.setVec { o with vri := vri, replies := [], bad := [] }) with suspended := true })

/-- An element met a poisoned row, entry or line that ends the take (R85, R161). -/
def Mod.poisonElem (m : Mod) (d : Fin 12) (t : Fin 64) (o : VOp) (bad : List (Nat × Nat)) (vri : Nat) (module : Bool) (addr : Nat) : Mod :=
  (m.blameTile d t bad).failElem d t o .actPoison vri module addr

/-- Formats an operation reads or writes as registers (R148). -/
def VOp.formats (o : VOp) : List Nat :=
  let src := if o.op = 0x18 || o.op = 0x19 || o.op = 0x20 then [o.stype] else []
  let idx := if 4 ≤ o.op && o.op ≤ 7 then [9] else []
  o.ty :: (src ++ idx)

/-- Whether VL exceeds VLMAX of one of them (R148). DOTW reads twice VL elements of half the width, so its source format
sets the same bound. -/
def VOp.tooLong (long : Bool) (o : VOp) : Bool :=
  o.formats.any (fun f => decide (vlMax long f < o.vl))

/-- Run `f` on the head of the vector queue, after the test of R148. -/
def Mod.runVec (m : Mod) (d : Fin 12) (t : Fin 64) (op : Nat) (f : VOp → Mod) : Mod :=
  match m.vecHead d t op with
  | none => m
  | some o => if o.tooLong (m.tile d t).long then m.failVec d t o .badOperation else f o

/-! Element-wise arithmetic (R149 to R151). -/

/-- Wrap an integer to `w` bits. -/
def wrapInt (w : Nat) (x : Int) : Nat := (x % 2 ^ w).toNat

/-- The result of one element: its code, and whether a rounding overflowed. -/
def vArith (op ty : Nat) (a b c : Nat) : Res :=
  let f := fmtSpec ty
  let w := fmtBits ty
  if isInt ty then
    let x := signed w a
    let y := signed w b
    match op with
    | 0x10 => ⟨wrapInt w (x + y), false⟩
    | 0x11 => ⟨wrapInt w (x - y), false⟩
    | 0x12 => ⟨wrapInt w (x * y), false⟩
    | 0x14 => ⟨if x < y then b else a, false⟩
    | _ => ⟨if x < y then a else b, false⟩
  else
    let x := f.decode a
    let y := f.decode b
    match op with
    | 0x10 => f.ofVal (x.add y)
    | 0x11 => f.ofVal (x.sub y)
    | 0x12 => f.ofVal (x.mul y)
    | 0x13 => f.ofVal ((x.mul y).add (f.decode c))
    | 0x14 => f.ofVal (x.max y)
    | 0x15 => f.ofVal (x.min y)
    | 0x16 => f.div x y
    | 0x17 => f.sqrt x
    | _ => f.exp x

/-- An integer clamped to signed `w` bits. -/
def clampInt (w : Nat) (x : Int) : Int := max (-(2 ^ (w - 1) : Int)) (min (2 ^ (w - 1) - 1 : Int) x)

/-- VCVT of one element (R149). An INT32 outside the INT16 range has no stated result (free value, log 2). -/
def vConvert (st ty x : Nat) : Res :=
  let w := fmtBits ty
  match isInt st, isInt ty with
  | true, true =>
    let v := signed (fmtBits st) x
    if v = clampInt w v then ⟨wrapInt w v, false⟩ else ⟨(Config.narrowInt (BitVec.ofNat 32 x)).toNat, false⟩
  | true, false => (fmtSpec ty).ofVal (FVal.ofInt (signed (fmtBits st) x))
  | false, true =>
    (match (fmtSpec st).decode x with
     | .nan => ⟨0, false⟩
     | .inf s => ⟨wrapInt w (clampInt w (if s then -(2 ^ 63) else 2 ^ 63)), false⟩
     | v => ⟨wrapInt w (clampInt w v.toIntRne), false⟩)
  | false, false => (fmtSpec ty).ofVal ((fmtSpec st).decode x)

/-- The code of a result. -/
def Res.code (r : Res) : Nat := r.bits

/-- Results written to the elements from 0 upward of VD: overflows and NaNs are accounted, the operation completes, and a
NaN under HALT stops the task (R149, R183, R195, R198). `one` says that a broadcast counts once; `elem` names the element
of the first NaN. -/
def Mod.vecWrite (e : Env) (m : Mod) (d : Fin 12) (t : Fin 64) (o : VOp) (rs : List Res) (one : Bool)
    (site : Option (Nat × Nat)) : Mod :=
  let m := m.updTile d t (fun x => (x.setV o.vd (fmtBits o.ty) 0 (rs.map (fun r => r.bits))).endVec o)
  let counted := if one then rs.take 1 else rs
  let m := m.noteOverflow d t (counted.filter (fun r => r.ovf)).length
  let f := fmtSpec o.ty
  let nanAt := fun (r : Res) => !isInt o.ty && f.isNan r.bits
  match counted.findIdx? nanAt with
  | none => m
  | some i =>
    let k := (counted.filter nanAt).length
    let at' := site.getD (o.bundle, i)
    let m := m.tileNan e d t k
      { engine := 0x03, op := o.op, fmt := o.ty, module := false, reel := m.tileReel d t, bundle := at'.1, elem := at'.2, addr := 0 }
    m.haltTile d t (m.halts d)

/-- An element-wise operation on VS1, VS2 and VS3. -/
def vecMap (op : Nat) (d : Fin 12) (t : Fin 64) (e : Env) (m : Mod) : Mod :=
  m.runVec d t op (fun o =>
    let x := m.tile d t
    let w := fmtBits o.ty
    let get := fun (r i : Nat) => vElem (x.vreg r) w i
    let rs := (List.range o.vl).map (fun i => vArith op o.ty (get o.vs1 i) (get o.vs2 i) (get o.vs3 i))
    m.vecWrite e d t o rs false none)

def execVadd (d : Fin 12) (t : Fin 64) (s : State) : Host.Outcome State Fault Refusal := runMod (vecMap 0x10 d t) s
def execVsub (d : Fin 12) (t : Fin 64) (s : State) : Host.Outcome State Fault Refusal := runMod (vecMap 0x11 d t) s
def execVmul (d : Fin 12) (t : Fin 64) (s : State) : Host.Outcome State Fault Refusal := runMod (vecMap 0x12 d t) s
def execVfma (d : Fin 12) (t : Fin 64) (s : State) : Host.Outcome State Fault Refusal := runMod (vecMap 0x13 d t) s
def execVmax (d : Fin 12) (t : Fin 64) (s : State) : Host.Outcome State Fault Refusal := runMod (vecMap 0x14 d t) s
def execVmin (d : Fin 12) (t : Fin 64) (s : State) : Host.Outcome State Fault Refusal := runMod (vecMap 0x15 d t) s
def execVdiv (d : Fin 12) (t : Fin 64) (s : State) : Host.Outcome State Fault Refusal := runMod (vecMap 0x16 d t) s
def execVsqrt (d : Fin 12) (t : Fin 64) (s : State) : Host.Outcome State Fault Refusal := runMod (vecMap 0x17 d t) s
def execVexp (d : Fin 12) (t : Fin 64) (s : State) : Host.Outcome State Fault Refusal := runMod (vecMap 0x1E d t) s

/-- VCVT: the source elements have their own width (R149). -/
def vcvt (d : Fin 12) (t : Fin 64) (e : Env) (m : Mod) : Mod :=
  m.runVec d t 0x20 (fun o =>
    let x := m.tile d t
    let rs := (x.vcodes o.vs1 (fmtBits o.stype) o.vl).map (vConvert o.stype o.ty)
    m.vecWrite e d t o rs false none)

def execVcvt (d : Fin 12) (t : Fin 64) (s : State) : Host.Outcome State Fault Refusal := runMod (vcvt d t) s

/-- The exact product of element `i` of VS1 and VS2 in a source format. -/
def Tile.product (t : Tile) (o : VOp) (fmt i : Nat) : FVal :=
  let w := fmtBits fmt
  let f := fmtSpec fmt
  (f.decode (vElem (t.vreg o.vs1) w i)).mul (f.decode (vElem (t.vreg o.vs2) w i))

/-- VWMUL (R150). -/
def vwmul (d : Fin 12) (t : Fin 64) (e : Env) (m : Mod) : Mod :=
  m.runVec d t 0x18 (fun o =>
    let x := m.tile d t
    let rs := (List.range o.vl).map (fun i => (fmtSpec o.ty).ofVal (x.product o o.stype i))
    m.vecWrite e d t o rs false none)

def execVwmul (d : Fin 12) (t : Fin 64) (s : State) : Host.Outcome State Fault Refusal := runMod (vwmul d t) s

/-- DOTW: two products and the addend, formed exactly and rounded once (R151). -/
def dotw (d : Fin 12) (t : Fin 64) (e : Env) (m : Mod) : Mod :=
  m.runVec d t 0x19 (fun o =>
    let x := m.tile d t
    let f := fmtSpec o.ty
    let rs := (List.range o.vl).map (fun i =>
      f.ofVal (xsum [f.decode (vElem (x.vreg o.vs3) (fmtBits o.ty) i), x.product o o.stype (2 * i), x.product o o.stype (2 * i + 1)]))
    m.vecWrite e d t o rs false none)

def execDotw (d : Fin 12) (t : Fin 64) (s : State) : Host.Outcome State Fault Refusal := runMod (dotw d t) s

/-! DOT.D and the reductions (R152 to R154). -/

/-- Elements a reduction writes: 0 to VL − 1, or element 0 when VL is zero. -/
def VOp.spread (o : VOp) : Nat := max 1 o.vl

/-- Element index of a term that has none of its own: VS3[0] (R153, R154). -/
def addendIndex : Nat := 0xFFFFFFFF

/-- Infinite terms seen so far: (+∞, −∞). -/
def infSeen (acc : Bool × Bool) (v : FVal) : Bool × Bool :=
  match v with
  | .inf s => if s then (acc.1, true) else (true, acc.2)
  | _ => acc

/-- The lowest position at which both infinities have been seen, counted from 0 along a list. -/
def bothInf (acc : Bool × Bool) (l : List FVal) : Option Nat :=
  match l with
  | [] => none
  | v :: r =>
    let a := infSeen acc v
    if a.1 && a.2 then some 0 else (bothInf a r).map (fun i => i + 1)

/-- The element that R153 names for one DOT.D, given the flags of earlier operations of the chain. -/
def dotNanElem (prior : LongAcc) (addend : Option FVal) (xs ys : List FVal) : Option Nat :=
  let ps := xs.zipWith FVal.mul ys
  match (xs.zipWith (fun a b => a.isNan || b.isNan) ys).findIdx? id with
  | some i => some i
  | none =>
    if (addend.map FVal.isNan).getD false then some addendIndex
    else
      match ps.findIdx? FVal.isNan with
      | some i => some i
      | none =>
        let start := match addend with | some v => infSeen (prior.pinf, prior.ninf) v | none => (prior.pinf, prior.ninf)
        bothInf start ps

/-- DOT.D. Where it continues an accumulator that a chain already closed has left NaN, no case of R153 applies to the NaN that it writes: the
record then names this operation and element 0 (DESIGN CHOICE, log 63). -/
def dotD (d : Fin 12) (t : Fin 64) (e : Env) (m : Mod) : Mod :=
  m.runVec d t 0x1A (fun o =>
    let x := m.tile d t
    let cont := bitAt o.stype 0
    let keep := bitAt o.stype 1
    let val := fun (r i : Nat) => fp64.decode (vElem (x.vreg r) 64 i)
    let xs := (List.range o.vl).map (val o.vs1)
    let ys := (List.range o.vl).map (val o.vs2)
    let addend := if cont then none else some (val o.vs3 0)
    let prior := if cont then x.acc else LongAcc.zero
    let acc := (xs.zipWith FVal.mul ys).foldl LongAcc.add (match addend with | some v => prior.add v | none => prior)
    let before := if cont then x.chainNan else none
    let chain := match before with
      | some c => some c
      | none => (dotNanElem prior addend xs ys).map (fun i => (o.bundle, BitVec.ofNat 32 i))
    if keep then m.updTile d t (fun x => ({ x with acc := acc, chainNan := chain }).endVec o)
    else
      let r := fp64.ofVal acc.val
      let m := m.updTile d t (fun x => { x with acc := acc, chainNan := none })
      m.vecWrite e d t o (List.replicate o.spread r) true (chain.map (fun c => (c.1, c.2.toNat))))

def execDotD (d : Fin 12) (t : Fin 64) (s : State) : Host.Outcome State Fault Refusal := runMod (dotD d t) s

/-- The element that R154 names when a reduction writes a NaN. -/
def redNanElem (sum : Bool) (addend : FVal) (xs : List FVal) : Nat :=
  match xs.findIdx? FVal.isNan with
  | some i => i
  | none => if addend.isNan || !sum then addendIndex else (bothInf (infSeen (false, false) addend) xs).getD addendIndex

/-- VRMAX and VRSUM. -/
def vecReduce (sum : Bool) (op : Nat) (d : Fin 12) (t : Fin 64) (e : Env) (m : Mod) : Mod :=
  m.runVec d t op (fun o =>
    let x := m.tile d t
    let f := fmtSpec o.ty
    let w := fmtBits o.ty
    let xs := (x.vcodes o.vs1 w o.vl).map f.decode
    let addend := f.decode (vElem (x.vreg o.vs3) w 0)
    let v := if sum then xsum (addend :: xs) else xs.foldl FVal.max addend
    m.vecWrite e d t o (List.replicate o.spread (f.ofVal v)) true (some (o.bundle, redNanElem sum addend xs)))

def execVrmax (d : Fin 12) (t : Fin 64) (s : State) : Host.Outcome State Fault Refusal := runMod (vecReduce false 0x1C d t) s
def execVrsum (d : Fin 12) (t : Fin 64) (s : State) : Host.Outcome State Fault Refusal := runMod (vecReduce true 0x1D d t) s

/-- The byte address or offset of element `i`: A[AREG] + VS2[i]·(w/8), as an integer (DEDUCED, log 19). -/
def VOp.elemOff (t : Tile) (o : VOp) (i : Nat) : Int :=
  (o.base.toNat : Int) + signed 32 (vElem (o.idx.getD (t.vreg o.vs2)) 32 i) * (fmtBits o.ty / 8 : Nat)

/-! VLD and VST (R155). -/

/-- A stored element: −0 becomes +0 (R149, R174). -/
def storeCode (ty x : Nat) : Nat := if isInt ty then x else (fmtSpec ty).noNegZero x

/-- What ends a VLD or VST before any element moves (R74, R108, R155). The descriptor's own check comes before the others, and VL above VLMAX before
both (DESIGN CHOICE, log 61: the spec gives no order). -/
def Tile.vmemFault (t : Tile) (o : VOp) (write : Bool) : Option Status :=
  match o.mem with
  | .none => some .badOperation
  | .queue n => if o.vri != 0 || bindsTo vecPorts (if write then (t.queue n).prod else (t.queue n).cons) then none else some .badOperation
  | .desc ds =>
    if !descOk ds then some .badStream
    else if descEsize ds != fmtBits o.ty / 8 || decide (descElems ds < o.vl) then some .badOperation
    else none

/-- Elements of one queue entry. -/
def perQ (ty : Nat) : Nat := 512 / fmtBits ty

/-- The element of a double-bit error, when it lies in a range of elements. -/
def doubleAt (err : OpErr) (i n : Nat) : Option (Nat × Nat) :=
  match err with
  | .double el ad => if i ≤ el && el < i + n then some (el, ad) else none
  | _ => none

/-- Load from a queue, entry by entry, while entries stand in it; VRI counts what is loaded. A fault on an element ends the take, with the
elements below it written (R160, R161). -/
def vldQueue (k q : Nat) (err : OpErr) (d : Fin 12) (t : Fin 64) (e : Env) (m : Mod) : Mod :=
  match k with
  | 0 => m
  | k + 1 =>
    match m.vecHead d t 0x02 with
    | none => m
    | some o =>
      let x := m.tile d t
      if o.vl ≤ o.vri then m.updTile d t (fun x => x.endVec o)
      else
        match (x.queue q).entries with
        | [] => m
        | en :: _ =>
          if en.poisoned then m.poisonElem d t o en.bad o.vri false 0
          else
            let n := min (perQ o.ty) (o.vl - o.vri)
            let w := fmtBits o.ty
            match doubleAt err o.vri n with
            | some (el, ad) =>
              ((m.padError e d t ad).updTile d t (fun x => (x.updQueue q TQueue.drop).setV o.vd w o.vri (elems en.data w (el - o.vri)))).failElem d t o
                .scratchUncorrectable el false ad
            | none =>
              let x := (x.updQueue q TQueue.drop).setV o.vd w o.vri (elems en.data w n)
              vldQueue k q err d t e (m.updTile d t (fun _ => x.setVec { o with vri := o.vri + n }))

/-- Load elements from scratchpad addresses, from VRI up to the first fault (R70, R85, R160, R161). -/
def vldAddrs (k : Nat) (addr : Nat → Option Nat) (err : OpErr) (o : VOp) (d : Fin 12) (t : Fin 64) (e : Env) (m : Mod) : Mod :=
  match k with
  | 0 => m.updTile d t (fun x => x.endVec o)
  | k + 1 =>
    let i := o.vl - (k + 1)
    let x := m.tile d t
    let n := fmtBits o.ty / 8
    match addr i with
    | none => m.failElem d t o .badStream i false (wrapInt 64 (o.elemOff x i))
    | some a =>
      match x.pad.badOf a n, doubleAt err i 1 with
      | [], none =>
        let x := x.setV o.vd (fmtBits o.ty) i [leNat (x.pad.readN a n)]
        vldAddrs k addr err o d t e (m.updTile d t (fun _ => x))
      | [], some (_, ad) =>
        if resumeLimit ≤ o.resumes then (m.padError e d t ad).failElem d t o .scratchUncorrectable i false ad
        else (m.elemFault d t o .scratchUncorrectable i false ad).updTile d t (fun x => x.doubleBit o.pos i ad)
      | bad, _ => m.poisonElem d t o bad i false a

/-- A corrected word met by a load is counted (R69). -/
def Mod.vecSingle (e : Env) (m : Mod) (d : Fin 12) (t : Fin 64) (err : OpErr) : Mod :=
  match err with
  | .single a => m.padError e d t a
  | _ => m

/-- VLD. -/
def vld (d : Fin 12) (t : Fin 64) (err : OpErr) (e : Env) (m : Mod) : Mod :=
  m.runVec d t 0x02 (fun o =>
    let x := m.tile d t
    match x.vmemFault o false with
    | some st => m.failVec d t o st
    | none =>
      if !x.accessFree o.pos then m.updTile d t (fun x => x.holdAccess o.pos)
      else
        match o.mem with
        | .none => m
        | .queue q =>
          if (x.queue q).entries.isEmpty || o.vl ≤ o.vri then vldQueue (queueDepth + 2) q err d t e m
          else vldQueue (queueDepth + 2) q err d t e (m.vecSingle e d t err)
        | .desc ds => vldAddrs (o.vl - o.vri) (fun i => some (elemAddr ds i)) err o d t e (m.vecSingle e d t err))

def execVld (d : Fin 12) (t : Fin 64) (err : OpErr) (s : State) : Host.Outcome State Fault Refusal := runMod (vld d t err) s

/-- Store to a queue, entry by entry, while there is room; END is never set. -/
def vstQueue (k q : Nat) (d : Fin 12) (t : Fin 64) (m : Mod) : Mod :=
  match k with
  | 0 => m
  | k + 1 =>
    match m.vecHead d t 0x03 with
    | none => m
    | some o =>
      let x := m.tile d t
      if o.vl ≤ o.vri then m.updTile d t (fun x => x.endVec o)
      else if !(x.queue q).room then m
      else
        let n := min (perQ o.ty) (o.vl - o.vri)
        let w := fmtBits o.ty
        let data := (List.range n).flatMap (fun i => natLe (w / 8) (storeCode o.ty (vElem (x.vreg o.vs1) w (o.vri + i))))
        let x := x.updQueue q (fun y => y.push ⟨padTo 64 data, false, []⟩)
        vstQueue k q d t (m.updTile d t (fun _ => x.setVec { o with vri := o.vri + n }))

/-- VST. -/
def vst (d : Fin 12) (t : Fin 64) (_e : Env) (m : Mod) : Mod :=
  m.runVec d t 0x03 (fun o =>
    let x := m.tile d t
    match x.vmemFault o true with
    | some st => m.failVec d t o st
    | none =>
      if !x.accessFree o.pos then m.updTile d t (fun x => x.holdAccess o.pos)
      else
        match o.mem with
        | .none => m
        | .queue q => vstQueue (queueDepth + 2) q d t m
        | .desc ds =>
          let w := fmtBits o.ty
          let data := (x.vcodes o.vs1 w o.vl).flatMap (fun c => natLe (w / 8) (storeCode o.ty c))
          m.updTile d t (fun x => { x with pad := x.pad.writeElems ds 0 o.vl data }.endVec o))

def execVst (d : Fin 12) (t : Fin 64) (s : State) : Host.Outcome State Fault Refusal := runMod (vst d t) s

/-! VGATH and VSCAT (R156, R76). -/

/-- A scratchpad address that an element may use. -/
def VOp.padAddr (t : Tile) (o : VOp) (i : Nat) : Option Nat :=
  let a := o.elemOff t i
  let n := fmtBits o.ty / 8
  if 0 ≤ a && a % n == 0 && decide (a + n ≤ Config.padBytes) then some a.toNat else none

/-- Ranges of the elements from VRI on that may be used: the footprint once the addresses are formed (R76). -/
def VOp.elemRanges (t : Tile) (o : VOp) : List (Nat × Nat) :=
  (List.range (o.vl - o.vri)).filterMap (fun k => (o.padAddr t (o.vri + k)).map (fun a => (a, fmtBits o.ty / 8)))

/-- The operation with its index register read (R76, R163). -/
def VOp.latch (t : Tile) (o : VOp) : VOp := { o with idx := some (o.idx.getD (t.vreg o.vs2)) }

/-- Form the addresses: the operation's access then has the element footprints. -/
def Tile.formAddrs (t : Tile) (o : VOp) : Tile :=
  let o := o.latch t
  let rs := o.elemRanges t
  { t.setVec o with accesses := t.accesses.map (fun a => if a.pos == o.pos then { a with ranges := rs } else a) }

/-- A gather or scatter forms its addresses and waits while they overlap an earlier access. -/
def Mod.runGather (m : Mod) (d : Fin 12) (t : Fin 64) (op : Nat) (f : Mod → VOp → Mod) : Mod :=
  m.runVec d t op (fun o =>
    let m := m.updTile d t (fun x => x.formAddrs o)
    let o := o.latch (m.tile d t)
    if !(m.tile d t).accessFree o.pos then m.updTile d t (fun x => x.holdAccess o.pos) else f m o)

/-- VGATH. -/
def vgath (d : Fin 12) (t : Fin 64) (err : OpErr) (e : Env) (m : Mod) : Mod :=
  m.runGather d t 0x04 (fun m o =>
    let x := m.tile d t
    vldAddrs (o.vl - o.vri) (o.padAddr x) err o d t e (m.vecSingle e d t err))

def execVgath (d : Fin 12) (t : Fin 64) (err : OpErr) (s : State) : Host.Outcome State Fault Refusal := runMod (vgath d t err) s

/-- Store elements in ascending order up to the first whose address may not be used. -/
def vscatRun (k : Nat) (o : VOp) (d : Fin 12) (t : Fin 64) (m : Mod) : Mod :=
  match k with
  | 0 => m.updTile d t (fun x => x.endVec o)
  | k + 1 =>
    let i := o.vl - (k + 1)
    let x := m.tile d t
    let w := fmtBits o.ty
    match o.padAddr x i with
    | none => m.failElem d t o .badStream i false (wrapInt 64 (o.elemOff x i))
    | some a =>
      let data := natLe (w / 8) (storeCode o.ty (vElem (x.vreg o.vs1) w i))
      vscatRun k o d t (m.updTile d t (fun x => { x with pad := x.pad.writeN a data }))

/-- VSCAT. -/
def vscat (d : Fin 12) (t : Fin 64) (_e : Env) (m : Mod) : Mod :=
  m.runGather d t 0x05 (fun m o => vscatRun (o.vl - o.vri) o d t m)

def execVscat (d : Fin 12) (t : Fin 64) (s : State) : Host.Outcome State Fault Refusal := runMod (vscat d t) s

/-! VGATHM and VSCATM (R157, R86). -/


/-- The region entry an operation addresses, when its kind is permitted. -/
def Mod.portEntry (m : Mod) (d : Fin 12) (t : Fin 64) (i : Nat) (write : Bool) : Option RegEnt :=
  match m.ownerOf d t with
  | none => none
  | some (g, _, n) =>
    let r := (g.node n).reg i
    if r.kind = 1#8 || (r.kind = 0#8 && !write) then some r else none

/-- An element's offset, when it lies in the region entry and is aligned. -/
def VOp.entOff (t : Tile) (o : VOp) (r : RegEnt) (i : Nat) : Option Nat :=
  let a := o.elemOff t i
  let n := fmtBits o.ty / 8
  if 0 ≤ a && a % n == 0 && decide (a + n ≤ r.len) then some a.toNat else none

/-- A poisoned line met at VRI: recompute and resume, or the end of the take (R161, R220, R221). A fifth fault of the operation on a line that
can be recomputed ends the take as a transient fault, whose poisoning TAKE_COMPLETE counts (R164). -/
def Mod.gatherPoison (m : Mod) (d : Fin 12) (t : Fin 64) (o : VOp) (line : Nat × Nat) (addr : Nat) : Mod :=
  match m.ownerOf d t with
  | none => m
  | some (g, gh, n) =>
    if !g.recomputable (BitVec.ofNat 32 line.1) || decide (resumeLimit ≤ o.resumes) then m.poisonElem d t o [line] o.vri true addr
    else
      let m := m.countPoison gh n [line]
      let out := match Tbl.find m.graphs gh with | some g => g.poisonedOut n [line] | none => false
      if out then (m.blameTile d t []).failElem d t o .actPoison o.vri true addr else m.elemFault d t o .actPoison o.vri true addr

/-- Deliver the replies to the register in element order (R86), up to a missing one, a fault or the end. The address that a fault record gives for
an element is its offset in the allocated region, wrapped to 64 bits (R164; DESIGN CHOICE, log 37). -/
def deliver (k : Nat) (d : Fin 12) (t : Fin 64) (m : Mod) : Mod :=
  match k with
  | 0 => m
  | k + 1 =>
    match m.vecHead d t 0x06 with
    | none => m
    | some o =>
      let x := m.tile d t
      if o.vl ≤ o.vri then m.updTile d t (fun x => x.endVec o)
      else
        match m.portEntry d t o.stype false with
        | none => m.failElem d t o .badStream o.vri true 0
        | some r =>
          match o.entOff x r o.vri with
          | none => m.failElem d t o .badStream o.vri true (wrapInt 64 (o.elemOff x o.vri + r.off))
          | some a =>
            if o.bad.contains o.vri then
              -- the line in error, or, where it has been made good meanwhile, the line that was
              m.gatherPoison d t o ((m.entBad r a (fmtBits o.ty / 8)).headD (r.handle.toNat, (r.off + a) / 64)) (r.off + a)
            else
              match Tbl.find o.replies o.vri with
              | none => m
              | some v =>
                let x := x.setV o.vd (fmtBits o.ty) o.vri [v.toNat]
                deliver k d t (m.updTile d t (fun _ =>
                  x.setVec { o with vri := o.vri + 1, replies := Tbl.del o.replies o.vri }))

/-- VGATHM: the requests go out; elements arrive with their replies. -/
def vgathm (d : Fin 12) (t : Fin 64) (_e : Env) (m : Mod) : Mod :=
  m.runVec d t 0x06 (fun o =>
    if o.vl = 0 then m.updTile d t (fun x => x.endVec o)
    else deliver (o.vl + 1) d t (m.updTile d t (fun x => x.setVec { o.latch x with started := true })))

def execVgathm (d : Fin 12) (t : Fin 64) (s : State) : Host.Outcome State Fault Refusal := runMod (vgathm d t) s

/-- GATHER_REPLY: the memory answers the request for an element (R86), after the error that the read meets; a PERSIST line that cannot be
decoded ends the take (R336). -/
def gatherReply (d : Fin 12) (t : Fin 64) (elem : Nat) (err : EngErr) (e : Env) (m : Mod) : Mod :=
  m.runVec d t 0x06 (fun o =>
    if !o.started || elem < o.vri || o.vl ≤ elem || (Tbl.find o.replies elem).isSome then m
    else
      match m.portEntry d t o.stype false with
      | none => m
      | some r =>
        match o.entOff (m.tile d t) r elem with
        | none => m
        | some a =>
          let n := fmtBits o.ty / 8
          let m := m.meetError e err
          match m.entLost r a n with
          | some l => m.failTile d t .hbmUncorrectable (m.lostDetail e r.handle l)
          | none =>
            let o := if m.entPoisoned r a n then { o with bad := if o.bad.contains elem then o.bad else o.bad ++ [elem] }
              else { o with replies := Tbl.put o.replies elem (BitVec.ofNat 64 (leNat (m.entRead r a n))) }
            deliver (o.vl + 1) d t (m.updTile d t (fun x => x.setVec o)))

def execGatherReply (d : Fin 12) (t : Fin 64) (elem : Nat) (err : EngErr) (s : State) : Host.Outcome State Fault Refusal :=
  runMod (gatherReply d t elem err) s

/-- Scatter writes in element order up to the first whose address may not be used. -/
def vscatmRun (k : Nat) (o : VOp) (r : RegEnt) (d : Fin 12) (t : Fin 64) (m : Mod) : Mod :=
  match k with
  | 0 => m.updTile d t (fun x => x.endVec o)
  | k + 1 =>
    let i := o.vl - (k + 1)
    let x := m.tile d t
    let w := fmtBits o.ty
    match o.entOff x r i with
    | none => m.failElem d t o .badStream i true (wrapInt 64 (o.elemOff x i + r.off))
    | some a =>
      let data := natLe (w / 8) (storeCode o.ty (vElem (x.vreg o.vs1) w i))
      vscatmRun k o r d t (m.entWrite r a data)

/-- VSCATM. -/
def vscatm (d : Fin 12) (t : Fin 64) (_e : Env) (m : Mod) : Mod :=
  m.runVec d t 0x07 (fun o =>
    if o.vl = 0 then m.updTile d t (fun x => x.endVec o)
    else
      match m.portEntry d t o.stype true with
      | none => m.failElem d t o .badStream 0 true 0
      | some r => vscatmRun (o.vl - o.vri) o r d t m)

def execVscatm (d : Fin 12) (t : Fin 64) (s : State) : Host.Outcome State Fault Refusal := runMod (vscatm d t) s

/-! Resumption (R70, R163). -/

/-- Whether the cause of the suspension is gone: the re-read was clean, and the line of a gather is in error no more. -/
def Mod.mayResume (m : Mod) (d : Fin 12) (t : Fin 64) : Bool :=
  let x := m.tile d t
  match x.vecQ with
  | [] => true
  | o :: _ =>
    !x.awaits o.pos &&
      if o.op = 0x06 then
        match m.portEntry d t o.stype false with
        | none => true
        | some r => (match o.entOff x r o.vri with | some a => !m.entPoisoned r a (fmtBits o.ty / 8) | none => true)
      else true

/-- The lines in error that suspended gathers of a graph wait for, each with its reader: node, region handle, line (R161). -/
def Mod.gatherWaits (m : Mod) (gh : Nat) (g : Graph) : List (Nat × Nat × Nat) :=
  (List.range g.nodes.length).flatMap (fun n =>
    if !(g.runOf n).isRunning then []
    else
      (g.node n).tiles.flatMap (fun p =>
        let x := m.tile p.1 p.2
        match x.vecQ with
        | o :: _ =>
          if x.owner = some (gh, n) && x.suspended && o.op = 0x06 then
            (match m.portEntry p.1 p.2 o.stype false with
             | none => []
             | some r =>
               (match o.entOff x r o.vri with
                | some a => (m.entBad r a (fmtBits o.ty / 8)).map (fun l => (n, l))
                | none => []))
          else []
        | [] => []))

/-- The suspended operation runs again from VRI. -/
def Tile.resume (t : Tile) : Tile :=
  match t.vecQ with
  | [] => { t with suspended := false }
  | o :: r => { t with suspended := false, vecQ := { o with resumes := o.resumes + 1 } :: r }

/-- VECTOR_RESUME. -/
def vectorResume (d : Fin 12) (t : Fin 64) (_e : Env) (m : Mod) : Mod :=
  if m.tileLive d t && (m.tile d t).suspended && m.mayResume d t then m.updTile d t Tile.resume else m

def execVectorResume (d : Fin 12) (t : Fin 64) (s : State) : Host.Outcome State Fault Refusal := runMod (vectorResume d t) s

/-- Engine, operation, slot and bundle of the M operation, stream or transfer at a program-order position (R436). -/
def Tile.opAt (t : Tile) (pos : Nat) : Nat × Nat × Nat × Nat :=
  let stream := fun (b : Binding) => match b with | .stream _ _ p bundle => if p = pos then some bundle else none | _ => none
  match t.arrayQ.find? (fun o => o.pos == pos), t.mvQ.find? (fun o => o.pos == pos), t.dmas.find? (fun x => x.pos == pos),
      t.queues.toList.findSome? (fun q => (stream q.prod).orElse (fun _ => stream q.cons)) with
  | some o, _, _, _ => (0x01, o.op, slotM, o.bundle)
  | none, some o, _, _ => (0x02, o.op, slotM, o.bundle)
  | none, none, some x, _ => (0, (if x.viaQueue.isSome then 0x0A else 0x08) + (if x.inbound then 0 else 1), slotQ, x.bundle)
  | none, none, none, some b => (0, 0x01, slotQ, b)
  | none, none, none, none => (0, 0, 0, t.pc)

/-- SCRATCH_REREAD of the word that has waited longest: a clean or correctable re-read lets its operation go on; otherwise the take fails
(R70). The word's row is counted either way (R426). A row of the gradient buffer has no element (R89). -/
def scratchReread (d : Fin 12) (t : Fin 64) (clean : Bool) (e : Env) (m : Mod) : Mod :=
  if !m.tileLive d t then m
  else
    match (m.tile d t).reread with
    | [] => m
    | (pos, elem, addr) :: rest =>
      let m := m.wordError e d t elem addr
      if clean then m.updTile d t (fun x => { x with reread := rest })
      else
        let x := m.tile d t
        match x.vecQ.find? (fun o => o.pos == pos) with
        | some o => m.failElem d t o .scratchUncorrectable elem false addr
        | none =>
          let k := x.opAt pos
          m.failTile d t .scratchUncorrectable (faultDetail k.1 k.2.1 k.2.2.1 false (m.tileReel d t) k.2.2.2
            (if addr < 2 ^ 63 then elem else noVri) 0 addr)

def execScratchReread (d : Fin 12) (t : Fin 64) (clean : Bool) (s : State) : Host.Outcome State Fault Refusal :=
  runMod (scratchReread d t clean) s

end Sys2Proof.Machine
end

