-- ==== Sys2Proof/Machine/Queue.lean ====
section
/-! DEFINITION. The Q unit, streams, queues and the tile DMA engine (04_tile: R75 to R85; R106), stalls (R82) and cut points
(R112 to R115). -/

namespace Sys2Proof.Machine

/-! The head of the unit's queue. -/

def Mod.qHead (m : Mod) (d : Fin 12) (t : Fin 64) (op : Nat) : Option QOp :=
  match (m.tile d t).qQ with
  | [] => none
  | o :: _ => if o.op = op && m.tileLive d t then some o else none

def Tile.endQ (t : Tile) : Tile := { t with qQ := t.qQ.tail }

/-- A fault of a Q operation, a stream or a transfer: no engine code; the record names the bundle that started it (R436). -/
def Mod.failQ (m : Mod) (d : Fin 12) (t : Fin 64) (st : Status) (op bundle : Nat) (module : Bool) (addr : Nat) : Mod :=
  m.failTile d t st (faultDetail 0 op slotQ module (m.tileReel d t) bundle noVri 0 addr)

/-! Binding (R78, R81). -/

def TQueue.bound (q : TQueue) (consumer : Bool) : Binding := if consumer then q.cons else q.prod
def TQueue.bind (q : TQueue) (consumer : Bool) (b : Binding) : TQueue :=
  if consumer then { q with cons := b } else { q with prod := b }

/-- Rebind an end once what is bound to it has moved its last element; until then the operation waits (R81). -/
def Mod.rebind (m : Mod) (d : Fin 12) (t : Fin 64) (o : QOp) (b : Binding) : Mod :=
  let x := m.tile d t
  if x.drained ((x.queue o.q).bound o.consumer) then
    m.updTile d t (fun x => (x.updQueue o.q (fun q => q.bind o.consumer b)).endQ)
  else m

/-- QBINDS: the descriptor is latched; a stream without elements completes at once (R73 to R75). -/
def qbinds (d : Fin 12) (t : Fin 64) (_e : Env) (m : Mod) : Mod :=
  match m.qHead d t 0x01 with
  | none => m
  | some o =>
    if !descOk o.desc then m.failQ d t .badStream o.op o.bundle false (descBase o.desc)
    else
      let x := m.tile d t
      let ready := x.drained ((x.queue o.q).bound o.consumer)
      let m := m.rebind d t o (.stream o.desc 0 o.pos o.bundle)
      if ready && descElems o.desc == 0 then m.updTile d t (fun x => x.endAccess o.pos) else m

def execQbinds (d : Fin 12) (t : Fin 64) (s : State) : Host.Outcome State Fault Refusal := runMod (qbinds d t) s

/-- QBINDE, QBINDP and QUNBIND. -/
def qbindTo (op : Nat) (b : QOp → Binding) (d : Fin 12) (t : Fin 64) (_e : Env) (m : Mod) : Mod :=
  match m.qHead d t op with
  | none => m
  | some o => m.rebind d t o (b o)

def execQbinde (d : Fin 12) (t : Fin 64) (s : State) : Host.Outcome State Fault Refusal :=
  runMod (qbindTo 0x02 (fun o => .port o.port) d t) s
def execQbindp (d : Fin 12) (t : Fin 64) (s : State) : Host.Outcome State Fault Refusal :=
  runMod (qbindTo 0x03 (fun _ => .program) d t) s
def execQunbind (d : Fin 12) (t : Fin 64) (s : State) : Host.Outcome State Fault Refusal :=
  runMod (qbindTo 0x04 (fun _ => .unbound) d t) s

/-! Transfers (R83, R84, R106). -/

/-- Transfers outstanding per tile. -/
def dmaLimit : Nat := 16

/-- The region entry of a transfer, when it may move these bytes (R83). -/
def Mod.dmaEntry (m : Mod) (d : Fin 12) (t : Fin 64) (o : QOp) (inbound : Bool) (len : Nat) : Option RegEnt :=
  match m.portEntry d t o.region (!inbound) with
  | none => none
  | some r => if len = 0 || o.offset + len ≤ r.len then some r else none

/-- Start a transfer. -/
def Tile.startDma (t : Tile) (o : QOp) (inbound : Bool) (via : Option Nat) (len : Nat) (prior : Binding) : Tile :=
  { t.endQ with nextXfer := t.nextXfer + 1,
                dmas := t.dmas ++ [{ id := t.nextXfer, pos := o.pos, bundle := o.bundle, inbound := inbound, viaQueue := via,
                                     desc := o.desc, region := o.region, offset := o.offset, len := len, moved := 0,
                                     ctr := o.ctr, prior := prior }] }

/-- DMAIN and DMAOUT. -/
def dmaPad (op : Nat) (inbound : Bool) (d : Fin 12) (t : Fin 64) (_e : Env) (m : Mod) : Mod :=
  match m.qHead d t op with
  | none => m
  | some o =>
    if !descOk o.desc then m.failQ d t .badStream o.op o.bundle false (descBase o.desc)
    else
      let len := descBytes o.desc
      match m.dmaEntry d t o inbound len with
      | none => m.failQ d t .badStream o.op o.bundle true o.offset
      | some _ =>
        if dmaLimit ≤ (m.tile d t).dmas.length then m
        else m.updTile d t (fun x => x.startDma o inbound none len .unbound)

def execDmain (d : Fin 12) (t : Fin 64) (s : State) : Host.Outcome State Fault Refusal := runMod (dmaPad 0x08 true d t) s
def execDmaout (d : Fin 12) (t : Fin 64) (s : State) : Host.Outcome State Fault Refusal := runMod (dmaPad 0x09 false d t) s

/-- What an end is bound to once the transfer on it, if any, has ended. -/
def Tile.priorOf (t : Tile) (b : Binding) : Binding :=
  match b with
  | .dma i => (match t.dmas.find? (fun y => y.id == i) with | some y => y.prior | none => .unbound)
  | b => b

/-- DMAINQ and DMAOUTQ: the end is bound to DMA while the transfer runs, and to what it was bound to before afterwards; an earlier transfer
on the end that has moved its bytes counts as ended (DEDUCED, log 20). -/
def dmaQueue (op : Nat) (inbound : Bool) (d : Fin 12) (t : Fin 64) (_e : Env) (m : Mod) : Mod :=
  match m.qHead d t op with
  | none => m
  | some o =>
    match m.dmaEntry d t o inbound o.len with
    | none => m.failQ d t .badStream o.op o.bundle true o.offset
    | some _ =>
      let x := m.tile d t
      let now := (x.queue o.q).bound (!inbound)
      if dmaLimit ≤ x.dmas.length || !x.drained now then m
      else
        m.updTile d t (fun x =>
          (x.startDma o inbound (some o.q) o.len (x.priorOf now)).updQueue o.q (fun q => q.bind (!inbound) (.dma x.nextXfer)))

def execDmainq (d : Fin 12) (t : Fin 64) (s : State) : Host.Outcome State Fault Refusal := runMod (dmaQueue 0x0A true d t) s
def execDmaoutq (d : Fin 12) (t : Fin 64) (s : State) : Host.Outcome State Fault Refusal := runMod (dmaQueue 0x0B false d t) s

/-- The region entry of a running transfer. -/
def Mod.xferEntry (m : Mod) (d : Fin 12) (t : Fin 64) (x : Dma) : RegEnt :=
  match m.ownerOf d t with
  | some (g, _, n) => (g.node n).reg x.region
  | none => ⟨0, 0xFF#8, 0, 0⟩

def Tile.updDma (t : Tile) (i : Nat) (f : Dma → Dma) : Tile :=
  { t with dmas := t.dmas.map (fun x => if x.id == i then f x else x) }

/-- Bytes that a transfer moves at once through a queue. -/
def Dma.chunk (x : Dma) : Nat := min 64 (x.len - x.moved)

/-- A completed transfer: its counter rises (saturating, R107), its access ends, and a queue end is bound as before. -/
def Tile.endDma (t : Tile) (x : Dma) : Tile :=
  let t := { t with dmas := t.dmas.filter (fun y => y.id != x.id),
                    ctr := vmodN t.ctr x.ctr (fun c => BitVec.ofNat 32 (satAdd 32 c.toNat 1)) }
  let t := t.endAccess x.pos
  match x.viaQueue with
  | none => t
  | some q => t.updQueue q (fun y =>
      if y.bound (!x.inbound) = .dma x.id then y.bind (!x.inbound) x.prior else y)

/-- An inbound transfer into the scratchpad: the bytes land, and then the rows written from lines in error are marked, whichever line wrote
them last (R85; DESIGN CHOICE, log 55). -/
def Mod.landPad (m : Mod) (d : Fin 12) (t : Fin 64) (x : Dma) (r : RegEnt) : Mod :=
  let n := descElems x.desc
  let es := descEsize x.desc
  let data := m.entRead r x.offset x.len
  let bad := if (m.entBad r x.offset x.len).isEmpty then []
    else (List.range n).flatMap (fun i => (m.entBad r (x.offset + i * es) es).map (fun l => (i, l)))
  m.updTile d t (fun tl =>
    let pad := tl.pad.writeElems x.desc 0 n data
    ({ tl with pad := bad.foldl (fun (p : Pad) (b : Nat × Nat × Nat) => p.mark b.2 (elemAddr x.desc b.1) es) pad }).endDma x)

/-- The 64-byte lines of module memory that a transfer has still to move: first line and count. -/
def Dma.lines (x : Dma) (r : RegEnt) : Nat × Nat :=
  let a := (r.off + x.offset + x.moved) / 64
  (a, (r.off + x.offset + x.len + 63) / 64 - a)

/-- Accesses of the tile's DMA engine to one line take effect in issue order: a transfer waits for an earlier one that shares a line with it
when either writes (R333). -/
def Mod.lineFree (m : Mod) (d : Fin 12) (t : Fin 64) (x : Dma) : Bool :=
  let r := m.xferEntry d t x
  !(m.tile d t).dmas.any (fun y =>
    let k := m.xferEntry d t y
    decide (y.pos < x.pos) && decide (y.moved < y.len) && !(x.inbound && y.inbound) && k.handle == r.handle && rangeMeets (y.lines k) (x.lines r))

/-- A read of module memory by the tile meets a PERSIST line that cannot be decoded: the take ends (R336). -/
def Mod.failLost (e : Env) (m : Mod) (d : Fin 12) (t : Fin 64) (r : RegEnt) (l : Nat) : Mod :=
  m.failTile d t .hbmUncorrectable (m.lostDetail e r.handle l)

/-- DMA_COMPLETION. A transfer whose access must wait does not complete yet (R76, R84, R333); one through a queue completes when it
has moved its last byte: what its reads of module memory meet, QUEUE_PUSH says. -/
def dmaCompletion (d : Fin 12) (t : Fin 64) (i : Nat) (err : EngErr) (pad : OpErr) (e : Env) (m : Mod) : Mod :=
  let tl := m.tile d t
  match tl.dmas.find? (fun x => x.id == i) with
  | none => m
  | some x =>
    if !m.tileLive d t || !m.lineFree d t x then m
    else if !tl.accessFree x.pos then m.updTile d t (fun y => y.holdAccess x.pos)
    else
      let r := m.xferEntry d t x
      match x.viaQueue, x.inbound with
      | some _, inb =>
        if x.len ≤ x.moved then (if inb then m else m.heal r x.offset x.len).updTile d t (fun y => y.endDma x) else m
      | none, true =>
        let m := m.meetError e err
        (match m.entLost r x.offset x.len with | some l => m.failLost e d t r l | none => m.landPad d t x r)
      | none, false =>
        let n := descElems x.desc
        if tl.awaits x.pos then m
        else
          match tl.pad.elemsBad x.desc 0 n, pad with
          | [], .double elem addr => m.updTile d t (fun y => y.doubleBit x.pos elem addr)
          | [], _ =>
            let m := m.vecSingle e d t pad
            (m.entWrite r x.offset (tl.pad.readElems x.desc 0 n)).updTile d t (fun y => y.endDma x)
          | bad, _ => (m.blameTile d t bad).failQ d t .actPoison 0x09 x.bundle false 0

def execDmaCompletion (d : Fin 12) (t : Fin 64) (i : Nat) (err : EngErr) (pad : OpErr) (s : State) :
    Host.Outcome State Fault Refusal :=
  runMod (dmaCompletion d t i err pad) s

/-! Streams and transfers at a queue's ends (R79, R80). -/

/-- One entry from a stream: up to 64 bytes of elements, zero-filled, END on the last. -/
def streamEntry (p : Pad) (ds : BitVec 128) (next : Nat) : QEntry × Nat :=
  let n := min (perEntry ds) (descElems ds - next)
  (⟨padTo 64 (p.readElems ds next n), decide (descElems ds ≤ next + n), []⟩, n)

/-- QUEUE_PUSH at a producer end bound to a stream or an inbound transfer. A full queue holds the push (R80). What the read of the scratchpad
meets is `err`, that of module memory `mem`: a line in error poisons the entry, one that cannot be decoded ends the take (R85, R336). -/
def queuePush (d : Fin 12) (t : Fin 64) (q : Fin 16) (err : OpErr) (mem : EngErr) (e : Env) (m : Mod) : Mod :=
  let tl := m.tile d t
  let x := tl.queue q
  if !m.tileLive d t || !x.room then m
  else
    match x.prod with
    | .stream ds next pos bundle =>
      let en := streamEntry tl.pad ds next
      if descElems ds ≤ next || tl.awaits pos then m
      else if !tl.accessFree pos then m.updTile d t (fun y => y.holdAccess pos)
      else
        (match tl.pad.elemsBad ds next en.2, err with
         | [], .double elem addr => m.updTile d t (fun y => y.doubleBit pos elem addr)
         | [], _ =>
           let m := m.vecSingle e d t err
           m.updTile d t (fun y =>
             let y := y.updQueue q (fun z => { z.push en.1 with prod := .stream ds (next + en.2) pos bundle })
             if en.1.last then y.endAccess pos else y)
         | bad, _ => (m.blameTile d t bad).failQ d t .actPoison 0x01 bundle false (elemAddr ds next))
    | .dma i =>
      (match tl.dmas.find? (fun y => y.id == i) with
       | none => m
       | some y =>
         if y.len ≤ y.moved || !m.lineFree d t y then m
         else
           let m := m.meetError e mem
           let r := m.xferEntry d t y
           let n := y.chunk
           match m.entLost r (y.offset + y.moved) n with
           | some l => m.failLost e d t r l
           | none =>
           let en : QEntry := ⟨padTo 64 (m.entRead r (y.offset + y.moved) n), decide (y.len ≤ y.moved + n),
             m.entBad r (y.offset + y.moved) n⟩
           m.updTile d t (fun z => (z.updQueue q (fun w => w.push en)).updDma i (fun w => { w with moved := w.moved + n })))
    | _ => m

def execQueuePush (d : Fin 12) (t : Fin 64) (q : Fin 16) (err : OpErr) (mem : EngErr) (s : State) : Host.Outcome State Fault Refusal :=
  runMod (queuePush d t q err mem) s

/-- QUEUE_POP at a consumer end bound to a stream or an outbound transfer. An empty queue holds the pop (R80); a poisoned
entry faults its reader (R85). -/
def queuePop (d : Fin 12) (t : Fin 64) (q : Fin 16) (_e : Env) (m : Mod) : Mod :=
  let tl := m.tile d t
  let x := tl.queue q
  if !m.tileLive d t then m
  else
    match x.entries with
    | [] => m
    | en :: _ =>
      match x.cons with
      | .stream ds next pos bundle =>
        if descElems ds ≤ next then m
        else if !tl.accessFree pos then m.updTile d t (fun y => y.holdAccess pos)
        else if en.poisoned then (m.blameTile d t en.bad).failQ d t .actPoison 0x01 bundle false 0
        else
          let n := min (perEntry ds) (descElems ds - next)
          m.updTile d t (fun y =>
            let y := { y with pad := y.pad.writeElems ds next n en.data }
            let y := y.updQueue q (fun z => { z.drop with cons := .stream ds (next + n) pos bundle })
            if descElems ds ≤ next + n then y.endAccess pos else y)
      | .dma i =>
        (match tl.dmas.find? (fun y => y.id == i) with
         | none => m
         | some y =>
           if y.len ≤ y.moved || !m.lineFree d t y then m
           else if en.poisoned then (m.blameTile d t en.bad).failQ d t .actPoison 0x0B y.bundle true 0
           else
             let n := y.chunk
             let m := m.entWrite (m.xferEntry d t y) (y.offset + y.moved) (en.data.take n)
             m.updTile d t (fun z => (z.updQueue q TQueue.drop).updDma i (fun w => { w with moved := w.moved + n })))
      | _ => m

def execQueuePop (d : Fin 12) (t : Fin 64) (q : Fin 16) (s : State) : Host.Outcome State Fault Refusal :=
  runMod (queuePop d t q) s

/-! Stalls (R82). -/

/-- Whether a transfer waits for module memory: no earlier transfer holds its line, and its access is free, or its queue could take or give
an entry. -/
def Mod.dmaWaits (m : Mod) (d : Fin 12) (t : Fin 64) (x : Dma) : Bool :=
  let tl := m.tile d t
  m.lineFree d t x &&
    match x.viaQueue with
    | none => tl.accessFree x.pos
    | some q => if x.inbound then (tl.queue q).room || decide (x.len ≤ x.moved)
                else !(tl.queue q).entries.isEmpty || decide (x.len ≤ x.moved)

/-- Whether the array's head waits for the save or fill of a slot (R204, R206). -/
def Mod.slotWait (m : Mod) (d : Fin 12) (t : Fin 64) : Bool :=
  match (m.tile d t).arrayQ with
  | o :: _ =>
    !m.slotsReady d t o ||
      ((o.op == 3 || o.op == 4) && (match m.slotOf d t o.gb with | some (_, s) => !s.resident | none => false))
  | [] => false

/-- Whether a tile waits on an outstanding module-memory request: a transfer, a gather, or the save or fill of a slot. -/
def Mod.memWait (m : Mod) (d : Fin 12) (t : Fin 64) : Bool :=
  let x := m.tile d t
  x.dmas.any (m.dmaWaits d t) ||
    (match x.vecQ with | o :: _ => o.op == 0x06 && o.started | [] => false) || m.slotWait d t

/-- TILE_STALL: 100 ms of a running take without a handshake. A suspended tile does not count towards it (R162), nor does
one that waits for memory. The record names the bundle next to issue (R436). -/
def tileStall (d : Fin 12) (t : Fin 64) (_e : Env) (m : Mod) : Mod :=
  let x := m.tile d t
  if m.tileLive d t && !x.suspended && !x.cutStop && x.reread.isEmpty && !m.memWait d t then
    m.failTile d t .tileStall (faultDetail 0 0 0 false (m.tileReel d t) x.pc noVri 0 0)
  else m

def execTileStall (d : Fin 12) (t : Fin 64) (s : State) : Host.Outcome State Fault Refusal := runMod (tileStall d t) s

/-! Cut points (R113, R114). -/

/-- Whether a tile of the node has stopped at the cut point itself. -/
def Mod.cutOn (m : Mod) (n : Node) : Bool := n.tiles.any (fun x => (m.tile x.1 x.2).cutHit)

/-- CUT_STOP_TIMEOUT: once the first tile has stopped, a tile without a handshake for 1 ms stops as well (R113). -/
def cutStopTimeout (d : Fin 12) (t : Fin 64) (e : Env) (m : Mod) : Mod :=
  match m.ownerOf d t with
  | none => m
  | some (g, _, n) =>
    if m.tileLive d t && !(m.tile d t).cutStop && m.cutOn (g.node n) then
      m.updTile d t (fun x => { x with cutStop := true, stopSlate := e.dieNow d })
    else m

def execCutStopTimeout (d : Fin 12) (t : Fin 64) (s : State) : Host.Outcome State Fault Refusal :=
  runMod (cutStopTimeout d t) s

/-- Bytes of one cut image. -/
def cutBytes : Nat := 0x420000

/-- Binding byte of an end (R114). -/
def Binding.code (b : Binding) : Nat :=
  match b with
  | .unbound => 0x00
  | .port c => 0x10 + c
  | .program => 0x20
  | .stream _ _ _ _ => 0x30
  | .dma _ => 0x40

def QEntry.image (x : QEntry) : List Byte :=
  padTo 64 x.data ++ natLe 8 (1 + place (boolNat x.last) 1 + place (boolNat x.poisoned) 2)

/-- The parts of a cut image below the scratchpad, with their offsets (R114). The entry counts of the queues are one byte each and follow the
32 binding bytes (DESIGN CHOICE, log 61: R114 gives them no width). -/
def Tile.cutParts (t : Tile) (task take : Nat) : List (Nat × List Byte) :=
  let w := fun (n : Nat) (l : List Nat) => l.flatMap (natLe n)
  let nat32 := fun (v : Vector (BitVec 32) 4) => v.toList.map BitVec.toNat
  let lane := if t.long then 512 else 16
  [ (0x00, natLe 6 task ++ natLe 2 take), (0x08, natLe 8 t.stopSlate), (0x10, natLe 4 t.pc), (0x14, natLe 4 (boolNat t.cutHit)),
    (0x18, natLe 4 t.cutCount), (0x20, w 8 (t.a.toList.map BitVec.toNat)), (0xA0, w 4 (nat32 t.lc ++ nat32 t.lrc)),
    (0xC0, natLe 4 t.p.toNat ++ natLe 4 t.vl ++ natLe 4 (boolNat t.long)), (0xD0, w 4 (nat32 t.ctr)),
    (0x100, w 16 (t.sd.toList.map BitVec.toNat)),
    (0x300, t.queues.toList.flatMap (fun q => natLe 1 q.prod.code ++ natLe 1 q.cons.code) ++
      t.queues.toList.flatMap (fun q => natLe 1 q.entries.length)),
    (0x1000, t.v.toList.flatMap (fun v => padTo 512 (natLe lane v.toNat))),
    (0x5000, t.queues.toList.flatMap (fun q => padTo (64 * 72) (q.entries.flatMap QEntry.image))) ]

/-- Drop every listed byte of a range. -/
def Mem.clear (m : Mem) (a n : Nat) : Mem := m.filter (fun c => !(decide (a ≤ c.1) && decide (c.1 < a + n)))

/-- Write a tile's cut image at a byte of a region. -/
def Region.writeCut (r : Region) (a : Nat) (t : Tile) (task take : Nat) : Region :=
  let mem := Mem.clear r.bytes a cutBytes
  let mem := (t.cutParts task take).foldl (fun m p => Mem.writeN m (a + p.1) p.2) mem
  let mem := t.pad.bytes.foldl (fun m c => Mem.write m (a + 0x20000 + c.1) c.2) mem
  { r with bytes := mem, undef := cutUndef a cutBytes r.undef, poison := r.poison.filter (fun l => !coveredLine a cutBytes l),
           replayed := r.replayed.filter (fun l => !lineMeets a cutBytes l) }

end Sys2Proof.Machine
end

