-- ==== Sys2Proof/Machine/Engine.lean ====
section
/-! DEFINITION. The frame of the engine nodes: parts of a split request, transient engine faults, poisoned inputs, NaNs and
notes (R226, R237, R299 to R302). -/

namespace Sys2Proof.Machine

/-! Units. -/

/-- The die whose NaN record a unit reports into (R257). -/
def nanDie (k : Nat) : Fin 12 := if k = 12 then 0 else if k = 13 then 5 else Fin.ofNat 12 k

/-- Take limit (R283). -/
def Node.limit (n : Node) : Nat := if n.takes = 0 then 3 else n.takes

/-! Parts. -/

/-- What a part's work comes to: done, still waiting, or a final fault of the task. -/
inductive PartEnd where
  | done (m : Mod)
  | wait (m : Mod)
  | fail (st : Status) (detail : List Byte) (m : Mod)

/-- Bytes that a part reads: entry, offset in it, length. -/
abbrev Reads := List (RegEnt × Nat × Nat)

/-- Whether a node's parts run on single dies of its DIEMASK, so that a part can move to another one (R226, R301). -/
def Node.split (x : Node) : Bool := x.ty == tyConvert || x.ty == tyAssemble || x.ty == tyFactor || x.ty == tySolve

/-- The units that a part's work needs: its own die for a split request, the first die or the update die of a COPY, every unit of the
placement otherwise (R285, R301). -/
def Node.partUnits (x : Node) (p : Part) : List Nat :=
  if x.split then [p.unit]
  else if x.ty = tyCopy then [x.partUnit 0]
  else x.dies ++ (if x.udie < 2 then [12 + x.udie] else [])

/-- The unit of part `part` of a run: where a retry has moved it, else where it began. -/
def NRun.unitOf (r : NRun) (x : Node) (part : Nat) : Nat :=
  match r.parts[part]? with | some p => if x.split then p.unit else x.partUnit part | none => x.partUnit part

/-- The update dies whose slow tier a COPY reads or writes: its part waits for them, and their reset strikes it (R258, R412). -/
def Mod.tierUnits (m : Mod) (x : Node) : List Nat :=
  if x.ty = tyCopy then
    x.regs.filterMap (fun y => match m.region y.handle with
      | some g => if y.kind != 0xFF#8 && g.cls == .slow then some (12 + g.die) else none
      | none => none)
  else []

/-- A part that may run: the node is of the type and runs on the part's dies, its outcome is open, and the part's units run, those of the slow
tier that a COPY names among them (R42, R295, R412). -/
def Mod.partReady (m : Mod) (ty g n part : Nat) : Option (Graph × Node × NRun) :=
  match Tbl.find m.graphs g with
  | none => none
  | some gr =>
    let x := gr.node n
    let r := gr.runOf n
    match r.parts[part]? with
    | none => none
    | some p =>
      if x.ty = ty && r.isRunning && r.outcome.isNone && !p.done &&
          (x.partUnits p ++ m.tierUnits x).all (fun k => m.unitRuns k && (decide (12 ≤ k) || r.on.contains k)) then some (gr, x, r) else none

def Mod.setOutcome (m : Mod) (g n : Nat) (st : Status) (detail : List Byte) : Mod :=
  m.updRun g n (fun r => if r.outcome.isNone then { r with outcome := some st, detail := detail } else r)

/-- A part has done its work; after the last, the task has succeeded (R301). -/
def NRun.partDone (r : NRun) (part : Nat) : NRun :=
  let ps := lmod r.parts part (fun p => { p with done := true })
  { r with parts := ps, outcome := if r.outcome.isNone && ps.all (fun p => p.done) then some .ok else r.outcome }

/-- The die that a failed part is tried on next: the next die of DIEMASK in cyclic order that runs, else the same (R301; DESIGN CHOICE,
log 21: the spec says only that it is another die). -/
def Mod.nextDie (m : Mod) (x : Node) (on : List Nat) (k : Nat) : Nat :=
  let l := x.dies.filter (fun d => m.unitRuns d && on.contains d && d != k)
  (l.find? (fun d => decide (k < d))).getD (l.headD k)

/-- Covered faults: the first of a task, or of a part, is not counted (R300, R301). -/
def Status.covered (s : Status) : Bool :=
  match s with
  | .scratchUncorrectable | .arrayResidue | .siteFailed => true
  | _ => false

/-- Whether a node is a split request: several parts, the buckets of a collective, or a COPY, whose part R412 tries again under R301 (R301, R378,
R412; DEDUCED, log 21). -/
def NRun.divided (r : NRun) (x : Node) : Bool := x.ty == tyCollective || x.ty == tyCopy || decide (1 < r.parts.length)

/-- A transient fault of a part: its first covered fault is not counted; `next` chooses the unit of its retry. -/
def Part.fault (p : Part) (next : Nat → Nat) (st : Status) : Part :=
  if st.covered && !p.grace then { p with done := false, grace := true, unit := next p.unit }
  else { p with done := false, counted := p.counted + 1, unit := next p.unit }

/-- A transient fault of some parts: each is tried again below the take limit, by a count of its own; at the limit a split request ends with
PARTIAL_FAULT and any other task with TAKE_LIMIT (R237, R300, R301, R378). The retry of a part is a later take of the task (DESIGN CHOICE, log
62). -/
def NRun.partsFault (r : NRun) (x : Node) (ps : List Nat) (next : Nat → Nat) (st : Status) : NRun :=
  let l := ps.foldl (fun l i => lmod l i (fun p => p.fault next st)) r.parts
  let atLimit := ps.any (fun i => match l[i]? with | some p => decide (x.limit ≤ p.counted) | none => false)
  let r := { r with parts := l, take := if atLimit then r.take else min 255 (r.take + 1) }
  if atLimit then
    if r.divided x then { r with outcome := some .partialFault } else { r with outcome := some .takeLimit, detail := natLe 2 st.code }
  else r

/-- A transient fault of a node's parts, with the event record of the failed take (R299, R300). A part whose site has failed is tried again on the
same die, where its tile has a spare site (R300, R430); any other may move (R301). -/
def Mod.partsFault (e : Env) (m : Mod) (g n : Nat) (ps : List Nat) (x : Node) (r : NRun) (st : Status) (detail : List Byte) : Mod :=
  let next := fun k => if x.split && st != .siteFailed then m.nextDie x r.on k else k
  (m.taskEvent e g n st detail).updRun g n (fun r' => r'.partsFault x ps next st)

/-- Whether every part of a run but one is done. -/
def NRun.lastPart (r : NRun) (part : Nat) : Bool := (r.parts.mapIdx (fun i p => decide (i = part) || p.done)).all id

/-- The first part that is not done. -/
def NRun.openPart (r : NRun) : Nat := r.parts.findIdx (fun p => !p.done)

/-- The first read that meets lines in error, and those lines. -/
def Mod.poisonedRead (m : Mod) (reads : Reads) : Option (List (Nat × Nat)) :=
  reads.findSome? (fun x => match m.entBad x.1 x.2.1 x.2.2 with | [] => none | l => some l)

/-- A poisoned input: the take fails with ACT_POISON and is tried again after the recompute, unless a line is not
recomputable or the block has been poisoned five times (R220, R221), or the stump cannot be read (R260, R336). The part waits while a unit
that the recompute needs does not run (R42, R412). -/
def Mod.poisonTake (e : Env) (m : Mod) (g n : Nat) (lines : List (Nat × Nat)) (err : EngErr) : Mod :=
  if m.recomputeHeld g n lines then m
  else
  match m.poisonedTake e g n lines err with
  | (m, some f) => m.setOutcome g n f.1 f.2
  | (m, none) => (m.taskEvent e g n .actPoison []).updRun g n (fun r => { r with take := min 255 (r.take + 1) })

/-- The first read that meets a PERSIST line which cannot be decoded: its region and the line (R336). -/
def Mod.lostRead (m : Mod) (reads : Reads) : Option (BitVec 32 × Nat) :=
  reads.findSome? (fun x => (m.entLost x.1 x.2.1 x.2.2).map (fun l => (x.1.handle, l)))

/-- Whether a slow-tier line that cannot be corrected concerns a node: it names a slow-tier region (R260). -/
def Mod.slowRead (m : Mod) (x : Node) (err : EngErr) : Bool :=
  err.slowLost &&
    x.regs.any (fun r => match m.region r.handle with | some g => r.kind != 0xFF#8 && g.cls == .slow | none => false)

/-- Heal the ranges of parameters' entries that a part has written whole (R335): parameter offset, offset in the entry, length. -/
def Mod.healAll (m : Mod) (x : Node) (l : List (Nat × Nat × Nat)) : Mod := l.foldl (fun m y => m.heal (x.parEnt y.1) y.2.1 y.2.2) m

/-- The part of each of some reads that falls to part `i` of `k` (R301; log 21). -/
def Reads.share (k i : Nat) (l : Reads) : Reads := l.map (fun x => let s := shareOf x.2.2 k i; (x.1, x.2.1 + s.1, s.2 - s.1))

/-- Run a part: `outs` are the ranges of its parameters' entries that it writes whole (parameter offset, offset, length). -/
def Mod.runPart (e : Env) (m : Mod) (ty g n part : Nat) (err : EngErr) (reads : Mod → Graph → Node → Reads)
    (outs : Mod → Graph → Node → List (Nat × Nat × Nat)) (work : Mod → Graph → Node → PartEnd) : Mod :=
  match m.partReady ty g n part with
  | none => m
  | some (gr, x, r) =>
    let units := match r.parts[part]? with | some p => x.partUnits p | none => []
    let m := (m.beginAll e g n (units.filter (fun k => decide (k < 12) || x.proxied))).meetError e err
    if err = .engine then m.partsFault e g n [part] x r .engineFault []
    else if m.slowRead x err then m.setOutcome g n .slowUncorrectable []
    else
      let rs := reads m gr x
      match m.lostRead rs, m.poisonedRead rs with
      | some (h, l), _ => m.setOutcome g n .hbmUncorrectable (m.lostDetail e h l)
      | none, some lines => m.poisonTake e g n lines err
      | none, none =>
        match work m gr x with
        | .fail st detail m => m.setOutcome g n st detail
        | .wait m => m
        | .done m => (m.healAll x (outs m gr x)).updRun g n (fun r => r.partDone part)

/-! NaNs and notes of engine nodes. -/

/-- NaNs that a node without a reel wrote (R195, R196). `index` is the matrix index; a node that has none, a CONVERT, an ITER_SOLVE, an
UPDATE or a reverse ASSEMBLE, gives 0 (DESIGN CHOICE, log 37: R196 gives its field no value there). Under HALT the task stops when its operation, the part, completes (R198). -/
def Mod.engineNan (e : Env) (m : Mod) (unit g n k engine fmt index elem addr : Nat) : Mod :=
  if k = 0 then m
  else
    let d := nanDie unit
    match Tbl.find m.graphs g with
    | none => m
    | some gr =>
      let site : NanSite := { engine := engine, op := (gr.node n).ty, fmt := fmt, module := true, reel := Mod.tileReel.noReel,
                              bundle := index, elem := elem, addr := addr }
      let m := m.produceNan e d g n (gr.runOf n).take k site
      if (m.dies[d.val]).nan.halt then m.setOutcome g n .nanFirst [] else m

/-- Add to a task's notes. -/
def Mod.addNote (m : Mod) (g n : Nat) (code : Status) (count lowest : Nat) : Mod :=
  if count = 0 then m else m.updRun g n (fun r => { r with notes := Sys2Proof.Machine.addNote r.notes code count lowest 0 })

/-- Add to a note for a matrix flag that has no status code of its own: flag bit `k` (R237; DESIGN CHOICE, log 12). -/
def Mod.addFlagNote (m : Mod) (g n k count lowest : Nat) : Mod :=
  if count = 0 then m
  else m.updRun g n (fun r => { r with notes := Sys2Proof.Machine.addNote r.notes .okWithNotes count lowest (k + 1) })

/-- Detail bytes of a fault of an engine node (R436): engine and node type, no reel. -/
def engineDetail (engine ty : Nat) : List Byte := faultDetail engine ty 0 true Mod.tileReel.noReel 0 noVri 0 0

/-! Joint nodes: each part reads its share, and the part that is done last does the work (R301; log 21). -/

/-- What a part of a joint node reads. -/
def jointReads (n part : Nat) (reads : Mod → Graph → Node → Reads) (m : Mod) (gr : Graph) (x : Node) : Reads :=
  (reads m gr x).share (gr.runOf n).parts.length part

/-- What a part of a joint node writes whole. -/
def jointOuts (n part : Nat) (outs : Mod → Node → List (Nat × Nat × Nat)) (m : Mod) (gr : Graph) (x : Node) : List (Nat × Nat × Nat) :=
  if (gr.runOf n).lastPart part then outs m x else []

/-- What a part of a joint node does. -/
def jointWork (n part : Nat) (work : Mod → Graph → Node → PartEnd) (m : Mod) (gr : Graph) (x : Node) : PartEnd :=
  if (gr.runOf n).lastPart part then work m gr x else .done m

end Sys2Proof.Machine
end

