-- ==== Sys2Proof/Machine/Convert.lean ====
section
/-! DEFINITION. CONVERT nodes, scale records and gradient watches (08_numerics: R171, R172, R185 to R193; R214, R223, R224,
R286). -/

namespace Sys2Proof.Machine

/-! Scale records (R191 to R193). -/

/-- Whether a scale record may be used (R191, R10). -/
def scaleRecOk (b : List Byte) : Bool :=
  tscaleOk (BitVec.ofNat 32 (fieldAt b 8 4)) && decide (fieldAt b 0xC 1 ≤ 15) && decide (fieldAt b 0xE 1 ≤ 1) &&
    zeroAt b 0xF 1 && zeroAt b 0x7C 4

/-- Whether a watch record may be used (R223). -/
def watchOk (b : List Byte) : Bool := decide (fieldAt b 0x14 4 ≤ 1) && zeroAt b 0x30 16

/-- TSCALE after a conversion (R193). -/
def nextScale (old : Nat) (hold : Bool) (margin tfmt : Nat) (hist : List Nat) : Nat :=
  let h := hist.foldl max 0
  if h = 0 || hold then old
  else
    let mx := (fmtSpec tfmt).maxFin
    let k := quotClog2 ((fp32.decode h).scale margin) (.fin false mx.1 mx.2)
    ((max (-126) (min 127 k)) + 127).toNat * 2 ^ 23

/-- The record after a conversion (R192): amax, counts and scale. A HEAD above 15 counts modulo 16 (DESIGN CHOICE, log 66: R191 gives it
neither a use nor a fault). -/
def scaleRecNext (b : List Byte) (tfmt amax elems flush sat special slate : Nat) : List Byte :=
  let head := fieldAt b 0xD 1 % 16
  let hist := (List.range 16).map (fun i => if i = head then amax else fieldAt b (0x10 + 4 * i) 4)
  let t := nextScale (fieldAt b 8 4) (bitAt (fieldAt b 0xE 1) 0) (fieldAt b 0xC 1) tfmt hist
  slice b 0 8 ++ natLe 4 t ++ slice b 0xC 1 ++ natLe 1 ((head + 1) % 16) ++ slice b 0xE 2 ++ hist.flatMap (natLe 4) ++
    natLe 4 elems ++ natLe 4 flush ++ natLe 4 sat ++ natLe 4 special ++
    natLe 8 (satAdd 64 (fieldAt b 0x60 8) flush) ++ natLe 8 (satAdd 64 (fieldAt b 0x68 8) sat) ++ natLe 8 slate ++
    natLe 4 (satAdd 32 (fieldAt b 0x78 4) 1) ++ List.replicate 4 0

/-- A gradient watch after its node's final take (R224): the record, and whether it raises GRADIENT_SILENT and FLUSH_HEAVY.
A SILENT that stays at 0xFFFFFFFF, a multiple of THRESH, raises GRADIENT_SILENT at every further zero update (DESIGN CHOICE, log 66: the spec
does not say whether it has then just reached the multiple). -/
def watchNext (b : List Byte) (convert : Bool) (step amax flush elems slate : Nat) : List Byte × Bool × Bool :=
  let thresh := fieldAt b 8 4
  let silent := if amax = 0 then satAdd 32 (fieldAt b 0xC 4) 1 else 0
  let quiet := thresh != 0 && silent != 0 && silent % thresh == 0
  let heavy := convert && bitAt (fieldAt b 0x14 4) 0 && decide (elems < 16 * flush)
  (slice b 0 0xC ++ natLe 4 silent ++ natLe 4 step ++ slice b 0x14 4 ++ natLe 4 amax ++ natLe 4 flush ++ natLe 4 elems ++
    natLe 4 (satAdd 32 (fieldAt b 0x24 4) (boolNat quiet)) ++ natLe 8 slate ++ List.replicate 16 0, quiet, heavy)

/-- Update a watch record at the completion of its node; its events go to the record buffer and to the notes. -/
def Mod.commitWatch (e : Env) (m : Mod) (g n : Nat) (gr : Graph) (rec : RegEnt) (convert : Bool) (amax flush elems unit : Nat) :
    Mod :=
  let r := watchNext (m.entRead rec 0 64) convert gr.hdr.step.toNat amax flush elems (e.unitNow unit)
  let m := m.entWrite rec 0 r.1
  let m := if r.2.1 then (m.taskEvent e g n .gradientSilent []).addNote g n .gradientSilent 1 0 else m
  if r.2.2 then (m.taskEvent e g n .flushHeavy []).addNote g n .flushHeavy 1 0 else m

/-! CONVERT. -/

/-- What ends a CONVERT before any element moves (R189, R191, R223). -/
def Mod.cvtFault (m : Mod) (n : Node) (c : Cvt) : Bool :=
  let recBad := match n.parReg 0xE with
    | some r => decide (2 ≤ c.tfmt) && !scaleRecOk (m.entRead r 0 128)
    | none => false
  let watchBad := match n.parReg 0xF with | some r => !watchOk (m.entRead r 0 64) | none => false
  let squareBad := isMx c.tfmt && c.square && (c.rows % 32 != 0 || c.cols % 32 != 0)
  recBad || watchBad || squareBad

/-- The tensor scale in force when the conversion starts: 1.0 for FP32 and FP64 targets (R185, R214). -/
def Mod.cvtScale (m : Mod) (n : Node) (c : Cvt) : BitVec 32 :=
  match n.parReg 0xE with
  | some r => if 2 ≤ c.tfmt then BitVec.ofNat 32 (fieldAt (m.entRead r 8 4) 0 4) else 0x3F800000#32
  | none => 0x3F800000#32

/-- Counts kept in the run: flushes, saturations, special inputs, amax as FP32 rounded up. -/
def NRun.addCvt (r : NRun) (c : CvtCount) : NRun :=
  let old := fun i => r.counts.getD i 0
  let amax := match c.amax with | .fin _ m e => fp32.roundPos m e false | _ => 0
  { r with counts := [old 0 + c.flush, old 1 + c.sat, old 2 + c.special, max (old 3) amax] }

/-- One part of a CONVERT. The address in its NaN record is the byte's offset in the allocated region, without the region's handle (R196;
DESIGN CHOICE, log 37: the spec gives module memory no flat addresses). -/
def cvtWork (e : Env) (g n part : Nat) (m : Mod) (gr : Graph) (x : Node) : PartEnd :=
  let c := x.cvt
  if c.elems = 0 then .done m
  else if m.cvtFault x c then .fail .badOperation (engineDetail 0x04 x.ty) m
  else
    let ts := if (gr.runOf n).counts.isEmpty then m.cvtScale x c else (gr.runOf n).tscale
    let rows := c.partRows (gr.runOf n).parts.length part
    let r := m.cvtRows x c (fp32.decode ts.toNat) rows.1 rows.2
    let m := r.1.updRun g n (fun r' => { r'.addCvt r.2 with tscale := ts })
    let m := m.addNote g n .resultOverflow r.2.ovf 0
    let i := r.2.first.getD 0
    let dst := x.parEnt 0xC
    .done (m.engineNan e ((gr.runOf n).unitOf x part) g n r.2.nans 0x04 c.tfmt 0 i (dst.off + i * fmtBits c.tfmt / 8))

/-- Bytes a part reads: the source, for an MX source its scales, and the scale and watch records (R191, R223). -/
def cvtReads (n part : Nat) (_m : Mod) (g : Graph) (x : Node) : Reads :=
  let c := x.cvt
  let rows := c.partRows (g.runOf n).parts.length part
  let w := fmtBits c.sfmt
  let a := rows.1 * c.cols * w / 8
  let b := ceilDiv (rows.2 * c.cols * w) 8
  let rec' := fun (o n : Nat) => match x.parReg o with | some r => [(r, 0, n)] | none => []
  if c.elems = 0 then []
  else [(x.parEnt 0xB, a, b - a)] ++ (if isMx c.sfmt then [(x.parEnt 0x10, 0, c.scales)] else []) ++
    (if 2 ≤ c.tfmt then rec' 0xE 128 else []) ++ rec' 0xF 64

/-- Byte ranges that hold final elements and scales of a part of `p`: parameter offset of the region's index, offset in it, length. `done` names the
finished parts: a byte that holds bits of a part that has not finished is left out (R302). -/
def cvtRanges (p : Nat) (x : Node) (done : Nat → Bool) (part : Nat) : List (Nat × Nat × Nat) :=
  let c := x.cvt
  let w := fmtBits c.tfmt
  let bits := fun q => let rows := c.partRows p q; (rows.1 * c.cols * w, rows.2 * c.cols * w)
  let final := fun k => (List.range p).all (fun q => q == part || done q || !(decide ((bits q).1 < 8 * k + 8) && decide (8 * k < (bits q).2)))
  let rows := c.partRows p part
  let a := (bits part).1
  let b := (bits part).2
  let lo := if final (a / 8) then a / 8 else ceilDiv a 8
  let hi := if final (b / 8) then ceilDiv b 8 else b / 8
  let u := c.unitRows
  let perRow := if c.bdim then c.cols else ceilDiv c.cols 32
  let sc := fun r => if c.bdim then ceilDiv r u * perRow else r * perRow
  (0xC, lo, hi - lo) :: (if isMx c.tfmt then [(0xD, sc rows.1, sc rows.2 - sc rows.1)] else [])

def execConvert (g n part : Nat) (err : EngErr) (s : State) : Host.Outcome State Fault Refusal :=
  runMod (fun e m => m.runPart e tyConvert g n part err (cvtReads n part)
    (fun _ gr x => cvtRanges (gr.runOf n).parts.length x (fun _ => false) part)
    (cvtWork e g n part)) s

/-- The scale note of a completed CONVERT: the TENSOR of its scale record, or 0 with no record, the tensor scale, 52 zero bytes (R214). -/
def scaleNote (tensor : List Byte) (t : BitVec 32) : List Byte := tensor ++ natLe 4 t.toNat ++ List.replicate 52 0

/-- Put a scale note into the stump of a block's reservation (R214). -/
def Graph.putNote (gr : Graph) (n : Nat) (x : Node) (note : List Byte) : Graph :=
  if gr.declared x && x.phase = phFwd then gr.updResv x (fun v => { v with notes := v.notes.filter (fun y => y.1 != n) ++ [(n, note)] }) else gr

/-- At the completion of a conversion's final take: the scale record in one write, the watch record, and the scale note of a
block (R192, R214, R224). -/
def Mod.commitConvert (e : Env) (m : Mod) (g n : Nat) (gr : Graph) (x : Node) (r : NRun) : Mod :=
  let c := x.cvt
  let tensor := match x.parReg 0xE with | some rec => m.entRead rec 0 8 | none => List.replicate 8 0
  let t := if c.elems = 0 then m.cvtScale x c else r.tscale
  let m :=
    if c.elems = 0 then m
    else
      let k := fun i => r.counts.getD i 0
      let unit := r.unitOf x 0
      let m := match x.parReg 0xE with
        | some rec =>
          if 2 ≤ c.tfmt then
            m.entWrite rec 0 (scaleRecNext (m.entRead rec 0 128) c.tfmt (k 3) c.elems (k 0) (k 1) (k 2) (e.unitNow unit))
          else m
        | none => m
      match x.parReg 0xF with
      | some w => m.commitWatch e g n gr w true (k 3) (k 0) c.elems unit
      | none => m
  (m.updGraph g (fun gr => gr.putNote n x (scaleNote tensor t))).putStump g x

end Sys2Proof.Machine
end

