-- ==== Sys2Proof/Machine/Dense.lean ====
section
/-! DEFINITION. ASSEMBLE, FACTOR and SOLVE nodes (10_assembly_and_solvers: R225 to R243, R252, R253). -/

namespace Sys2Proof.Machine

/-- An exact value less a list of exact products (R231, R241). -/
def lessDots (a : FVal) (l : List (FVal × FVal)) : FVal := xsum (a :: l.map (fun p => (p.1.mul p.2).neg))

/-! FACTOR (R231 to R239). -/

/-- A matrix while it is factored: the input in the current row order and the factors, row-major codes of one format; the
row exchanges; what the status entry records. -/
structure Fac where
  fmt : Nat
  n : Nat
  a : List Nat
  f : List Nat
  piv : List Nat
  status : Status
  endCol : Nat
  tinyCol : Nat
  ovfCol : Nat
  ovf : Nat
deriving DecidableEq, Repr

/-- A column that no event has named. -/
def noCol : Nat := 0xFFFF

def Fac.spec (s : Fac) : FSpec := fmtSpec s.fmt
def Fac.inp (s : Fac) (i j : Nat) : FVal := s.spec.decode (s.a.getD (i * s.n + j) 0)
def Fac.at (s : Fac) (i j : Nat) : FVal := s.spec.decode (s.f.getD (i * s.n + j) 0)

/-- Store a factor element; an overflow is recorded with its column (R235). −0 is stored as +0 (R174). -/
def Fac.put (s : Fac) (i j : Nat) (r : Res) : Fac :=
  { s with f := lmod s.f (i * s.n + j) (fun _ => s.spec.noNegZero r.bits), ovf := s.ovf + ovfCount r,
           ovfCol := if r.ovf && s.ovfCol = noCol then j else s.ovfCol }

/-- a_ij − Σ l_ik·u_kj over k < `k`, exactly (LU). -/
def Fac.luNum (s : Fac) (i j k : Nat) : FVal := lessDots (s.inp i j) ((List.range k).map (fun m => (s.at i m, s.at m j)))

/-- u_ij for i < `k` in column j, from the top (R231). -/
def Fac.luTop (s : Fac) (j k : Nat) : Fac :=
  (List.range k).foldl (fun s i => s.put i j (s.spec.ofVal (s.luNum i j i))) s

/-- Whether a candidate ranks above another: a NaN above +∞, then the larger magnitude (R232). -/
def outranks (x y : FVal) : Bool := !y.isNan && (x.isNan || y.abs.lt x.abs)

/-- The pivot row of column j and its rounded candidate: the lowest row among the highest ranked (R232). -/
def Fac.pivot (s : Fac) (j : Nat) : Nat × Res :=
  let c := fun i => s.spec.ofVal (s.luNum i j j)
  (List.range (s.n - j - 1)).foldl (fun acc k =>
    let i := j + 1 + k
    if outranks (s.spec.decode (c i).bits) (s.spec.decode acc.2.bits) then (i, c i) else acc) (j, c j)

/-- Exchange two rows of a row-major list. -/
def swapRows (n i j : Nat) (l : List Nat) : List Nat :=
  l.mapIdx (fun k x =>
    if k / n = i then l.getD (j * n + k % n) 0 else if k / n = j then l.getD (i * n + k % n) 0 else x)

def Fac.swap (s : Fac) (i j : Nat) : Fac :=
  if i = j then s else { s with a := swapRows s.n i j s.a, f := swapRows s.n i j s.f }

/-- A matrix ends at column j: the elements that `keep` names stay, every other stored element becomes the status NaN
(R233). -/
def Fac.ended (s : Fac) (j : Nat) (st : Status) (stored keep : Nat → Nat → Bool) : Fac :=
  { s with
      status := st, endCol := j,
      piv := s.piv.mapIdx (fun k x => if j ≤ k then 0xFFFFFFFF else x),
      f := s.f.mapIdx (fun k x =>
        let i := k / s.n
        let c := k % s.n
        if !stored i c then 0 else if keep i c then x else statusNan s.fmt) }

/-- Record a tiny pivot: its magnitude is at or below τ (R234). -/
def Fac.tiny (s : Fac) (j : Nat) (p tau : FVal) : Fac :=
  if p.abs.le tau && s.tinyCol = noCol then { s with tinyCol := j } else s

/-- LU of columns j on. -/
def luCols (k : Nat) (tau : FVal) (s : Fac) : Fac :=
  match k with
  | 0 => s
  | k + 1 =>
    let j := s.n - (k + 1)
    let s := s.luTop j j
    let p := s.pivot j
    let v := s.spec.decode p.2.bits
    if v.isZero then
      let s := (List.range k).foldl (fun s c => s.luTop (j + 1 + c) j) s
      s.ended j .zeroPivot (fun _ _ => true) (fun i c => decide (i < j) || decide (c < j))
    else
      let s := { (s.swap p.1 j) with piv := lmod s.piv j (fun _ => p.1) }
      let s := (s.put j j p.2).tiny j v tau
      let u := s.at j j
      let s := (List.range k).foldl (fun s r =>
        let i := j + 1 + r
        s.put i j (s.spec.div (s.luNum i j j) u)) s
      luCols k tau s

/-- Lower triangle with the diagonal. -/
def lowerTri (i j : Nat) : Bool := decide (j ≤ i)

/-- Cholesky of columns j on. -/
def cholCols (k : Nat) (tau : FVal) (s : Fac) : Fac :=
  match k with
  | 0 => s
  | k + 1 =>
    let j := s.n - (k + 1)
    let dots := fun (s : Fac) i => (List.range j).map (fun m => (s.at i m, s.at j m))
    let d := lessDots (s.inp j j) (dots s j)
    let stop := fun st => s.ended j st lowerTri (fun _ c => decide (c < j))
    if d.isZero then stop .zeroPivot
    else if d.lt .zero then stop .notPositive
    else
      let s := (s.put j j (s.spec.sqrt d)).tiny j d tau
      let l := s.at j j
      let s := (List.range k).foldl (fun s r =>
        let i := j + 1 + r
        s.put i j (s.spec.div (lessDots (s.inp i j) (dots s i)) l)) s
      cholCols k tau s

/-- LDLᵀ of columns j on. -/
def ldlCols (k : Nat) (tau : FVal) (s : Fac) : Fac :=
  match k with
  | 0 => s
  | k + 1 =>
    let j := s.n - (k + 1)
    let dots := fun (s : Fac) i => (List.range j).map (fun m => ((s.at i m).mul (s.at j m), s.at m m))
    let r := s.spec.ofVal (lessDots (s.inp j j) (dots s j))
    let d := s.spec.decode r.bits
    if d.isZero then s.ended j .zeroPivot lowerTri (fun _ c => decide (c < j))
    else
      let s := (s.put j j r).tiny j d tau
      let s := (List.range k).foldl (fun s x =>
        let i := j + 1 + x
        s.put i j (s.spec.div (lessDots (s.inp i j) (dots s i)) d)) s
      ldlCols k tau s

/-- Whether a kind reads element (i, j): LU all, the symmetric kinds the lower triangle (R231). -/
def kindReads (kind i j : Nat) : Bool := kind == 0 || lowerTri i j

/-- Factor one matrix given by its codes in the factor format. -/
def factorMatrix (kind fmt n : Nat) (tau0 : FVal) (rel : Bool) (a : List Nat) : Fac :=
  let s : Fac := { fmt := fmt, n := n, a := a, f := List.replicate (n * n) 0, piv := List.range n, status := .ok,
                   endCol := noCol, tinyCol := noCol, ovfCol := noCol, ovf := 0 }
  let read := (List.range (n * n)).filter (fun k => kindReads kind (k / n) (k % n))
  let mx := read.foldl (fun acc k => acc.max (s.inp (k / n) (k % n)).abs) FVal.zero
  let tau := if rel then tau0.mul mx else tau0
  match kind with
  | 0 => luCols n tau s
  | 1 => cholCols n tau s
  | _ => ldlCols n tau s

/-- Whether an element that the kind reads is NaN or infinite (R235). -/
def nanIn (kind fmt n : Nat) (a : List Nat) : Bool :=
  (List.range (n * n)).any (fun k => kindReads kind (k / n) (k % n) && !(fmtSpec fmt).isFin (a.getD k 0))

/-- FLAGS of a factor status entry (R236). -/
def Fac.flags (s : Fac) (nan : Bool) : Nat :=
  boolNat (s.tinyCol != noCol) + place (boolNat (s.ovfCol != noCol)) 1 + place (boolNat nan) 2

/-- A 16-byte status entry (R236). -/
def statusEntry (st : Nat) (endCol flags tiny ovf iters : Nat) (ratio : BitVec 32) : List Byte :=
  natLe 2 st ++ natLe 2 endCol ++ natLe 2 flags ++ natLe 2 tiny ++ natLe 2 ovf ++ natLe 1 iters ++ [0] ++ natLe 4 ratio.toNat

/-- Parameters of a FACTOR (R239). -/
structure FacPar where
  n : Nat
  kind : Nat
  fmt : Nat
  batch : Nat
  infmt : Nat
  rel : Bool
  tau : FVal

/-- τ before TAU_REL: TAU, or the default of the format when it is zero (R234). -/
def tauOf (fmt : Nat) (code : Nat) : FVal :=
  let v := fp64.decode code
  if v.isZero then (if fmt = 0 then .pow2 (-1000) else .pow2 (-120)) else v

def Node.facPar (x : Node) : FacPar :=
  { n := x.par 0 2, kind := x.par 2 1, fmt := x.par 3 1, batch := x.par 4 4, infmt := x.par 8 1, rel := bitAt (x.par 9 1) 0,
    tau := tauOf (x.par 3 1) (x.par 0x10 8) }

/-- Places in a factor set (R238): the PIV array and the factors. -/
def pivOff (batch : Nat) : Nat := roundUp (0x40 + 16 * batch) 64
def facOff (kind n batch : Nat) : Nat := roundUp (if kind = 0 then pivOff batch + 4 * n * batch else pivOff batch) 64
def factorBytes (kind fmt n batch : Nat) : Nat := facOff kind n batch + n * n * batch * (fmtBits fmt / 8)

/-- Codes of one input matrix as it stands in its region. -/
def Mod.facCodes (m : Mod) (r : RegEnt) (p : FacPar) (b : Nat) : List Nat :=
  (List.range (p.n * p.n)).map (fun k => m.entCode r (fmtBits p.infmt) (b * p.n * p.n + k))

/-- The codes of an input matrix in the factor format, and how many roundings to it overflowed (R239). Elements that the kind does not
read are left out (R231). -/
def facInput (p : FacPar) (codes : List Nat) : List Nat × Nat :=
  let rs := codes.mapIdx (fun k c =>
    if !kindReads p.kind (k / p.n) (k % p.n) then (⟨0, false⟩ : Res)
    else if p.infmt = p.fmt then ⟨c, false⟩ else (fmtSpec p.fmt).ofVal ((fmtSpec p.infmt).decode c))
  (rs.map (fun r => r.bits), (rs.filter (fun r => r.ovf)).length)

/-- Write one matrix's factors, its exchanges and its status entry, and account for it (R233 to R237). -/
def Mod.facWrite (e : Env) (m : Mod) (unit g n : Nat) (x : Node) (p : FacPar) (b inOvf : Nat) (nan : Bool) (s : Fac) : Mod :=
  let out := x.parEnt 0xB
  let w := fmtBits p.fmt
  let base := facOff p.kind p.n p.batch
  let shift : RegEnt := { out with off := out.off + base, len := out.len - base }
  let m := m.entWrite out (0x40 + 16 * b) (statusEntry s.status.code s.endCol (s.flags nan) s.tinyCol s.ovfCol 0 0)
  let m := if p.kind = 0 then m.entWrite out (pivOff p.batch + 4 * p.n * b) (s.piv.flatMap (natLe 4)) else m
  let m := m.setCodes shift w (b * p.n * p.n) s.f
  let m := m.addNote g n s.status (if s.status = .ok then 0 else 1) b
  let m := m.addNote g n .tinyPivot (boolNat (s.tinyCol != noCol)) b
  let m := m.addNote g n .pivotOverflow (boolNat (s.ovfCol != noCol)) b
  let m := m.addFlagNote g n 2 (boolNat nan) b
  let m := m.addNote g n .resultOverflow (s.ovf + inOvf) 0
  let bad := (List.range (p.n * p.n)).filter (fun k =>
    let c := s.f.getD k 0
    (fmtSpec p.fmt).isNan c && !isStatusNan p.fmt c)
  let i := b * p.n * p.n + bad.headD 0
  m.engineNan e unit g n bad.length 0x05 p.fmt b i (shift.off + i * (w / 8))

/-- One die's share of a FACTOR; the header is written with it (R238). -/
def factorWork (e : Env) (g n part : Nat) (m : Mod) (gr : Graph) (x : Node) : PartEnd :=
  let p := x.facPar
  let unit := (gr.runOf n).unitOf x part
  let sh := shareOf p.batch (gr.runOf n).parts.length part
  let m := (List.range (sh.2 - sh.1)).foldl (fun m i =>
    let b := sh.1 + i
    let codes := m.facCodes (x.parEnt 0xA) p b
    let inp := facInput p codes
    m.facWrite e unit g n x p b inp.2 (nanIn p.kind p.infmt p.n codes)
      (factorMatrix p.kind p.fmt p.n p.tau p.rel inp.1)) m
  let head := natLe 4 0x54434146 ++ natLe 2 p.n ++ natLe 1 p.kind ++ natLe 1 p.fmt ++ natLe 4 p.batch ++
    natLe 4 gr.hdr.step.toNat ++ natLe 2 x.mb ++ List.replicate 14 0 ++ natLe 8 (e.unitNow unit) ++ List.replicate 24 0
  .done (m.entWrite (x.parEnt 0xB) 0 head)

/-- What a part of a FACTOR reads: whole matrices for LU, the lower triangles for the symmetric kinds (R226, R231). -/
def factorReads (n part : Nat) (_m : Mod) (g : Graph) (x : Node) : Reads :=
  let p := x.facPar
  let w := fmtBits p.infmt / 8
  let sh := shareOf p.batch (g.runOf n).parts.length part
  let mat := p.n * p.n * w
  if p.kind = 0 then [(x.parEnt 0xA, mat * sh.1, mat * (sh.2 - sh.1))]
  else (List.range (p.n * (sh.2 - sh.1))).map (fun r => (x.parEnt 0xA, mat * sh.1 + r * p.n * w, (r % p.n + 1) * w))

/-- Byte ranges that hold the final factors of a part of `p`: parameter offset of the region's index, offset in it, length (R238, R302). -/
def factorRanges (p : Nat) (x : Node) (part : Nat) : List (Nat × Nat × Nat) :=
  let q := x.facPar
  let s := shareOf q.batch p part
  let mat := q.n * q.n * (fmtBits q.fmt / 8)
  [(0xB, 0, 0x40), (0xB, 0x40 + 16 * s.1, 16 * (s.2 - s.1))] ++
    (if q.kind = 0 then [(0xB, pivOff q.batch + 4 * q.n * s.1, 4 * q.n * (s.2 - s.1))] else []) ++
    [(0xB, facOff q.kind q.n q.batch + mat * s.1, mat * (s.2 - s.1))]

def execFactor (g n part : Nat) (err : EngErr) (s : State) : Host.Outcome State Fault Refusal :=
  runMod (fun e m => m.runPart e tyFactor g n part err (factorReads n part)
    (fun _ gr x => factorRanges (gr.runOf n).parts.length x part) (factorWork e g n part)) s

/-! SOLVE (R240 to R243, R252). -/

/-- A factor set as a SOLVE reads it; `ok` says that its header is well formed. -/
structure FacSet where
  n : Nat
  kind : Nat
  fmt : Nat
  batch : Nat
  step : Nat
  mb : Nat
  ok : Bool

def Mod.facSet (m : Mod) (r : RegEnt) : FacSet :=
  let h := m.entRead r 0 0x40
  { n := fieldAt h 4 2, kind := fieldAt h 6 1, fmt := fieldAt h 7 1, batch := fieldAt h 8 4, step := fieldAt h 0xC 4,
    mb := fieldAt h 0x10 2,
    ok := fieldAt h 0 4 == 0x54434146 && decide (1 ≤ fieldAt h 4 2) && decide (fieldAt h 4 2 ≤ 256) &&
      decide (fieldAt h 6 1 ≤ 2) && decide (fieldAt h 7 1 ≤ 1) }

/-- Bytes of a factor set. -/
def FacSet.bytes (s : FacSet) : Nat := factorBytes s.kind s.fmt s.n s.batch

/-- One matrix's factors as a SOLVE uses them. -/
structure FacView where
  kind : Nat
  fmt : Nat
  n : Nat
  f : List Nat
  piv : List Nat

def FacView.at (v : FacView) (i j : Nat) : FVal := (fmtSpec v.fmt).decode (v.f.getD (i * v.n + j) 0)

def Mod.facView (m : Mod) (r : RegEnt) (s : FacSet) (b : Nat) : FacView :=
  let base := facOff s.kind s.n s.batch
  let shift : RegEnt := { r with off := r.off + base, len := r.len - base }
  { kind := s.kind, fmt := s.fmt, n := s.n, f := (List.range (s.n * s.n)).map (fun k => m.entCode shift (fmtBits s.fmt) (b * s.n * s.n + k)),
    piv := (List.range s.n).map (fun j => leNat (m.entRead r (pivOff s.batch + 4 * (s.n * b + j)) 4)) }

/-- A vector of codes while it is solved, and its overflows. -/
structure SolveVec where
  v : List Nat
  ovf : Nat

/-- Substitution: the elements in `order`, each an exact sum over the elements that `uses` names with coefficients `coef`,
divided by `diag` when the triangle has a non-unit diagonal, rounded once (R241). -/
def substitute (f : FSpec) (order : List Nat) (uses : Nat → List Nat) (coef : Nat → Nat → FVal) (diag : Option (Nat → FVal))
    (s : SolveVec) : SolveVec :=
  order.foldl (fun s i =>
    let num := lessDots (f.decode (s.v.getD i 0)) ((uses i).map (fun k => (coef i k, f.decode (s.v.getD k 0))))
    let r := match diag with | some d => f.div num (d i) | none => f.ofVal num
    ⟨lmod s.v i (fun _ => f.noNegZero r.bits), s.ovf + ovfCount r⟩) s

/-- Exchange two elements. -/
def swapElems (i j : Nat) (l : List Nat) : List Nat :=
  if i = j then l else lmod (lmod l i (fun _ => l.getD j 0)) j (fun _ => l.getD i 0)

/-- Solve with the factors of one matrix, in their format (R241). -/
def FacView.solve (v : FacView) (trans : Bool) (b : SolveVec) : SolveVec :=
  let f := fmtSpec v.fmt
  let up := List.range v.n
  let down := up.reverse
  let below := fun i => List.range i
  let above := fun i => (List.range (v.n - i - 1)).map (fun k => i + 1 + k)
  let diag := fun i => v.at i i
  let low := fun i k => v.at i k
  let lowT := fun i k => v.at k i
  match v.kind with
  | 0 =>
    if !trans then
      let b := { b with v := (up.map (fun j => (j, v.piv.getD j j))).foldl (fun l p => swapElems p.1 p.2 l) b.v }
      substitute f down above low (some diag) (substitute f up below low none b)
    else
      let b := substitute f down above lowT none (substitute f up below lowT (some diag) b)
      { b with v := (down.map (fun j => (j, v.piv.getD j j))).foldl (fun l p => swapElems p.1 p.2 l) b.v }
  | 1 => substitute f down above lowT (some diag) (substitute f up below low (some diag) b)
  | _ =>
    let b := substitute f up below low none b
    let b := up.foldl (fun s i =>
      let r := f.div (f.decode (s.v.getD i 0)) (diag i)
      ⟨lmod s.v i (fun _ => f.noNegZero r.bits), s.ovf + ovfCount r⟩) b
    substitute f down above lowT none b

/-- Largest magnitude of a list of exact values. -/
def maxAbs (l : List FVal) : FVal := l.foldl (fun acc v => acc.max v.abs) FVal.zero

/-- Round a list to a format. -/
def roundAll (f : FSpec) (l : List FVal) : SolveVec :=
  let rs := l.map f.ofVal
  ⟨rs.map (fun r => f.noNegZero r.bits), (rs.filter (fun r => r.ovf)).length⟩

/-- A refined right-hand side: solution codes in FP64, iterations run, whether it converged, the last RATIO (R242). -/
structure Refined where
  x : List Nat
  ovf : Nat
  iters : Nat
  conv : Bool
  ratio : BitVec 32

/-- max|d| ÷ max|x| rounded toward +∞ (R236): beyond the largest finite FP32 value it is +∞. Free where IEEE 754 makes the quotient a NaN
(log 2). -/
def ratioOf (d x : FVal) : BitVec 32 :=
  match d, x with
  | .inf _, .fin _ _ _ => 0x7F800000#32
  | .fin _ _ _, .inf _ => 0
  | .fin _ m e, .fin _ n k =>
    if n = 0 then (if m = 0 then Config.openRatio else 0x7F800000#32)
    else if m = 0 then 0
    else
      let sh := 28 + Nat.log2 n
      let mx := fp32.maxFin
      if ((FVal.fin false mx.1 mx.2).mul (.fin false n k)).lt (.fin false m e) then 0x7F800000#32
      else BitVec.ofNat 32 (fp32.roundPos (m * 2 ^ sh / n) (e - k - sh) (m * 2 ^ sh % n != 0))
  | _, _ => Config.openRatio

/-- One refinement step and those after it. -/
def refineSteps (k : Nat) (it : Nat) (v : FacView) (trans : Bool) (a : Nat → Nat → FVal) (b : List FVal) (eps : FVal)
    (r : Refined) : Refined :=
  match k with
  | 0 => r
  | k + 1 =>
    let xs := r.x.map fp64.decode
    let coef := fun i j => if trans then a j i else a i j
    let res := roundAll fp64 ((List.range v.n).map (fun i =>
      lessDots (b.getD i .zero) ((List.range v.n).map (fun j => (coef i j, xs.getD j .zero)))))
    let rv := res.v.map fp64.decode
    let mx := maxAbs rv
    let e := if mx.nonzero then mx.ilog2 else Config.refineExp res.v
    let step : List FVal × Nat :=
      if mx.isZero then (rv.map (fun _ => FVal.zero), 0)
      else
        let rhs := roundAll fp32 (rv.map (fun y => y.scale (-e)))
        let s := v.solve trans rhs
        (s.v.map (fun c => (fp32.decode c).scale e), s.ovf)
    let new := roundAll fp64 (xs.zipWith FVal.add step.1)
    let dm := maxAbs step.1
    let xm := maxAbs (new.v.map fp64.decode)
    let r := { x := new.v, ovf := r.ovf + res.ovf + step.2 + new.ovf, iters := it, conv := dm.le (eps.mul xm), ratio := ratioOf dm xm }
    if r.conv then r else refineSteps k (it + 1) v trans a b eps r

/-- Solve and refine one right-hand side. -/
def refine (v : FacView) (trans : Bool) (a : Nat → Nat → FVal) (b : List FVal) (eps : FVal) (most : Nat) : Refined :=
  let s := v.solve trans (roundAll fp32 b)
  let x := s.v.map (fun c => (fp64.ofVal (fp32.decode c)).bits)
  refineSteps most 1 v trans a b eps { x := x, ovf := s.ovf, iters := 0, conv := false, ratio := 0 }

/-- Solve one matrix's right-hand sides, write its solutions and its status entry (R236, R243). -/
def Mod.solveMatrix (e : Env) (m : Mod) (unit g n : Nat) (x : Node) (fs : FacSet) (b : Nat) : Mod :=
  let nrhs := x.par 0 2
  let fl := x.par 2 1
  let bf := x.par 3 1
  let w := fmtBits bf
  let freg := x.parEnt 5
  let xreg := x.parEnt 7
  let trans := bitAt fl 0
  let entry := m.entRead freg (0x40 + 16 * b) 16
  let put := fun (m : Mod) (bs : List Byte) => match x.parReg 9 with | some r => m.entWrite r (16 * b) bs | none => m
  if fieldAt entry 0 2 != 0 then
    let m := m.setCodes xreg w (b * nrhs * fs.n) (List.replicate (nrhs * fs.n) (statusNan bf))
    let m := m.addNote g n .zeroPivot (boolNat (fieldAt entry 0 2 == Status.zeroPivot.code)) b
    let m := m.addNote g n .notPositive (boolNat (fieldAt entry 0 2 == Status.notPositive.code)) b
    let m := m.addFlagNote g n 4 1 b
    put m (statusEntry (fieldAt entry 0 2) (fieldAt entry 2 2) 16 noCol noCol 0 0)
  else
    let v := m.facView freg fs b
    let a := fun i j => m.entVal (x.parEnt 8) 0 (b * fs.n * fs.n + i * fs.n + j)
    let eps := if x.par 0x10 8 = 0 then FVal.pow2 (-50) else fp64.decode (x.par 0x10 8)
    let most := if x.par 4 1 = 0 then 5 else x.par 4 1
    let one := fun k =>
      let codes := (List.range fs.n).map (fun i => m.entCode (x.parEnt 6) w ((b * nrhs + k) * fs.n + i))
      if bitAt fl 1 then refine v trans a (codes.map (fmtSpec bf).decode) eps most
      else
        let s := v.solve trans ⟨codes, 0⟩
        { x := s.v, ovf := s.ovf, iters := 0, conv := true, ratio := 0 }
    let rs := (List.range nrhs).map one
    let m := m.setCodes xreg w (b * nrhs * fs.n) (rs.flatMap (fun r => r.x))
    let un := rs.any (fun r => !r.conv)
    let iters := rs.foldl (fun acc r => max acc r.iters) 0
    let ratio := rs.foldl (fun acc r => if acc.toNat < r.ratio.toNat then r.ratio else acc) 0
    let m := put m (statusEntry 0 noCol (Sys2Proof.Machine.place (boolNat un) 3) noCol noCol iters ratio)
    let m := m.addFlagNote g n 3 (boolNat un) b
    let m := m.addNote g n .resultOverflow (rs.foldl (fun acc r => acc + r.ovf) 0) 0
    let codes := rs.flatMap (fun r => r.x)
    let bad := (List.range codes.length).filter (fun k =>
      let c := codes.getD k 0
      (fmtSpec bf).isNan c && !isStatusNan bf c)
    let i := b * nrhs * fs.n + bad.headD 0
    m.engineNan e unit g n bad.length 0x05 bf b i (xreg.off + i * (w / 8))

/-- Whether a SOLVE may use its factor set: well formed, of the formats of R240, its solutions in the region, and for a
backward solve of the node's training step and micro-batch (R252; DEDUCED, log 23). -/
def solveFault (gr : Graph) (x : Node) (fs : FacSet) : Bool :=
  let fl := x.par 2 1
  let bf := x.par 3 1
  let nrhs := x.par 0 2
  let refine := bitAt fl 1
  let vec := nrhs * fs.n * fs.batch * (fmtBits bf / 8)
  !fs.ok || decide ((x.parEnt 5).len < fs.bytes) || (if refine then fs.fmt != 1 || bf != 0 else bf != fs.fmt) ||
    (bitAt fl 0 && (fs.step != gr.hdr.step.toNat || fs.mb != x.mb)) ||
    decide ((x.parEnt 6).len < vec) || decide ((x.parEnt 7).len < vec) ||
    (refine && decide ((x.parEnt 8).len < fs.n * fs.n * fs.batch * 8)) ||
    (match x.parReg 9 with | some r => decide (r.len < 16 * fs.batch) | none => false)

/-- One die's share of a SOLVE. -/
def solveWork (e : Env) (g n part : Nat) (m : Mod) (gr : Graph) (x : Node) : PartEnd :=
  let fs := m.facSet (x.parEnt 5)
  if solveFault gr x fs then .fail .badOperation [] m
  else
    let sh := shareOf fs.batch (gr.runOf n).parts.length part
    .done ((List.range (sh.2 - sh.1)).foldl (fun m i => m.solveMatrix e ((gr.runOf n).unitOf x part) g n x fs (sh.1 + i)) m)

/-- What a part of a SOLVE reads: the factor set, and of every matrix that is not ended the right-hand sides and, with REFINE, the
original matrix (R240, R243). -/
def solveReads (n part : Nat) (m : Mod) (g : Graph) (x : Node) : Reads :=
  let fs := m.facSet (x.parEnt 5)
  let rhs := x.par 0 2 * fs.n * (fmtBits (x.par 3 1) / 8)
  let mat := fs.n * fs.n * 8
  if !fs.ok || decide ((x.parEnt 5).len < fs.bytes) then [(x.parEnt 5, 0, 0x40)]
  else (x.parEnt 5, 0, fs.bytes) ::
    (let sh := shareOf fs.batch (g.runOf n).parts.length part
     (List.range (sh.2 - sh.1)).map (fun i => sh.1 + i)).flatMap (fun b =>
      if leNat (m.entRead (x.parEnt 5) (0x40 + 16 * b) 2) != 0 then []
      else (x.parEnt 6, b * rhs, rhs) :: (if bitAt (x.par 2 1) 1 then [(x.parEnt 8, b * mat, mat)] else []))

/-- Byte ranges that hold the final solutions and statuses of a part of `p` (R243, R302). -/
def solveRanges (m : Mod) (p : Nat) (x : Node) (part : Nat) : List (Nat × Nat × Nat) :=
  let fs := m.facSet (x.parEnt 5)
  let s := shareOf fs.batch p part
  let v := x.par 0 2 * fs.n * (fmtBits (x.par 3 1) / 8)
  (7, v * s.1, v * (s.2 - s.1)) :: (if (x.parReg 9).isSome then [(9, 16 * s.1, 16 * (s.2 - s.1))] else [])

def execSolve (g n part : Nat) (err : EngErr) (s : State) : Host.Outcome State Fault Refusal :=
  runMod (fun e m => m.runPart e tySolve g n part err (solveReads n part)
    (fun m gr x => solveRanges m (gr.runOf n).parts.length x part) (solveWork e g n part)) s

/-! ASSEMBLE (R227 to R230, R253). -/

/-- An entry of an entry list (R227). -/
structure AsmEnt where
  batch : Nat
  row : Nat
  col : Nat
  src : Nat
  coef : FVal

/-- Parameters of an ASSEMBLE (R228). -/
structure AsmPar where
  n : Nat
  nrhs : Nat
  batch : Nat
  out : Nat
  pfmt : Nat
  mfmt : Nat
  flags : Nat
  np : Nat
  nm : Nat

def Node.asm (x : Node) : AsmPar :=
  { n := x.par 0 2, nrhs := x.par 2 2, batch := x.par 4 4, out := x.par 8 1, pfmt := x.par 9 1, mfmt := x.par 0xA 1,
    flags := x.par 0xB 1, np := x.par 0xC 4, nm := x.par 0x10 4 }

def AsmPar.reverse (p : AsmPar) : Bool := bitAt p.flags 0
def AsmPar.outer (p : AsmPar) : Bool := bitAt p.flags 1
def AsmPar.gradMeas (p : AsmPar) : Bool := bitAt p.flags 2
def AsmPar.skipEnded (p : AsmPar) : Bool := bitAt p.flags 3
def AsmPar.accum (p : AsmPar) : Bool := bitAt p.flags 4

/-- The entries of a list region. -/
def Mod.asmList (m : Mod) (r : RegEnt) (n : Nat) : List AsmEnt :=
  (List.range n).map (fun i =>
    let b := m.entRead r (16 * i) 16
    { batch := fieldAt b 0 4, row := fieldAt b 4 2, col := fieldAt b 6 2, src := fieldAt b 8 4, coef := fp32.decode (fieldAt b 0xC 4) })

/-- Elements of a source tensor: its entry's length over the element size. -/
def srcElems (r : RegEnt) (fmt : Nat) : Nat := r.len / (fmtBits fmt / 8)

/-- ROW, COL and SRC in range (R227). -/
def AsmEnt.ok (a : AsmEnt) (p : AsmPar) (elems : Nat) : Bool :=
  decide (a.row < p.n) && (if 0x8000 ≤ a.col then decide (a.col - 0x8000 < p.nrhs) else decide (a.col < p.n)) &&
    decide (a.src < elems) && decide (a.src < 2 ^ 31)

/-- The matrix at which the walk of a list meets its first bad entry, if any (R230; DEDUCED, log 23). -/
def firstBadMatrix (p : AsmPar) (elems : Nat) (prev : Nat) (l : List AsmEnt) : Option Nat :=
  match l with
  | [] => none
  | a :: r =>
    if a.batch < prev then some prev
    else if p.batch ≤ a.batch then some p.batch
    else if !a.ok p elems then some a.batch
    else firstBadMatrix p elems a.batch r

/-- The entries of a list before its first bad one: those that the walk has checked and taken (R229, R230). -/
def goodEntries (p : AsmPar) (elems : Nat) (prev : Nat) (l : List AsmEnt) : List AsmEnt :=
  match l with
  | [] => []
  | a :: r => if a.batch < prev || decide (p.batch ≤ a.batch) || !a.ok p elems then [] else a :: goodEntries p elems a.batch r

/-- The lower of two optional matrix indices. -/
def minOpt (a b : Option Nat) : Option Nat :=
  match a, b with
  | some x, some y => some (min x y)
  | some x, none => some x
  | none, y => y

/-- The terms of one target of a matrix: entries of both lists, each times its source. -/
def asmTerms (b row col : Nat) (l : List AsmEnt) (src : Nat → FVal) : List FVal :=
  (l.filter (fun a => a.batch == b && a.row == row && a.col == col)).map (fun a => a.coef.mul (src a.src))

/-- Write the outputs of a sequence of sums to a tensor from index `i`; account for overflows and NaNs (R229). -/
def Mod.putSums (e : Env) (m : Mod) (unit g n : Nat) (r : RegEnt) (fmt index i : Nat) (vals : List FVal) : Mod :=
  let f := fmtSpec fmt
  let rs := vals.map f.ofVal
  let codes := rs.map (fun r => f.noNegZero r.bits)
  let m := m.setCodes r (fmtBits fmt) i codes
  let m := m.addNote g n .resultOverflow (rs.filter (fun r => r.ovf)).length 0
  let bad := (List.range codes.length).filter (fun k => f.isNan (codes.getD k 0))
  let j := i + bad.headD 0
  m.engineNan e unit g n bad.length 0x06 fmt index j (r.off + j * (fmtBits fmt / 8))

/-- Assemble one matrix and its right-hand sides. -/
def Mod.asmMatrix (e : Env) (m : Mod) (unit g n : Nat) (x : Node) (p : AsmPar) (lp lm : List AsmEnt) (b : Nat) : Mod :=
  let ps := fun i => m.entVal (x.parEnt 0x14) p.pfmt i
  let ms := fun i => m.entVal (x.parEnt 0x15) p.mfmt i
  let term := fun row col => xsum (asmTerms b row col lp ps ++ asmTerms b row col lm ms)
  let mat := (List.range (p.n * p.n)).map (fun k => term (k / p.n) (k % p.n))
  let rhs := (List.range (p.nrhs * p.n)).map (fun k => term (k % p.n) (0x8000 + k / p.n))
  let m := m.putSums e unit g n (x.parEnt 0x18) p.out b (b * p.n * p.n) mat
  m.putSums e unit g n (x.parEnt 0x19) p.out b (b * p.nrhs * p.n) rhs

/-- G_e of an entry (R253). -/
def Mod.asmGrad (m : Mod) (x : Node) (p : AsmPar) (a : AsmEnt) : FVal :=
  let el := fun (r : RegEnt) (i : Nat) => m.entVal r p.out i
  let vec := fun (r : RegEnt) (k i : Nat) => el r ((a.batch * p.nrhs + k) * p.n + i)
  let isRhs := 0x8000 ≤ a.col
  if p.outer then
    if isRhs then vec (x.parEnt 0x1D) (a.col - 0x8000) a.row
    else (xsum ((List.range p.nrhs).map (fun k => (vec (x.parEnt 0x1D) k a.row).mul (vec (x.parEnt 0x1C) k a.col)))).neg
  else if isRhs then vec (x.parEnt 0x19) (a.col - 0x8000) a.row
  else el (x.parEnt 0x18) (a.batch * p.n * p.n + a.row * p.n + a.col)

/-- Whether the factor status of a matrix ended it, for SKIP_ENDED. -/
def Mod.asmEnded (m : Mod) (x : Node) (p : AsmPar) (b : Nat) : Bool :=
  p.skipEnded && (match x.parReg 0x1E with | some r => leNat (m.entRead r (0x40 + 16 * b) 2) != 0 | none => false)

/-- The gradient of one source tensor. -/
def Mod.asmReverse (e : Env) (m : Mod) (unit g n : Nat) (x : Node) (p : AsmPar) (l : List AsmEnt) (dst : RegEnt) (elems : Nat) : Mod :=
  let used := l.filter (fun a => !m.asmEnded x p a.batch)
  let named := fun s => l.any (fun a => a.src == s)
  let vals := (List.range elems).map (fun s =>
    let terms := (used.filter (fun a => a.src == s)).map (fun a => a.coef.mul (m.asmGrad x p a))
    (s, if p.accum && named s then m.entVal dst p.out s :: terms else terms))
  vals.foldl (fun acc v =>
    if p.accum && !named v.1 then acc else acc.putSums e unit g n dst p.out 0 v.1 [xsum v.2]) m

/-- One die's share of an ASSEMBLE: a range of matrices. In reverse form an element's sum runs over all matrices: it is exact, so the parts
add to it in any order, and the part that finishes last rounds and writes it (R226, R253; DESIGN CHOICE, log 23). -/
def assembleWork (e : Env) (g n part : Nat) (m : Mod) (gr : Graph) (x : Node) : PartEnd :=
  let p := x.asm
  let unit := (gr.runOf n).unitOf x part
  let lp := m.asmList (x.parEnt 0x16) p.np
  let lm := if p.reverse && !p.gradMeas then [] else m.asmList (x.parEnt 0x17) p.nm
  let pe := srcElems (x.parEnt 0x14) p.pfmt
  let me := srcElems (x.parEnt 0x15) p.mfmt
  let bad := minOpt (firstBadMatrix p pe 0 lp) (firstBadMatrix p me 0 lm)
  if p.reverse then
    if bad.isSome then .fail .badOperation [] m
    else if !(gr.runOf n).lastPart part then .done m
    else
      let m := m.asmReverse e unit g n x p lp (x.parEnt 0x1A) pe
      let m := if p.gradMeas then m.asmReverse e unit g n x p lm (x.parEnt 0x1B) me else m
      let skipped := ((lp ++ lm).filter (fun a => m.asmEnded x p a.batch)).length
      .done (m.addFlagNote g n 4 skipped 0)
  else
    let sh := shareOf p.batch (gr.runOf n).parts.length part
    let stop := match bad with
      | some b => if b < sh.2 || (b = p.batch && sh.2 = p.batch) then some (max b sh.1) else none
      | none => none
    let hi := match stop with | some b => min b sh.2 | none => sh.2
    let m := (List.range (hi - sh.1)).foldl (fun m i =>
      m.asmMatrix e unit g n x p (goodEntries p pe 0 lp) (goodEntries p me 0 lm) (sh.1 + i)) m
    match bad, stop with
    | some b, some _ =>
      let w := fmtBits p.out / 8
      let k := hi - sh.1
      if b < sh.1 then .done m
      else .fail .badOperation [] (m.healAll x [(0x18, w * p.n * p.n * sh.1, w * p.n * p.n * k), (0x19, w * p.n * p.nrhs * sh.1, w * p.n * p.nrhs * k)])
    | _, _ => .done m

/-- What G_e of an entry reads (R253). -/
def Node.gradReads (x : Node) (p : AsmPar) (a : AsmEnt) : Reads :=
  let w := fmtBits p.out / 8
  let vec := fun (r : RegEnt) (k i : Nat) => (r, ((a.batch * p.nrhs + k) * p.n + i) * w, w)
  if 0x8000 ≤ a.col then [vec (x.parEnt (if p.outer then 0x1D else 0x19)) (a.col - 0x8000) a.row]
  else if p.outer then
    (List.range p.nrhs).flatMap (fun k => [vec (x.parEnt 0x1D) k a.row, vec (x.parEnt 0x1C) k a.col])
  else [(x.parEnt 0x18, (a.batch * p.n * p.n + a.row * p.n + a.col) * w, w)]

/-- What a part of an ASSEMBLE reads: the entry lists, and what the checked entries of its matrices name: source elements, or in reverse form the
operands of G_e of the matrices that are not left out, the factor statuses and with ACCUM the gradients (R229, R230, R253). -/
def assembleReads (n part : Nat) (m : Mod) (g : Graph) (x : Node) : Reads :=
  let p := x.asm
  let sh := shareOf p.batch (g.runOf n).parts.length part
  let mine := fun (l : List AsmEnt) => l.filter (fun a => decide (sh.1 ≤ a.batch) && decide (a.batch < sh.2))
  let lists : Reads := [(x.parEnt 0x16, 0, 16 * p.np)] ++
    (if p.reverse && !p.gradMeas then [] else [(x.parEnt 0x17, 0, 16 * p.nm)])
  let lp := mine (goodEntries p (srcElems (x.parEnt 0x14) p.pfmt) 0 (m.asmList (x.parEnt 0x16) p.np))
  let lm := if p.reverse && !p.gradMeas then []
    else mine (goodEntries p (srcElems (x.parEnt 0x15) p.mfmt) 0 (m.asmList (x.parEnt 0x17) p.nm))
  let src := fun (o fmt : Nat) (a : AsmEnt) => (x.parEnt o, a.src * (fmtBits fmt / 8), fmtBits fmt / 8)
  let w := fmtBits p.out / 8
  lists ++
    (if p.reverse then
      (match x.parReg 0x1E with | some r => if p.skipEnded then [(r, 0x40, 16 * p.batch)] else [] | none => []) ++
        ((lp ++ lm).filter (fun a => !m.asmEnded x p a.batch)).flatMap (x.gradReads p) ++
        (if p.accum then lp.map (fun a => (x.parEnt 0x1A, a.src * w, w)) ++ lm.map (fun a => (x.parEnt 0x1B, a.src * w, w)) else [])
     else lp.map (src 0x14 p.pfmt) ++ lm.map (src 0x15 p.mfmt))

/-- Byte ranges that hold the final matrices and right-hand sides of a part of `p`; a reverse ASSEMBLE has final results only when every part is done
(R302). -/
def assembleRanges (p : Nat) (x : Node) (part : Nat) : List (Nat × Nat × Nat) :=
  let q := x.asm
  let w := fmtBits q.out / 8
  let s := shareOf q.batch p part
  if q.reverse then []
  else
    [(0x18, w * q.n * q.n * s.1, w * q.n * q.n * (s.2 - s.1)), (0x19, w * q.n * q.nrhs * s.1, w * q.n * q.nrhs * (s.2 - s.1))]

/-- Byte ranges that a part has just written whole: those of `assembleRanges`, or the whole gradients by the last part of a reverse form
that does not accumulate. -/
def assembleOuts (gr : Graph) (n part : Nat) (x : Node) : List (Nat × Nat × Nat) :=
  let q := x.asm
  let w := fmtBits q.out / 8
  if !q.reverse then assembleRanges (gr.runOf n).parts.length x part
  else if (gr.runOf n).lastPart part && !q.accum then
    (0x1A, 0, w * srcElems (x.parEnt 0x14) q.pfmt) :: (if q.gradMeas then [(0x1B, 0, w * srcElems (x.parEnt 0x15) q.mfmt)] else [])
  else []

def execAssemble (g n part : Nat) (err : EngErr) (s : State) : Host.Outcome State Fault Refusal :=
  runMod (fun e m => m.runPart e tyAssemble g n part err (assembleReads n part) (fun _ gr x => assembleOuts gr n part x)
    (assembleWork e g n part)) s

end Sys2Proof.Machine
end

