-- ==== Sys2Proof/Machine/Iter.lean ====
section
/-! DEFINITION. ITER_SOLVE nodes (10_assembly_and_solvers: R244 to R251, R254). Vectors are lists of codes in FMT; dot products
and scalars are in FMT; norms and the tolerance are FP64, as the result record holds them (DESIGN CHOICE, log 24). -/

namespace Sys2Proof.Machine

/-- The parameters of an ITER_SOLVE (R244). -/
structure IterPar where
  n : Nat
  nnz : Nat
  method : Nat
  precond : Nat
  block : Nat
  fmt : Nat
  cap : Nat
  adjoint : Bool
  warm : Bool
  capOk : Bool
  valgrad : Bool
  rtol : FVal
  atol : FVal

def Node.iter (x : Node) : IterPar :=
  let fl := x.par 0xE 2
  { n := x.par 0 4, nnz := x.par 4 4, method := x.par 8 1, precond := x.par 9 1, block := x.par 0xA 1, fmt := x.par 0xB 1,
    cap := if x.par 0xC 2 = 0 then 1000 else x.par 0xC 2, adjoint := bitAt fl 0, warm := bitAt fl 1, capOk := bitAt fl 2,
    valgrad := bitAt fl 3, rtol := fp64.decode (x.par 0x10 8), atol := fp64.decode (x.par 0x18 8) }

/-! The matrix (R244, R249). -/

/-- A stored entry of a CSR matrix: its number, row, column and value. -/
structure Stored where
  k : Nat
  row : Nat
  col : Nat
  val : FVal

def Mod.csrPtr (m : Mod) (x : Node) (i : Nat) : Nat := m.entCode (x.parEnt 0x20) 32 i
def Mod.csrCol (m : Mod) (x : Node) (k : Nat) : Nat := m.entCode (x.parEnt 0x21) 32 k

/-- Whether the structure ends the task with BAD_OPERATION: pointers that decrease, a last pointer other than NNZ, a column out
of range (R244). -/
def Mod.csrBad (m : Mod) (x : Node) (p : IterPar) : Bool :=
  (List.range p.n).any (fun i => decide (signed 32 (m.csrPtr x (i + 1)) < signed 32 (m.csrPtr x i))) ||
    m.csrPtr x p.n != p.nnz || (List.range p.nnz).any (fun k => decide (p.n ≤ m.csrCol x k))

/-- The stored entries in CSR order. -/
def Mod.csrEntries (m : Mod) (x : Node) (p : IterPar) : List Stored :=
  (List.range p.n).flatMap (fun i =>
    let a := (signed 32 (m.csrPtr x i)).toNat
    let b := (signed 32 (m.csrPtr x (i + 1))).toNat
    (List.range (b - a)).map (fun j => ⟨a + j, i, m.csrCol x (a + j), m.entVal (x.parEnt 0x22) p.fmt (a + j)⟩))

/-- What the structure fingerprint covers: N, the row pointers and the column indices (R249). -/
def Mod.structureBytes (m : Mod) (x : Node) (p : IterPar) : List Byte :=
  natLe 4 p.n ++ m.entRead (x.parEnt 0x20) 0 (4 * (p.n + 1)) ++ m.entRead (x.parEnt 0x21) 0 (4 * p.nnz)

/-- The structure fingerprint, CRC-64/XZ: the die's tally channel is fed the bytes, and its TLY_FINAL is the value (R249, R419). -/
def Mod.fingerprint (m : Mod) (x : Node) (p : IterPar) : Mod × Nat :=
  let d := Fin.ofNat 12 (x.partUnit 0)
  let m := { m with tally := vmodN m.tally (d.val + 1) (fun y => y.check true (m.structureBytes x p)) }
  (m, (vget m.tally (d.val + 1) TallyCh.cold).final.toNat)

/-! The problem and its arithmetic (R245). -/

/-- Overflows and NaNs met in a solve, and the element index and the format code of the first NaN (R183, R195, R196). -/
structure IterCount where
  ovf : Nat
  nan : Nat
  first : Option (Nat × Nat)

/-- Format code of a solver's format: FP64 or FP32. -/
def FSpec.code (f : FSpec) : Nat := if f.ebits = 11 then 0 else 1

def IterCount.zero : IterCount := ⟨0, 0, none⟩

/-- NaN elements of an output: how many, and the first. -/
def nanCodes (f : FSpec) (codes : List Nat) : Nat × Nat :=
  let bad := (List.range codes.length).filter (fun i => f.isNan (codes.getD i 0))
  (bad.length, bad.headD 0)

/-- Count a vector that an operation has formed. -/
def IterCount.vec (f : FSpec) (c : IterCount) (v : SolveVec) : IterCount :=
  let b := nanCodes f v.v
  { ovf := c.ovf + v.ovf, nan := c.nan + b.1, first := if b.1 = 0 then c.first else some (c.first.getD (b.2, f.code)) }

/-- Count a scalar that an operation has formed: one production (R153, R195). -/
def IterCount.one (f : FSpec) (c : IterCount) (r : Res) : IterCount := c.vec f ⟨[r.bits], ovfCount r⟩

/-- A problem: the operator's rows (A, or its transpose for an adjoint solve), and the preconditioner. `moves` says that the
preconditioner is none, so that its result is a copy. -/
structure Krylov where
  f : FSpec
  n : Nat
  rows : List (List (Nat × FVal))
  pre : List Nat → SolveVec
  moves : Bool

/-- One element of a vector. -/
def Krylov.el (k : Krylov) (v : List Nat) (i : Nat) : FVal := k.f.decode (v.getD i 0)

/-- The operator applied to a vector: each element an exact sum, rounded once. -/
def Krylov.apply (k : Krylov) (v : List Nat) : SolveVec :=
  roundAll k.f (k.rows.map (fun r => xsum (r.map (fun e => e.2.mul (k.el v e.1)))))

/-- u + a·v, one fused rounding per element. -/
def Krylov.axpy (k : Krylov) (u : List Nat) (a : FVal) (v : List Nat) : SolveVec :=
  roundAll k.f ((List.range k.n).map (fun i => (k.el u i).add (a.mul (k.el v i))))

/-- A dot product: an exact sum rounded once. -/
def Krylov.dot (k : Krylov) (u v : List Nat) : Res :=
  k.f.ofVal (xsum ((List.range k.n).map (fun i => (k.el u i).mul (k.el v i))))

/-- The correctly rounded square root of the exact sum of squares. -/
def Krylov.norm (k : Krylov) (v : List Nat) : Res :=
  fp64.sqrt (xsum ((List.range k.n).map (fun i => (k.el v i).mul (k.el v i))))

/-- IEEE comparisons of the solver's tests: false with a NaN. -/
def FVal.gt (a b : FVal) : Bool := !a.isNan && !b.isNan && b.lt a

/-- Count vectors and scalars in FMT, the result of the preconditioner, and a norm. -/
def Krylov.cv (k : Krylov) (c : IterCount) (l : List SolveVec) : IterCount := l.foldl (IterCount.vec k.f) c
def Krylov.cs (k : Krylov) (c : IterCount) (l : List Res) : IterCount := l.foldl (IterCount.one k.f) c
def Krylov.cz (k : Krylov) (c : IterCount) (v : SolveVec) : IterCount := if k.moves then c else c.vec k.f v

/-- A solve under way: the vectors and scalars of R246, iterations completed, counts, and how it ended. -/
structure KState where
  x : List Nat
  r : List Nat
  p : List Nat
  z : List Nat
  rh : List Nat
  v : List Nat
  rz : FVal
  rho : FVal
  alpha : FVal
  omega : FVal
  it : Nat
  c : IterCount
  status : Status

/-- b − A·x, with its counts. -/
def Krylov.residual (k : Krylov) (c : IterCount) (b x : List Nat) : List Nat × IterCount :=
  let a := k.apply x
  let r := k.axpy b (FVal.ofInt (-1)) a.v
  (r.v, k.cv c [a, r])

/-- CG with `n` iterations left before the cap (R246). -/
def Krylov.cg (k : Krylov) (tol : FVal) (n : Nat) (s : KState) : KState :=
  let nr := k.norm s.r
  let s := { s with c := s.c.one fp64 nr }
  if !(fp64.decode nr.bits).gt tol then s
  else
    match n with
    | 0 => { s with status := .iterCap }
    | n + 1 =>
      let q := k.apply s.p
      let pq := k.dot s.p q.v
      let pqv := k.f.decode pq.bits
      let c := k.cs (k.cv s.c [q]) [pq]
      if pqv.le .zero || s.rz.isZero then { s with c := c, status := .breakdown }
      else
        let al := k.f.div s.rz pqv
        let a := k.f.decode al.bits
        let x := k.axpy s.x a s.p
        let r := k.axpy s.r a.neg q.v
        let z := k.pre r.v
        let rzn := k.dot r.v z.v
        let rz := k.f.decode rzn.bits
        let be := k.f.div rz s.rz
        let p := k.axpy z.v (k.f.decode be.bits) s.p
        k.cg tol n { s with x := x.v, r := r.v, z := z.v, p := p.v, rz := rz, it := s.it + 1,
                            c := k.cv (k.cs (k.cz (k.cv (k.cs c [al]) [x, r]) z) [rzn, be]) [p] }

/-- The search direction of a BiCGStab iteration, and the counts after forming it. -/
def Krylov.direction (k : Krylov) (c : IterCount) (s : KState) (rhon : FVal) : List Nat × IterCount :=
  if s.it = 0 then (s.r, c)
  else
    let d1 := k.f.div rhon s.rho
    let d2 := k.f.div s.alpha s.omega
    let be := k.f.ofVal ((k.f.decode d1.bits).mul (k.f.decode d2.bits))
    let p1 := k.axpy s.p s.omega.neg s.v
    let p2 := k.axpy s.r (k.f.decode be.bits) p1.v
    (p2.v, k.cv (k.cs c [d1, d2, be]) [p1, p2])

/-- BiCGStab with `n` iterations left before the cap (R246). -/
def Krylov.bicg (k : Krylov) (tol : FVal) (n : Nat) (s : KState) : KState :=
  let nr := k.norm s.r
  let s := { s with c := s.c.one fp64 nr }
  if !(fp64.decode nr.bits).gt tol then s
  else
    match n with
    | 0 => { s with status := .iterCap }
    | n + 1 =>
      let rho := k.dot s.rh s.r
      let rhon := k.f.decode rho.bits
      let c := k.cs s.c [rho]
      if rhon.isZero then { s with c := c, status := .breakdown }
      else
        let p := k.direction c s rhon
        let ph := k.pre p.1
        let v := k.apply ph.v
        let rv := k.dot s.rh v.v
        let rvv := k.f.decode rv.bits
        let c := k.cs (k.cv (k.cz p.2 ph) [v]) [rv]
        if rvv.isZero then { s with c := c, status := .breakdown }
        else
          let al := k.f.div rhon rvv
          let a := k.f.decode al.bits
          let sv := k.axpy s.r a.neg v.v
          let ns := k.norm sv.v
          let c := (k.cv (k.cs c [al]) [sv]).one fp64 ns
          if (fp64.decode ns.bits).le tol then
            let x := k.axpy s.x a ph.v
            { s with x := x.v, r := sv.v, it := s.it + 1, c := k.cv c [x] }
          else
            let sh := k.pre sv.v
            let t := k.apply sh.v
            let tt := k.dot t.v t.v
            let ttv := k.f.decode tt.bits
            let c := k.cs (k.cv (k.cz c sh) [t]) [tt]
            if ttv.isZero then { s with c := c, status := .breakdown }
            else
              let ts := k.dot t.v sv.v
              let om := k.f.div (k.f.decode ts.bits) ttv
              let w := k.f.decode om.bits
              let c := k.cs c [ts, om]
              if w.isZero then { s with c := c, status := .breakdown }
              else
                let x1 := k.axpy s.x a ph.v
                let x2 := k.axpy x1.v w sh.v
                let r := k.axpy sv.v w.neg t.v
                k.bicg tol n { s with x := x2.v, r := r.v, p := p.1, v := v.v, rho := rhon, alpha := a, omega := w,
                                      it := s.it + 1, c := k.cv c [x1, x2, r] }

/-! Preconditioners (R245, R247). -/

/-- Element (i, j) of A: the exact sum of its stored entries, rounded once. -/
def csrAt (f : FSpec) (es : List Stored) (i j : Nat) : Res :=
  let r := f.ofVal (xsum ((es.filter (fun e => e.row == i && e.col == j)).map (fun e => e.val)))
  ⟨f.noNegZero r.bits, r.ovf⟩

/-- The LU factors of the diagonal block that starts at row `lo`, with the roundings of its elements that overflowed; its factors are
those of A, applied transposed in an adjoint solve (DEDUCED, log 24). -/
def blockFactors (p : IterPar) (es : List Stored) (lo : Nat) : Fac × SolveVec :=
  let nb := min p.block (p.n - lo)
  let a := (List.range (nb * nb)).map (fun k => csrAt (fmtSpec p.fmt) es (lo + k / nb) (lo + k % nb))
  (factorMatrix 0 p.fmt nb (tauOf p.fmt 0) false (a.map (fun r => r.bits)), ⟨[], (a.filter (fun r => r.ovf)).length⟩)

/-- The preconditioner, or none for a zero diagonal or a zero pivot, and the counts of forming it. -/
def preconditioner (p : IterPar) (es : List Stored) : Option (List Nat → SolveVec) × IterCount :=
  let f := fmtSpec p.fmt
  match p.precond with
  | 0 => (some (fun v => ⟨v, 0⟩), .zero)
  | 1 =>
    let sums := (List.range p.n).map (fun i => csrAt f es i i)
    let diag := sums.map (fun r => f.decode r.bits)
    let c := IterCount.zero.vec f ⟨[], (sums.filter (fun r => r.ovf)).length⟩
    if diag.any FVal.isZero then (none, c)
    else (some (fun v =>
      let rs := (List.range p.n).map (fun i => f.div (f.decode (v.getD i 0)) (diag.getD i .zero))
      ⟨rs.map (fun r => f.noNegZero r.bits), (rs.filter (fun r => r.ovf)).length⟩), c)
  | _ =>
    let facs := (List.range (ceilDiv p.n p.block)).map (fun b => blockFactors p es (b * p.block))
    let c := facs.foldl (fun c s =>
      (c.vec f s.2).vec f ⟨s.1.f.filter (fun x => !isStatusNan p.fmt x), s.1.ovf⟩) IterCount.zero
    if facs.any (fun s => s.1.status != .ok) then (none, c)
    else (some (fun v =>
      let parts := facs.mapIdx (fun b s =>
        let view : FacView := { kind := 0, fmt := p.fmt, n := s.1.n, f := s.1.f, piv := s.1.piv }
        view.solve p.adjoint ⟨(List.range s.1.n).map (fun i => v.getD (b * p.block + i) 0), 0⟩)
      ⟨parts.flatMap (fun r => r.v), parts.foldl (fun acc r => acc + r.ovf) 0⟩), c)

/-! Warm starts (R250, R251). -/

/-- Header of a warm-start record. -/
def warmHeader (p : IterPar) (print step : Nat) : List Byte :=
  natLe 4 0x54524157 ++ natLe 4 p.n ++ natLe 8 print ++ natLe 1 (boolNat p.adjoint) ++ natLe 1 p.fmt ++ [0, 0] ++
    natLe 4 step ++ List.replicate 40 0

/-- Whether the record in WSIN matches the task. -/
def warmMatches (p : IterPar) (print : Nat) (h : List Byte) : Bool :=
  fieldAt h 0 4 == 0x54524157 && fieldAt h 4 4 == p.n && fieldAt h 8 8 == print && fieldAt h 0x10 1 == boolNat p.adjoint &&
    fieldAt h 0x11 1 == p.fmt

/-- The warm-start outcome (R248: 0 not offered, 1 used, 2 discarded) and x0. -/
def Mod.warmStart (m : Mod) (x : Node) (p : IterPar) (print : Nat) : Nat × List Nat :=
  let zero := List.replicate p.n 0
  if !p.warm then (0, zero)
  else
    let r := x.parEnt 0x25
    if warmMatches p print (m.entRead r 0 64) then
      (1, (List.range p.n).map (fun i => m.entCode { r with off := r.off + 64 } (fmtBits p.fmt) i))
    else (2, zero)

/-! The node. -/

/-- The solve from x0 to its end, the norm of b, and the counts of R183 and R195. -/
def iterRun (p : IterPar) (k : Krylov) (ok : Bool) (c : IterCount) (b x0 : List Nat) : KState × Nat :=
  let nb := k.norm b
  let pr := fp64.ofVal (p.rtol.mul (fp64.decode nb.bits))
  let tol := (fp64.decode pr.bits).max p.atol
  let r := k.residual ((c.one fp64 nb).one fp64 pr) b x0
  let s : KState := { x := x0, r := r.1, p := [], z := [], rh := r.1, v := [], rz := .zero, rho := .zero, alpha := .zero,
                      omega := .zero, it := 0, c := r.2, status := .ok }
  let s :=
    if !ok then { s with status := .breakdown, c := s.c.one fp64 (k.norm s.r) }
    else if p.method = 0 then
      let z := k.pre r.1
      let rz := k.dot r.1 z.v
      k.cg tol p.cap { s with z := z.v, p := z.v, rz := k.f.decode rz.bits, c := k.cs (k.cz s.c z) [rz] }
    else k.bicg tol p.cap s
  (s, nb.bits)

/-- The result record (R248). -/
def iterRecord (st : Status) (warm it rn tn bn print : Nat) : List Byte :=
  natLe 2 st.code ++ natLe 1 warm ++ [0] ++ natLe 4 it ++ natLe 8 rn ++ natLe 8 tn ++ natLe 8 bn ++ natLe 8 print ++
    List.replicate 24 0

/-- The number of the first stored entry: the first row pointer (R244 lets it be above 0). -/
def Mod.csrFirst (m : Mod) (x : Node) : Nat := (signed 32 (m.csrPtr x 0)).toNat

/-- Byte ranges that an ITER_SOLVE writes whole. -/
def iterOuts (m : Mod) (x : Node) : List (Nat × Nat × Nat) :=
  let p := x.iter
  let w := fmtBits p.fmt / 8
  [(0x24, 0, w * p.n), (0x27, 0, 64)] ++ (if p.valgrad then [(0x29, w * m.csrFirst x, w * (p.nnz - m.csrFirst x))] else []) ++
    (if (x.parReg 0x26).isSome then [(0x26, 0, 64 + w * p.n)] else [])

/-- ITER_SOLVE (R244 to R254). The vector engines form every vector, scalar and norm of R245, R246, R248 and R254, so each overflow and
each NaN element among them counts, and storing them is a move (R183, R195; log 24). The gradient of VREG element k is VGREG element k: the
entries before the first row pointer are not stored entries, and theirs stay as they are (R254). -/
def iterWork (e : Env) (g n : Nat) (m : Mod) (gr : Graph) (x : Node) : PartEnd :=
  let p := x.iter
  let f := fmtSpec p.fmt
  let w := fmtBits p.fmt
  let unit := x.partUnit 0
  let size := w / 8
  if m.csrBad x p then .fail .badOperation (engineDetail 0x03 x.ty) m
  else
    let es := m.csrEntries x p
    let lead := m.csrFirst x
    let fp := m.fingerprint x p
    let m := fp.1
    let print := fp.2
    let pre := preconditioner p es
    let rows := (List.range p.n).map (fun i =>
      if p.adjoint then (es.filter (fun s => s.col == i)).map (fun s => (s.row, s.val))
      else (es.filter (fun s => s.row == i)).map (fun s => (s.col, s.val)))
    let k : Krylov := { f := f, n := p.n, rows := rows, pre := pre.1.getD (fun v => ⟨v, 0⟩), moves := p.precond == 0 }
    let b := (List.range p.n).map (fun i => m.entCode (x.parEnt 0x23) w i)
    let x0 := m.warmStart x p print
    let run := iterRun p k pre.1.isSome pre.2 b x0.2
    let s := run.1
    let sol := s.x.map f.noNegZero
    let tr := k.residual s.c b sol
    let nt := k.norm tr.1
    let grads := if p.valgrad then
        roundAll f (es.map (fun t => ((k.el sol t.row).mul (m.entVal (x.parEnt 0x28) p.fmt t.col)).neg))
      else ⟨[], 0⟩
    let c := k.cv (tr.2.one fp64 nt) [grads]
    let m := m.setCodes (x.parEnt 0x24) w 0 sol
    let m := if p.valgrad then m.setCodes (x.parEnt 0x29) w lead grads.v else m
    let m := match x.parReg 0x26 with
      | some r => (m.entWrite r 0 (warmHeader p print gr.hdr.step.toNat)).setCodes { r with off := r.off + 64 } w 0 sol
      | none => m
    let m := m.entWrite (x.parEnt 0x27) 0 (iterRecord s.status x0.1 s.it (k.norm s.r).bits nt.bits run.2 print)
    let site := c.first.getD (0, p.fmt)
    let elem := site.1
    let m := m.engineNan e unit g n c.nan 0x03 site.2 0 elem ((x.parEnt 0x24).off + elem * size)
    let m := m.addNote g n .resultOverflow c.ovf 0
    let m := m.addNote g n .warmStartDiscarded (boolNat (x0.1 == 2)) 0
    if s.status = .ok then .done m
    else if p.capOk then .done (m.addNote g n s.status 1 0)
    else .fail s.status [] (m.healAll x (iterOuts m x))

def iterReads (_m : Mod) (_g : Graph) (x : Node) : Reads :=
  let p := x.iter
  let w := fmtBits p.fmt / 8
  [(x.parEnt 0x20, 0, 4 * (p.n + 1)), (x.parEnt 0x21, 0, 4 * p.nnz), (x.parEnt 0x22, 0, w * p.nnz), (x.parEnt 0x23, 0, w * p.n)] ++
    (if p.warm then [(x.parEnt 0x25, 0, 64 + w * p.n)] else []) ++ (if p.valgrad then [(x.parEnt 0x28, 0, w * p.n)] else [])

def execIterSolve (g n part : Nat) (err : EngErr) (s : State) : Host.Outcome State Fault Refusal :=
  runMod (fun e m => m.runPart e tyIter g n part err (jointReads n part iterReads) (jointOuts n part iterOuts)
    (jointWork n part (iterWork e g n))) s

end Sys2Proof.Machine
end

