-- ==== Sys2Proof/Machine/Update.lean ====
section
/-! DEFINITION. UPDATE nodes and the root unit (11_update_dies: R255 to R280). Log 25 gathers the choices of this file. -/

namespace Sys2Proof.Machine

/-! Parameters (R264). -/

structure UPar where
  tensor : Nat
  rows : Nat
  cols : Nat
  rule : Nat
  wfmt : Nat
  embed : Bool
  nesterov : Bool
  bias : Bool
  kleft : Bool
  kright : Bool
  square : Bool
  proot : Nat
  ntouch : Nat
  lr : FVal
  b1 : FVal
  b2 : FVal
  eps : FVal
  wd : FVal
  bp : FVal
  k : Nat
  delay : Nat
  pblock : Nat
  rootIters : Nat
  rootEps : Nat
  rootTol : Nat

def Node.upd (x : Node) : UPar :=
  let fl := x.par 0x12 2
  let f := fun o => fp32.decode (x.par o 4)
  { tensor := x.par 0 8, rows := x.par 8 4, cols := x.par 0xC 4, rule := x.par 0x10 1, wfmt := x.par 0x11 1,
    embed := bitAt fl 0, nesterov := bitAt fl 1, bias := bitAt fl 2, kleft := bitAt fl 3, kright := bitAt fl 4,
    square := bitAt fl 5, proot := x.par 0x14 1, ntouch := x.par 0x1C 4, lr := f 0x20, b1 := f 0x24, b2 := f 0x28,
    eps := f 0x2C, wd := f 0x30, bp := f 0x34, k := x.par 0x38 2, delay := if x.par 0x3A 2 = 0 then 1 else x.par 0x3A 2,
    pblock := x.par 0x3C 2, rootIters := if x.par 0x3E 2 = 0 then 40 else x.par 0x3E 2, rootEps := x.par 0x40 4,
    rootTol := if x.par 0x44 4 = 0 then 0x35800000 else x.par 0x44 4 }

def UPar.elems (p : UPar) : Nat := p.rows * p.cols
def UPar.adam (p : UPar) : Bool := p.rule == 1
def UPar.kron (p : UPar) : Bool := p.rule == 3

/-- A preconditioner block: first row, rows, first column, columns (R264). -/
structure PBlk where
  r0 : Nat
  rn : Nat
  c0 : Nat
  cn : Nat

/-- The blocks of a tensor, block rows first. -/
def pblocksOf (rows cols b : Nat) : List PBlk :=
  if b = 0 then [⟨0, rows, 0, cols⟩]
  else (List.range (ceilDiv rows b)).flatMap (fun i => (List.range (ceilDiv cols b)).map (fun j =>
    ⟨b * i, min b (rows - b * i), b * j, min b (cols - b * j)⟩))

def UPar.blocks (p : UPar) : List PBlk := pblocksOf p.rows p.cols p.pblock

/-- Sides of the statistics, block by block, left before right. -/
def UPar.sides (p : UPar) : List Nat :=
  if p.kron then p.blocks.flatMap (fun b => (if p.kleft then [b.rn] else []) ++ (if p.kright then [b.cn] else [])) else []

/-! The state region (R261, R262). -/

/-- Offsets of arrays of given sizes, each on a 64-byte boundary, from the end of the header. -/
def arrayOffs (o : Nat) (sizes : List Nat) : List Nat :=
  match sizes with
  | [] => []
  | s :: r => o :: arrayOffs (roundUp (o + s) 64) r

/-- Bytes of one journal entry. -/
def journalEntry (cols : Nat) : Nat := roundUp (4 + 12 * cols) 64

/-- Sizes of the arrays of a dense region: two banks, then two root slots. -/
def denseSizes (e : Nat) (adam : Bool) (sides : List Nat) : List Nat :=
  let stats := sides.map (fun b => 4 * b * b)
  let bank := [4 * e, 4 * e] ++ (if adam then [4 * e] else []) ++ stats
  bank ++ bank ++ stats ++ stats

/-- Sizes of the arrays of an embedding region: w, m, v, ROWSTEP, journal. -/
def embedSizes (rows cols jmax : Nat) (adam : Bool) : List Nat :=
  let e := 4 * rows * cols
  [e, e] ++ (if adam then [e] else []) ++ [4 * rows, jmax * journalEntry cols]

/-- Bytes that a state region needs. -/
def UPar.stateBytes (p : UPar) (jmax : Nat) : Nat :=
  let sizes := if p.embed then embedSizes p.rows p.cols jmax p.adam else denseSizes p.elems p.adam p.sides
  let offs := arrayOffs 64 sizes
  offs.getLastD 64 + sizes.getLastD 0

/-- The header. -/
structure UHead where
  current : Nat
  rootslot : Nat
  flags : Nat
  count : Nat
  laststep : Nat
  rootcount : Nat
  pendcount : Nat
  jmax : Nat
  jcount : Nat

def uhead (b : List Byte) : UHead :=
  { current := fieldAt b 5 1 % 2, rootslot := fieldAt b 6 1 % 2, flags := fieldAt b 7 1, count := fieldAt b 0x10 4,
    laststep := fieldAt b 0x14 4, rootcount := fieldAt b 0x18 4, pendcount := fieldAt b 0x1C 4, jmax := fieldAt b 0x20 4,
    jcount := fieldAt b 0x24 4 }

/-- The header bytes after a change; MAGIC, RULE, shape and TENSOR are kept. -/
def UHead.bytes (h : UHead) (old : List Byte) : List Byte :=
  slice old 0 5 ++ natLe 1 h.current ++ natLe 1 h.rootslot ++ natLe 1 h.flags ++ slice old 8 8 ++ natLe 4 h.count ++
    natLe 4 h.laststep ++ natLe 4 h.rootcount ++ natLe 4 h.pendcount ++ natLe 4 h.jmax ++ natLe 4 h.jcount ++ slice old 0x28 24

/-- A count that says "none". -/
def noCount : Nat := 0xFFFFFFFF

/-- An array of a region. -/
def RegEnt.sub (r : RegEnt) (o : Nat) : RegEnt := { r with off := r.off + o, len := r.len - o }

/-- Array `i` of bank `k` of a dense region: 0 w, 1 m, then v and the statistics. -/
def UPar.bankArr (p : UPar) (r : RegEnt) (k i : Nat) : RegEnt :=
  let per := 2 + boolNat p.adam + p.sides.length
  r.sub ((arrayOffs 64 (denseSizes p.elems p.adam p.sides)).getD (k * per + i) 0)

/-- Statistic `i` of bank `k`. -/
def UPar.statArr (p : UPar) (r : RegEnt) (k i : Nat) : RegEnt := p.bankArr r k (2 + boolNat p.adam + i)

/-- Root `i` of slot `k` of a KRON region. -/
def rootArr (e : Nat) (sides : List Nat) (r : RegEnt) (k i : Nat) : RegEnt :=
  r.sub ((arrayOffs 64 (denseSizes e false sides)).getD (2 * (2 + sides.length) + k * sides.length + i) 0)

/-- Array `i` of an embedding region: 0 w, 1 m, 2 v (ADAM), then ROWSTEP and the journal. -/
def UPar.embArr (p : UPar) (r : RegEnt) (jmax i : Nat) : RegEnt :=
  r.sub ((arrayOffs 64 (embedSizes p.rows p.cols jmax p.adam)).getD i 0)
def UPar.rowStep (p : UPar) (r : RegEnt) (jmax : Nat) : RegEnt := p.embArr r jmax (2 + boolNat p.adam)
def UPar.journal (p : UPar) (r : RegEnt) (jmax : Nat) : RegEnt := p.embArr r jmax (3 + boolNat p.adam)

/-! Arithmetic (R266, R267). -/

def v32 (r : Res) : FVal := fp32.decode r.bits

/-- b to the power n, every product rounded to FP64 (R267). -/
def pow64From (i : Nat) (b : FVal) (n : Nat) (r : FVal) : FVal :=
  match i with
  | 0 => r
  | i + 1 =>
    let r := fp64.decode (fp64.ofVal (r.mul r)).bits
    pow64From i b n (if bitAt n i then fp64.decode (fp64.ofVal (r.mul b)).bits else r)
def pow64 (b : FVal) (n : Nat) : FVal := pow64From 32 b n .one

/-- Constants of a task. -/
structure UConst where
  a1 : FVal
  a2 : FVal
  c1 : FVal
  c2 : FVal

def UPar.consts (p : UPar) (t : Nat) : UConst :=
  let r := fun v => v32 (fp32.ofVal v)
  { a1 := r (FVal.one.sub p.b1), a2 := r (FVal.one.sub p.b2),
    c1 := if p.bias then r (FVal.one.sub (pow64 p.b1 t)) else .one,
    c2 := if p.bias then r (FVal.one.sub (pow64 p.b2 t)) else .one }

/-- An element's state: codes of w, m and v, and the overflows met. -/
structure UElem where
  w : Nat
  m : Nat
  v : Nat
  ovf : Nat

/-- sign(x): 0 of zero, NaN of NaN. -/
def FVal.sgn (v : FVal) : FVal :=
  match v with
  | .nan => .nan
  | .inf s => .fin s 1 0
  | .fin s m _ => if m = 0 then .zero else .fin s 1 0

/-- One element under its rule (R266). For KRON, `g` is the preconditioned gradient. -/
def UPar.elem (p : UPar) (c : UConst) (g : FVal) (x : UElem) : UElem :=
  let w := fp32.decode x.w
  let m := fp32.decode x.m
  let v := fp32.decode x.v
  let r := fp32.ofVal
  let fin := fun (mr vr sr : Res) (extra : List Res) =>
    let wr := r (w.sub (p.lr.mul ((v32 sr).add (p.wd.mul w))))
    { w := fp32.noNegZero wr.bits, m := fp32.noNegZero mr.bits, v := fp32.noNegZero vr.bits,
      ovf := x.ovf + ((mr :: wr :: extra).filter (fun y => y.ovf)).length }
  let keepV : Res := ⟨x.v, false⟩
  match p.rule with
  | 0 =>
    let mr := r ((p.b1.mul m).add g)
    if p.nesterov then
      let sr := r (g.add (p.b1.mul (v32 mr)))
      fin mr keepV sr [sr]
    else fin mr keepV mr []
  | 1 =>
    let mr := r ((p.b1.mul m).add (c.a1.mul g))
    let vr := r ((p.b2.mul v).add ((c.a2.mul g).mul g))
    let d1 := fp32.div (v32 mr) c.c1
    let d2 := fp32.div (v32 vr) c.c2
    let d3 := fp32.sqrt (v32 d2)
    let d4 := r ((v32 d3).add p.eps)
    let d := fp32.div (v32 d1) (v32 d4)
    fin mr vr d [vr, d1, d2, d4, d]
  | 2 =>
    let u := ((p.b1.mul m).add (c.a1.mul g)).sgn
    let mr := r ((p.b2.mul m).add (c.a2.mul g))
    fin mr keepV (r u) []
  | _ =>
    let mr := r ((p.b1.mul m).add (c.a1.mul g))
    fin mr keepV mr []

/-! Freeze maps (R208, R274). -/

/-- Whether element (r, c) is frozen: block rows run along ROWS (log 25). -/
def Mod.frozen (m : Mod) (x : Node) (r c : Nat) : Bool :=
  match x.parReg 0x18 with
  | none => false
  | some fm =>
    let nb := leNat (m.entRead fm 0xA 2)
    bitAt (leNat (m.entRead fm (16 + 8 * (r / 64 * nb + c / 64)) 8)) (r % 64)

/-- Frozen flags of the whole tensor, row-major. -/
def Mod.frozenMap (m : Mod) (x : Node) (p : UPar) : List Bool :=
  (List.range p.elems).map (fun i => m.frozen x (i / p.cols) (i % p.cols))

/-! KRON (R268). -/

/-- A matrix product element: an exact inner product rounded once to FP32. -/
def dot32 (n : Nat) (a b : Nat → FVal) : Res := fp32.ofVal (xsum ((List.range n).map (fun k => (a k).mul (b k))))

/-- New statistics of a block: codes of the left and of the right one. `old` reads the old statistics, `g` the block's gradient. -/
def kronStats (p : UPar) (b : PBlk) (oldL oldR : Nat → FVal) (g : Nat → Nat → FVal) : List (List Res) :=
  let one := FVal.one.sub p.bp
  let mk := fun (n len : Nat) (old : Nat → FVal) (a : Nat → Nat → FVal) =>
    (List.range (n * n)).map (fun k =>
      let s := xsum ((List.range len).map (fun l => (a (k / n) l).mul (a (k % n) l)))
      fp32.ofVal ((p.bp.mul (old k)).add (one.mul s)))
  (if p.kleft then [mk b.rn b.cn oldL g] else []) ++ (if p.kright then [mk b.cn b.rn oldR (fun i l => g l i)] else [])

/-- The preconditioned gradient of a block, and the overflows met. -/
def kronApply (p : UPar) (b : PBlk) (left right : Nat → Nat → FVal) (g : Nat → Nat → FVal) : List FVal × Nat :=
  let idx := List.range (b.rn * b.cn)
  let h := if p.kleft then idx.map (fun k => dot32 b.rn (fun i => left (k / b.cn) i) (fun i => g i (k % b.cn))) else []
  let hv := fun i j => if p.kleft then fp32.decode ((h.getD (i * b.cn + j) ⟨0, false⟩).bits) else g i j
  let q := if p.kright then idx.map (fun k => dot32 b.cn (fun j => hv (k / b.cn) j) (fun j => right j (k % b.cn))) else []
  (idx.map (fun k => if p.kright then v32 (q.getD k ⟨0, false⟩) else hv (k / b.cn) (k % b.cn)),
    ((h ++ q).filter (fun y => y.ovf)).length)

/-! Roots (R269 to R271). -/

/-- Products of square FP64 matrices, codes row-major. -/
def mm64 (n : Nat) (a b : List FVal) : List FVal :=
  (List.range (n * n)).map (fun k =>
    fp64.decode (fp64.ofVal (xsum ((List.range n).map (fun l =>
      (a.getD (k / n * n + l) .zero).mul (b.getD (l * n + k % n) .zero))))).bits)

def r64 (v : FVal) : FVal := fp64.decode (fp64.ofVal v).bits

/-- maxabs(M − I). -/
def offIdentity (n : Nat) (m : List FVal) : FVal :=
  maxAbs (m.mapIdx (fun k x => if k / n = k % n then r64 (x.sub .one) else x))

/-- The root iteration with `k` iterations left. -/
def rootIter (k n p : Nat) (tol : FVal) (x m : List FVal) : List FVal × List FVal :=
  match k with
  | 0 => (x, m)
  | k + 1 =>
    if !(offIdentity n m).gt tol then (x, m)
    else
      let t := m.mapIdx (fun i y =>
        r64 ((r64 ((if i / n = i % n then FVal.ofNat (p + 1) else .zero).sub y)).scale (-(Nat.log2 p : Int))))
      let x := mm64 n x t
      let pw := if p = 1 then t else if p = 2 then mm64 n t t else (let q := mm64 n t t; mm64 n q q)
      rootIter k n p tol x (mm64 n pw m)

/-- The inverse p-th root of a statistic: FP32 codes, whether it may be adopted, the final maxabs(M − I). -/
def rootOf (p iters : Nat) (eps tol : BitVec 32) (n : Nat) (s : List (BitVec 32)) : List (BitVec 32) × Bool × BitVec 64 :=
  let sv := s.map (fun c => fp32.decode c.toNat)
  let e := fp32.decode eps.toNat
  let t := fp32.decode tol.toNat
  let a := sv.mapIdx (fun k v => if k / n = k % n then r64 (v.add e) else v)
  let norm := fp64.decode (fp64.sqrt (xsum (a.map (fun v => v.mul v)))).bits
  let z := fp64.decode (fp64.div (FVal.ofNat (1 + p)) (norm.scale 1)).bits
  let sq := fun (v : FVal) => fp64.decode (fp64.sqrt v).bits
  let zr := if p = 1 then z else if p = 2 then sq z else sq (sq z)
  let x := (List.range (n * n)).map (fun k => if k / n = k % n then zr else FVal.zero)
  let r := rootIter iters n p t x (a.map (fun v => r64 (z.mul v)))
  let res := offIdentity n r.2
  let codes := r.1.map (fun v => BitVec.ofNat 32 (fp32.noNegZero (fp32.ofVal v).bits))
  let ok := res.le t && sv.all FVal.isFin && codes.all (fun c => fp32.isFin c.toNat)
  (codes, ok, BitVec.ofNat 64 (fp64.ofVal res).bits)

/-- The roots of a job. -/
def RootJob.compute (j : RootJob) : RootJob :=
  { j with roots := some (j.sides.zipWith (fun n s => rootOf j.proot j.iters j.eps j.tol n s) j.stats) }

def RootJob.isFor (j : RootJob) (r : RegEnt) : Bool := j.handle == r.handle && j.off == r.off

/-- The job of a state region on an update die. -/
def Mod.rootJob (m : Mod) (u : Nat) (r : RegEnt) : Option RootJob := (vget m.udies u UDie.cold).jobs.find? (fun j => j.isFor r)

def Mod.updUDie (m : Mod) (u : Nat) (f : UDie → UDie) : Mod := { m with udies := vmodN m.udies u f }

/-- Remove the job of a region. -/
def Mod.dropRoot (m : Mod) (u : Nat) (r : RegEnt) : Mod :=
  m.updUDie u (fun d => { d with jobs := d.jobs.filter (fun j => !j.isFor r) })

/-- The first root of a finished job that may not be adopted: its index and final maxabs(M − I). -/
def RootJob.failed (j : RootJob) : Option (Nat × BitVec 64) :=
  match j.roots with
  | none => none
  | some l => (l.findIdx? (fun r => !r.2.1)).map (fun i => (i, (l.getD i ([], true, 0)).2.2))

/-! Working copy (R276 to R279). -/

def mix64 (z : Word) : Word :=
  let z := (z ^^^ (z >>> 30)) * 0xBF58476D1CE4E5B9#64
  let z := (z ^^^ (z >>> 27)) * 0x94D049BB133111EB#64
  z ^^^ (z >>> 31)

/-- The 32 random bits of an element (R277). -/
def draw (seed : Word) (step : BitVec 32) (tensor index : Nat) : Nat :=
  let z := mix64 (seed + 0x9E3779B97F4A7C15#64)
  let z := mix64 (z ^^^ BitVec.ofNat 64 tensor)
  let z := mix64 (z ^^^ step.setWidth 64)
  (mix64 (z ^^^ BitVec.ofNat 64 index)).toNat / 2 ^ 32

/-- Stochastic rounding of ±(a/b)·2^k, and whether it saturated (R278). -/
def FSpec.stoch (f : FSpec) (a b : FVal) (k : Int) (d : Nat) : Nat × Bool :=
  match a, b with
  | .fin s m e, .fin _ n x =>
    if m = 0 || n = 0 then (0, false)
    else
      let mx := f.maxFin
      if ((FVal.fin false mx.1 mx.2).mul (.fin false n x)).lt (.fin false m (e + k)) then (f.maxBits s, true)
      else
        let lg := quotLog2 (.fin false m (e + k)) (.fin false n x)
        let q := max lg f.emin - f.fbits
        let sh := e + k - x + 32 - q
        let big := if 0 ≤ sh then m * 2 ^ sh.toNat / n else m / (n * 2 ^ (-sh).toNat)
        (f.pack s (big / 2 ^ 32 + (if d < big % 2 ^ 32 then 1 else 0)) q, false)
  | _, _ => (0, false)

/-- One element of a working copy with tensor scale `t` and block exponent `s`. -/
def wcElem (fmt : Nat) (t : FVal) (s : Int) (i d : Nat) (v : FVal) (c : CvtCount) : Nat × CvtCount :=
  let f := fmtSpec fmt
  let c := c.input v
  match v with
  | .nan => (f.canonNan, c.nan i 1)
  | .inf sg => if f.inf then (f.infBits sg, c) else (f.canonNan, c.nan i 1)
  | v =>
    let r := f.stoch v t (-s) d
    let code := f.noNegZero r.1
    (code, { c with sat := c.sat + boolNat r.2, flush := c.flush + (if v.nonzero && code = 0 then 1 else 0) })

/-- The state of writing a working copy: memory, counts, elements converted. -/
structure WCopy where
  m : Mod
  c : CvtCount
  elems : Nat

/-- Bytes of the element stream; the scale stream of an MX copy follows on the next 64-byte boundary of WREG (DESIGN CHOICE,
log 25: R264 names no place for it). -/
def wcScaleOff (p : UPar) : Nat := roundUp (ceilDiv (p.elems * fmtBits p.wfmt) 8) 64

/-- Bytes that WREG needs. -/
def wcBytes (p : UPar) : Nat :=
  if isMx p.wfmt then wcScaleOff p + p.rows * ceilDiv p.cols 32 else ceilDiv (p.elems * fmtBits p.wfmt) 8

/-- Write the working copy of the rows `touched` from master codes `w` (row-major), leaving frozen elements, or all-frozen
blocks of an MX copy, alone. -/
def Mod.workingCopy (m : Mod) (x : Node) (p : UPar) (seed : Word) (step : BitVec 32) (t : FVal) (frozen : List Bool)
    (touched : Nat → Bool) (w : Nat → Nat) : WCopy :=
  let dst := x.parEnt 0x17
  let bitsN := fmtBits p.wfmt
  let d := fun i => draw seed step p.tensor i
  let val := fun i => fp32.decode (w i)
  let fz := fun i => frozen.getD i false
  if isMx p.wfmt then
    let cv : Cvt := { rows := p.rows, cols := p.cols, sfmt := 1, tfmt := p.wfmt, square := p.square, bdim := false }
    let scales := dst.sub (wcScaleOff p)
    (cv.groups 0 p.rows).foldl (fun acc g =>
      let at_ := fun (e : Nat × Nat) => e.1 * p.cols + e.2
      let live := fun (r : Nat) => touched r && g.any (fun e => e.1 == r && !fz (at_ e))
      let els := g.filter (fun e => live e.1)
      if els.isEmpty then acc
      else
        let vals := g.map (fun e => val (at_ e))
        let bad := noSpecials p.wfmt && vals.any (fun v => !v.isFin)
        let s := blockExp p.wfmt t vals
        let code := if bad then 0xFF else (s + 127).toNat
        let r := els.foldl (fun (a : Mod × CvtCount) e =>
          let i := at_ e
          let y := if bad then (0, (a.2.input (val i)).nan i 1) else wcElem p.wfmt t s i (d i) (val i) a.2
          (a.1.setCode dst bitsN i y.1, y.2)) (acc.m, acc.c)
        let m := els.foldl (fun m e => m.setCode scales 8 (cv.scaleIdx e.1 e.2) code) r.1
        { m := m, c := r.2, elems := acc.elems + els.length }) { m := m, c := CvtCount.zero, elems := 0 }
  else
    (List.range p.elems).foldl (fun acc i =>
      if !touched (i / p.cols) || fz i then acc
      else
        let v := val i
        let r := if p.wfmt = 1 then (fp32.noNegZero (if v.isNan then fp32.canonNan else w i), acc.c)
                 else wcElem p.wfmt .one 0 i (d i) v acc.c
        { m := acc.m.setCode dst bitsN i r.1, c := r.2, elems := acc.elems + 1 }) { m := m, c := CvtCount.zero, elems := 0 }

/-! The node. -/

/-- NaNs among new codes at computed places: how many, and the first place. -/
def nanPlaces (l : List (Nat × Nat)) : Nat × Nat :=
  let bad := l.filter (fun x => fp32.isNan x.2)
  (bad.length, (bad.map (fun x => x.1)).headD 0)

/-- Account for the NaNs that an update wrote into an array. -/
def Mod.updNan (e : Env) (m : Mod) (unit g n : Nat) (arr : RegEnt) (l : List (Nat × Nat)) : Mod :=
  let b := nanPlaces l
  m.engineNan e unit g n b.1 0x07 1 0 b.2 (arr.off + 4 * b.2)

/-- What ends an UPDATE before any element moves (R189, R191, R223). -/
def Mod.updFault (m : Mod) (x : Node) (p : UPar) : Bool :=
  (isMx p.wfmt && !scaleRecOk (m.entRead (x.parEnt 0x19) 0 128)) ||
    (match x.parReg 0x1A with | some r => !watchOk (m.entRead r 0 64) | none => false) ||
    (isMx p.wfmt && p.square && (p.rows % 32 != 0 || p.cols % 32 != 0))

/-- The tensor scale in force for the working copy. -/
def Mod.updScale (m : Mod) (x : Node) (p : UPar) : FVal :=
  if isMx p.wfmt then fp32.decode (fieldAt (m.entRead (x.parEnt 0x19) 8 4) 0 4) else .one

/-- Largest finite gradient magnitude, as an FP32 code (R224). -/
def gradMax (l : List Nat) : Nat :=
  (l.filter fp32.isFin).foldl (fun acc c => max acc (c % 2 ^ 31)) 0

/-- Write the working copy and keep the counts for the node's completion: flushes, saturations, special inputs, amax of the
masters, elements, amax of the gradient. BF16 saturations are a note of the task (R278; log 12). -/
def Mod.writeBack (e : Env) (m : Mod) (unit g n : Nat) (gr : Graph) (x : Node) (p : UPar) (frozen : List Bool) (touched : Nat → Bool)
    (w : Nat → Nat) (amaxG : Nat) : Mod :=
  let r := m.workingCopy x p gr.hdr.seed gr.hdr.step (m.updScale x p) frozen touched w
  let amax := match r.c.amax with | .fin _ k y => fp32.roundPos k y false | _ => 0
  let m := r.m.updRun g n (fun y =>
    { y with committed := true, counts := [r.c.flush, r.c.sat, r.c.special, amax, r.elems, amaxG] })
  let m := if isMx p.wfmt then m else m.addFlagNote g n 5 r.c.sat 0
  let i := r.c.first.getD 0
  let dst := x.parEnt 0x17
  m.engineNan e unit g n r.c.nans 0x07 p.wfmt 0 i (dst.off + i * fmtBits p.wfmt / 8)

/-- Copy a valid journal into its rows and clear JVALID (R263). ROWSTEP of each row becomes LASTSTEP. -/
def Mod.copyJournal (m : Mod) (p : UPar) (r : RegEnt) : Mod :=
  let old := m.entRead r 0 64
  let h := uhead old
  if !bitAt h.flags 1 then m
  else
    let j := p.journal r h.jmax
    let size := journalEntry p.cols
    let m := (List.range h.jcount).foldl (fun m k =>
      let row := leNat (m.entRead j (k * size) 4)
      let put := fun (m : Mod) (i : Nat) =>
        m.entWrite (p.embArr r h.jmax i) (4 * row * p.cols) (m.entRead j (k * size + 4 + 4 * p.cols * i) (4 * p.cols))
      let m := put (put m 0) 1
      let m := if p.adam then put m 2 else m
      m.entWrite (p.rowStep r h.jmax) (4 * row) (natLe 4 h.laststep)) m
    m.entWrite r 0 (({ h with flags := h.flags % 2 }).bytes old)

/-- The shape of a region as its own header gives it: the fields that place the journal. -/
def shapeOf (b : List Byte) (p : UPar) : UPar :=
  { p with rule := fieldAt b 4 1, rows := fieldAt b 8 4, cols := fieldAt b 0xC 4, embed := bitAt (fieldAt b 7 1) 0 }

/-- A journal left valid in the state region that begins at `o` of an allocated region is copied into the rows, where an entry shares bytes with
it. A state region is known by the MAGIC of its header, EMBED, and room for its arrays. -/
def Mod.settleAt (m : Mod) (x : Node) (e : RegEnt) (len o : Nat) : Mod :=
  let r : RegEnt := ⟨e.handle, 2#8, o, len - o⟩
  let b := m.entRead r 0 64
  let p := shapeOf b x.upd
  let size := p.stateBytes (uhead b).jmax
  if fieldAt b 0 4 == 0x53445055 && p.embed && decide (o + size ≤ len) && rangeMeets (o, size) (e.off, e.len) then m.copyJournal p r else m

/-- Before a COPY uses a slow-tier region: a journal left valid in a state region that its entry meets is copied into the rows (R263). State
regions are those that an UPDATE has kept in the region, and one at the region's start or at the place that the entry names. -/
def Mod.settleState (m : Mod) (x : Node) (r : RegEnt) : Mod :=
  match m.region r.handle with
  | some g =>
    if g.cls = .slow then (g.states.filter (fun o => o != 0 && o != r.off) ++ (if r.off = 0 then [0] else [0, r.off])).foldl
      (fun m o => m.settleAt x r g.len o) m
    else m
  | none => m

/-- An UPDATE keeps a state region at an entry (R263). -/
def Mod.keepState (m : Mod) (r : RegEnt) : Mod :=
  m.updRegion r.handle (fun g => if g.states.contains r.off then g else { g with states := g.states ++ [r.off] })

/-- Whether the UPDATE must adopt the pending roots (R270). -/
def adopts (p : UPar) (h : UHead) : Bool :=
  p.kron && h.pendcount != noCount && (h.count + 1) % 2 ^ 32 == (h.pendcount + p.delay) % 2 ^ 32

/-- A dense UPDATE (R263, R266 to R271, R274). -/
def Mod.denseUpdate (e : Env) (m : Mod) (unit g n : Nat) (gr : Graph) (x : Node) (p : UPar) (frozen : List Bool) : Mod :=
  let r := x.parEnt 0x15
  let old := m.entRead r 0 64
  let h := uhead old
  let u := unit - 12
  let t := (h.count + 1) % 2 ^ 32
  let cur := h.current
  let nxt := 1 - cur
  let c := p.consts t
  let fz := fun i => frozen.getD i false
  let code := fun (a : RegEnt) i => m.entCode a 32 i
  let grad := (List.range p.elems).map (fun i => if fz i then 0 else code (x.parEnt 0x16) i)
  let gv := fun r c => fp32.decode (grad.getD (r * p.cols + c) 0)
  let job := m.rootJob u r
  let adopt := adopts p h
  let failed : Option (Nat × BitVec 64) :=
    match job with
    | some j => j.failed
    | none => some (0, 0)
  let good := adopt && failed.isNone
  let slot := if good then 1 - h.rootslot else h.rootslot
  let rootcount := if good then h.pendcount else h.rootcount
  let per := boolNat p.kleft + boolNat p.kright
  let kron := p.blocks.mapIdx (fun b blk =>
    let g := fun i j => gv (blk.r0 + i) (blk.c0 + j)
    let il := b * per
    let ir := b * per + boolNat p.kleft
    let stats := kronStats p blk (fun k => fp32.decode (code (p.statArr r cur il) k))
      (fun k => fp32.decode (code (p.statArr r cur ir) k)) g
    let rootv := fun (i side a c : Nat) => fp32.decode (code (rootArr p.elems p.sides r slot i) (a * side + c))
    let app := if rootcount = noCount then ((List.range (blk.rn * blk.cn)).map (fun k => g (k / blk.cn) (k % blk.cn)), 0)
               else kronApply p blk (rootv il blk.rn) (rootv ir blk.cn) g
    (stats, app))
  let pg := fun r c =>
    if p.kron then
      let side := fun k => if p.pblock = 0 then 0 else k / p.pblock
      let wide := if p.pblock = 0 then 1 else ceilDiv p.cols p.pblock
      let b := side r * wide + side c
      let blk := p.blocks.getD b ⟨0, 0, 0, 1⟩
      (((kron.getD b ([], ([], 0))).2.1).getD ((r - blk.r0) * blk.cn + (c - blk.c0)) .zero)
    else gv r c
  let el := fun i =>
    let o : UElem := { w := code (p.bankArr r cur 0) i, m := code (p.bankArr r cur 1) i,
                       v := if p.adam then code (p.bankArr r cur 2) i else 0, ovf := 0 }
    if fz i then o else p.elem c (pg (i / p.cols) (i % p.cols)) o
  let new := (List.range p.elems).map el
  let stats := if p.kron then kron.flatMap (fun k => k.1) else []
  let ovf := new.foldl (fun acc y => acc + y.ovf) 0 + stats.foldl (fun acc l => acc + (l.filter (fun y => y.ovf)).length) 0 +
    (if p.kron then kron.foldl (fun acc k => acc + k.2.2) 0 else 0)
  let m := m.setCodes (p.bankArr r nxt 0) 32 0 (new.map (fun y => y.w))
  let m := m.setCodes (p.bankArr r nxt 1) 32 0 (new.map (fun y => y.m))
  let m := if p.adam then m.setCodes (p.bankArr r nxt 2) 32 0 (new.map (fun y => y.v)) else m
  let statCodes := stats.map (fun l => l.map (fun y => fp32.noNegZero y.bits))
  let m := (statCodes.mapIdx (fun i l => (i, l))).foldl (fun m s => m.setCodes (p.statArr r nxt s.1) 32 0 s.2) m
  let live := (List.range p.elems).filter (fun i => !fz i)
  let at_ := fun (f : UElem → Nat) => live.map (fun i => (i, f (new.getD i ⟨0, 0, 0, 0⟩)))
  let m := m.updNan e unit g n (p.bankArr r nxt 0) (at_ (fun y => y.w))
  let m := m.updNan e unit g n (p.bankArr r nxt 1) (at_ (fun y => y.m))
  let m := if p.adam then m.updNan e unit g n (p.bankArr r nxt 2) (at_ (fun y => y.v)) else m
  let m := (statCodes.mapIdx (fun i l => (i, l))).foldl (fun m s =>
    m.updNan e unit g n (p.statArr r nxt s.1) (s.2.mapIdx (fun k y => (k, y)))) m
  let pend := if adopt then noCount else h.pendcount
  let snap := p.kron && pend == noCount && t % p.k == 0
  let h' : UHead := { h with current := nxt, rootslot := slot, count := t, laststep := gr.hdr.step.toNat, rootcount := rootcount,
                             pendcount := if snap then t else pend }
  let m := m.entWrite r 0 (h'.bytes old)
  let m := if adopt then m.dropRoot u r else m
  let m := if snap then
      (m.dropRoot u r).updUDie u (fun d => { d with jobs := d.jobs ++
        [{ handle := r.handle, off := r.off, proot := p.proot, eps := BitVec.ofNat 32 p.rootEps, tol := BitVec.ofNat 32 p.rootTol,
           iters := p.rootIters, sides := p.sides, task := (g, n, (gr.runOf n).take), stats := statCodes.map (fun l => l.map (BitVec.ofNat 32)), roots := none }] })
    else m
  let m := match adopt, failed with
    | true, some f => m.updRun g n (fun y => { y with notes := Sys2Proof.Machine.addNote y.notes .rootUnconverged 1 (f.1 / max 1 per) f.2.toNat })
    | _, _ => m
  let m := m.addNote g n .resultOverflow ovf 0
  m.writeBack e unit g n gr x p frozen (fun _ => true) (fun i => (new.getD i ⟨0, 0, 0, 0⟩).w)
    (gradMax ((List.range p.elems).filterMap (fun i => if fz i then none else some (grad.getD i 0))))

/-- The exact product of a power and an FP32 value, rounded once (R273). It counts as overflowed when the power or the product does
and the value is finite and not zero (R183). -/
def powMul (b : FVal) (d c : Nat) : Res :=
  let q := pow64 b d
  let v := fp32.decode c
  let r := fp32.ofVal (q.mul v)
  ⟨r.bits, r.ovf || (!q.isFin && b.isFin && v.nonzero)⟩

/-- Catch up the steps that a row skipped (R273), counting the results that overflow (R183). -/
def UPar.catchUp (p : UPar) (d : Nat) (x : UElem) : UElem :=
  if d = 0 then x
  else
    let q := fun (b : FVal) (c : Nat) => powMul b d c
    let mr := q (if p.rule = 2 then p.b2 else p.b1) x.m
    let vr := if p.adam then q p.b2 x.v else ⟨x.v, false⟩
    let wr := q (r64 (FVal.one.sub (p.lr.mul p.wd))) x.w
    { w := fp32.noNegZero wr.bits, m := fp32.noNegZero mr.bits, v := fp32.noNegZero vr.bits,
      ovf := x.ovf + ((mr :: wr :: [vr]).filter (fun y => y.ovf)).length }

/-- An embedding UPDATE (R263, R272 to R274). -/
def Mod.embedUpdate (e : Env) (m : Mod) (unit g n : Nat) (gr : Graph) (x : Node) (p : UPar) (frozen : List Bool) : PartEnd :=
  let r := x.parEnt 0x15
  let old := m.entRead r 0 64
  let h := uhead old
  let t := (h.count + 1) % 2 ^ 32
  let step := gr.hdr.step.toNat
  let list := (List.range p.ntouch).map (fun i => m.entCode (x.parEnt 0x1B) 32 i)
  let rows := list.foldr insertNat []
  let head : UHead := { h with count := t, laststep := step }
  if list.any (fun i => decide (p.rows ≤ i)) || decide (h.jmax < rows.length) then .fail .badOperation [] m
  else if rows.isEmpty then .done ((m.entWrite r 0 (head.bytes old)).updRun g n (fun y => { y with committed := true }))
  else
    let c := p.consts t
    let fz := fun i => frozen.getD i false
    let code := fun (i k : Nat) => m.entCode (p.embArr r h.jmax i) 32 k
    let live := rows.filter (fun row => (List.range p.cols).any (fun k => !fz (row * p.cols + k)))
    let grads := fun row k =>
      ((List.range p.ntouch).filter (fun i => list.getD i 0 == row)).map (fun i => m.entCode (x.parEnt 0x16) 32 (i * p.cols + k))
    let new := live.map (fun row =>
      let d := (step + 2 * 2 ^ 32 - m.entCode (p.rowStep r h.jmax) 32 row - 1) % 2 ^ 32
      (List.range p.cols).map (fun k =>
        let i := row * p.cols + k
        let o : UElem := { w := code 0 i, m := code 1 i, v := if p.adam then code 2 i else 0, ovf := 0 }
        if fz i then o
        else
          let gs := (grads row k).map fp32.decode
          let gr := if gs.length = 1 then (⟨(grads row k).headD 0, false⟩ : Res) else fp32.ofVal (xsum gs)
          p.elem c (v32 gr) (p.catchUp d { o with ovf := ovfCount gr })))
    let j := p.journal r h.jmax
    let size := journalEntry p.cols
    let m := ((live.zip new).mapIdx (fun i y => (i, y))).foldl (fun m y =>
      let bytes := natLe 4 y.2.1 ++ y.2.2.flatMap (fun z => natLe 4 z.w) ++ y.2.2.flatMap (fun z => natLe 4 z.m) ++
        (if p.adam then y.2.2.flatMap (fun z => natLe 4 z.v) else [])
      m.entWrite j (y.1 * size) bytes) m
    let m := m.entWrite r 0 (({ head with flags := h.flags % 2 + 2, jcount := live.length }).bytes old)
    let m := m.copyJournal p r
    let places := fun (f : UElem → Nat) => (live.zip new).flatMap (fun y =>
      (y.2.mapIdx (fun k z => (y.1 * p.cols + k, f z))).filter (fun z => !fz z.1))
    let m := m.updNan e unit g n (p.embArr r h.jmax 0) (places (fun z => z.w))
    let m := m.updNan e unit g n (p.embArr r h.jmax 1) (places (fun z => z.m))
    let m := if p.adam then m.updNan e unit g n (p.embArr r h.jmax 2) (places (fun z => z.v)) else m
    let m := m.addNote g n .resultOverflow (new.foldl (fun acc l => l.foldl (fun a z => a + z.ovf) acc) 0) 0
    let used := rows.flatMap (fun row => (List.range p.cols).flatMap (fun k => if fz (row * p.cols + k) then [] else grads row k))
    let w := m.entCode (p.embArr r h.jmax 0) 32
    .done (m.writeBack e unit g n gr x p frozen (fun row => rows.contains row) w (gradMax used))

/-- Whether a KRON update waits for the pending roots (R270). A region whose header says roots are pending, and for which the root
unit has no snapshot, does not wait: the roots count as unconverged (DESIGN CHOICE, log 25). -/
def Mod.updWaits (m : Mod) (x : Node) : Bool :=
  let p := x.upd
  let r := x.parEnt 0x15
  p.kron && adopts p (uhead (m.entRead r 0 64)) && !(m.frozenMap x p).all id &&
    (match m.rootJob x.udie r with | some j => j.roots.isNone | none => false)

/-- UPDATE (R265 to R280). A wholly frozen tensor completes at once (R275); one that must adopt pending roots waits for them, with a run count of 1
and nothing committed (R270). -/
def updateWork (e : Env) (g n : Nat) (m : Mod) (gr : Graph) (x : Node) : PartEnd :=
  let p := x.upd
  let unit := x.partUnit 0
  let m := (if p.embed then m.copyJournal p (x.parEnt 0x15) else m).keepState (x.parEnt 0x15)
  let frozen := m.frozenMap x p
  let nf := (frozen.filter id).length
  if nf = p.elems then .done (m.addNote g n .frozenSkipped nf 0)
  else if m.updFault x p then .fail .badOperation [] m
  else if p.embed then
    match m.embedUpdate e unit g n gr x p frozen with
    | .done m => .done (if p.ntouch = 0 then m else m.addNote g n .frozenSkipped nf 0)
    | y => y
  else if m.updWaits x then .wait (m.updRun g n (fun r => { r with counts := [1] }))
  else .done ((m.denseUpdate e unit g n gr x p frozen).addNote g n .frozenSkipped nf 0)

/-- The byte ranges of the elements, of 4 bytes each, that a list of flags selects; neighbours are merged. -/
def elemRuns (i : Nat) (l : List Bool) : List (Nat × Nat) :=
  match l with
  | [] => []
  | b :: r =>
    let rest := elemRuns (i + 1) r
    if !b then rest
    else
      match rest with
      | (o, n) :: t => if o = 4 * (i + 1) then (4 * i, n + 4) :: t else (4 * i, 4) :: rest
      | [] => [(4 * i, 4)]

/-- Bytes an UPDATE reads from HBM: the freeze map, the scale and watch records, the touched-row list, and the gradient of the elements that
are not frozen (R191, R223, R274). -/
def updateReads (m : Mod) (_g : Graph) (x : Node) : Reads :=
  let p := x.upd
  let frozen := m.frozenMap x p
  let rec' := fun (o n : Nat) => match x.parReg o with | some r => [(r, 0, n)] | none => []
  rec' 0x18 (16 + 8 * ceilDiv p.rows 64 * ceilDiv p.cols 64) ++
    if frozen.all id then []
    else
      let live := if p.embed then
          (List.range (p.ntouch * p.cols)).map (fun i =>
            !frozen.getD (m.entCode (x.parEnt 0x1B) 32 (i / p.cols) * p.cols + i % p.cols) false)
        else frozen.map (fun b => !b)
      (if isMx p.wfmt then rec' 0x19 128 else []) ++ rec' 0x1A 64 ++ (elemRuns 0 live).map (fun y => (x.parEnt 0x16, y.1, y.2)) ++
        (if p.embed then [(x.parEnt 0x1B, 0, 4 * p.ntouch)] else [])

/-- Bytes of WREG that an UPDATE writes: the elements of touched rows that are not frozen, and for an MX copy the elements and scales of the
blocks of touched rows that are not wholly frozen (R276). -/
def updateOuts (m : Mod) (x : Node) : List (Nat × Nat × Nat) :=
  let p := x.upd
  let frozen := m.frozenMap x p
  let fz := fun i => frozen.getD i false
  let rows := (List.range p.ntouch).map (fun i => m.entCode (x.parEnt 0x1B) 32 i)
  let touched := fun r => !p.embed || rows.contains r
  let nb := ceilDiv p.cols 32
  let block := fun r kb => touched r && (List.range 32).any (fun k => decide (32 * kb + k < p.cols) && !fz (r * p.cols + 32 * kb + k))
  let mx := isMx p.wfmt
  let w := fmtBits p.wfmt
  let flags := (List.range p.elems).map (fun i => if mx then block (i / p.cols) (i % p.cols / 32) else touched (i / p.cols) && !fz i)
  (elemRuns 0 flags).map (fun y => let a := ceilDiv (y.1 / 4 * w) 8; (0x17, a, (y.1 + y.2) / 4 * w / 8 - a)) ++
    (if mx then (elemRuns 0 ((List.range (p.rows * nb)).map (fun j => block (j / nb) (j % nb)))).map
      (fun y => (0x17, wcScaleOff p + y.1 / 4, y.2 / 4)) else [])

/-- Run a part of the UPDATE. -/
def runUpdate (g n part : Nat) (err : EngErr) (e : Env) (m : Mod) : Mod :=
  m.runPart e tyUpdate g n part err (jointReads n part updateReads) (jointOuts n part updateOuts) (jointWork n part (updateWork e g n))

def execUpdate (g n part : Nat) (err : EngErr) (s : State) : Host.Outcome State Fault Refusal := runMod (runUpdate g n part err) s

/-- Nodes of an update die that wait for roots, each with the part that waits. -/
def Mod.rootWaiters (m : Mod) (u : Nat) : List (Nat × Nat × Nat) :=
  (m.allNodes.filter (fun x =>
    x.2.2.1.ty == tyUpdate && x.2.2.1.udie == u && x.2.2.2.isRunning && x.2.2.2.counts == [1] && !x.2.2.2.committed)).map
    (fun x => (x.1, x.2.1, x.2.2.2.openPart))

/-- Write a job's roots into the slot that ROOTSLOT does not name (R270). NaNs among them are produced by the update die, for the task
that took the snapshot (R195, R257; DESIGN CHOICE, log 25: the spec names no task). -/
def Mod.storeRoots (e : Env) (m : Mod) (u : Nat) (j : RootJob) : Mod :=
  let r : RegEnt := ⟨j.handle, 2#8, j.off, 2 ^ 64⟩
  let b := m.entRead r 0 64
  let elems := fieldAt b 8 4 * fieldAt b 0xC 4
  match j.roots with
  | none => m
  | some l => (l.mapIdx (fun i y => (i, y.1))).foldl (fun m y =>
      let arr := rootArr elems j.sides r (1 - (uhead b).rootslot) y.1
      let codes := y.2.map (fun c => c.toNat)
      let bad := nanPlaces (codes.mapIdx (fun k c => (k, c)))
      let m := m.setCodes arr 32 0 codes
      m.produceNan e (nanDie (12 + u)) j.task.1 j.task.2.1 j.task.2.2 bad.1
        { engine := 0x07, op := tyUpdate, fmt := 1, module := true, reel := Mod.tileReel.noReel, bundle := 0, elem := bad.2,
          addr := arr.off + 4 * bad.2 }) m

/-- ROOT_COMPLETE: the root unit finishes the oldest snapshot of its die, and an UPDATE waiting to adopt it proceeds (R269, R270). -/
def rootComplete (u : Fin 2) (e : Env) (m : Mod) : Mod :=
  if !m.unitRuns (12 + u.val) then m
  else
    match (m.udies[u.val]).jobs.find? (fun j => j.roots.isNone) with
    | none => m
    | some j =>
      let done := j.compute
      let m := m.updUDie u (fun d => { d with jobs := d.jobs.map (fun y => if y = j then done else y) })
      let m := m.storeRoots e u.val done
      (m.rootWaiters u).foldl (fun m x => runUpdate x.1 x.2.1 x.2.2 .none e m) m

def execRootComplete (u : Fin 2) (s : State) : Host.Outcome State Fault Refusal := runMod (rootComplete u) s

/-- At an UPDATE's completion: the scale record of an MX copy and the watch record (R224, R279). -/
def Mod.commitUpdate (e : Env) (m : Mod) (g n : Nat) (gr : Graph) (x : Node) (r : NRun) : Mod :=
  let p := x.upd
  if !r.committed || r.counts.length < 6 then m
  else
    let k := fun i => r.counts.getD i 0
    let unit := x.partUnit 0
    let mx := isMx p.wfmt
    let m := if mx then
        m.entWrite (x.parEnt 0x19) 0
          (scaleRecNext (m.entRead (x.parEnt 0x19) 0 128) p.wfmt (k 3) (k 4) (k 0) (k 1) (k 2) (e.unitNow unit))
      else m
    match x.parReg 0x1A with
    | some w => m.commitWatch e g n gr w false (k 5) (if mx then k 0 else 0) (if mx then k 4 else 0) unit
    | none => m

/-! COPY (R285, R452). -/

/-- The bytes of a COPY's part: whole pages of the LENGTH, one after another (log 21). -/
def copyShare (x : Node) (k part : Nat) : Nat × Nat :=
  let len := x.par 8 8
  let s := shareOf (ceilDiv len Config.pageBytes) k part
  (min len (s.1 * Config.pageBytes), min len (s.2 * Config.pageBytes))

def copyReads (n part : Nat) (_m : Mod) (g : Graph) (x : Node) : Reads :=
  let s := copyShare x (g.runOf n).parts.length part
  [(x.parEnt 0, s.1, s.2 - s.1)]

/-- Byte ranges that hold the bytes of a part of `p`. -/
def copyRanges (p : Nat) (x : Node) (part : Nat) : List (Nat × Nat × Nat) :=
  let s := copyShare x p part
  [(1, s.1, s.2 - s.1)]

/-- COPY: raw bytes (R174). A state region at its source or destination first completes a journal left valid (R263). -/
def copyWork (n part : Nat) (m : Mod) (g : Graph) (x : Node) : PartEnd :=
  let m := (m.settleState x (x.parEnt 0)).settleState x (x.parEnt 1)
  let s := copyShare x (g.runOf n).parts.length part
  .done (m.entWrite (x.parEnt 1) s.1 (m.entRead (x.parEnt 0) s.1 (s.2 - s.1)))

def execCopy (g n part : Nat) (err : EngErr) (s : State) : Host.Outcome State Fault Refusal :=
  runMod (fun e m => m.runPart e tyCopy g n part err (copyReads n part) (fun _ gr x => copyRanges (gr.runOf n).parts.length x part)
    (copyWork n part)) s

end Sys2Proof.Machine
end

