-- ==== Sys2Proof/Machine/Collective.lean ====
section
/-! DEFINITION. COLLECTIVE nodes (16_collectives: R363 to R383). What other modules contribute arrives as an operand: entry r of
`others` is the contribution of rank r as it crosses the fabric, raw source bytes or thinned chunks. -/

namespace Sys2Proof.Machine

/-! Parameters (R365). -/

structure Coll where
  op : Nat
  red : Nat
  fabric : Bool
  group : Nat
  sfmt : Nat
  rfmt : Nat
  thin : Bool
  cid : Nat
  n : Nat
  rank : Nat
  peer : Nat
  bucket : Nat
  waitMs : Nat

def Node.coll (x : Node) : Coll :=
  let fab := x.par 2 1 == 1
  { op := x.par 0 1, red := x.par 1 1, fabric := fab, group := x.par 3 1, sfmt := x.par 4 1, rfmt := x.par 5 1,
    thin := bitAt (x.par 6 2) 0, cid := x.par 8 2, n := if fab then x.par 0xA 2 else x.dies.length, rank := x.par 0xC 2,
    peer := x.par 0xE 2, bucket := x.par 0x10 4, waitMs := x.par 0x14 4 }

/-- Operations with a reduction. -/
def Coll.reduces (c : Coll) : Bool := decide (c.op ≤ 1)

/-! Lengths (R366, R367, R371). -/

/-- Entry `i` of the length table, if the node has one. -/
def Mod.lenEntry (m : Mod) (x : Node) (i : Nat) : Option Nat := (x.parReg 0x1A).map (fun r => leNat (m.entRead r (8 * i) 8))

def sumTo (n : Nat) (f : Nat → Nat) : Nat := (List.range n).foldl (fun acc i => acc + f i) 0

/-- Length of the source part of rank `r`. -/
def Mod.partLen (m : Mod) (x : Node) (c : Coll) (r : Nat) : Nat :=
  let whole := (x.parEnt 0x18).len
  let l := if c.fabric then whole else whole / max 1 c.n
  match c.op with
  | 2 => (m.lenEntry x r).getD l
  | 4 => sumTo c.n (fun s => (m.lenEntry x (r * c.n + s)).getD 0)
  | _ => l

/-- Offset of the part of rank `r` in SREG: a FABRIC node's SREG is its own part. -/
def Mod.partOff (m : Mod) (x : Node) (c : Coll) (r : Nat) : Nat := if c.fabric then 0 else sumTo r (m.partLen x c)

/-- Shard of rank `r` of a REDUCE_SCATTER: offset and length in source bytes. -/
def Mod.shard (m : Mod) (x : Node) (c : Coll) (r : Nat) : Nat × Nat :=
  let l := m.partLen x c r
  let len := fun k => (m.lenEntry x k).getD (l / max 1 c.n)
  (sumTo r len, len r)

/-- Source bytes as result bytes. -/
def Coll.toResult (c : Coll) (n : Nat) : Nat := n / (fmtBits c.sfmt / 8) * (fmtBits c.rfmt / 8)

/-- Length of the result of rank `r` (R366). -/
def Mod.resLen (m : Mod) (x : Node) (c : Coll) (r : Nat) : Nat :=
  match c.op with
  | 0 => c.toResult (m.partLen x c r)
  | 1 => c.toResult (m.shard x c r).2
  | 2 => sumTo c.n (m.partLen x c)
  | 4 => sumTo c.n (fun k => (m.lenEntry x (k * c.n + r)).getD 0)
  | 6 => (x.parEnt 0x19).len
  | _ => m.partLen x c c.peer

/-- Offset of the result of rank `r` in DREG. -/
def Mod.resOff (m : Mod) (x : Node) (c : Coll) (r : Nat) : Nat := if c.fabric then 0 else sumTo r (m.resLen x c)

/-- Buckets of a node (R371). -/
def Mod.buckets (m : Mod) (x : Node) (c : Coll) : Nat :=
  if c.reduces && c.bucket != 0 then ceilDiv (m.partLen x c 0) c.bucket else 1

/-- Source bytes of bucket `b` within one rank's part. -/
def Mod.bucketRange (m : Mod) (x : Node) (c : Coll) (b r : Nat) : Nat × Nat :=
  let l := m.partLen x c r
  if c.reduces && c.bucket != 0 then (b * c.bucket, min ((b + 1) * c.bucket) l - b * c.bucket) else (0, l)

/-- Ranks whose source lies on the module. -/
def Coll.ownRanks (c : Coll) : List Nat := if c.fabric then [c.rank] else List.range c.n

/-- Source bytes of a bucket in SREG. -/
def Mod.bucketSrc (m : Mod) (x : Node) (c : Coll) (b : Nat) : List (Nat × Nat) :=
  c.ownRanks.map (fun r =>
    let k := m.bucketRange x c b r
    (m.partOff x c r + k.1, k.2))

/-! Readiness (R372, R375). -/

/-- Whether the edge from a predecessor lets bucket `b` be ready: it has completed with success, it writes elsewhere in the source region, or
the edge counts as satisfied early (R372, R373). -/
def Mod.predLets (m : Mod) (gr : Graph) (x : Node) (c : Coll) (b : Nat) (edge : Edge) : Bool :=
  let p := edge.pred
  let s := x.parEnt 0x18
  let outs := (gr.node p).outs.filter (fun r => r.handle == s.handle)
  let meets := outs.any (fun r => (m.bucketSrc x c b).any (fun k => rangeMeets (r.off, r.len) (s.off + k.1, k.2)))
  let ok := match (gr.runOf p).phase with | .done st => st.success | _ => false
  ok || (!outs.isEmpty && !meets) || gr.earlyOk edge

/-- Whether an earlier-accepted graph holds the group (R375). -/
def Mod.groupBusy (m : Mod) (gr : Graph) (group : Nat) : Bool :=
  m.graphs.any (fun y => decide (y.2.seq < gr.seq) &&
    (List.range y.2.nodes.length).any (fun i =>
      let k := y.2.node i
      k.ty == tyCollective && k.coll.fabric && k.coll.group == group && !(y.2.runOf i).isDone))

/-- Whether the fabric carries contributions: some plane is in service. -/
def Mod.fabricUp (m : Mod) : Bool := m.ioUp && (List.range 8).any (fun p => (vget m.fab.planes p Plane.cold).inService)

/-- A bucket may be issued: a backward node of a block that keeps no activations first waits for the block's replay (R211, R212). The issue
waits while a die that the node names does not run, but not the completion of a bucket already issued (R42; DESIGN CHOICE, log 32). -/
def Mod.bucketReady (m : Mod) (gr : Graph) (n : Nat) (x : Node) (c : Coll) (b : Nat) : Bool :=
  decide (b < m.buckets x c) && ((gr.runOf n).isRunning || gr.replayDone n) && gr.cueFired n && (gr.into n).all (fun e => m.predLets gr x c b e) &&
    (if c.fabric then m.fabricUp && !m.groupBusy gr c.group && !gr.cueHeld n else x.dies.all m.unitRuns)

/-! Thinning (R379 to R383). -/

def thinHeadOk (h : List Byte) (entries : Nat) : Bool :=
  fieldAt h 0 4 == 0x4E494854 && decide (fieldAt h 4 1 ≤ 1) && zeroAt h 5 3 && fieldAt h 8 8 == entries && zeroAt h 0x20 32

/-- Bank `k` of an error memory. -/
def thinBank (r : RegEnt) (entries k : Nat) : RegEnt := r.sub (if k = 0 then 0x40 else roundUp (0x40 + 4 * entries) 64)

/-- A chunk of 256 entries: what is sent, the new memory, and whether it is non-finite. -/
structure Chunk where
  bytes : List Byte
  mem : List Nat
  bad : Bool

/-- Encode a chunk (R380). A sum of gradient and memory that overflows FP32 makes the chunk non-finite and is counted as that alone, not as
RESULT_OVERFLOW (DESIGN CHOICE, log 64: R183 and R382 do not say). -/
def thinChunk (g mem : List Nat) : Chunk :=
  let e := g.zipWith (fun a b => (fp32.ofVal ((fp32.decode a).add (fp32.decode b))).bits) mem
  let ev := e.map fp32.decode
  if ev.any (fun v => !v.isFin) then ⟨natLe 4 0x7FC00000 ++ List.replicate 32 0, List.replicate 256 0, true⟩
  else
    let scale := (fp32.ofVal ((xsum (ev.map FVal.abs)).scale (-8))).bits
    let sv := fp32.decode scale
    let neg := ev.map (fun v => v.lt .zero)
    let mem2 := ev.zipWith (fun v s => fp32.noNegZero (fp32.ofVal (v.sub (if s then sv.neg else sv))).bits) neg
    let byte := fun j => BitVec.ofNat 8 (sumTo 8 (fun i => place (boolNat (neg.getD (8 * j + i) false)) i))
    ⟨natLe 4 scale ++ (List.range 32).map byte, mem2, false⟩

/-- The value of entry `i` of a thinned contribution, as an FP32 code (R381). -/
def thinValue (bytes : List Byte) (i : Nat) : Nat :=
  let o := i / 256 * 36
  let scale := fieldAt bytes o 4
  if fp32.isNan scale then fp32.canonNan
  else if bitAt (fieldAt bytes (o + 4 + i % 256 / 8) 1) (i % 8) then (fp32.ofVal (fp32.decode scale).neg).bits else scale

/-! Issue (R372, R380). -/

/-- The shares that each unit's work is divided into over the stacks of a SPREAD region: one a stack in service, at most one a page, and
one for a COPY onto its own source (R301, R332; DESIGN CHOICE, log 21). -/
def Mod.stackShares (g : Grade) (m : Mod) (x : Node) : Nat :=
  let pages := fun (r : RegEnt) => match m.region r.handle with
    | some k => if r.kind != 0xFF#8 && k.spread && k.cls != .slow then
        (r.off + r.len + Config.pageBytes - 1) / Config.pageBytes - r.off / Config.pageBytes else 0
    | none => 0
  if x.ty = tyCopy && (x.parEnt 0).handle = (x.parEnt 1).handle && rangeMeets ((x.parEnt 0).off, x.par 8 8) ((x.parEnt 1).off, x.par 8 8) then 1
  else max 1 (min (m.stacksIn g).length ((x.regs.map pages).foldl max 0))

/-- The parts of a node's work at its start: the buckets of a collective, else the shares of each unit of `partCount` (R226, R301, R378). -/
def Mod.newParts (g : Grade) (m : Mod) (x : Node) : List Part :=
  if x.ty = tyTile then []
  else if x.ty = tyCollective then List.replicate (m.buckets x x.coll) ⟨false, 0, false, 0⟩
  else
    let k := m.stackShares g x
    (List.range (x.partCount * k)).map (fun i => ⟨false, 0, false, x.partUnit (i / k)⟩)

/-- Start a node on some of its dies: its first take, with no part done; a TILE node's take waits for its TAKE_START (R295). The inputs that a
forward node of a block reads join the block's stump (R211). -/
def Mod.beginRun (e : Env) (m : Mod) (g n : Nat) (on : List Nat) : Mod :=
  match Tbl.find m.graphs g with
  | none => m
  | some gr => m.updRun g n (fun r => { r with phase := .running, start := e.now, take := 1, on := on, parts := m.newParts e.fuses.grade (gr.node n) }) |>.keepInputs g n

/-- Tasks in flight on a die, and on the module: a task counts once on each die it occupies (R295). -/
def Mod.inFlight (m : Mod) (d : Nat) : Nat := (m.allNodes.filter (fun x => x.2.2.2.isRunning && x.2.2.2.on.contains d)).length
def Mod.inFlightAll (m : Mod) : Nat :=
  (m.allNodes.filter (fun x => x.2.2.2.isRunning)).foldl (fun acc x => acc + max 1 x.2.2.2.on.length) 0

/-- Whether the limits on tasks in flight and the pacing of starts let a node start on a die (R295, R392). -/
def Mod.roomOn (e : Env) (m : Mod) (d : Nat) : Bool := decide (m.inFlight d < 1024) && decide (m.inFlightAll < 12288) && m.paceOpen e d

/-- Start a collective on each of its dies that has room, or in the name of none (R295, R363, R392). -/
def Mod.startColl (e : Env) (m : Mod) (g n : Nat) (x : Node) : Mod :=
  let run := fun (m : Mod) => match Tbl.find m.graphs g with | some gr => gr.runOf n | none => NRun.fresh
  if x.dies.isEmpty then (if (run m).isRunning || decide (12288 ≤ m.inFlightAll) then m else m.beginRun e g n [])
  else x.dies.foldl (fun m d =>
    if (run m).on.contains d || !m.unitRuns d || !m.roomOn e d then m
    else if (run m).isRunning then m.updRun g n (fun r => { r with on := r.on ++ [d] })
    else m.beginRun e g n [d]) m

/-- Whether a collective has started on all its dies, or in the name of none. -/
def NRun.startedOn (r : NRun) (x : Node) : Bool := r.isRunning && x.dies.all r.on.contains

/-- Whether a collective node may still do bucket work: not complete and no outcome yet. -/
def NRun.collOpen (r : NRun) : Bool :=
  (match r.phase with | .released => true | .running => true | _ => false) && r.outcome.isNone

/-- Encode the chunks of a bucket: the error memory's other bank is written, non-finite chunks are noted (R380, R382). -/
def Mod.thinBucket (m : Mod) (g n : Nat) (x : Node) (c : Coll) (b : Nat) : Mod × List Byte :=
  let s := x.parEnt 0x18
  let mr := x.parEnt 0x1B
  let k := m.bucketRange x c b c.rank
  let entries := s.len / 4
  let cur := leNat (m.entRead mr 4 1) % 2
  let first := k.1 / 1024
  (List.range (k.2 / 1024)).foldl (fun (acc : Mod × List Byte) i =>
    let q := first + i
    let rd := fun (r : RegEnt) => (List.range 256).map (fun j => acc.1.entCode r 32 (256 * q + j))
    let ch := thinChunk (rd s) (rd (thinBank mr entries cur))
    let m := acc.1.setCodes (thinBank mr entries (1 - cur)) 32 (256 * q) ch.mem
    (m.addNote g n .thinNonfinite (boolNat ch.bad) q, acc.2 ++ ch.bytes)) (m, [])

/-- A contribution goes to the root of its key on the channel of its group, from the I/O die of the plane it takes (R352, R353, R363,
R369). -/
def Mod.sendContribution (m : Mod) (c : Coll) (b : Nat) (bytes : List Byte) : Mod :=
  let vc : Fin 16 := Fin.ofNat 16 (4 + c.group)
  m.sendPacket vc (0x20 + (m.planeFor vc.val m.fab.turn).getD 0) (Config.rootAddr c.group c.cid b) bytes

/-- What the issue of a bucket reads: the length table, its source bytes and, with THIN, the error memory. -/
def Mod.bucketReads (m : Mod) (x : Node) (c : Coll) (b : Nat) : Reads :=
  (match x.parReg 0x1A with
   | some r => (match c.op with | 1 => [(r, 0, 8 * c.n)] | 2 => [(r, 0, 8 * c.n)] | 4 => [(r, 0, 8 * c.n * c.n)] | _ => [])
   | none => []) ++
  if c.op = 6 then []
  else (m.bucketSrc x c b).map (fun k => (x.parEnt 0x18, k.1, k.2)) ++
    (if c.thin then [(x.parEnt 0x1B, 0, (x.parEnt 0x1B).len)] else [])

/-- Read and keep the contribution of a bucket; a FABRIC node sends it. -/
def Mod.contribute (m : Mod) (g n b : Nat) (x : Node) (c : Coll) : Mod :=
  let s := x.parEnt 0x18
  let y := if c.thin then m.thinBucket g n x c b
           else if c.op = 6 then (m, [])
           else (m, (m.bucketSrc x c b).flatMap (fun k => m.entRead s k.1 k.2))
  let m := if c.fabric && c.op != 6 then y.1.sendContribution c b y.2 else y.1
  m.updRun g n (fun r => { r with issued := r.issued ++ [b], contrib := Tbl.put r.contrib b y.2 })

/-- Issue a bucket of a node, which starts with the first, on each of its dies as that has room; the bucket is issued once it has started on
all. A bad error memory header ends the node before any bucket is issued
(R383); a transient fault, a poisoned source and a line that cannot be decoded concern the bucket as a part of the task (R336, R378). -/
def Mod.issueBucket (e : Env) (m : Mod) (g n b : Nat) (err : EngErr) : Mod :=
  match Tbl.find m.graphs g with
  | none => m
  | some gr =>
    let x := gr.node n
    let c := x.coll
    let r := gr.runOf n
    let m := if x.ty != tyCollective || !r.collOpen || r.issued.contains b || !m.bucketReady gr n x c b || r.startedOn x || !m.reserved gr n ||
        (!r.isRunning && m.storeHeld gr n) then m
      else m.withPace e (fun m => m.startColl e g n x)
    let r := match Tbl.find m.graphs g with | some gr => gr.runOf n | none => r
    if x.ty != tyCollective || !r.collOpen || r.issued.contains b || !m.bucketReady gr n x c b || !r.startedOn x then m
    else
      let m := (m.beginAll e g n (if x.proxied then [0] else x.dies)).meetError e err
      if c.thin && !thinHeadOk (m.entRead (x.parEnt 0x1B) 0 64) ((x.parEnt 0x18).len / 4) then m.setOutcome g n .badOperation []
      else if err = .engine then
        m.partsFault e g n [b] x (match Tbl.find m.graphs g with | some gr => gr.runOf n | none => r) .engineFault []
      else if m.slowRead x err then m.setOutcome g n .slowUncorrectable []
      else
        match m.lostRead (m.bucketReads x c b), m.poisonedRead (m.bucketReads x c b) with
        | some (h, l), _ => m.setOutcome g n .hbmUncorrectable (m.lostDetail e h l)
        | none, some lines => m.poisonTake e g n lines err
        | none, none => m.contribute g n b x c

/-- BUCKET_ISSUE (R372). -/
def execBucketIssue (g n b : Nat) (err : EngErr) (s : State) : Host.Outcome State Fault Refusal :=
  runMod (fun e m => m.issueBucket e g n b err) s

/-! Reduction (R368, R370). -/

/-- One result element: its code, whether a NaN was formed in the switch, whether it overflowed. -/
structure RedElem where
  code : Nat
  nan : Bool
  ovf : Bool

/-- Reduce the contributions of all ranks to one element, in ascending rank (R368). -/
def reduceElem (sfmt rfmt : Nat) (isMax : Bool) (l : List Nat) : RedElem :=
  let sf := fmtSpec sfmt
  let af := if sfmt = 0 then fp64 else fp32
  let rf := fmtSpec rfmt
  let vals := l.map sf.decode
  let acc := match vals with
    | [] => FVal.zero
    | v :: r => r.foldl (fun a y => if isMax then a.max y else af.decode (af.ofVal (a.add y)).bits) v
  let res := rf.ofVal acc
  let code := rf.noNegZero (if rf.isNan res.bits then rf.canonNan else res.bits)
  { code := code, nan := rf.isNan code && !vals.any FVal.isNan, ovf := (rf.decode code).isInf && vals.all FVal.isFin }

/-- What rank `r` contributed to element `i` of a bucket. -/
def Coll.value (c : Coll) (bytes : List Byte) (i : Nat) : Nat :=
  if c.thin then thinValue bytes i else elemAt bytes (fmtBits c.sfmt) i

/-- Whether some contributed value held a NaN or the result overflowed, per R370: a note's place is bucket × 2^32 + element. -/
def noteList (b : Nat) (l : List (Nat × Bool)) : Nat × Nat :=
  let on := l.filter (fun x => x.2)
  (on.length, b * 2 ^ 32 + (on.map (fun x => x.1)).headD 0)

/-- Write bytes into DREG and remember the range (R373). -/
def Mod.collWrite (m : Mod) (g n : Nat) (d : RegEnt) (o : Nat) (bs : List Byte) : Mod :=
  (m.entWrite d o bs).updRun g n (fun r => { r with written := r.written ++ [(d.off + o, bs.length)] })

/-- The result bytes of bucket `b` for rank `r`, from the contributions (R366, R371): place in the rank's result, and bytes. -/
def Mod.bucketResult (m : Mod) (x : Node) (c : Coll) (b r : Nat) (contrib : Nat → List Byte) (red : List RedElem) :
    Nat × List Byte :=
  let rw := fmtBits c.rfmt / 8
  let sw := fmtBits c.sfmt / 8
  let code := fun (i : Nat) => natLe rw (red.getD i ⟨0, false, false⟩).code
  match c.op with
  | 0 => (c.toResult (m.bucketRange x c b r).1, (List.range red.length).flatMap code)
  | 1 =>
    let k := m.bucketRange x c b r
    let sh := m.shard x c r
    let lo := max k.1 sh.1
    let hi := min (k.1 + k.2) (sh.1 + sh.2)
    (c.toResult (lo - sh.1), (List.range ((hi - lo) / sw)).flatMap (fun i => code ((lo - k.1) / sw + i)))
  | 2 => (0, (List.range c.n).flatMap (fun k => padTo (m.partLen x c k) (contrib k)))
  | 3 => (0, padTo (m.partLen x c c.peer) (contrib c.peer))
  | 4 => (0, (List.range c.n).flatMap (fun k =>
      slice (contrib k) (sumTo r (fun s => (m.lenEntry x (k * c.n + s)).getD 0)) ((m.lenEntry x (k * c.n + r)).getD 0)))
  | 6 => (0, padTo (x.parEnt 0x19).len (contrib c.peer))
  | _ => (0, [])

/-- Commit the error memory with one header write (R383). -/
def Mod.thinCommit (m : Mod) (gr : Graph) (r : RegEnt) (bad : Nat) : Mod :=
  let h := m.entRead r 0 64
  m.entWrite r 0 (slice h 0 4 ++ natLe 1 (1 - fieldAt h 4 1 % 2) ++ slice h 5 11 ++ natLe 4 (fieldAt h 0x10 4 + 1) ++
    natLe 4 gr.hdr.step.toNat ++ natLe 8 (satAdd 64 (fieldAt h 0x18 8) bad) ++ slice h 0x20 32)

/-- The reduced elements of a bucket. -/
def Mod.bucketReduced (m : Mod) (x : Node) (c : Coll) (b : Nat) (contrib : Nat → List Byte) : List RedElem :=
  let count := if c.reduces then (m.bucketRange x c b c.rank).2 / (fmtBits c.sfmt / 8) else 0
  (List.range count).map (fun i =>
    reduceElem c.sfmt c.rfmt (c.red == 1) ((List.range c.n).map (fun k => c.value (contrib k) i)))

/-- Complete an issued bucket with the contributions of the other ranks; after the last one the node is done (R370, R373). A transient fault
in writing the result leaves the bucket to be completed again (R378). A bucket of MODULE scope that has been issued completes although a die's rail
is held meanwhile (R42 names no rail for the bridges: DESIGN CHOICE, log 32). -/
def Mod.completeBucket (e : Env) (m : Mod) (g n b : Nat) (other : Nat → List Byte) (err : EngErr) : Mod :=
  match Tbl.find m.graphs g with
  | none => m
  | some gr =>
    let x := gr.node n
    let c := x.coll
    let r := gr.runOf n
    if x.ty != tyCollective || !r.collOpen || !r.issued.contains b || r.completed.contains b then m
    else if err = .engine then m.partsFault e g n [b] x r .engineFault []
    else
      let m := m.meetError e err
      let own := (Tbl.find r.contrib b).getD []
      let contrib := fun k =>
        if c.fabric then (if k = c.rank && c.op != 6 then own else other k)
        else slice own (sumTo k (fun j => (m.bucketRange x c b j).2)) (m.bucketRange x c b k).2
      let red := m.bucketReduced x c b contrib
      let d := x.parEnt 0x19
      let m := c.ownRanks.foldl (fun m k =>
        let y := m.bucketResult x c b k contrib red
        if y.2.isEmpty then m else m.collWrite g n d (m.resOff x c k + y.1) y.2) m
      let nan := noteList b (red.mapIdx (fun i y => (i, y.nan)))
      let ovf := noteList b (red.mapIdx (fun i y => (i, y.ovf)))
      let m := (m.addNote g n .switchNan nan.1 nan.2).addNote g n .resultOverflow ovf.1 ovf.2
      m.updRun g n (fun r => { r.partDone b with completed := r.completed ++ [b] })

/-- BUCKET_COMPLETE (R373). -/
def execBucketComplete (g n b : Nat) (others : List (List Byte)) (err : EngErr) (s : State) : Host.Outcome State Fault Refusal :=
  runMod (fun e m => m.completeBucket e g n b (fun k => others.getD k []) err) s

/-- At a collective's completion: the error memory is committed (R383). -/
def Mod.commitCollective (m : Mod) (gr : Graph) (x : Node) (r : NRun) : Mod :=
  let bad := (r.notes.filter (fun k => k.code == .thinNonfinite)).foldl (fun acc k => acc + k.count) 0
  if x.coll.thin then m.thinCommit gr (x.parEnt 0x1B) bad else m

/-- Bytes that one bucket of a contribution occupies on the fabric. -/
def Coll.sent (c : Coll) (n : Nat) : Nat := if c.thin then n / 1024 * 36 else n

/-- COLLECTIVE (R366): every bucket that is ready is issued, and completes with its slice of the other ranks' contributions. One without
buckets completes at once, unless its error memory's header is bad (R383). -/
def runCollective (g n : Nat) (others : List (List Byte)) (e : Env) (m : Mod) : Mod :=
  match Tbl.find m.graphs g with
  | none => m
  | some gr =>
    let x := gr.node n
    let c := x.coll
    if x.ty != tyCollective || !(gr.runOf n).isRunning then m
    else if m.buckets x c = 0 then
      let m := m.beginAll e g n (if x.proxied then [0] else x.dies)
      if c.thin && !thinHeadOk (m.entRead (x.parEnt 0x1B) 0 64) ((x.parEnt 0x18).len / 4) then m.setOutcome g n .badOperation []
      else m.updRun g n (fun r => if r.outcome.isNone then { r with outcome := some .ok } else r)
    else
      (List.range (m.buckets x c)).foldl (fun m b =>
        let k := m.bucketRange x c b c.rank
        let piece := fun r => if c.reduces then slice (others.getD r []) (c.sent k.1) (c.sent k.2) else others.getD r []
        (m.issueBucket e g n b .none).completeBucket e g n b piece .none) m

def execCollective (g n : Nat) (others : List (List Byte)) (s : State) : Host.Outcome State Fault Refusal :=
  runMod (runCollective g n others) s

/-! Abandoned keys (R376, R377). -/

/-- Detail bytes that name a key: GROUP, CID, bucket, then what the rule adds (log 12). -/
def keyDetail (c : Coll) (b : Nat) (extra : List Byte) : List Byte := natLe 1 c.group ++ natLe 2 c.cid ++ natLe 4 b ++ extra

/-- Whether a collective node has not completed and has no outcome yet, be it still held back (R294). -/
def NRun.collAwaits (r : NRun) : Bool := !r.isDone && r.outcome.isNone

/-- End a collective node that still awaits bucket `b`, be it held, released or running. -/
def Mod.endKey (e : Env) (m : Mod) (g n b : Nat) (issued : Bool) (st : Status) (ok : Coll → Bool) (extra : Coll → List Byte) :
    Mod :=
  match Tbl.find m.graphs g with
  | none => m
  | some gr =>
    let x := gr.node n
    let c := x.coll
    let r := gr.runOf n
    if x.ty = tyCollective && r.collAwaits && b < m.buckets x c && !r.completed.contains b &&
        (!issued || r.issued.contains b) && ok c then
      (if r.isRunning then m else m.withPace e (fun m => m.beginRun e g n x.dies)).setOutcome g n st (keyDetail c b (extra c))
    else m

/-- COLLECTIVE_WAIT_EXPIRED: the module abandons the key; its own node names its own rank, 0 where the scope is MODULE (R365, R377; log 12). WAIT_MS is ignored while an enable
of PTB_CTRL is set (R440). -/
def execCollectiveWaitExpired (g n b : Nat) (s : State) : Host.Outcome State Fault Refusal :=
  runMod (fun e m =>
    if m.perturbed then m
    else m.endKey e g n b true .collectiveAbandoned (fun c => c.waitMs != 0) (fun c => natLe 2 (if c.fabric then c.rank else 0))) s

/-- COLLECTIVE_MISMATCH, with its cause 1 to 5 (R376). -/
def execCollectiveMismatch (g n b : Nat) (cause : Fin 6) (s : State) : Host.Outcome State Fault Refusal :=
  runMod (fun e m => m.endKey e g n b false .collectiveMismatch (fun c => c.fabric && cause.val != 0) (fun _ => natLe 1 cause.val)) s

/-- Whether a node can await what another member of its key does: a member of another rank, or the other end of a SEND and RECV of one module,
which share its rank (R374, R377). -/
def Coll.otherRank (c : Coll) (rank : Nat) : Bool := c.fabric && (rank != c.rank || ((c.op == 5 || c.op == 6) && c.peer == c.rank))

/-- COLLECTIVE_ABANDONED by rank `rank` (R377). -/
def execCollectiveAbandoned (g n b rank : Nat) (s : State) : Host.Outcome State Fault Refusal :=
  runMod (fun e m => m.endKey e g n b false .collectiveAbandoned (fun c => c.otherRank rank) (fun _ => natLe 2 rank)) s

end Sys2Proof.Machine
end

