-- ==== Sys2Proof/Machine/Sched.lean ====
section
/-! DEFINITION. Scheduling and takes (12_task_graphs: R287, R288, R294 to R303; R57 to R63, R93, R94, R201 to R207): release,
starts, reel copies, takes, slots, completions and graph abort. -/

namespace Sys2Proof.Machine

/-! Slots (R203 to R207, R288). -/

/-- A slot entry of a node's SLOTS region. -/
structure SlotEnt where
  rank : Nat
  gb : Nat
  flags : Nat
  image : Nat
  brow : Nat
  bcol : Nat
  tensor : Nat
deriving DecidableEq, Repr

/-- The region entry of a kind, if the node has one. -/
def Node.entOf (x : Node) (kind : BitVec 8) : Option RegEnt := x.regs.find? (fun r => r.kind == kind)

/-- The slot entries of a node (R288). -/
def Mod.slotEnts (m : Mod) (x : Node) : List SlotEnt :=
  match x.entOf 4#8 with
  | none => []
  | some r => (List.range (r.len / 24)).map (fun i =>
      let b := m.entRead r (24 * i) 24
      ⟨fieldAt b 0 2, fieldAt b 2 1, fieldAt b 3 1, fieldAt b 4 4, fieldAt b 8 2, fieldAt b 0xA 2, fieldAt b 0x10 8⟩)

/-- Identity of a slot (R202): image, tensor, block row and column. -/
def SlotEnt.key (s : SlotEnt) : Nat × Nat × Nat × Nat := (s.image, s.tensor, s.brow, s.bcol)
def Slot.key (s : Slot) : Nat × Nat × Nat × Nat := (s.image, s.tensor.toNat, s.brow, s.bcol)

/-- The tile of a rank. -/
def Node.tileOf (x : Node) (rank : Nat) : Option (Fin 12 × Fin 64) := x.tiles[rank]?

/-- The tile set of a node. -/
def Node.tileSet (x : Node) : BitVec 16 × BitVec 64 := (x.dieMask, x.tileMask)

/-- Index of the slot that an entry of a node names: the one of its identity on the node's tile set, else the one on the tile of its rank (R288;
DESIGN CHOICE, log 35, for tile sets that share a tile). -/
def Mod.slotIdx (m : Mod) (g : Nat) (x : Node) (s : SlotEnt) : Option Nat :=
  let named := fun (k : Slot) => k.graph == g && k.key == s.key
  match m.slots.findIdx? (fun k => named k && k.tileSet == x.tileSet) with
  | some i => some i
  | none => m.slots.findIdx? (fun k => named k && (x.tileOf s.rank).any (fun p => k.d == p.1.val && k.t == p.2.val))

/-- The 24,640 bytes of a slot image (R203). -/
def Slot.imageBytes (s : Slot) : List Byte :=
  natLe 8 s.tensor.toNat ++ natLe 2 s.brow ++ natLe 2 s.bcol ++ natLe 4 s.mbCount ++ natLe 4 s.mbLast.toNat ++ List.replicate 4 0 ++
    natLe 8 s.mask.toNat ++ List.replicate 32 0 ++ (List.range 4096).flatMap (fun i => natLe 6 (s.get i))

def slotImage : Nat := 24640

/-- Write a slot to its home (`save` false) or save image. -/
def Mod.putImage (m : Mod) (s : Slot) (save : Bool) : Mod :=
  m.entWrite s.grad (s.image * (2 * slotImage) + if save then slotImage else 0) s.imageBytes

/-- A slot with the contents of its home or save image. -/
def Mod.getImage (m : Mod) (s : Slot) (save : Bool) : Slot :=
  let b := m.entRead s.grad (s.image * (2 * slotImage) + if save then slotImage else 0) slotImage
  { s with mbCount := fieldAt b 0xC 4, mbLast := BitVec.ofNat 32 (fieldAt b 0x10 4), mask := BitVec.ofNat 64 (fieldAt b 0x18 8),
           vals := (List.range 4096).filterMap (fun i =>
             let v := fieldAt b (0x40 + 6 * i) 6
             if v = 0 then none else some (i, BitVec.ofNat 48 v)) }

/-- Resident slots of a tile. -/
def Mod.residents (m : Mod) (d t : Nat) : Nat := (m.slots.filter (fun s => s.graph != 0 && s.d == d && s.t == t && s.resident)).length

/-- The slots that a tile's gradient buffer holds (R87). -/
def slotMax : Nat := 42

/-- Put a slot into the slot list: at a released place, else at the end. Indices of other slots do not change. -/
def putSlot (l : List Slot) (s : Slot) : List Slot :=
  match l with
  | [] => [s]
  | x :: r => if x.graph = 0 then s :: r else x :: putSlot r s

/-- A slot comes to the tile whose rank names it now: firmware moves a resident one through its home image, where it stays if the tile has no
room or its die does not run (R201, R206; DESIGN CHOICE, log 35). -/
def Mod.moveSlot (m : Mod) (i : Nat) (d : Fin 12) (t : Fin 64) : Mod :=
  match m.slots[i]? with
  | none => m
  | some s =>
    if s.d = d.val && s.t = t.val then m
    else
      let stays := s.resident && m.unitRuns d && decide (m.residents d t < slotMax)
      let k := { s with d := d.val, t := t.val, resident := stays, vals := if stays then s.vals else [] }
      (if s.resident then m.putImage s false else m).updSlot i (fun _ => k)

/-- Allocate and clear the slots that a node is the first to name; those named before come to its tiles (R88, R288). One that finds its tile's
42 slots in use keeps its contents, all zero, in its home image (R206). -/
def Mod.allocSlots (m : Mod) (g : Nat) (x : Node) : Mod :=
  (m.slotEnts x).foldl (fun m s =>
    match x.tileOf s.rank with
    | none => m
    | some (d, t) =>
      match m.slotIdx g x s with
      | some i => m.moveSlot i d t
      | none =>
        let room := decide (m.residents d t < slotMax)
        let k : Slot := { graph := g, d := d, t := t, tileSet := x.tileSet, image := s.image, tensor := BitVec.ofNat 64 s.tensor, brow := s.brow,
                          bcol := s.bcol, grad := (x.entOf 3#8).getD ⟨0, 0xFF#8, 0, 0⟩, resident := room, mbCount := 0,
                          mbLast := 0xFFFFFFFF#32, mask := 0, vals := [], saved := false, touched := false }
        let m := { m with slots := putSlot m.slots k }
        if room then m else m.putImage k false) m

/-- Whether a node's slots wait to come to its tiles: one is resident on a tile whose die does not run (R42, R206). -/
def Mod.moveHeld (m : Mod) (g : Nat) (x : Node) : Bool :=
  (m.slotEnts x).any (fun s =>
    match x.tileOf s.rank, (m.slotIdx g x s).bind (fun i => m.slots[i]?) with
    | some (d, t), some k => k.resident && !(k.d == d.val && k.t == t.val) && !m.unitRuns k.d
    | _, _ => false)

/-- Slot numbers of a rank bound to slots, for one take. -/
def Mod.bindSlots (m : Mod) (g : Nat) (x : Node) (rank : Nat) : List (Nat × Nat) :=
  ((m.slotEnts x).filter (fun s => s.rank == rank)).filterMap (fun s => (m.slotIdx g x s).map (fun i => (s.gb, i)))

/-- Slots bound on the tiles that a node's take holds; a tile of its set that another task holds is none of them (R205, R431). -/
def Mod.boundSlots (m : Mod) (g n : Nat) (x : Node) : List Nat :=
  x.tiles.flatMap (fun p =>
    if (m.tile p.1 p.2).owner = some (g, n) then (m.tile p.1 p.2).slotBind.map (fun b => b.2) else [])

/-- Restore a node's touched slots from their save images (R205); those on a die that does not run are not moved (R42). -/
def Mod.restoreSlots (m : Mod) (g n : Nat) (x : Node) : Mod :=
  (m.boundSlots g n x).foldl (fun m i =>
    match m.slots[i]? with
    | some s => if s.touched && m.unitRuns s.d then m.updSlot i (fun _ => { m.getImage s true with touched := false }) else m
    | none => m) m

/-- A slot released: its place may be used again. -/
def Slot.free (s : Slot) : Slot := { s with graph := 0, resident := false, vals := [], touched := false, saved := false }

/-- A slot of a graph that has ended. -/
def Slot.freeOf (g : Nat) (s : Slot) : Slot := if s.graph = g then s.free else s

/-- SLOT_SAVE: the save that the first addition of a take waits for (R204). It comes about once an ACC MMUL that names the slot has
been issued. A row in double-bit error that it meets awaits firmware's re-read for that MMUL, and the save waits with it; a corrected one is
counted (R70, R89, R425). -/
def slotSave (d : Fin 12) (t : Fin 64) (gb : Fin 42) (err : OpErr) (e : Env) (m : Mod) : Mod :=
  match m.slotOf d t gb, (m.tile d t).arrayQ.find? (fun o => o.acc && o.gbs.contains gb.val) with
  | some (i, s), some o =>
    let save := fun (m : Mod) => (m.putImage s true).updSlot i (fun s => { s with saved := true })
    if !m.tileLive d t || !s.resident || s.saved || (m.tile d t).awaits o.pos then m
    else
      match err with
      | .gb row true => save (m.wordError e d t row (gbAddr gb))
      | .gb row false => m.updTile d t (fun x => x.doubleBit o.pos row (gbAddr gb))
      | _ => save m
  | _, _ => m

def execSlotSave (d : Fin 12) (t : Fin 64) (gb : Fin 42) (err : OpErr) (s : State) : Host.Outcome State Fault Refusal :=
  runMod (slotSave d t gb err) s

/-- The place of a slot's home or save image (R203). -/
def Slot.imageAt (s : Slot) (save : Bool) : Nat := s.image * (2 * slotImage) + if save then slotImage else 0

/-- The first line of a slot's image that cannot be decoded (R336). -/
def Mod.imageLost (m : Mod) (s : Slot) (save : Bool) : Option Nat := m.entLost s.grad (s.imageAt save) slotImage

/-- Whether the restore of a node's slots waits: a tile with a touched slot is on a die whose rail is held, or that is in reset (R42, R205). -/
def Mod.restoreHeld (m : Mod) (g n : Nat) (x : Node) : Bool :=
  (m.boundSlots g n x).any (fun i => match m.slots[i]? with | some s => s.touched && !m.unitRuns s.d | none => false)

/-- Touched slots of a node whose save image cannot be decoded. -/
def Mod.lostSaves (m : Mod) (g n : Nat) (x : Node) : List (BitVec 32 × Nat) :=
  (m.boundSlots g n x).filterMap (fun i =>
    match m.slots[i]? with
    | some s => if s.touched then (m.imageLost s true).map (fun l => (s.grad.handle, l)) else none
    | none => none)

/-- SLOT_RESTORE: after a take that does not succeed (R205), while the dies that hold the slots run (R42). A save image that cannot be
decoded makes the failure final (R336). -/
def slotRestore (g n : Nat) (err : EngErr) (e : Env) (m : Mod) : Mod :=
  match Tbl.find m.graphs g with
  | none => m
  | some gr =>
    let x := gr.node n
    match (gr.runOf n).outcome with
    | some st =>
      if (gr.runOf n).isRunning && !st.success && !m.restoreHeld g n x then
        let m := m.meetError e err
        match m.lostSaves g n x with
        | [] => m.restoreSlots g n x
        | (h, l) :: _ => m.updRun g n (fun r => { r with outcome := some .hbmUncorrectable, detail := m.lostDetail e h l })
      else m
    | none => m

def execSlotRestore (g n : Nat) (err : EngErr) (s : State) : Host.Outcome State Fault Refusal := runMod (slotRestore g n err) s

/-- SLOT_SPILL: a resident slot without additions of a running take goes to its home image (R206), while its die runs (R42). An error that it
meets in a row of the gradient buffer is counted; at a double-bit error the spill does not come about (R89, R425; DESIGN CHOICE, log 30). -/
def slotSpill (i : Nat) (err : OpErr) (e : Env) (m : Mod) : Mod :=
  match m.slots[i]? with
  | some s =>
    if s.graph != 0 && s.resident && !s.touched && m.unitRuns s.d then
      let note := fun (row : Nat) => m.wordError e (Fin.ofNat 12 s.d) (Fin.ofNat 64 s.t) row (gbAddr 0)
      let spill := fun (m : Mod) => (m.putImage s false).updSlot i (fun s => { s with resident := false, vals := [] })
      match err with
      | .gb row true => spill (note row)
      | .gb row false => note row
      | _ => spill m
    else m
  | none => m

def execSlotSpill (slot : Nat) (err : OpErr) (s : State) : Host.Outcome State Fault Refusal := runMod (slotSpill slot err) s

/-- Running tasks whose tiles have a slot bound. -/
def Mod.slotTasks (m : Mod) (i : Nat) : List (Nat × Nat) :=
  (m.allNodes.filter (fun x => x.2.2.2.isRunning && (m.boundSlots x.1 x.2.1 x.2.2.1).contains i)).map (fun x => (x.1, x.2.1))

/-- SLOT_FILL: a spilled slot comes back from its home image when its tile has room (R206), while its die runs (R42). A home image that
cannot be decoded ends the tasks that wait for the slot (R336). -/
def slotFill (i : Nat) (err : EngErr) (e : Env) (m : Mod) : Mod :=
  match m.slots[i]? with
  | some s =>
    if s.graph != 0 && !s.resident && m.residents s.d s.t < slotMax && m.unitRuns s.d then
      let m := m.meetError e err
      match m.imageLost s false with
      | none => m.updSlot i (fun s => { m.getImage s false with resident := true })
      | some l =>
        (m.slotTasks i).foldl (fun m x => m.setOutcome x.1 x.2 .hbmUncorrectable (m.lostDetail e s.grad.handle l)) m
    else m
  | none => m

def execSlotFill (slot : Nat) (err : EngErr) (s : State) : Host.Outcome State Fault Refusal := runMod (slotFill slot err) s

/-- What an entry of a slot table names: an identity, on the tile set of its node, and the tile of its rank (R201, R288). -/
structure SlotName where
  tileSet : BitVec 16 × BitVec 64
  tile : Option (Fin 12 × Fin 64)
  key : Nat × Nat × Nat × Nat
deriving DecidableEq, Repr

/-- The slots that a node names. -/
def Mod.slotsNamed (m : Mod) (x : Node) : List SlotName := (m.slotEnts x).map (fun s => ⟨x.tileSet, x.tileOf s.rank, s.key⟩)

/-- Whether two entries name one slot: the identity is one, on one tile set or on one tile of two (R202, R288; log 35). -/
def SlotName.same (a b : SlotName) : Bool := a.key == b.key && (a.tileSet == b.tileSet || a.tile == b.tile)

/-- Whether two nodes name a slot in common. -/
def Mod.shareSlot (m : Mod) (x y : Node) : Bool := (m.slotsNamed x).any (fun a => (m.slotsNamed y).any a.same)

/-- Whether the slot order of R202 lets a node start: every task of the graph with a lower micro-batch index (0xFFFF above every
other) that names one of its slots has completed. -/
def Mod.slotOrderOk (m : Mod) (gr : Graph) (n : Nat) : Bool :=
  let x := gr.node n
  (m.slotEnts x).isEmpty || (List.range gr.nodes.length).all (fun i =>
    let y := gr.node i
    i == n || decide (x.mb ≤ y.mb) || (gr.runOf i).isDone || !m.shareSlot x y)

/-! Release and cues (R57 to R59, R294). -/

/-- Arm a node's launch time on the dies that need it (R57). -/
def Mod.armCue (m : Mod) (g n : Nat) (gr : Graph) : Mod :=
  (gr.cueNeeds n).foldl (fun m d =>
    { m with dies := vmodN m.dies d (fun x =>
        { x with cues := Tbl.put x.cues (gr.node n).cueT (((Tbl.find x.cues (gr.node n).cueT).getD []) ++ [(g, n)]) }) }) m

/-- Remove a node, or a whole graph, from the comparators. -/
def Die.dropCues (sel : Nat × Nat → Bool) (x : Die) : Die :=
  { x with cues := (x.cues.map (fun c => (c.1, c.2.filter (fun y => !sel y)))).filter (fun c => !c.2.isEmpty) }

/-- Pending nodes that a die holds (R294): released ones that have not started on it, on other dies though they may have. -/
def Mod.pendingOn (m : Mod) (d : Nat) : Nat :=
  (m.allNodes.filter (fun x => x.2.2.1.dies.contains d &&
    (x.2.2.2.phase == .released || (x.2.2.2.isRunning && x.2.2.2.outcome.isNone && !x.2.2.2.on.contains d)))).length

/-- Release a graph's nodes in ascending index, while every die they occupy has room (R294). -/
def Mod.releaseFrom (m : Mod) (g : Nat) (l : List Nat) : Mod :=
  match l with
  | [] => m
  | n :: r =>
    match Tbl.find m.graphs g with
    | none => m
    | some gr =>
      if (gr.runOf n).phase != .held then Mod.releaseFrom m g r
      else if (gr.node n).dies.all (fun d => decide (m.pendingOn d < 16384)) then
        Mod.releaseFrom ((m.updRun g n (fun x => { x with phase := .released })).armCue g n gr) g r
      else m

def Mod.releaseGraph (m : Mod) (g : Nat) : Mod :=
  match Tbl.find m.graphs g with
  | none => m
  | some gr => m.releaseFrom g (List.range gr.nodes.length)

/-- Insert a graph into a list in order of acceptance. -/
def insertSeq (x : Nat × Nat) (l : List (Nat × Nat)) : List (Nat × Nat) :=
  match l with
  | [] => [x]
  | y :: r => if x.1 ≤ y.1 then x :: y :: r else y :: insertSeq x r

/-- Release what the dies have room for: the nodes of the graph accepted first before those of later ones (R294). -/
def Mod.releaseAll (m : Mod) : Mod :=
  ((m.graphs.map (fun g => (g.2.seq, g.1))).foldr insertSeq []).foldl (fun m g => m.releaseGraph g.2) m

/-- CUE_FIRE: the armed comparators of a die, its 64 earliest, whose time has come (R57, R58). What fires while the die does not run launches
proxied tasks when it runs again (R63). -/
def cueFire (d : Fin 12) (e : Env) (m : Mod) : Mod :=
  let now := e.dieNow d
  let running := m.unitRuns d
  let due := ((m.dies[d.val]).cues.take 64).filter (fun c => decide (c.1 ≤ now))
  let m := m.updDie d (fun x => { x with cues := x.cues.filter (fun c => !due.any (fun y => y.1 == c.1)) })
  (due.flatMap (fun c => c.2)).foldl (fun m x =>
    m.updRun x.1 x.2 (fun r => { r with cued := if r.cued.contains d.val then r.cued else r.cued ++ [d.val],
                                           cuedIn := if running || r.cuedIn.contains d.val then r.cuedIn else r.cuedIn ++ [d.val] })) m

def execCueFire (d : Fin 12) (s : State) : Host.Outcome State Fault Refusal :=
  if s.mod.unitUp d then runMod (cueFire d) s else runMod (fun _ m => m) s

/-! Completion of nodes and graphs (R290, R298, R318). -/

/-- The status with which a successful task completes, and the detail of its record: the lateness, then what it holds of the notes (R61, R183,
R237). -/
def NRun.goodStatus (r : NRun) (ty : Nat) : Status × List Byte :=
  let d := (r.noteDetails ty).headD []
  match r.late with
  | some _ => (.lateCue, d)
  | none => if r.notes.isEmpty then (.ok, []) else (.okWithNotes, d)

/-- Free a node's tiles; what its take left in their units is dropped. -/
def Mod.freeTiles (m : Mod) (g n : Nat) (x : Node) : Mod :=
  x.tiles.foldl (fun m p =>
    if (m.tile p.1 p.2).owner = some (g, n) then
      (m.updTile p.1 p.2 (fun t =>
        { t with owner := none, finished := true, slotBind := [], outcome := none, fault := [] })).dropOps p.1 p.2
    else m) m

/-- At completion: additions are counted in the slots (R207), and slots marked RELEASE are released (R288), but for one that the take of
another task holds bound (DESIGN CHOICE, log 26: it stays until its graph ends). -/
def Mod.endSlots (m : Mod) (g n : Nat) (x : Node) (ok : Bool) : Mod :=
  let m := (m.boundSlots g n x).foldl (fun m i => m.updSlot i (fun s =>
    if s.touched && ok then { s with mbCount := s.mbCount + 1, mbLast := BitVec.ofNat 32 x.mb, touched := false, saved := false }
    else { s with touched := false, saved := false })) m
  ((m.slotEnts x).filter (fun s => bitAt s.flags 0)).foldl (fun m s =>
    match x.tileOf s.rank with
    | none => m
    | some (d, t) =>
      match m.slotIdx g x s with
      | some i =>
        if (m.tile d t).owner != some (g, n) && (m.tile d t).slotBind.any (fun b => b.2 == i) then m else m.updSlot i Slot.free
      | none => m) m

/-! Tiles that lose their site or their die, and the ceilings that wait for them (R37 to R39, R430). -/

/-- A tile whose scratchpad, queues, registers and instruction memory are lost. The task that holds it keeps it, with its fault and
its slot binding, until its take has ended. -/
def Tile.wipe (t : Tile) : Tile :=
  { Tile.cold with owner := t.owner, finished := true, outcome := t.outcome, fault := t.fault, slotBind := t.slotBind, imemSeen := t.imemSeen }

/-- Resident slots of a tile without additions of the running take go to their home images (R89, R430). -/
def Mod.spillTile (m : Mod) (d t : Nat) : Mod :=
  (m.slots.filter (fun s => s.graph != 0 && s.d == d && s.t == t && s.resident && !s.touched)).foldl (fun m s => m.putImage s false) m

/-- The logical tile at a site, if any. -/
def Flash.tileAt (f : Flash) (d site : Nat) : Option (Fin 64) :=
  ((f.active d).find? (fun a => a.1 == site)).map (fun a => Fin.ofNat 64 a.2)

/-- Step 1 of R430: the take that runs on a tile's site fails with SITE_FAILED: a TILE node's whole take, of an engine node the parts at work on
the tile, each by its own count (R300, R301). -/
def Mod.failSiteTake (e : Env) (m : Mod) (d : Fin 12) (t : Fin 64) : Mod :=
  match m.ownerOf d t with
  | none => m
  | some (gr, g, n) =>
    if !m.takeOpen d t then m
    else if (gr.node n).ty = tyTile then m.failTile d t .siteFailed []
    else m.partsFault e g n ((gr.runOf n).tileParts (gr.node n) (d, t)) (gr.node n) (gr.runOf n) .siteFailed []

/-- Steps 1 and 2 of R430: the running take fails, the untouched slots are spilled, and the tile starts afresh. -/
def Mod.leaveSite (e : Env) (m : Mod) (d : Fin 12) (t : Fin 64) : Mod :=
  (((m.failSiteTake e d t).spillTile d t).updTile d t Tile.wipe).keepEngines d

/-- Whether a site carries no task. -/
def Mod.siteIdle (m : Mod) (d : Fin 12) (site : Nat) : Bool :=
  match m.flash.tileAt d site with
  | some t => (m.tile d t).owner.isNone
  | none => true

/-- Whether a tile may leave its site now: it carries no task, and its die runs, so that its slots can move (R37, R42). -/
def Mod.siteFree (m : Mod) (d : Fin 12) (site : Nat) : Bool := m.siteIdle d site && m.unitRuns d

/-- The tile of a site whose aged ceiling is below OP5 leaves it for a free spare of OP5 or higher (R39). -/
def Mod.spareIfLow (e : Env) (m : Mod) (d : Fin 12) (site : Nat) : Mod :=
  match m.flash.tileAt d site with
  | some t =>
    if m.flash.sparesLow d site then
      (m.leaveSite e d t).writeFlash (fun f => f.spareLow d site)
    else m
  | none => m

/-- A measured ceiling comes into force (R37 to R40). -/
def Mod.applyCeiling (e : Env) (m : Mod) (d : Fin 12) (site op : Nat) : Mod :=
  m.withCeiling e d (fun m => (m.writeFlash (fun f => f.age d site op)).spareIfLow e d site)

/-- Measurements that waited for a task to end come into force once their tile carries none and its die runs (R37, R42). -/
def Mod.measureDue (e : Env) (m : Mod) : Mod :=
  let due := fun (x : Nat × Nat × Nat) => m.siteFree (Fin.ofNat 12 x.1) x.2.1
  (m.flt.pendingMeas.filter due).foldl (fun m x => m.applyCeiling e (Fin.ofNat 12 x.1) x.2.1 x.2.2)
    { m with flt.pendingMeas := m.flt.pendingMeas.filter (fun x => !due x) }

/-- A node completes: its event record when it is not OK (R298), with further ones for the notes that it does not hold (log 12), its lateness when
a fault status takes precedence (R61), its tiles, slots, comparators and block freed. What a forward node of a block wrote is kept for its replays (R213). -/
def Mod.endNode (e : Env) (m : Mod) (g n : Nat) (st : Status) (detail : List Byte) (extra : List (List Byte)) : Mod :=
  match Tbl.find m.graphs g with
  | none => m
  | some gr =>
    let x := gr.node n
    let r := gr.runOf n
    let k := x.partUnit 0
    let slate := if x.placed then e.unitNow k else e.now
    let m := if st = .ok then m else m.eventExt slate st (m.nodeRes x) (taskId g n) r.take detail (some gr.ctx) extra
    let m := if st.success then
        (r.noteDetails x.ty).tail.foldl (fun m d => m.event slate st (m.nodeRes x) (taskId g n) r.take d (some gr.ctx)) m
      else m
    let m := match r.late with
      | some l => if st.success then m else m.taskEvent e g n .lateCue (natLe 8 l)
      | none => m
    let m := if st.success then m.keepOutputs g n else m
    let m := (m.endSlots g n x st.success).freeTiles g n x
    let m := { m with dies := m.dies.map (Die.dropCues (fun y => y == (g, n))) }
    let m := m.updRun g n (fun r => { r with phase := .done st })
    m.updGraph g (fun gr => gr.releaseBlock n)

/-- Whether a node that has not started, or a collective that has issued buckets early, can no longer run (R290); an edge that has counted as
satisfied early stays so (R373). -/
def Graph.doomed (g : Graph) (n : Nat) : Bool :=
  let dead := (g.into n).filter g.edgeDead
  match (g.runOf n).phase with
  | .done _ => false
  | .running =>
    (g.node n).ty == tyCollective && (g.runOf n).outcome.isNone && dead.any (fun x => !g.earlyBytes x)
  | _ => !dead.isEmpty

/-- Nodes whose non-tolerant edges have failed complete with PREDECESSOR_FAILED; edges point upward, so one pass finds all. -/
def Mod.propagate (e : Env) (m : Mod) (g : Nat) : Mod :=
  match Tbl.find m.graphs g with
  | none => m
  | some gr => (List.range gr.nodes.length).foldl (fun m n =>
      match Tbl.find m.graphs g with
      | some gr => if gr.doomed n then m.endNode e g n .predecessorFailed [] [] else m
      | none => m) m

/-- Status, failed-node count and failed node of a finished graph (R298, R318; zero with none, R314). -/
def Graph.verdict (g : Graph) : Status × Nat × Nat :=
  let sts := (List.range g.nodes.length).map (fun n => match (g.runOf n).phase with | .done st => st | _ => .ok)
  let bad := (List.range g.nodes.length).filter (fun n => !(sts.getD n .ok).success)
  match bad with
  | [] => (if sts.all (fun s => s == .ok) then .ok else .okWithNotes, 0, 0)
  | n :: _ => (sts.getD n .ok, bad.length, n)

/-- When every node has completed, the graph completion entry is posted and the graph's slots are released (R298, R318). -/
def Mod.finishGraph (e : Env) (m : Mod) (g : Nat) : Mod :=
  match Tbl.find m.graphs g with
  | none => m
  | some gr =>
    if !gr.run.all NRun.isDone then m
    else
      let v := gr.verdict
      let flags := 2 + (if v.1 = .ok then 0 else 4)
      let entry := complBytes e.now v.1 gr.queue gr.sqHead gr.alive flags gr.ctx (natLe 4 g ++ natLe 4 v.2.1 ++ natLe 4 v.2.2)
      let m := { m with graphs := Tbl.del m.graphs g, slots := m.slots.map (Slot.freeOf g),
                        dies := m.dies.map (Die.dropCues (fun y => y.1 == g)) }
      m.post gr.queue entry true

/-- What follows the end of tasks: measurements that waited for a tile, the graph's end, released nodes of every graph (R37, R294). -/
def Mod.tasksEnded (e : Env) (m : Mod) (g : Nat) : Mod := ((m.measureDue e).finishGraph e g).releaseAll

/-- What follows a node's completion: failed dependents, whose end may change the pace (R397), and the rest. -/
def Mod.settle (e : Env) (m : Mod) (g : Nat) : Mod := (m.withPace e (fun m => m.propagate e g)).tasksEnded e g

/-- A node completes, and all that follows; the phases of its dies change with it (R297, R389). -/
def Mod.finishNode (e : Env) (m : Mod) (g n : Nat) (st : Status) (detail : List Byte) : Mod :=
  (m.withPace e (fun m => m.endNode e g n st detail [])).settle e g

/-! Nodes without work on a unit (R287). -/

/-- A forward node whose block has no reservation asks for it before it starts (R216, R217). -/
def Mod.askBlock (e : Env) (m : Mod) (g n : Nat) : Mod :=
  match Tbl.find m.graphs g with
  | none => m
  | some gr =>
    if !m.reserved gr n && gr.edgesOk n && (gr.runOf n).phase == .released then stashReservation g (Fin.ofNat 8 (gr.node n).stage) e m
    else m

/-- Whether a node that needs no die may complete now: released, its edges satisfied, its cue fired and launched, its micro-batch admitted and its
block reserved where it is a forward node, its block replayed where it is a backward node of one that keeps no activations (R63, R200, R212,
R216). -/
def Mod.mayFire (m : Mod) (g : Graph) (n ty : Nat) : Bool :=
  (g.node n).ty == ty && (g.runOf n).phase == .released && g.edgesOk n && g.cueFired n && !g.cueHeld n && m.reserved g n && g.replayDone n

/-- Complete a CUE, BARRIER or HOST_NOTE node. -/
def fireNode (ty g n : Nat) (before : Env → Mod → Graph → Mod) (e : Env) (m : Mod) : Mod :=
  let m := match Tbl.find m.graphs g with | some gr => if (gr.node n).ty = ty then m.askBlock e g n else m | none => m
  match Tbl.find m.graphs g with
  | none => m
  | some gr =>
    if !m.mayFire gr n ty then m
    else
      let m := before e ((m.beginRun e g n []).begin e g n 0) gr
      let r := match Tbl.find m.graphs g with | some gr => gr.runOf n | none => NRun.fresh
      let s := r.goodStatus ty
      m.finishNode e g n s.1 s.2

/-- CUE: completes when its comparators have fired on every die that holds a successor. It is measured against its own launch time, which
counts as that of its only cue predecessor (R60, R287). -/
def execCue (g n : Nat) (s : State) : Host.Outcome State Fault Refusal := runMod (fireNode tyCue g n (fun _ m _ => m)) s

/-- BARRIER: completes once all its predecessors have completed. -/
def execBarrier (g n : Nat) (s : State) : Host.Outcome State Fault Refusal := runMod (fireNode tyBarrier g n (fun _ m _ => m)) s

/-- HOST_NOTE: writes an event record carrying VALUE, then completes. -/
def execHostNote (g n : Nat) (s : State) : Host.Outcome State Fault Refusal :=
  runMod (fireNode tyHostNote g n (fun e m gr => m.taskEvent e g n .hostNote (natLe 8 ((gr.node n).par 0 8)))) s

/-! Starts (R295). -/

/-- Tiles of a node on a die. -/
def Node.tilesOn (x : Node) (d : Nat) : List (Fin 12 × Fin 64) := x.tiles.filter (fun p => p.1.val == d)

/-- Whether a node that has started on some of its dies and not on this one waits for a tile (DESIGN CHOICE, log 26: tiles are held for
it, so that two nodes never wait for each other). -/
def Mod.tileHeld (m : Mod) (g n : Nat) (p : Fin 12 × Fin 64) : Bool :=
  m.allNodes.any (fun y =>
    !(y.1 == g && y.2.1 == n) && y.2.2.2.isRunning && !y.2.2.2.on.contains p.1.val && y.2.2.1.tiles.contains p)

/-- Whether a node's tiles on a die are free for it. -/
def Mod.tilesFree (m : Mod) (g n : Nat) (x : Node) (d : Nat) : Bool :=
  (x.tilesOn d).all (fun p => (m.tile p.1 p.2).owner.isNone && !m.flash.isLost p.1 p.2 && !m.tileHeld g n p)

/-- Whether a TILE node's reel is in the instruction memory of its tiles on a die, as last copied without an error met since (R93). -/
def Mod.reelReady (m : Mod) (x : Node) (d : Nat) : Bool :=
  x.ty != tyTile || (x.tilesOn d).all (fun p => (m.tile p.1 p.2).reelId == some x.reel && !(m.tile p.1 p.2).imemBad)

/-- Whether a node may start with the reel that its tiles on a die hold: it has been copied for it, or it is that of the tiles' previous task and
no error of the instruction memory has been seen since that task started (R93). -/
def Mod.reelResident (m : Mod) (x : Node) (d : Nat) : Bool :=
  m.reelReady x d && (x.ty != tyTile || (x.tilesOn d).all (fun p => !(m.tile p.1 p.2).imemSeen))

/-- Whether a node may start on one of its dies, apart from the edges: the die runs, its cue has fired there, the reel is resident, tiles
and room are free, pacing lets it, its slots can come to its tiles (R42, R58, R206, R295, R392). -/
def Mod.mayStartOn (e : Env) (m : Mod) (gr : Graph) (g n d : Nat) : Bool :=
  let x := gr.node n
  !(gr.runOf n).on.contains d && m.unitRuns d && m.roomOn e d && gr.cueFiredOn n d && m.reelResident x d && m.tilesFree g n x d &&
    ((gr.runOf n).isRunning || !m.moveHeld g x)

/-- The conditions of R295 that concern the whole node, with the launch of a proxied one (R63), the replay of a block that keeps no activations
(R211) and the reach of an offloaded stump (R412): they are asked for once, when it first starts. -/
def Mod.mayStart (m : Mod) (gr : Graph) (n : Nat) : Bool :=
  let x := gr.node n
  x.ty != tyCue && x.ty != tyBarrier && x.ty != tyHostNote &&
    match (gr.runOf n).phase with
    | .running => (gr.runOf n).outcome.isNone
    | .released =>
      gr.edgesOk n && (!x.proxied || gr.cueFired n) && !gr.cueHeld n && m.reserved gr n && !m.storeHeld gr n && gr.replayDone n && m.slotOrderOk gr n &&
        (decide (2 ≤ x.udie) || m.unitRuns (12 + x.udie)) && (!x.dies.isEmpty || decide (m.inFlightAll < 12288))
    | _ => false

/-- Whether a node's SLOTS table cannot be read: the line that cannot be decoded (R336). -/
def Mod.slotsLost (m : Mod) (x : Node) : Option (BitVec 32 × Nat) :=
  match x.entOf 4#8 with
  | none => none
  | some r => (m.entLost r 0 r.len).map (fun l => (r.handle, l))

/-- Start a node on a die, or in the name of none; the first start allocates its slots. A slot table that cannot be read ends it (R336). -/
def Mod.startOn (e : Env) (m : Mod) (g n : Nat) (x : Node) (on : List Nat) : Mod :=
  let first := match Tbl.find m.graphs g with | some gr => !(gr.runOf n).isRunning | none => false
  let m := if first then
      match m.slotsLost x with
      | none => (m.beginRun e g n on).allocSlots g x
      | some (h, l) => (m.beginRun e g n on).setOutcome g n .hbmUncorrectable (m.lostDetail e h l)
    else m.updRun g n (fun r => { r with on := r.on ++ on })
  (x.tiles.filter (fun p => on.contains p.1.val)).foldl (fun m p => m.updTile p.1 p.2 (fun t =>
    { t with owner := some (g, n), finished := true, outcome := none, fault := [] })) m

/-- Start a node on every die that lets it (R295). -/
def Mod.startNode (e : Env) (m : Mod) (g n : Nat) : Mod :=
  match Tbl.find m.graphs g with
  | none => m
  | some gr =>
    let x := gr.node n
    if !m.mayStart gr n then m
    else if x.dies.isEmpty then (if (gr.runOf n).isRunning then m else m.startOn e g n x [])
    else x.dies.foldl (fun m d =>
      match Tbl.find m.graphs g with
      | some gr => if m.mayStartOn e gr g n d then m.startOn e g n x [d] else m
      | none => m) m

/-- Whether a node may start now on one of its dies, or in the name of none. -/
def Mod.starts (e : Env) (m : Mod) (gr : Graph) (g n : Nat) : Bool :=
  m.mayStart gr n &&
    (if (gr.node n).dies.isEmpty then !(gr.runOf n).isRunning else (gr.node n).dies.any (fun d => m.mayStartOn e gr g n d))

/-- TASK_START: a node starts on each of its dies independently, as each has room. A forward node whose block has no reservation asks
for it first (R216, R217). -/
def taskStart (g n : Nat) (e : Env) (m : Mod) : Mod :=
  let m := m.askBlock e g n
  match Tbl.find m.graphs g with
  | some gr => if m.starts e gr g n then m.withPace e (fun m => m.startNode e g n) else m
  | none => m

def execTaskStart (g n : Nat) (s : State) : Host.Outcome State Fault Refusal := runMod (taskStart g n) s

/-- Whether a TILE node has started on a die and its tiles there await the present take. -/
def NRun.betweenTakes (r : NRun) (d : Nat) : Bool := r.isRunning && r.outcome.isNone && r.on.contains d && !r.taken.contains d

/-- Dies on which a node's reel may be copied: running ones where its tiles await a take, or stand free before the start. -/
def Mod.copyDies (m : Mod) (g n : Nat) (x : Node) (r : NRun) : List Nat :=
  x.dies.filter (fun d => m.unitRuns d && (r.betweenTakes d ||
    ((r.phase == .released || r.isRunning) && !r.on.contains d && m.tilesFree g n x d)))

/-- REEL_COPY: the code of the node's reel goes into the instruction memory of its tiles, before the task starts on free tiles or
before a further take (R93). On free tiles the next task starts afresh; between takes an error seen in an earlier one is not forgotten. A reel line that cannot be decoded ends the task (R336). -/
def reelCopy (g n : Nat) (err : EngErr) (e : Env) (m : Mod) : Mod :=
  match Tbl.find m.graphs g with
  | none => m
  | some gr =>
    let x := gr.node n
    let r := gr.runOf n
    let ds := m.copyDies g n x r
    if x.ty != tyTile || ds.isEmpty then m
    else
      let m := m.meetError e err
      match Tbl.find m.mem.reels x.reel.toNat with
      | none => m
      | some k =>
        if m.reelLost k then
          let m := if r.isRunning then m else m.withPace e (fun m => m.beginRun e g n [])
          m.setOutcome g n .hbmUncorrectable
            (match err with | .hbm a _ _ => if k.holds a then m.memDetail e.fuses.grade a 0 else m.reelDetail e k | _ => m.reelDetail e k)
        else
          ((x.tiles.filter (fun p => ds.contains p.1.val)).foldl (fun m p => m.updTile p.1 p.2 (fun t =>
              { t with imem := reelCode k.image, reelId := some x.reel, imemBad := false,
                       imemSeen := t.imemSeen && r.on.contains p.1.val })) m).updRun g n
            (fun r => { r with reelOn := ds.foldl (fun l d => if l.contains d then l else l ++ [d]) r.reelOn })

def execReelCopy (g n : Nat) (err : EngErr) (s : State) : Host.Outcome State Fault Refusal := runMod (reelCopy g n err) s

/-- A tile at the start of a take (R67, R94). -/
def Tile.start (t : Tile) (owner : Nat × Nat) (image : List Byte) (binds : List (Nat × Nat)) : Tile :=
  { Tile.cold with
      owner := some owner, imem := t.imem, reelId := t.reelId, imemSeen := t.imemSeen, gateOn := t.gateOn, tone := t.tone, vpin := reelVpin image,
      long := reelLong image, pc := reelEntry image, slotBind := binds,
      queues := (Vector.range 16).map (fun q => ⟨[], bindOf (reelBind image q false), bindOf (reelBind image q true)⟩) }

/-- Whether the test of an array row of a tile's site is still to come (R136). -/
def Mod.rowTestDue (m : Mod) (p : Fin 12 × Fin 64) : Bool :=
  m.flt.pendingTests.any (fun x =>
    match x with
    | .arrayRow d site _ => d == p.1 && site.val == m.flash.site p.1 p.2
    | _ => false)

/-- Dies on which a take may start: a retried one waits for its reel copy (R93) and for the test of a row concerned (R136). -/
def Mod.takeDies (m : Mod) (x : Node) (r : NRun) : List Nat :=
  x.dies.filter (fun d =>
    r.betweenTakes d && m.unitRuns d && m.reelReady x d && (decide (r.take ≤ 1) || r.reelOn.contains d) &&
      (x.tilesOn d).all (fun p => !m.rowTestDue p))

/-- Start a take on one tile, of rank `i`; VPIN turns the vector engine on (R94, R167). -/
def Mod.startTile (m : Mod) (g n : Nat) (x : Node) (image : List Byte) (i : Nat) (p : Fin 12 × Fin 64) : Mod :=
  let binds := m.bindSlots g x i
  let m := m.updTile p.1 p.2 (fun t => t.start (g, n) image binds)
  let m := if reelVpin image then m.wakeVector p.1 p.2 else m
  binds.foldl (fun m b => m.updSlot b.2 (fun s => { s with saved := false, touched := false })) m

/-- TAKE_START (R94): the tiles of every die that may start the present take. A slot table that cannot be read ends the task (R336). -/
def takeStart (g n : Nat) (e : Env) (m : Mod) : Mod :=
  match Tbl.find m.graphs g with
  | none => m
  | some gr =>
    let x := gr.node n
    let r := gr.runOf n
    match Tbl.find m.mem.reels x.reel.toNat with
    | none => m
    | some k =>
      let ds := m.takeDies x r
      if x.ty != tyTile || ds.isEmpty then m
      else
        match m.slotsLost x with
        | some (h, l) => m.setOutcome g n .hbmUncorrectable (m.lostDetail e h l)
        | none =>
        let m := ((x.tiles.mapIdx (fun i p => (i, p))).filter (fun y => ds.contains y.2.1.val)).foldl
          (fun m y => m.startTile g n x k.image y.1 y.2) m
        m.updRun g n (fun r => { r with taken := r.taken ++ ds })

def execTakeStart (g n : Nat) (s : State) : Host.Outcome State Fault Refusal := runMod (takeStart g n) s

/-- What the units, streams, queues and transfers of a tile may do in one round, in program order of its units: Q unit, transfers, saves,
waiting accesses, array, matrix-vector path, vector engine, queues, DONE. Each does nothing unless its operation is at the head of its unit. -/
def tileUnits (d : Fin 12) (t : Fin 64) (x : Tile) : List (Env → Mod → Mod) :=
  let v := fun op => vecMap op d t
  [qbinds d t, qbindTo 0x02 (fun o => .port o.port) d t, qbindTo 0x03 (fun _ => .program) d t,
    qbindTo 0x04 (fun _ => .unbound) d t, dmaPad 0x08 true d t, dmaPad 0x09 false d t, dmaQueue 0x0A true d t,
    dmaQueue 0x0B false d t] ++
  (x.slotBind.map (fun b => slotSave d t (Fin.ofNat 42 b.1) .none)) ++
  (x.accesses.map (fun a => fun _ m => m.updTile d t (fun y => y.proceed a.pos))) ++
  [mload d t .none, mmul d t .none, mgrad d t .none, mmask d t .none, mvec d t .none, vld d t .none, vst d t, vgath d t .none, vscat d t,
    vgathm d t, vscatm d t, v 0x10, v 0x11, v 0x12, v 0x13, v 0x14, v 0x15, v 0x16, v 0x17, v 0x1E, vcvt d t, vwmul d t, dotw d t,
    dotD d t, vecReduce false 0x1C d t, vecReduce true 0x1D d t] ++
  ((List.range 128).map (fun i => gatherReply d t i .none)) ++
  ((List.finRange 16).map (fun q => queuePush d t q .none .none)) ++ ((List.finRange 16).map (fun q => queuePop d t q)) ++
  (x.dmas.map (fun k => dmaCompletion d t k.id .none .none)) ++ [doneTile d t]

/-- One round of a tile: it wakes its vector engine and issues a bundle, and its units work. -/
def tileRound (d : Fin 12) (t : Fin 64) (e : Env) (m : Mod) : Mod :=
  (vectorWake d t :: bundleIssue d t .none :: tileUnits d t (m.tile d t)).foldl (fun m f => f e m) m

/-- Rounds of all the tiles of a node. -/
def tileRounds (k : Nat) (l : List (Fin 12 × Fin 64)) (e : Env) (m : Mod) : Mod :=
  match k with
  | 0 => m
  | k + 1 => tileRounds k l e (l.foldl (fun m p => tileRound p.1 p.2 e m) m)

/-- TILE: the tiles of a node's take run for a number of rounds, with no error on the way (R285; DESIGN CHOICE, log 27: the row stands
for the task's run, whose every operation is a row of its own). -/
def runTile (g n rounds : Nat) (e : Env) (m : Mod) : Mod :=
  match Tbl.find m.graphs g with
  | none => m
  | some gr => if (gr.node n).ty = tyTile && (gr.runOf n).isRunning then tileRounds rounds (gr.node n).tiles e m else m

def execTile (g n rounds : Nat) (s : State) : Host.Outcome State Fault Refusal := runMod (runTile g n rounds) s

/-! The end at a cut point (R113 to R115). -/

/-- A tile whose accesses are all marked as waiting that are blocked: whether a blocked one has been held yet does not count, whether one that
was held may proceed does (R76, R113). -/
def Tile.still (t : Tile) : Tile :=
  { t with accesses := t.accesses.map (fun a => { a with waiting := a.waiting || t.blocked a.pos a.ranges a.writes }) }

/-- Whether no handshake of a tile's engines, streams, queues and transfers can complete: nothing it may do changes the tile or the slots,
and nothing outside it is still to come: a re-read, a slot's fill, or the release of its die's rail, which lets held handshakes proceed
(R42, R113). -/
def Mod.tileQuiet (e : Env) (m : Mod) (p : Fin 12 × Fin 64) : Bool :=
  let x := m.tile p.1 p.2
  m.unitRuns p.1.val && !x.suspended && x.reread.isEmpty && !m.slotWait p.1 p.2 &&
    (tileUnits p.1 p.2 x).all (fun f =>
      let m' := f e m
      decide ((m'.tile p.1 p.2).still = x.still) && decide (m'.slots = m.slots))

/-- A tile that issues nothing further: it has stopped, or executed DONE. -/
def Tile.stopped (t : Tile) : Bool := t.cutStop || t.finished || t.doneSeen

/-- CUT_POINT_REACHED: every tile of the task has stopped or executed DONE, no handshake of theirs can complete, and one reached the cut point. The images are
written in rank order, and the take ends with CUT_POINT_REACHED (R113 to R115). -/
def cutPointReached (gh n : Nat) (e : Env) (m : Mod) : Mod :=
  match Tbl.find m.graphs gh with
  | none => m
  | some g =>
    let x := g.node n
    let r := g.runOf n
    let stopped := x.tiles.all (fun p => (m.tile p.1 p.2).stopped && m.tileQuiet e p)
    if !r.isRunning || r.outcome.isSome || x.ty != tyTile || !x.dies.all r.taken.contains || !g.cutsNode n || !m.cutOn x || !stopped then m
    else
      let m := (x.tiles.zipIdx).foldl (fun m p =>
        let tl := m.tile p.1.1 p.1.2
        m.updRegion g.hdr.cutRegion (fun rg =>
          rg.writeCut (p.2 * cutBytes) tl (taskId gh n) r.take)) m
      m.updRun gh n (fun r => { r with outcome := some .cutPointReached })

def execCutPointReached (g n : Nat) (s : State) : Host.Outcome State Fault Refusal := runMod (cutPointReached g n) s


end Sys2Proof.Machine
end

