-- ==== Sys2Proof/Machine/Takes.lean ====
section
/-! DEFINITION. The end of takes (12_task_graphs: R299 to R303; R43, R61, R205, R220, R221). -/

namespace Sys2Proof.Machine

/-! Classes of failures (R299, R300). -/

/-- Transient statuses that count towards the take limit. -/
def Status.counted (s : Status) : Bool :=
  match s with
  | .scratchUncorrectable | .arrayResidue | .dieRestarted | .siteFailed => true
  | _ => false

/-! Partial faults (R301, R302). -/

/-- Byte ranges that a finished part of `p` holds: parameter offset of the region's index, offset in it, length. `done` names the finished parts. -/
def Mod.partRanges (m : Mod) (x : Node) (p : Nat) (done : Nat → Bool) (part : Nat) : List (Nat × Nat × Nat) :=
  if x.ty = tyConvert then cvtRanges p x done part
  else if x.ty = tyFactor then factorRanges p x part
  else if x.ty = tySolve then solveRanges m p x part
  else if x.ty = tyAssemble then assembleRanges p x part
  else if x.ty = tyCopy then copyRanges p x part
  else []

/-- Insert a range into a list sorted by region and offset. -/
def insertRange (x : Nat × Nat × Nat) (l : List (Nat × Nat × Nat)) : List (Nat × Nat × Nat) :=
  match l with
  | [] => [x]
  | y :: r => if x.1 < y.1 || (x.1 = y.1 && x.2.1 ≤ y.2.1) then x :: y :: r else y :: insertRange x r

/-- Merge adjacent ranges of a sorted list. -/
def mergeRanges (l : List (Nat × Nat × Nat)) : List (Nat × Nat × Nat) :=
  l.foldr (fun x acc =>
    match acc with
    | [] => [x]
    | y :: r => if x.1 = y.1 && y.2.1 ≤ x.2.1 + x.2.2 then (x.1, x.2.1, max (x.2.1 + x.2.2) (y.2.1 + y.2.2) - x.2.1) :: r
                else x :: y :: r) []

/-- The map of a partial fault: region index, offset in the allocated region, length, of ranges in OUT entries (R302). The result bytes of
a collective's completed buckets are kept in the run (R373, R378). -/
def Mod.partialMap (m : Mod) (x : Node) (r : NRun) : List (Nat × Nat × Nat) :=
  let fin := fun i => match r.parts[i]? with | some p => p.done | none => false
  let out := fun i => match x.regs[i]? with | some e => e.kind == 1#8 | none => false
  let l := (((List.range r.parts.length).filter fin).flatMap (m.partRanges x r.parts.length fin)).map
    (fun y => (x.par y.1 1, (x.parEnt y.1).off + y.2.1, y.2.2))
  let l := l ++ (if x.ty = tyCollective then r.written.map (fun y => (x.par 0x19 1, y.1, y.2)) else [])
  mergeRanges ((l.filter (fun y => y.2.2 != 0 && out y.1)).foldr insertRange [])

/-- Extension units of a map: 24 bytes an entry, 64 bytes a unit (R302, R323). -/
def mapUnits (l : List (Nat × Nat × Nat)) : List (List Byte) :=
  let bs := l.flatMap (fun y => natLe 1 y.1 ++ List.replicate 7 0 ++ natLe 8 y.2.1 ++ natLe 8 y.2.2)
  (List.range (ceilDiv bs.length 64)).map (fun i => slice bs (64 * i) 64)

/-- Bytes of the OUT regions outside the map are undefined (R302). Region entries outside it are forgotten whole, then the ranges of
the map are taken back. -/
def Mod.forgetOutside (m : Mod) (x : Node) (l : List (Nat × Nat × Nat)) : Mod :=
  let outs := (x.regs.mapIdx (fun i r => (i, r))).filter (fun y => y.2.kind == 1#8)
  outs.foldl (fun m y =>
    m.updRegion y.2.handle (fun g =>
      let g' := g.forget y.2.off y.2.len m.tick
      { g' with undef := (l.filter (fun z => z.1 == y.1)).foldl (fun u z => cutUndef z.2.1 z.2.2 u) g'.undef })) m.nextTick

/-! The take rules (R300). -/

/-- What a take ended with: a TILE take ends with the first fault of one of its tiles, or when every tile is done. -/
def Mod.takeEnd (m : Mod) (x : Node) (r : NRun) : Option Status :=
  match r.outcome with
  | some st => some st
  | none =>
    if x.ty = tyTile && x.dies.all r.taken.contains && x.tiles.all (fun p => (m.tile p.1 p.2).finished) then some .ok else none

/-- Try a task again: its event, its slots restored, what the take left in its units dropped, the run state of the next take (R300). -/
def Mod.retry (e : Env) (m : Mod) (g n : Nat) (x : Node) (st : Status) (detail : List Byte) (f : NRun → NRun) : Mod :=
  let m := (m.taskEvent e g n st detail).restoreSlots g n x
  let m := x.tiles.foldl (fun m p =>
    if (m.tile p.1 p.2).owner = some (g, n) then
      (m.updTile p.1 p.2 (fun t => { t with finished := true, outcome := none, fault := [], slotBind := [] })).dropOps p.1 p.2
    else m) m
  m.updRun g n (fun r =>
    { f r with take := min 255 (r.take + 1), outcome := none, detail := [], notes := [], blame := [], reelOn := [], taken := [],
               counts := [], parts := r.parts.map (fun p => { p with done := false }) })

/-- Records and state that a final, successful take writes (R192, R224, R279, R383). -/
def Mod.commit (e : Env) (m : Mod) (g n : Nat) (gr : Graph) (x : Node) (r : NRun) : Mod :=
  if x.ty = tyConvert then m.commitConvert e g n gr x r
  else if x.ty = tyUpdate then m.commitUpdate e g n gr x r
  else if x.ty = tyCollective then m.commitCollective gr x r
  else m

/-- A task succeeds. -/
def Mod.succeed (e : Env) (m : Mod) (g n : Nat) (gr : Graph) (x : Node) (r : NRun) : Mod :=
  let m := m.commit e g n gr x r
  let r := match Tbl.find m.graphs g with | some gr => gr.runOf n | none => r
  let s := r.goodStatus x.ty
  m.finishNode e g n s.1 s.2

/-- A task fails for good; a partial fault writes its map (R302). -/
def Mod.failTask (e : Env) (m : Mod) (g n : Nat) (x : Node) (r : NRun) (st : Status) (detail : List Byte) : Mod :=
  let m := m.restoreSlots g n x
  if st = .partialFault then
    let l := m.partialMap x r
    let m := m.forgetOutside x l
    (m.withPace e (fun m => m.endNode e g n st (natLe 4 l.length) (mapUnits l))).settle e g
  else m.finishNode e g n st detail

/-- TAKE_COMPLETE (R300). What follows an unsuccessful take waits while a die with slots to restore is held (R42, R205), or while the recompute of
poisoned lines has to wait; the success of a CONVERT waits for the update die to which its block's stump is offloaded, since its scale note joins
the stump (R214, R412). A save image that
cannot be decoded makes the failure final (R336). `err` is what the read of a stump meets where the recompute of poisoned lines replays a
block (R220, R260). -/
def takeComplete (g n : Nat) (err : EngErr) (e : Env) (m : Mod) : Mod :=
  match Tbl.find m.graphs g with
  | none => m
  | some gr =>
    let x := gr.node n
    let r := gr.runOf n
    if !r.isRunning then m
    else
      match m.takeEnd x r with
      | none => m
      | some st =>
        if st.success then (if x.ty = tyConvert && m.storeHeld gr n then m else m.succeed e g n gr x r)
        else if m.restoreHeld g n x || (st = .actPoison && x.ty = tyTile && m.recomputeHeld g n r.blame) then m
        else
        match m.lostSaves g n x with
        | (h, l) :: _ => m.failTask e g n x r .hbmUncorrectable (m.lostDetail e h l)
        | [] =>
        if st = .actPoison && x.ty = tyTile then
          match (m.meetError e err).poisonedTake e g n r.blame err with
          | (m, none) => m.retry e g n x st r.detail id
          | (m, some (.actPoison, _)) => m.failTask e g n x r st r.detail
          | (m, some (f, d)) => m.failTask e g n x r f d
        else if !st.counted then m.failTask e g n x r st r.detail
        else if st.covered && !r.grace then m.retry e g n x st r.detail (fun r => { r with grace := true })
        else if r.counted + 1 < x.limit then m.retry e g n x st r.detail (fun r => { r with counted := r.counted + 1 })
        else (m.taskEvent e g n st r.detail).failTask e g n x r .takeLimit (natLe 2 st.code)

def execTakeComplete (g n : Nat) (err : EngErr) (s : State) : Host.Outcome State Fault Refusal := runMod (takeComplete g n err) s

/-! Abort (R303). -/

/-- A node of an aborted graph: an UPDATE that has committed keeps its status; a running task's outputs are undefined, but for the results of
a collective's completed buckets (R303, R377). -/
def Mod.abortNode (e : Env) (m : Mod) (g n : Nat) : Mod :=
  match Tbl.find m.graphs g with
  | none => m
  | some gr =>
    let x := gr.node n
    let r := gr.runOf n
    if r.isDone then m
    else if r.isRunning && x.ty = tyUpdate && r.committed && r.outcome = some .ok then
      let m := m.commit e g n gr x r
      let r := match Tbl.find m.graphs g with | some gr => gr.runOf n | none => r
      let s := r.goodStatus x.ty
      m.endNode e g n s.1 s.2 []
    else
      let m := m.restoreSlots g n x
      let m := if r.isRunning then m.forgetOutside x (r.written.map (fun y => (x.par 0x19 1, y.1, y.2))) else m
      m.endNode e g n .aborted [] []

/-- Nodes that completed with ABORTED. -/
def Graph.abortedCount (g : Graph) : Nat := (g.run.filter (fun r => r.phase == .done .aborted)).length

/-- End a graph by abort; the count of nodes aborted. -/
def Mod.abortGraph (e : Env) (m : Mod) (g : Nat) : Mod × Nat :=
  match Tbl.find m.graphs g with
  | none => (m, 0)
  | some gr =>
    let m := m.withPace e (fun m => (List.range gr.nodes.length).foldl (fun m n => m.abortNode e g n) m)
    let k := match Tbl.find m.graphs g with | some gr => gr.abortedCount | none => 0
    (m.tasksEnded e g, k)

/-- ABORT_GRAPH. -/
def abortGraph (e : Env) (m : Mod) : Mod :=
  m.command 0x0021 (fun _ => true) (fun n ent =>
    let g := entArg ent 8 4
    if (Tbl.find m.graphs g).isNone then m.complete e n ent .graphUnknown []
    else
      let r := m.abortGraph e g
      r.1.complete e n ent .ok (natLe 4 r.2))

def execAbortGraph (s : State) : Host.Outcome State Fault Refusal := runMod abortGraph s

/-! Replays (R211, R212). -/

/-- The first backward task of a block that has not completed: the task that a replay serves. -/
def Graph.replayFor (g : Graph) (j b mb : Nat) : Option Nat := (g.blockNodes phBwd j b mb).find? (fun i => !(g.runOf i).isDone)

/-- End the task that a replay serves, started in its name if it has not begun. -/
def Mod.failReplay (e : Env) (m : Mod) (gh : Nat) (g : Graph) (j b mb : Nat) (st : Status) (detail : List Byte) : Mod :=
  match g.replayFor j b mb with
  | none => m
  | some n => (if (g.runOf n).isRunning then m else m.withPace e (fun m => m.beginRun e gh n [])).setOutcome gh n st detail

/-- REPLAY: the next block that the stage's backward tasks want, whole, or one that a suspended gather waits for, as far as R220 says, runs again
from its stump, fetched from the offload area if it went there (R161, R211, R212). The gathers find their lines recomputed; a line
of a stash region that no block wrote, met by a node outside every stage, has nothing to replay and is good at once (R220; DESIGN CHOICE, log 18).
A stump that cannot be read ends the tasks that need the replay (R260, R336). -/
def replay (gh : Nat) (j : Fin 8) (b mb : Nat) (err : EngErr) (e : Env) (m : Mod) : Mod :=
  match Tbl.find m.graphs gh with
  | none => m
  | some g =>
    let k := (j.val, b, mb)
    let next := decide (g.nextReplay j = some (b, mb))
    let gathers := m.gatherWaits gh g
    let waits := gathers.filter (fun w => decide (g.poisonKey w.1 w.2 = k))
    let m := m.madeGood ((gathers.filter (fun w => decide (g.stages.length ≤ (g.poisonKey w.1 w.2).1))).map (fun w => w.2))
    let upto := if next then g.nodes.length else waits.foldl (fun u w => max u (g.upto w.1 [w.2] k)) 0
    if !(next || !waits.isEmpty) || !m.mayReplay g k upto then m
    else
      let m := m.meetError e err
      match m.stumpFault e g k err with
      | some f =>
        waits.foldl (fun m w => m.setOutcome gh w.1 f.1 f.2) (if next then m.failReplay e gh g j b mb f.1 f.2 else m)
      | none => (m.replayBlock e gh j b mb upto).madeGood (waits.map (fun w => w.2))

def execReplay (g : Nat) (stage : Fin 8) (block mb : Nat) (err : EngErr) (s : State) : Host.Outcome State Fault Refusal :=
  runMod (replay g stage block mb err) s

end Sys2Proof.Machine
end

