-- ==== Sys2Proof/Machine/Faults.lean ====
section
/-! DEFINITION. Targeted tests, sparing and the fault records (20_faults: R425 to R432; R14, R71, R89, R134, R260, R337, R338,
R348). -/

namespace Sys2Proof.Machine

/-! Sites (R37, R430, R431). -/

/-- CEILING_MEASUREMENT (R37 to R40): between tasks; while the site's tile carries one, or its die does not run, the measurement waits. A spare that
carries the tile's work meanwhile hands it back, so that only the ceiling remains (log 53). -/
def ceilingMeasurement (d : Fin 12) (site op : Nat) (e : Env) (m : Mod) : Mod :=
  if !m.unitUp d then m
  else if m.siteFree d site then m.applyCeiling e d site op
  else { m with flt.pendingMeas := m.flt.pendingMeas ++ [(d.val, site, op)] }

def execCeilingMeasurement (d : Fin 12) (site : Fin 66) (op : Fin 8) (s : State) : Host.Outcome State Fault Refusal :=
  runMod (ceilingMeasurement d site op) s


/-- Resource ID of a tile site (R429). -/
def siteRes (d site : Nat) : BitVec 32 := resId d 1 site

/-- Every unfinished task whose TILEMASK names a lost tile ends with TILE_LOST (R431): one whose slots cannot be restored yet once they can, by
TAKE_COMPLETE (R42, R205). -/
def Mod.loseTile (e : Env) (m : Mod) (d : Fin 12) (t : Fin 64) : Mod :=
  (m.allNodes.filter (fun x => x.2.2.1.tiles.contains (d, t))).foldl (fun m x =>
    match Tbl.find m.graphs x.1 with
    | none => m
    | some gr =>
      if (gr.runOf x.2.1).isDone then m
      else if (gr.runOf x.2.1).isRunning && m.restoreHeld x.1 x.2.1 x.2.2.1 then
        m.updRun x.1 x.2.1 (fun r => { r with outcome := some .tileLost, detail := [] })
      else m.failTask e x.1 x.2.1 x.2.2.1 (gr.runOf x.2.1) .tileLost []) m

/-- Mark a site as failed. -/
def Flash.failSite (f : Flash) (d site : Nat) : Flash :=
  if f.failedSites.contains (d, site) then f else { f with failedSites := f.failedSites ++ [(d, site)] }

/-- What a lasting fault led to: the module, the action code of R428, the spare taken. -/
structure Acted where
  m : Mod
  action : Nat
  spare : BitVec 32

/-- A site fails: its logical tile moves to the best free spare, or is lost (R430, R431). -/
def Mod.siteFails (e : Env) (m : Mod) (d : Fin 12) (site : Nat) : Acted :=
  match m.flash.tileAt d site with
  | none => ⟨m.writeFlash (fun f => f.failSite d site), 0, 0⟩
  | some t =>
    let m := m.leaveSite e d t
    match m.flash.bestSpare d with
    | some x => ⟨m.withCeiling e d (fun m => m.writeFlash (fun f => (f.failSite d site).moveTile d t x)), 2, siteRes d x⟩
    | none =>
      let m := m.withCeiling e d (fun m =>
        m.writeFlash (fun f => { f.failSite d site with lost := f.lost ++ [(d.val, t.val)] }))
      ⟨m.loseTile e d t, 6, 0⟩

/-! The resources of R425. -/

/-- Class of a resource, in the order of R425. -/
def testClass (r : TestRes) : Nat :=
  match r with
  | .padRow .. | .gbRow .. | .imemRow .. => 0
  | .arrayRow .. => 1
  | .tile .. => 2
  | .bridgeLane .. => 3
  | .fabricLane .. => 4
  | .hbmRow .. => 6
  | .lpRow .. => 8

/-- Test code of R428. -/
def testCode (r : TestRes) : Nat :=
  match r with
  | .padRow .. | .gbRow .. | .imemRow .. => 1
  | .arrayRow .. => 2
  | .tile .. => 3
  | .bridgeLane .. | .fabricLane .. => 4
  | .hbmRow .. => 5
  | .lpRow .. => 6

/-- Location field of R428. A gradient-buffer row is given by its number (log 30), an instruction-memory row by its address in that memory
(log 55). -/
def testPlace (r : TestRes) : Nat :=
  match r with
  | .padRow _ _ bank row => row * 1024 + bank.val * 64
  | .gbRow _ _ row => row
  | .imemRow _ _ row => row * 64
  | .arrayRow _ _ row => row.val
  | .hbmRow a => a.toNat
  | .lpRow _ row => row
  | _ => 0

/-- The lower-numbered die of a bridge edge (R429). -/
def edgeDie (edge : Nat) : Nat := if edge < 5 then edge else if edge < 10 then edge + 1 else edge - 10

/-- Physical lane of a bridge edge: the lanes of its groups of 17 in ascending order of group, lane 16 of each group the spare (DESIGN CHOICE,
log 57: R14 and R429 give no numbering). -/
def physLane (group lane : Nat) : Nat := 17 * group + lane

/-- Resource ID of a bridge lane (R429). -/
def bridgeRes (edge group lane : Nat) : BitVec 32 := resId (edgeDie edge) 2 (edge * 4096 + physLane group lane)

/-- Resource ID of a fabric lane (R429). -/
def laneRes (io lane : Nat) : BitVec 32 := resId (0x20 + io) 3 lane

/-- Resource ID of the resource tested (R429). -/
def testId (r : TestRes) : BitVec 32 :=
  match r with
  | .padRow d site .. | .gbRow d site .. | .arrayRow d site .. | .imemRow d site .. | .tile d site => siteRes d site
  | .bridgeLane edge group lane => bridgeRes edge group lane
  | .fabricLane io lane => laneRes io lane
  | .hbmRow a => stackRes (addrStack a)
  | .lpRow u row => resId (0x10 + u.val) 6 (Config.lpPackage row).toNat

/-- Slate of a test's record: of the unit of its resource (R55). -/
def testSlate (e : Env) (r : TestRes) : Nat :=
  match r with
  | .padRow d .. | .gbRow d .. | .arrayRow d .. | .imemRow d .. | .tile d _ => e.dieNow d
  | .bridgeLane edge .. => e.dieNow (edgeDie edge)
  | .fabricLane io _ => e.ioNow io
  | .hbmRow a => e.dieNow (hostDie (addrStack a))
  | .lpRow u _ => e.unitNow (12 + u.val)

/-- Whether the grade carries a resource. -/
def Grade.hasRes (g : Grade) (r : TestRes) : Bool :=
  match r with
  | .fabricLane io _ => g.hasIo io
  | .hbmRow a => decide (addrStack a < g.hbmStacks)
  | _ => true

/-- Whether a test of a resource can complete now: its unit is in service; a row of a tile site is tested between tasks; a tile BIST
with no free spare waits until the site has no task (R426). A resource of a tile's site waits for its die to run, so that the slots can move
(R42). -/
def Mod.testable (m : Mod) (r : TestRes) : Bool :=
  let quiet := fun (d : Fin 12) (site : Nat) => match m.flash.tileAt d site with | some t => !m.takeOpen d t | none => true
  match r with
  | .padRow d site .. | .gbRow d site _ | .arrayRow d site _ | .imemRow d site _ => m.unitRuns d && quiet d site
  | .tile d site =>
    m.unitRuns d && (match m.flash.tileAt d site with
                   | some t => (m.flash.bestSpare d).isSome || (m.tile d t).owner.isNone
                   | none => true)
  | .bridgeLane edge .. => m.unitUp (edgeDie edge)
  | .fabricLane .. => m.linksUp
  | .hbmRow a => m.unitUp (hostDie (addrStack a))
  | .lpRow u _ => m.unitUp (12 + u.val)

/-- Errors of a resource in the last 24 hours (R427, R428). -/
def Mod.recentErrors (e : Env) (m : Mod) (r : TestRes) : Nat :=
  (m.flt.recent.filter (fun x => x.1 == r && decide (e.now < x.2 + dayNs))).length

/-! Lasting faults. -/

/-- Spare rows of a scratchpad bank (R71) and of a gradient buffer (R89). -/
def padSpares : Nat := 8
def gbSpares : Nat := 4

/-- After a row class has no spare left, the site that fails is given its tile BIST (R426). -/
def Acted.withBist (x : Acted) (e : Env) (d : Fin 12) (site : Fin 66) : Acted := { x with m := x.m.noteError e (.tile d site) }

/-- A spare row is taken. -/
def spareRow (m : Mod) (f : Flash → Flash) : Acted := ⟨m.writeFlash f, 1, 0⟩

def Mod.padFails (e : Env) (m : Mod) (d : Fin 12) (site : Fin 66) (bank row : Nat) : Acted :=
  if (m.flash.padRows.filter (fun x => x.d == d.val && x.site == site.val && x.bank == bank)).length < padSpares then
    spareRow m (fun f => { f with padRows := f.padRows ++ [⟨d, site, bank, row⟩] })
  else (m.siteFails e d site).withBist e d site

def Mod.gbFails (e : Env) (m : Mod) (d : Fin 12) (site : Fin 66) (row : Nat) : Acted :=
  if (m.flash.gbRows.filter (fun x => x.d == d.val && x.site == site.val)).length < gbSpares then
    spareRow m (fun f => { f with gbRows := f.gbRows ++ [⟨d, site, 0, row⟩] })
  else (m.siteFails e d site).withBist e d site

def Mod.arrayFails (e : Env) (m : Mod) (d : Fin 12) (site : Fin 66) (row : Nat) : Acted :=
  if m.flash.arraySpare.any (fun x => x.1 == d.val && x.2.1 == site.val) then (m.siteFails e d site).withBist e d site
  else spareRow m (fun f => { f with arraySpare := f.arraySpare ++ [(d.val, site.val, row)] })

/-- A bridge lane: the group's spare, or 15 lanes (R432). The spare is reported by the numbering of `physLane` (log 57). -/
def Mod.bridgeFails (e : Env) (m : Mod) (edge group lane : Nat) : Acted :=
  if m.flash.bridgeSpares.contains (edge, group) then
    let m := m.writeFlash (fun f => { f with degraded := f.degraded ++ [(edge, group)] })
    ⟨m.unitEvent (e.dieNow (edgeDie edge)) .bridgeDegraded (bridgeRes edge group lane) [], 8, 0⟩
  else ⟨m.writeFlash (fun f => { f with bridgeSpares := f.bridgeSpares ++ [(edge, group)] }), 3, bridgeRes edge group 16⟩

/-- The data lane that a physical lane of an I/O die carries, if any. -/
def Flash.carried (f : Flash) (io lane : Nat) : Option Nat := (List.range 16).find? (fun l => f.carrier io l == lane)

/-- A free spare lane of an I/O die: working and not in use (R348). -/
def Flash.freeLane (f : Flash) (io : Nat) : Option Nat :=
  [16, 17].find? (fun s => !f.laneFails.contains (io, s) && !f.laneSpares.any (fun x => x.1 == io && x.2.2 == s))

/-- A fabric lane: a spare lane, or its port narrows to two lanes, or goes down with fewer than two working (R348). -/
def Mod.laneFails (e : Env) (m : Mod) (io lane : Nat) : Acted :=
  let data := m.flash.carried io lane
  let m := if m.flash.laneFails.contains (io, lane) then m
    else m.writeFlash (fun f => { f with laneFails := f.laneFails ++ [(io, lane)] })
  match data with
  | none => ⟨m, 0, 0⟩
  | some l =>
    let port := l / 4
    let slate := e.ioNow io
    match m.flash.freeLane io with
    | some s =>
      let m := m.writeFlash (fun f => { f with laneSpares := f.laneSpares.filter (fun x => !(x.1 == io && x.2.1 == l)) ++ [(io, l, s)] })
      let m := m.updPort io port (fun p => { p with retraining := p.up })
      ⟨m.unitEvent slate .linkLaneSpared (laneRes io lane) (natLe 1 io ++ natLe 1 port ++ natLe 1 lane ++ natLe 1 s), 3, laneRes io s⟩
    | none =>
      let w := m.flash.working io port
      if w < 2 then ⟨m.dropPort io port, 0, 0⟩
      else if w = 3 then
        let m := m.updPort io port (fun p => { p with retraining := p.up })
        ⟨m.unitEvent slate .portDegraded (laneRes io lane) [], 7, 0⟩
      else ⟨m.updPort io port (fun p => { p with retraining := p.up }), 0, 0⟩

/-- ACT lines of a page are rewritten in the poisoned state (R337). -/
def Mod.poisonPage (m : Mod) (a : BitVec 32) : Mod :=
  { m with mem.regions := m.mem.regions.map (fun x =>
      if x.2.cls = .act then
        (x.1, (List.range x.2.pages.length).foldl (fun r i =>
          match r.pages[i]? with
          | some p => if p.stack == addrStack a && p.page == addrPage a && 2 * p.pair + p.half == addrChannel a then
              (pageLines i).foldl Region.poisonLine r else r
          | none => r) x.2)
      else x) }

/-- An HBM row: repaired once, then its page retired (R337, R338; the row is the one page that names it, log 30). -/
def Mod.hbmFails (e : Env) (m : Mod) (a : BitVec 32) (repairLeft : Bool) : Acted :=
  if repairLeft && !m.flash.repaired.contains a then
    ⟨(m.writeFlash (fun f => { f with repaired := f.repaired ++ [a] })).poisonPage a, 4, 0⟩
  else ⟨m.retirePage e a, 5, 0⟩

/-- The action of a lasting fault (R425). -/
def Mod.lastingFault (e : Env) (m : Mod) (r : TestRes) (repairLeft : Bool) : Acted :=
  match r with
  | .padRow d site bank row => m.padFails e d site bank row
  | .gbRow d site row => m.gbFails e d site row
  | .arrayRow d site row => m.arrayFails e d site row
  | .tile d site => m.siteFails e d site
  | .imemRow d site _ => (m.siteFails e d site).withBist e d site
  | .bridgeLane edge group lane => m.bridgeFails e edge group lane
  | .fabricLane io lane => m.laneFails e io lane
  | .hbmRow a => m.hbmFails e a repairLeft
  | .lpRow u _ => ⟨m.writeFlash (fun f => { f with lpRows := vmod f.lpRows u (fun x => x + 1) }), 4, 0⟩

/-- A suspect tile leaves its site before the tile BIST, when a spare is free (R426). -/
def Mod.clearSite (e : Env) (m : Mod) (r : TestRes) : Acted :=
  match r with
  | .tile d site =>
    match m.flash.tileAt d site, m.flash.bestSpare d with
    | some t, some x =>
      ⟨(m.leaveSite e d t).withCeiling e d (fun m => m.writeFlash (fun f => f.moveTile d t x)), 2, siteRes d x⟩
    | _, _ => ⟨m, 0, 0⟩
  | _ => ⟨m, 0, 0⟩

/-- SELF_TEST (R426 to R428). A test of a resource whose error has no row of its own stands for that error too. -/
def selfTest (t : TestRun) (e : Env) (m : Mod) : Mod :=
  if !m.testable t.res then m
  else
    let m := if m.flt.pendingTests.contains t.res then m else m.noteError e t.res
    let m := { m with flt.pendingTests := m.flt.pendingTests.filter (fun x => x != t.res) }
    let k := m.recentErrors e t.res
    let hbm := testClass t.res == 6
    let result := if !t.passed then 1 else if !hbm && 8 ≤ k then 2 else 0
    let pre := m.clearSite e t.res
    let a :=
      if result = 0 then { pre with m := { pre.m with flt.transient := vmodN pre.m.flt.transient (testClass t.res) (fun x => satAdd 32 x 1) } }
      else
        let b := pre.m.lastingFault e t.res t.repairLeft
        let m := { b.m with flt.lasting := vmodN b.m.flt.lasting (testClass t.res) (fun x => satAdd 32 x 1),
                            flt.recent := b.m.flt.recent.filter (fun x => x.1 != t.res) }
        if pre.action = 0 then { b with m := m } else ⟨m, pre.action, pre.spare⟩
    a.m.unitEvent (testSlate e t.res) .selfTest (testId t.res)
      (natLe 1 (testCode t.res) ++ natLe 1 result ++ natLe 1 a.action ++ natLe 4 (testPlace t.res) ++ natLe 2 (min k 0xFFFF) ++
        natLe 4 a.spare.toNat)

def execSelfTest (r : TestRun) (s : State) : Host.Outcome State Fault Refusal :=
  if s.fuses.grade.hasRes r.res then runMod (selfTest r) s else .fault .absentUnit

/-- SLOW_TIER_SCRUB: each corrected error is written back, counted, and followed by its row test (R260). -/
def slowTierScrub (u : Fin 2) (rows : List Nat) (e : Env) (m : Mod) : Mod :=
  if m.unitUp (12 + u.val) then rows.foldl (fun m r => m.noteError e (.lpRow u r)) m else m

def execSlowTierScrub (u : Fin 2) (rows : List Nat) (s : State) : Host.Outcome State Fault Refusal :=
  runMod (slowTierScrub u rows) s

end Sys2Proof.Machine
end

