-- ==== Sys2Proof/Machine/Ingest.lean ====
section
/-! DEFINITION. Ingest (15_fabric: R355 to R361): segments, rings, gap entries, and what PARK drops. -/

namespace Sys2Proof.Machine

/-! Segments (R356). -/

def segHandle (b : List Byte) : Nat := fieldAt b 0 4
def segStream (b : List Byte) : Nat := fieldAt b 4 4
def segSeq (b : List Byte) : Nat := fieldAt b 8 8
def segLength (b : List Byte) : Nat := fieldAt b 0x18 2

/-- Whether a segment's check value holds over its header and payload, and its payload has the length it gives. -/
def segOk (b : List Byte) : Bool :=
  b.length == 32 + segLength b && crc32c (slice b 0 0x1C ++ b.drop 32) == fieldAt b 0x1C 4

/-- SRAM of one I/O die for segments (R359). -/
def segBuffer : Nat := 4194304

/-- Bytes of segments that an I/O die holds. -/
def Ingest.heldBytes (g : Ingest) (io : Nat) : Nat :=
  (g.buf.filter (fun s => s.io == io)).foldl (fun acc s => acc + s.bytes.length) 0

/-- Rings whose drops the agent keeps in PARK (R361). -/
def parkedMax : Nat := 64

/-- A segment dropped in PARK: lowest and highest SEQ of its ring, the slate of the first drop, and the count of drops (R360, R361).
A segment whose CRC fails is dropped without a trace, since its SEQ cannot be trusted (DEDUCED from R359, log 29). -/
def Ingest.parkDrop (g : Ingest) (now : Nat) (b : List Byte) : Ingest :=
  let h := segHandle b
  let q := segSeq b
  if !segOk b then g
  else
    match Tbl.find g.parked h with
    | some (lo, hi, t, k) => { g with parked := Tbl.put g.parked h (min lo q, max hi q, t, k + 1) }
    | none => if g.parked.length < parkedMax then { g with parked := Tbl.put g.parked h (q, q, now, 1) } else g

/-- INGEST_ARRIVAL: the credit goes back in every condition; the segment is buffered, or dropped with only its header kept when the
buffer is full (R355, R359, R361). -/
def ingestArrival (io : Fin 8) (port : Fin 4) (seg : List Byte) (e : Env) (m : Mod) : Mod :=
  if !m.linksUp then m
  else
    let m := m.updPort io port (Port.credit 2)
    let slate := e.ioNow io
    if m.life.pstate = .park then { m with ing := m.ing.parkDrop slate seg }
    else
      let full := decide (segBuffer < m.ing.heldBytes io + seg.length)
      { m with ing := { m.ing with buf := m.ing.buf ++ [{ io := io, slate := slate, lostHere := full,
                                                          bytes := if full then seg.take 32 else seg }] } }

def execIngestArrival (io : Fin 8) (port : Fin 4) (seg : List Byte) (s : State) : Host.Outcome State Fault Refusal :=
  if s.fuses.grade.hasIo io then runMod (ingestArrival io port seg) s else .fault .absentUnit

/-! Rings (R357, R358). -/

def ringMagic : Nat := 0x474E4952

/-- A field of a ring header. -/
def Region.ring (r : Region) (o n : Nat) : Nat := leNat (r.readN o n)

def Region.nslots (r : Region) : Nat := r.ring 8 4
def Region.slotBytes (r : Region) : Nat := r.ring 0xC 4

/-- Whether a region has the form of a ring: PERSIST, large enough, with the magic number (R357, R359). -/
def Region.ringForm (r : Region) : Bool :=
  r.cls == .persist && decide (0x1000 ≤ r.len) && decide (0x1000 + r.nslots * r.slotBytes ≤ r.len) && r.ring 0 4 == ringMagic

/-- Whether a region is a ring that accepts segments, but for its STREAM (R359, condition 2). -/
def Region.isRing (r : Region) : Bool := r.ringForm && r.ring 0x48 4 % 2 == 1

/-- The ring that a segment's handle names. -/
def Mod.ringOf (m : Mod) (h : Nat) : Option Region :=
  match Tbl.find m.mem.regions h with
  | some r => if r.isRing then some r else none
  | none => none

/-- The ring, open or not, that a segment's handle names: condition 1 counts in it (R359). -/
def Mod.ringShaped (m : Mod) (h : Nat) : Option Region :=
  match Tbl.find m.mem.regions h with
  | some r => if r.ringForm then some r else none
  | none => none

/-- Add one to a header field of `n` bytes. -/
def Region.bump (r : Region) (o n : Nat) : Region := r.writeN o (natLe n (r.ring o n + 1))

/-- LAST_SLATE: the slate of a header update. -/
def Region.stamp (r : Region) (now : Nat) : Region := r.writeN 0x38 (natLe 8 now)

/-- Change the header of a ring. -/
def Mod.ringHead (e : Env) (m : Mod) (h : Nat) (f : Region → Region) : Mod :=
  m.updRegion (BitVec.ofNat 32 h) (fun r => (f r).stamp e.now)

/-! Gap entries (R360). -/

def gapFull : Nat := 1
def gapBuffer : Nat := 2
def gapParked : Nat := 3

/-- Offset of the gap entry of a GAPS count. -/
def gapAt (k : Nat) : Nat := 0x80 + k % 64 * 32

/-- Open a gap entry for `count` drops, with its INGEST_GAP event (R360). -/
def Mod.openGap (e : Env) (m : Mod) (h first last slate cause count : Nat) : Mod :=
  let m := m.ringHead e h (fun r =>
    let r := r.writeN (gapAt (r.ring 0x34 4)) (natLe 8 first ++ natLe 8 last ++ natLe 8 slate ++ natLe 8 cause)
    (r.bump 0x34 4).writeN 0x20 (natLe 8 (r.ring 0x20 8 + count)))
  m.unitEvent e.now .ingestGap (ioRes 0) (natLe 4 h ++ natLe 8 first ++ natLe 1 cause)

/-- One drop at an instant `slate`: it extends the most recent entry, or opens one (R360). -/
def Mod.gapDrop (e : Env) (m : Mod) (h seq cause slate : Nat) : Mod :=
  match Tbl.find m.mem.regions h with
  | none => m
  | some r =>
    let gaps := r.ring 0x34 4
    let at_ := gapAt (gaps + 63)
    if 0 < gaps && r.ring (at_ + 8) 8 + 1 == seq && r.ring (at_ + 24) 1 == cause then
      m.ringHead e h (fun r => (r.writeN (at_ + 8) (natLe 8 seq)).bump 0x20 8)
    else m.openGap e h seq seq slate cause 1

/-! The agent (R359). -/

/-- INGEST_UNROUTED, at most once per second per handle (R359); its detail names the handle. -/
def Mod.unrouted (e : Env) (m : Mod) (h : Nat) : Mod :=
  let k := BitVec.ofNat 32 h
  match m.ing.unrouted.find? (fun x => x.1 == k) with
  | some (_, t) =>
    if e.now < t + 1000000000 then m
    else ({ m with ing.unrouted := (m.ing.unrouted.filter (fun (x : BitVec 32 × Nat) => x.1 != k)) ++ [(k, e.now)] }).unitEvent e.now .ingestUnrouted
      (ioRes 0) (natLe 4 h)
  | none => ({ m with ing.unrouted := m.ing.unrouted ++ [(k, e.now)] }).unitEvent e.now .ingestUnrouted (ioRes 0) (natLe 4 h)

/-- Offset of a SEQ's slot. -/
def Region.slotAt (r : Region) (seq : Nat) : Nat := 0x1000 + seq % r.nslots * r.slotBytes

/-- Land a segment: payload first, then its 64-byte header (R358). -/
def Region.land (r : Region) (s : Seg) : Region :=
  let o := r.slotAt (segSeq s.bytes)
  let r := r.writeN (o + 64) (slice s.bytes 32 (segLength s.bytes))
  r.writeN o (natLe 8 (segSeq s.bytes) ++ slice s.bytes 0x10 8 ++ natLe 8 s.slate ++ slice s.bytes 0x18 4 ++ natLe 1 s.io ++
    List.replicate 35 0)

/-- LANDED and HIGH after a landing. -/
def Region.landed (r : Region) (seq : Nat) : Region := (r.bump 0x10 8).writeN 0x18 (natLe 8 (max (r.ring 0x18 8) seq))

/-- Conditions 3 to 6 against a value of CONSUMED; none when condition 5 holds. -/
def Mod.place? (e : Env) (m : Mod) (h consumed : Nat) (r : Region) (s : Seg) : Option Mod :=
  let seq := segSeq s.bytes
  if seq < consumed then some (m.ringHead e h (fun r => r.bump 0x2C 4))
  else if r.ring (r.slotAt seq) 8 = seq then some (m.ringHead e h (fun r => r.bump 0x28 4))
  else if consumed + r.nslots ≤ seq then none
  else some (m.ringHead e h (fun r => (r.land s).landed seq))

/-- One segment at the agent: the first condition that applies decides (R359). CONSUMED is read at a ring's first segment, and again
when condition 5 is met. -/
def Mod.takeSeg (e : Env) (m : Mod) (s : Seg) : Mod :=
  let h := segHandle s.bytes
  let form := m.ringShaped h
  let tooLong := match form with | some r => decide (r.slotBytes < segLength s.bytes + 64) | none => false
  if !s.lostHere && (!segOk s.bytes || tooLong) then
    (match form with | some _ => m.ringHead e h (fun r => r.bump 0x30 4) | none => m)
  else
    match m.ringOf h with
    | none => m.unrouted e h
    | some r =>
      if r.ring 4 4 ≠ segStream s.bytes then m.unrouted e h
      else if s.lostHere then m.gapDrop e h (segSeq s.bytes) gapBuffer s.slate
      else
        let fresh := r.ring 0x40 8
        let known := (Tbl.find m.ing.consumed h).getD fresh
        let m := { m with ing.consumed := Tbl.put m.ing.consumed h known }
        match m.place? e h known r s with
        | some m => m
        | none =>
          let m := { m with ing.consumed := Tbl.put m.ing.consumed h fresh }
          match m.place? e h fresh r s with
          | some m => m
          | none => m.gapDrop e h (segSeq s.bytes) gapFull e.now

/-- Whether the ingest agent works: the module runs, with memory trained (R361, R404). -/
def Mod.agentUp (m : Mod) : Bool := m.unitUp 0

/-- INGEST_SEGMENT: the oldest waiting segment (R359). -/
def ingestSegment (e : Env) (m : Mod) : Mod :=
  if !m.agentUp then m
  else
    match m.ing.buf with
    | [] => m
    | s :: r => ({ m with ing.buf := r }).takeSeg e s

def execIngestSegment (s : State) : Host.Outcome State Fault Refusal := runMod ingestSegment s

/-- CONSUMED_REREAD: CONSUMED of every ring that the agent knows is read again; a ring that is gone is forgotten (R359). -/
def consumedReread (_e : Env) (m : Mod) : Mod :=
  if m.agentUp then
    { m with ing.consumed := m.ing.consumed.filterMap (fun x => (m.ringOf x.1).map (fun r => (x.1, r.ring 0x40 8))) }
  else m

def execConsumedReread (s : State) : Host.Outcome State Fault Refusal := runMod consumedReread s

/-- At wake from PARK: one entry with cause PARKED for each ring with drops (R361). -/
def Mod.ingestWake (e : Env) (m : Mod) : Mod :=
  let l := m.ing.parked
  l.foldl (fun m x =>
    match m.ringOf x.1 with
    | none => m
    | some _ => m.openGap e x.1 x.2.1 x.2.2.1 x.2.2.2.1 gapParked x.2.2.2.2) { m with ing.parked := [] }

end Sys2Proof.Machine
end

