-- ==== Sys2Proof/Machine/Lifecycle.lean ====
section
/-! DEFINITION. Power, stages, resets, low-power states and the SMBus (18_start_reset: R403 to R418; R42, R43, R63, R319, R386,
R395, R444, R446). -/

namespace Sys2Proof.Machine

/-! What survives (R417). -/

/-- Clear the perturbation settings and TEST_ENABLE. -/
def Mod.clearTest (m : Mod) : Mod := { m with ptb := Ptb.cold, life.test := false }

/-- What the module has measured at its input: the management processor goes on measuring in every stage and power state (R401, R446). -/
def Power.measured (p old : Power) : Power := { p with p1ms := old.p1ms, vin := old.vin, i10us := old.i10us }

/-- The module after every domain but management always-on and time and safe has been off: flash, the cap in force, the record
buffer, the handle counts and the fault counts are kept; the host's side of the link is not the module's. -/
def Mod.afterOff (m : Mod) : Mod :=
  { Mod.cold with
      life := { m.life with stage := 0, pstate := .run, entering := none, test := false, startFailed := [], coldStart := false,
                            waking := false },
      flash := m.flash, flashOld := m.flashOld, flashOpen := m.flashOpen, mbx.regionCount := m.mbx.regionCount, mbx.graphCount := m.mbx.graphCount, recs := m.recs,
      host.mem := m.host.mem, host.msgs := m.host.msgs, host.smbus := m.host.smbus, pwr := (Power.cold m.pwr.cap).measured m.pwr, flt := m.flt,
      tick := m.tick }

/-- Per-plane offsets are lost with the I/O dies; the count and its registers are kept (R64, R417). -/
def TimeState.linksDown (t : TimeState) : TimeState := { t with offsets := Vector.replicate 8 none }

/-- The module with every domain off (R444), its flash kept, but for a write that the loss of power interrupts (R418). A latched trip holds
while PWR_EN stays asserted (R395, R445). -/
def State.off (s : State) (powered pwrEn cut : Bool) : State :=
  let f := s.mod.flashLoss cut
  { s with
      time := TimeState.cold, tally := TallyCh.cold,
      mod := { Mod.cold with life := { Life.cold with powered := powered, pwrEn := pwrEn, trip := s.mod.life.trip && pwrEn },
                             flash := f.flash, flashOld := f.flashOld, flashOpen := f.flashOpen,
                             pwr := Power.cold f.flash.defaultCap, host.mem := s.mod.host.mem, host.msgs := s.mod.host.msgs,
                             tick := s.mod.tick } }

/-! Power (R403, R444, R395). -/

/-- POWER_GOOD: PWR_EN is asserted, and a cold start begins (R403, R417); a module whose trip is still latched starts no stage (R395). -/
def execPowerGood (s : State) : Host.Outcome State Fault Refusal := .next (if s.mod.life.powered then s else s.off true true false)

/-- POWER_GOOD_LOST: every domain is switched off. A latched trip is released once PWR_EN is deasserted (R395, R444, R445). -/
def execPowerGoodLost (pwrEn cut : Bool) (s : State) : Host.Outcome State Fault Refusal :=
  .next (if s.mod.life.powered then s.off false pwrEn cut
    else { s with mod.life := { s.mod.life with pwrEn := pwrEn, trip := s.mod.life.trip && pwrEn } })

/-- The temperature at which the comparator of a unit trips (R395). -/
def tripAt (u : HotUnit) : Nat := match u with | .die _ | .io _ => 115 | .stack _ => 105

/-- THERMAL_TRIP: every domain but management always-on and time and safe is off; the trip is latched and kept in flash (R395). -/
def State.trip (s : State) (u : HotUnit) (temp : Nat) : State :=
  let m := s.mod.afterOff
  { s with time := s.time.linksDown, tally := TallyCh.cold,
           mod := ({ m with life := { m.life with stage := s.mod.life.stage, pstate := s.mod.life.pstate, trip := true } }).writeFlash
             (fun f => { f with tripRecord := some (u, temp) }) }

def execThermalTrip (u : HotUnit) (temp : Nat) (s : State) : Host.Outcome State Fault Refusal :=
  if (match u with
      | .stack st => decide (s.fuses.grade.hbmStacks ≤ st.val)
      | .io n => !s.fuses.grade.hasIo n
      | .die _ => false) then .fault .absentUnit
  else .next (if s.mod.life.powered && !s.mod.life.trip && decide (tripAt u ≤ temp) then s.trip u temp else s)

/-! Stages (R404 to R407). -/

/-- Whether the stages go on: powered, running, no trip. -/
def Mod.starting (m : Mod) (stage : Nat) : Bool :=
  m.life.powered && !m.life.trip && m.life.pstate == .run && m.life.stage == stage

/-- A stage is reached; vector 67 is raised (R325, R405), and the limits of R406 follow. -/
def Mod.reach (e : Env) (m : Mod) (stage : Nat) : Mod :=
  (m.withPace e (fun m => { m with life.stage := stage })).raise 67

/-- The THERMAL_TRIP record of the previous run, reported once during stage A of a cold start (R395, R408). -/
def Mod.reportTrip (e : Env) (m : Mod) : Mod :=
  match m.flash.tripRecord with
  | none => m
  | some (u, temp) =>
    if m.life.coldStart then
      (m.writeFlash (fun f => { f with tripRecord := none })).unitEvent e.now .thermalTrip
        (match u with | .die k => dieRes k | .io n => ioRes n | .stack st => stackRes st) (natLe 1 (min temp 255))
    else m

/-- STAGE_A_REACHED. -/
def stageA (e : Env) (m : Mod) : Mod :=
  if m.starting 0 then
    let m := m.reach e 1
    { m.reportTrip e with life.waking := false }
  else m

def execStageAReached (s : State) : Host.Outcome State Fault Refusal := runMod stageA s

/-- STAGE_B_REACHED: C0 and U0 have passed their start tests (R406, R407). -/
def stageB (e : Env) (m : Mod) : Mod :=
  if m.starting 1 && !m.life.startFailed.contains 0 && !m.life.startFailed.contains 12 then (m.reach e 2).gapDie 0 else m

def execStageBReached (s : State) : Host.Outcome State Fault Refusal := runMod stageB s

/-- Measure the tile ceilings of a die (R37 to R40): sites without a task at once, and low ones leave for spares in ascending order of site
(DESIGN CHOICE, log 53); the others wait for the end of their tile's task. -/
def Mod.measureDie (e : Env) (m : Mod) (d : Fin 12) (ops : List Nat) : Mod :=
  let idle := (List.range 66).filter (m.siteFree d)
  let busy := (List.range (min 66 ops.length)).filter (fun x => !m.siteFree d x)
  m.withCeiling e d (fun m =>
    let m := m.writeFlash (fun f => idle.foldl (fun f x => f.age d x (ops.getD x 7)) f)
    idle.foldl (fun m x => m.spareIfLow e d x)
      { m with flt.pendingMeas := m.flt.pendingMeas ++ busy.map (fun x => (d.val, x, ops.getD x 7)) })

/-- The ceiling measurements of stage C, at cold start only (R37). -/
def Mod.measureAll (e : Env) (m : Mod) (ceilings : List (List Nat)) : Mod :=
  (List.finRange 12).foldl (fun m d => m.measureDie e d (ceilings.getD d.val [])) m

/-- Tiles that fail their start test leave their sites for spares (R404, R430); the start test of a die whose rail is held finds none (R42). -/
def Mod.spareFailed (e : Env) (m : Mod) (failed : List (Fin 12 × Fin 66)) : Mod :=
  (failed.filter (fun x => m.unitRuns x.1)).foldl (fun m x => (m.siteFails e x.1 x.2).m) m

/-- The panel time paths are calibrated (R404). -/
def Flash.calibrate (f : Flash) (delays : List Nat) : Flash :=
  { f with pathDelay := f.pathDelay.mapIdx (fun i old => delays.getD i old) }

/-- Dies 1 to 11 enter service with empty arrays (R137). -/
def Mod.gapRest (m : Mod) : Mod := ((List.finRange 12).filter (fun d => d != 0)).foldl (fun m d => m.gapDie d) m

/-- STAGE_C_REACHED: every die has passed; the OP3 limit lifts; tiles are spared, time paths calibrated and, at a cold start, the tile
ceilings measured (R404, R406, R407). -/
def stageC (ceilings : List (List Nat)) (delays : List Nat) (failed : List (Fin 12 × Fin 66)) (e : Env) (m : Mod) : Mod :=
  if m.starting 2 && m.life.startFailed.isEmpty then
    let m := (m.reach e 3).spareFailed e failed
    let m := m.writeFlash (fun f => f.calibrate delays)
    ((if m.life.coldStart then m.measureAll e ceilings else m).measureDue e).gapRest
  else m

def execStageCReached (ceilings : List (List Nat)) (delays : List Nat) (failed : List (Fin 12 × Fin 66)) (s : State) :
    Host.Outcome State Fault Refusal :=
  runMod (stageC ceilings delays failed) s

/-- STAGE_D_REACHED: a plane in service and fabric time locked (R350). -/
def stageD (e : Env) (m : Mod) : Mod :=
  if m.starting 3 && !m.planesIn.isEmpty && e.time.locked then m.reach e 4 else m

def execStageDReached (s : State) : Host.Outcome State Fault Refusal := runMod stageD s

/-- A module fault ends the graphs on the module (R435); their unfinished nodes end as by an abort (DESIGN CHOICE, log 58). -/
def Mod.endGraphs (e : Env) (m : Mod) : Mod := m.graphs.foldl (fun m g => (m.abortGraph e g.1).1) m

/-- START_FAILED: a unit fails its start test, C0 or U0 on the way to stage B, any unit on the way to stage C (R407). The loss of a die is
a module fault. -/
def startFailed (k : Fin 14) (e : Env) (m : Mod) : Mod :=
  if (m.starting 1 && (k.val == 0 || k.val == 12) || m.starting 2) && !m.life.startFailed.contains k then
    (({ m with life.startFailed := m.life.startFailed ++ [k.val] }).unitEvent e.now .startFailed (dieRes k) []).endGraphs e
  else m

def execStartFailed (k : Fin 14) (s : State) : Host.Outcome State Fault Refusal := runMod (startFailed k) s

/-! Module reset (R408 to R410). -/

/-- A module reset with its cause: unfinished graphs end without completion entries, and the record counts them (R408, R410). -/
def State.moduleReset (s : State) (cause : Nat) : State :=
  let n := s.mod.graphs.length
  { s with time := s.time.linksDown, tally := TallyCh.cold,
           mod := s.mod.afterOff.unitEvent (s.time.keeper[0]).ns .moduleReset mgmtRes (natLe 1 cause ++ natLe 4 n) }

/-- Whether a module reset, or a cold start, is in progress and has not reached stage A: a further trigger only extends it (R409). -/
def Life.resetting (l : Life) : Bool := l.stage == 0 && !l.waking

/-- A wake from DEEP_PARK: the stages start again; a lockstep module registers its pace group (R413, R415, R416). -/
def Mod.wake (m : Mod) : Mod :=
  { m.clearTest with life := { m.life with pstate := .run, stage := 0, waking := true, coldStart := false, test := false },
                     pwr.group := if m.lockstep then paceGroupOf m.pwr.ctrl else 0 }

/-- MOD_RESET_N or PERST#: a wake in DEEP_PARK, else a module reset (R408, R409, R413, R416). A tripped module stays off (R395). -/
def State.resetPin (s : State) (cause : Nat) : State :=
  if !s.mod.life.powered || s.mod.life.trip then s
  else if s.mod.life.pstate = .deepPark then { s with mod := s.mod.wake }
  else if s.mod.life.resetting then s
  else s.moduleReset cause

def execModResetN (s : State) : Host.Outcome State Fault Refusal := .next (s.resetPin 1)
def execPerst (s : State) : Host.Outcome State Fault Refusal := .next (s.resetPin 2)

/-- The command in service, when it is of an opcode. -/
def State.serving (s : State) (op : Nat) : Bool :=
  match s.mod.mbx.inService with
  | some (_, ent) => entOpcode ent == op
  | none => false

/-- RESET_MODULE: no completion is posted (R319, R408). -/
def execResetModule (s : State) : Host.Outcome State Fault Refusal :=
  .next (if s.serving 0x0051 then s.moduleReset 3 else s)

/-- SHUTDOWN: completes when power may be removed without loss of flash-held data: the flash write under way has ended (R319, R418). -/
def shutdown (e : Env) (m : Mod) : Mod :=
  m.command 0x0052 (fun _ => true) (fun n ent => ({ m with flashOpen := false }).complete e n ent .ok [])

def execShutdown (s : State) : Host.Outcome State Fault Refusal := runMod shutdown s

/-! Low-power states (R413 to R417). -/

/-- The command in service asks for a park state. -/
def Mod.askPark (e : Env) (m : Mod) (code : Nat) (p : PState) : Mod :=
  m.command 0x0050 (fun ent => entArg ent 8 1 == code) (fun n ent =>
    if !m.graphs.isEmpty then m.complete e n ent .graphsPending []
    else { m with life.entering := some p })

/-- PARK (R415). -/
def execPark (s : State) : Host.Outcome State Fault Refusal := runMod (fun e m => m.askPark e 1 .park) s

/-- DEEP_PARK (R413, R415). -/
def execDeepPark (s : State) : Host.Outcome State Fault Refusal := runMod (fun e m => m.askPark e 2 .deepPark) s

/-- PARK_RUN: PARK with state 0 wakes the module from PARK (R361, R413, R417); outside PARK it completes with OK (DEDUCED, log 68). -/
def parkRun (e : Env) (m : Mod) : Mod :=
  m.command 0x0050 (fun ent => entArg ent 8 1 == 0) (fun n ent =>
    if m.life.pstate = .park then
      let m := ({ m.clearTest with life.pstate := .run }).raise 67
      (((List.finRange 12).foldl (fun m d => if m.unitUp d then m.gapDie d else m) m).ingestWake e).complete e n ent .ok []
    else m.complete e n ent .ok [])

def execParkRun (s : State) : Host.Outcome State Fault Refusal := runMod parkRun s

/-- A die without its tile core and vector engines: its NaN record is kept (R197, R417). -/
def Die.park (x : Die) : Die := { x with tiles := Vector.replicate 64 Tile.cold }

/-- The tally channels of the compute dies, whose domains are off in PARK, hold no state; the firmware's stays (R386, R419). -/
def parkTally (v : Vector TallyCh 13) : Vector TallyCh 13 := v.mapFinIdx (fun k c _ => if k = 0 then c else TallyCh.cold)

/-- The module in PARK: memory contents are kept, scratchpads, registers and slots are lost (R413, R417). -/
def Mod.enterPark (m : Mod) : Mod :=
  ({ m.clearTest with life := { m.life with pstate := .park, entering := none, test := false }, slots := [],
                      dies := m.dies.map Die.park, tally := parkTally m.tally }).raise 67

/-- The module in DEEP_PARK: stage and memory contents are gone, the links are down, PWR_CTRL is kept (R405, R413, R415, R417). -/
def Mod.enterDeep (m : Mod) : Mod :=
  let x := m.afterOff
  { x with life.pstate := .deepPark, pwr.ctrl := m.pwr.ctrl }

/-- PARK_STATE_REACHED: the state is reached and the PARK command completes (R415). -/
def State.parkReached (s : State) : State :=
  let e : Env := ⟨s.fuses, s.time⟩
  match s.mod.life.entering, s.mod.mbx.inService with
  | some .park, some (n, ent) => { s with mod := s.mod.enterPark.complete e n ent .ok [] }
  | some .deepPark, some (n, ent) =>
    State.holdOver { s with time := s.time.linksDown, tally := TallyCh.cold,
                            mod := (s.mod.postEntry e n ent .ok 0 []).enterDeep }
  | _, _ => s

def execParkStateReached (s : State) : Host.Outcome State Fault Refusal := .next s.parkReached

/-! Die resets (R42, R43, R63, R411, R412). -/

/-- Parts of a node that a unit's reset strikes: those not done that run on the unit (of a COLLECTIVE the issued buckets), every part of a joint
node, whose units lose what they hold, and those of a COPY that reads or writes the slow tier of an update die (R43, R412). -/
def Mod.struck (m : Mod) (k : Nat) (x : Node) (r : NRun) : List Nat :=
  let slow := (m.tierUnits x).contains k
  (List.range r.parts.length).filter (fun i =>
    match r.parts[i]? with
    | some p => (x.joint || !p.done) && (x.ty != tyCollective || r.issued.contains i) &&
        ((x.partUnits p).contains k && (decide (12 ≤ k) || r.on.contains k || !x.dies.contains k) || slow)
    | none => false)

/-- One running node at the reset of a unit: a TILE take fails with DIE_RESTARTED, and so do the parts of other nodes, each by its own count
(R43, R300, R301, R412). An UPDATE that has committed completes (R280). -/
def Mod.strike (e : Env) (k : Nat) (detail : List Byte) (m : Mod) (x : Nat × Nat × Node × NRun) : Mod :=
  let g := x.1
  let n := x.2.1
  let nd := x.2.2.1
  let r := x.2.2.2
  if !r.isRunning || r.outcome.isSome || (nd.ty = tyUpdate && r.committed) then m
  else if nd.ty = tyTile then
    if r.taken.contains k then m.setOutcome g n .dieRestarted detail else m
  else
    match m.struck k nd r with
    | [] => m
    | ps => m.partsFault e g n ps nd r .dieRestarted detail

/-- The takes on a unit at its reset. -/
def Mod.strikeAll (e : Env) (m : Mod) (k : Nat) (detail : List Byte) : Mod := m.allNodes.foldl (Mod.strike e k detail) m

/-- A compute die in reset: its tiles are lost, its NaN record re-armed with its policy kept (R197, R411, R417). Its comparators
keep their times (R63). -/
def Die.reset (x : Die) : Die := { x with inReset := true, nan := x.nan.arm x.nan.halt, tiles := x.tiles.map Tile.wipe }

/-- A die reset of unit `k` with its cause and the lowest voltage seen (R43, R408, R411, R412). -/
def Mod.dieReset (e : Env) (m : Mod) (k cause mv : Nat) : Mod :=
  let m := m.unitEvent (e.unitNow k) .dieReset (dieRes k) (natLe 1 cause)
  let m := m.strikeAll e k (natLe 1 cause ++ if cause = 1 then natLe 2 mv else [])
  let m := if k < 12 then { m with dies := vmodN m.dies k Die.reset }
    else { m with udies := vmodN m.udies (k - 12) (fun u => { u with inReset := true }) }
  m.clearTest

/-- DIE_RESET by firmware (R411). -/
def execDieReset (d : Fin 12) (s : State) : Host.Outcome State Fault Refusal :=
  runMod (fun e m => if m.unitUp d then m.dieReset e d 2 0 else m) s

/-- UPDATE_DIE_RESET by firmware (R412). Root computations restart from their snapshots, which the slow tier keeps. -/
def execUpdateDieReset (u : Fin 2) (s : State) : Host.Outcome State Fault Refusal :=
  runMod (fun e m => if m.unitUp (12 + u.val) then m.dieReset e (12 + u.val) 2 0 else m) s

/-- What has waited for a unit goes on if it runs now: the launches of comparators that fired meanwhile, and the measurements of its free tiles
(R37, R42, R63). -/
def Mod.unitResumes (e : Env) (m : Mod) (k : Nat) : Mod :=
  if k < 12 && m.unitRuns k then (m.cuesProceed k).measureDue e else m

/-- DIE_REJOIN (R411, R412): the tiles of a die that returns are in a gap (R137), and what waited for the die goes on. -/
def dieRejoin (k : Fin 14) (e : Env) (m : Mod) : Mod :=
  if k.val < 12 then
    if (vget m.dies k.val Die.cold).inReset then
      (({ m with dies := vmodN m.dies k.val (fun x => { x with inReset := false }) }).gapDie (Fin.ofNat 12 k.val)).unitResumes e k.val
    else m
  else { m with udies := vmodN m.udies (k.val - 12) (fun u => { u with inReset := false }) }

def execDieRejoin (k : Fin 14) (s : State) : Host.Outcome State Fault Refusal := runMod (dieRejoin k) s

/-- RAIL_HOLD and RAIL_RELEASE: at the release, what waited for the unit goes on (R42). -/
def holdRail (k : Fin 14) (on : Bool) (e : Env) (m : Mod) : Mod :=
  if m.unitUp k then (m.updUnit k (fun u => { u with held := on })).unitResumes e k.val else m

def execRailHold (k : Fin 14) (s : State) : Host.Outcome State Fault Refusal := runMod (holdRail k true) s
def execRailRelease (k : Fin 14) (s : State) : Host.Outcome State Fault Refusal := runMod (holdRail k false) s

/-- The voltage below which the supervisor resets a die, in mV (R42). -/
def underMv : Nat := 500

/-- CORE_UNDERVOLT: the event names the die and the lowest voltage seen, and the die is reset (R42). -/
def coreUndervolt (k : Fin 14) (mv : Nat) (e : Env) (m : Mod) : Mod :=
  if m.unitUp k && mv < underMv then
    let m := m.unitEvent (e.unitNow k) .coreUndervolt (dieRes k) (natLe 2 mv)
    (m.updUnit k (fun u => { u with held := true })).dieReset e k 1 mv
  else m

def execCoreUndervolt (k : Fin 14) (mv : Nat) (s : State) : Host.Outcome State Fault Refusal := runMod (coreUndervolt k mv) s

/-! SMBus (R446). -/

/-- The byte of READ_STAGE. -/
def stageByte (_e : Env) (m : Mod) : List Byte :=
  let p := match m.life.pstate with | .run => 0 | .park => 1 | .deepPark => 2
  natLe 1 (m.life.stage + place p 3 + place (boolNat m.life.trip) 5 + place (boolNat m.alert) 6)

/-- The 48 bytes of READ_TEMP: 0xFF for a value of a die or stack that is not powered or not present (R386, R446). -/
def tempBytes (e : Env) (m : Mod) : List Byte :=
  let dies := (List.range 14).map (fun k => if m.diesOn then min 254 (vget m.pwr.units k PUnit.cold).tj else 0xFF)
  let hbmStacks := (List.range 32).map (fun st =>
    if m.stackOn e.fuses.grade st then min 254 (vget m.pwr.hbmStacks st StackSt.cold).temp else 0xFF)
  let seen := (dies ++ hbmStacks).filter (fun t => t != 0xFF)
  let top := if seen.isEmpty then 0xFF else seen.foldl max 0
  (dies ++ hbmStacks ++ [top, 0]).map (BitVec.ofNat 8)

/-- The 8 bytes of READ_POWER. -/
def powerBytes (_e : Env) (m : Mod) : List Byte :=
  natLe 2 m.pwr.p1ms.toNat ++ natLe 2 m.pwr.vin.toNat ++ natLe 2 m.pwr.i10us.toNat ++ natLe 2 m.pwr.cap.toNat

/-- Command codes of the SMBus (R446). -/
def smbStage : Byte := 0x01
def smbTemp : Byte := 0x02
def smbPower : Byte := 0x03
def smbWake : Byte := 0x10

/-- What a read command answers: whether it is a Block Read, and its data; no other code is acknowledged. -/
def smbRead (code : Byte) : Option (Bool × (Env → Mod → List Byte)) :=
  if code = smbStage then some (false, stageByte)
  else if code = smbTemp then some (true, tempBytes)
  else if code = smbPower then some (true, powerBytes)
  else none

/-- CRC-8 of SMBus packet error checking: polynomial x^8 + x^2 + x + 1, from zero (PRESUMED from SMBus 3.0, log 65). -/
def smbPec (bs : List Byte) : Byte :=
  bs.foldl (fun c b => (List.range 8).foldl (fun (c : Byte) _ => if c.getLsbD 7 then (c <<< 1) ^^^ 0x07 else c <<< 1) (c ^^^ b)) 0

/-- The module's 7-bit address (R445). -/
def Fuses.smbAddr (f : Fuses) : BitVec 7 := 0x58#7 + f.slotId.setWidth 7

/-- The address byte of a transfer: bit 0 set for a read. -/
def smbAddrByte (a : BitVec 7) (read : Bool) : Byte := BitVec.ofNat 8 (2 * a.toNat + boolNat read)

/-- What a read transaction returns, or none where it is not acknowledged: its data, and the packet error code over every byte of the
transfer where the host asks for it (R446). -/
def smbAnswer (addr : BitVec 7) (code : Byte) (pec : Bool) (e : Env) (m : Mod) : Option (List Byte) :=
  if !m.life.powered || addr != e.fuses.smbAddr then none
  else
    (smbRead code).map (fun r =>
      let data := r.2 e m
      let wire := [smbAddrByte addr false, code, smbAddrByte addr true] ++ (if r.1 then [BitVec.ofNat 8 data.length] else []) ++ data
      data ++ (if pec then [smbPec wire] else []))

/-- A read transaction: the SMBus interface answers from power good, in every stage and power state. -/
def smbus (code : Byte) (addr : BitVec 7) (pec : Bool) (e : Env) (m : Mod) : Mod := { m with host.smbus := smbAnswer addr code pec e m }

def execReadStage (addr : BitVec 7) (pec : Bool) (s : State) : Host.Outcome State Fault Refusal := runMod (smbus smbStage addr pec) s
def execReadTemp (addr : BitVec 7) (pec : Bool) (s : State) : Host.Outcome State Fault Refusal := runMod (smbus smbTemp addr pec) s
def execReadPower (addr : BitVec 7) (pec : Bool) (s : State) : Host.Outcome State Fault Refusal := runMod (smbus smbPower addr pec) s

/-- Whether a Send Byte is acknowledged: it goes to the module, carries a command that the module knows, and its packet error code, if it has
one, is right (R446). -/
def smbSendOk (e : Env) (m : Mod) (addr : BitVec 7) (code : Byte) (pec : Option Byte) : Bool :=
  m.life.powered && addr == e.fuses.smbAddr && code == smbWake &&
    (match pec with | some p => p == smbPec [smbAddrByte addr false, code] | none => true)

/-- WAKE: wakes the module from DEEP_PARK, and has no effect otherwise. -/
def smbSend (code : Byte) (addr : BitVec 7) (pec : Option Byte) (e : Env) (m : Mod) : Mod :=
  if smbSendOk e m addr code pec then
    let m := { m with host.smbus := some [] }
    if !m.life.trip && m.life.pstate == .deepPark then m.wake else m
  else { m with host.smbus := none }

def execWake (addr : BitVec 7) (pec : Option Byte) (s : State) : Host.Outcome State Fault Refusal := runMod (smbSend smbWake addr pec) s

end Sys2Proof.Machine
end

