-- ==== Sys2Proof/Machine/Tally.lean ====
section
/-! DEFINITION. The tally unit (19_tally_unit: R419 to R424): its channels, the order of their writes, and the commands
of the TLY block. -/

namespace Sys2Proof.Machine

/-- A write to TLY_CTRL (R421). CMD 0 and CMD 3 have no effect. -/
def TallyCh.control (c : TallyCh) (v : Word) : TallyCh :=
  let cmd := bits v.toNat 1 0
  let alive := BitVec.ofNat 8 (bits v.toNat 31 24)
  let poly := v.getLsbD 8
  if cmd = 1 || cmd = 2 then
    if alive = c.expected then
      { c with expected := c.expected + 1, run := alive, active := true, poly := poly,
               value := if cmd = 1 then BitVec.ofNat 64 (crcOnes poly) else c.value }
    else { c with stale := true, active := false }
  else c

/-- A data write of `n` bytes, low byte first (R422): discarded while ACTIVE is 0, else fed, and the channel is held for
its byte times (R423). -/
def TallyCh.feed (c : TallyCh) (n : Nat) (v : Word) : TallyCh :=
  if c.active then
    { c with value := BitVec.ofNat 64 (crcFeed c.poly c.shown.toNat (natLe n v.toNat)), busy := true }
  else c

/-- A write to TLY_VALUE replaces the running value; with POLY 0 the high half is ignored (R420, R423). -/
def TallyCh.setValue (c : TallyCh) (part : RegPart) (v : Word) : TallyCh :=
  let x := mergePart part c.value v
  { c with value := if c.poly then x else x &&& 0xFFFFFFFF#64 }

/-- A write to TLY_STATUS: ALIVE_STALE clears on a 1 (R424). -/
def TallyCh.clearStatus (c : TallyCh) (v : Word) : TallyCh := { c with stale := c.stale && !v.getLsbD 0 }

/-- One write taking effect. -/
def TallyCh.apply (c : TallyCh) (w : TlyWrite) : TallyCh :=
  match w with
  | .ctrl v => c.control v
  | .data n v => c.feed n v
  | .value part v => c.setValue part v
  | .status v => c.clearStatus v

/-- Writes take effect in arrival order; one that arrives while the channel is held waits (R423). -/
def TallyCh.arrive (c : TallyCh) (w : TlyWrite) : TallyCh :=
  if c.busy || !c.waiting.isEmpty then { c with waiting := c.waiting ++ [w] } else c.apply w

/-- Let waiting writes take effect until one holds the channel again. -/
def TallyCh.release (ws : List TlyWrite) (c : TallyCh) : TallyCh :=
  match ws with
  | [] => { c with waiting := [] }
  | w :: r => if c.busy then { c with waiting := w :: r } else TallyCh.release r (c.apply w)

/-- The channel has absorbed its data write (R423). -/
def TallyCh.absorbed (c : TallyCh) : TallyCh :=
  if c.busy then TallyCh.release c.waiting { c with busy := false } else c

/-- A host write to the TLY block reaches the host channel while the host port answers (R404, R419). -/
def tallyHost (w : TlyWrite) (s : State) : State :=
  if s.mod.portUp then { s with tally := s.tally.arrive w } else s

def execTlyStart (v : Word) (s : State) : Host.Outcome State Fault Refusal := .next (tallyHost (.ctrl v) s)
def execTlyResume (v : Word) (s : State) : Host.Outcome State Fault Refusal := .next (tallyHost (.ctrl v) s)
def execTlyData8 (v : Word) (s : State) : Host.Outcome State Fault Refusal := .next (tallyHost (.data 1 v) s)
def execTlyData16 (v : Word) (s : State) : Host.Outcome State Fault Refusal := .next (tallyHost (.data 2 v) s)
def execTlyData32 (v : Word) (s : State) : Host.Outcome State Fault Refusal := .next (tallyHost (.data 4 v) s)
def execTlyValueWrite (v : Word) (s : State) : Host.Outcome State Fault Refusal := .next (tallyHost (.value .whole v) s)
def execTlyStatusClear (v : Word) (s : State) : Host.Outcome State Fault Refusal := .next (tallyHost (.status v) s)

/-- Change one channel (R419). -/
def State.setChannel (s : State) (i : Nat) (f : TallyCh → TallyCh) : State :=
  if i = 0 then { s with tally := f s.tally } else { s with mod.tally := vmodN s.mod.tally (i - 1) f }

/-- TLY_WRITE_ABSORBED: a channel finishes absorbing a data write, and the next waiting write proceeds (R423). -/
def execTlyWriteAbsorbed (ch : Fin 14) (s : State) : Host.Outcome State Fault Refusal := .next (s.setChannel ch TallyCh.absorbed)

/-! Reading WIN_REG (R305). -/

/-- A channel once every earlier write has been absorbed: what a read of it returns (R423). -/
def TallyCh.settled (c : TallyCh) : TallyCh :=
  { c.waiting.foldl TallyCh.apply { c with busy := false, waiting := [] } with busy := false }

/-- A 64-bit register of WIN_REG (R305): an offset that no block defines reads as zero. `off` is a multiple of 8. The TLY
registers show the channel after every earlier write (R423). -/
def State.readReg (s : State) (off : Nat) : Word :=
  let m := s.mod
  if off = 0x0000 then m.mbxStatus
  else if off = 0x0040 then s.fuses.gradeReg
  else if off = 0x0100 then m.mbx.q0SqBase
  else if off = 0x0108 then m.mbx.q0CqBase
  else if off = 0x0110 then m.mbx.q0Cfg
  else if off = 0x0200 then BitVec.ofNat 64 (place (boolNat m.winValid) 32 + m.mbx.winHandle.toNat)
  else if off = 0x0208 then m.mbx.winOffset
  else if off = 0x0300 then BitVec.ofNat 64 m.recs.write
  else if off = 0x0308 then m.recs.read
  else if off = 0x100000 then BitVec.ofNat 64 (s.time.keeper[0]).ns
  else if off = 0x100008 then s.time.status
  else if off = 0x100010 then BitVec.ofNat 64 (place (boolNat s.time.ppsEdge) 1 + boolNat s.time.ppsEn)
  else if off = 0x100018 then s.time.ppsSlate
  else if off = 0x100020 then s.time.offset
  else if off = 0x100028 then BitVec.ofNat 64 (place m.lateMax.toNat 32 + m.lateCount.toNat)
  else if off = 0x200000 then s.tally.settled.ctrl
  else if off = 0x200008 then s.tally.settled.status
  else if off = 0x200010 then BitVec.ofNat 64 s.tally.settled.expected.toNat
  else if off = 0x200018 then s.tally.settled.shown
  else if off = 0x200020 then s.tally.settled.final
  else if off = 0x300000 then m.pwrStatus
  else if off = 0x300008 then m.pwrCap
  else if off = 0x300010 then m.pwr.ctrl
  else if 0x300100 ≤ off && off < 0x300170 then m.pwrDie ((off - 0x300100) / 8)
  else if 0x400000 ≤ off && off < 0x400030 then
    (if m.life.test then vget m.ptb.regs ((off - 0x400000) / 8) 0 else 0)
  else if 0x500000 ≤ off && off < 0x500800 then BitVec.ofNat 64 (leNat (Mem.readN m.msix.table (off - 0x500000) 8))
  else if off = 0x501000 then m.msix.pba.extractLsb' 0 64
  else if off = 0x501008 then m.msix.pba.extractLsb' 64 64
  else if 0x1000000 ≤ off && off < 0x2000000 then
    BitVec.ofNat 64 (leNat ((List.range 8).map (fun i => m.recs.byteAt (off - 0x1000000 + i))))
  else 0

/-- Bytes of WIN_REG (R304). -/
def winRegBytes : Nat := 67108864

/-- Whether an access of WIN_REG has a width that it takes: 4 or 8 bytes, naturally aligned (R305). -/
def regAccess (off bytes : Nat) : Bool := (bytes == 4 || bytes == 8) && off % bytes == 0 && decide (off + bytes ≤ winRegBytes)

/-- The answer to a host read of WIN_REG: the bytes of the register, or an Unsupported Request (R305). No row of the table is a
register read, and a read changes nothing: this is what the state answers it with. -/
def State.hostRead (s : State) (off bytes : Nat) : Tlp :=
  if regAccess off bytes then .data (natLe bytes ((s.readReg (off / 8 * 8)).toNat / 2 ^ (8 * (off % 8)))) else .unsupported

/-- The properties of the PCIe function (R304): Device ID, class code, bytes of BAR0 and BAR2, MSI-X vectors, largest payload and read
request, bits of a tag, power states, and whether it reports errors (AER). -/
structure PciId where
  device : BitVec 16
  cls : BitVec 24
  bar0 : Nat
  bar2 : Nat
  vectors : Nat
  maxPayload : Nat
  maxReadRequest : Nat
  tagBits : Nat
  powerStates : List PciPower
  aer : Bool
deriving DecidableEq, Repr

/-- What the function presents (R304). Its power state and error status stand in `HostSide`. -/
def pciId : PciId :=
  { device := 0x7240#16, cls := 0x120000#24, bar0 := winRegBytes, bar2 := 68719476736, vectors := 128, maxPayload := 512,
    maxReadRequest := 4096, tagBits := 10, powerStates := [.d0, .d3hot], aer := true }

end Sys2Proof.Machine
end

