-- ==== Sys2Proof/Machine/Commands.lean ====
section
/-! DEFINITION. Queries, queues, records, test mode and plain register writes (13_host_interface: R305, R306, R316, R317, R320 to
R325; R402, R437 to R439). -/

namespace Sys2Proof.Machine

/-- Write bytes to host memory. -/
def Mod.toHost (m : Mod) (addr : Nat) (bs : List Byte) : Mod := { m with host.mem := Mem.writeN m.host.mem addr bs }

/-! IDENTIFY and QUERY. -/

/-- The 256-byte IDENTIFY page (R320). -/
def identifyPage (e : Env) (m : Mod) : List Byte :=
  let num := if m.life.stage < 4 then 0xFFFFFFFF else match m.fab.number with | some n => n.toNat | none => 0xFFFFFFFF
  padTo 256 (natLe 8 e.fuses.gradeReg.toNat ++ padTo 16 e.fuses.serial ++ natLe 4 Config.firmwareVersion.toNat ++ natLe 4 0x00010000 ++
    natLe 4 Config.continuityRevision.toNat ++ natLe 4 num ++ natLe 1 (max 1 m.life.stage))

/-- IDENTIFY. -/
def identify (e : Env) (m : Mod) : Mod :=
  m.command 0x0001 (fun _ => true) (fun n ent => (m.toHost (entArg ent 8 8) (identifyPage e m)).complete e n ent .ok [])

def execIdentify (s : State) : Host.Outcome State Fault Refusal := runMod identify s

/-- Fabric lanes in service: four for a whole port, two for a narrowed one (R26, R348). A port that is down or not yet trained counts with
the lanes that it has: R26 and R321 do not say whether its lanes are in service (DESIGN CHOICE, log 59). -/
def Mod.lanesIn (m : Mod) (g : Grade) : Nat :=
  ((List.range 8).filter g.hasIo).foldl (fun acc io =>
    (List.range 4).foldl (fun acc p =>
      let w := m.flash.working io p
      acc + (if w = 4 then 4 else if 2 ≤ w then 2 else 0)) acc) 0

/-- Page 0 (R321). -/
def page0 (e : Env) (m : Mod) : List Byte :=
  padTo 64 (natLe 8 (m.rawMB e.fuses.grade) ++ natLe 4 m.flash.mappedOut.length ++ natLe 2 (m.lanesIn e.fuses.grade) ++
    natLe 1 e.time.planes.toNat)

/-- Page 1: aged ceilings of the sites, then die ceilings (R321). -/
def page1 (m : Mod) : List Byte :=
  (List.range 792).map (fun i => BitVec.ofNat 8 (m.flash.agedOf (i / 66) (i % 66))) ++
    (List.range 12).map (fun d => BitVec.ofNat 8 (m.flash.dieCeiling d))

def DailyDie.bytes (x : DailyDie) : List Byte :=
  padTo 64 (x.opTime.toList.flatMap (natLe 4) ++ natLe 4 x.wakes ++ natLe 4 x.toneUs ++ natLe 1 x.maxTj ++ natLe 1 x.minOp)

def stageBytes (x : Nat × Nat × Nat × Nat) : List Byte := natLe 4 x.1 ++ natLe 4 x.2.1 ++ natLe 4 x.2.2.1 ++ natLe 4 x.2.2.2

/-- The 960 bytes of the dailies (R402). -/
def Dailies.bytes (x : Dailies) : List Byte :=
  padTo 64 (natLe 4 x.step.toNat ++ natLe 4 0 ++ natLe 8 x.opened ++ natLe 8 x.closed ++ natLe 8 x.energy ++ natLe 2 x.maxP ++
    natLe 2 x.minCap ++ natLe 4 x.belowDuty ++ natLe 4 x.paceSent ++ natLe 4 x.paceFollow) ++
  x.dies.toList.flatMap DailyDie.bytes ++ x.stages.toList.flatMap stageBytes

/-- Page 2: the last closed snapshot; zero before the first has closed (DESIGN CHOICE, log 14). -/
def page2 (m : Mod) : List Byte :=
  match m.pwr.lastDaily with
  | some x => x.bytes
  | none => List.replicate 960 0

/-- Tiles of a die that lie on another site than their own: its spare sites in use. -/
def Flash.sparesUsed (f : Flash) (d : Nat) : Nat := ((f.active d).filter (fun a => a.1 != a.2)).length

/-- How many entries of a list belong to a key. -/
def countOn {α : Type} (l : List α) (key : α → Nat) (k : Nat) : Nat := (l.filter (fun x => key x == k)).length

/-- Page 3: the counts (R437). -/
def page3 (m : Mod) : List Byte :=
  let f := m.flash
  let per := fun (k w : Nat) (v : Nat → Nat) => (List.range k).flatMap (fun i => natLe w (min (v i) (2 ^ (8 * w) - 1)))
  let planes := planeMask m.planesIn
  per 12 1 f.sparesUsed ++ per 12 1 (countOn f.lost (fun x => x.1)) ++ per 12 2 (countOn f.arraySpare (fun x => x.1)) ++
    per 12 2 (countOn f.padRows (fun x => x.d)) ++ per 12 2 (countOn f.gbRows (fun x => x.d)) ++
    per 16 1 (countOn f.bridgeSpares (fun x => x.1)) ++ per 8 1 (countOn f.laneSpares (fun x => x.1)) ++
    natLe 8 planes.toNat ++ per 32 2 (fun st => (m.retiredOf st).length) ++ per 32 1 (countOn f.mappedOut (fun x => x.1)) ++
    per 2 2 (fun u => vget f.lpRows u 0) ++ List.replicate 12 0 ++ per 9 4 (fun c => vget m.flt.transient c 0) ++
    per 9 4 (fun c => vget m.flt.lasting c 0) ++ List.replicate 8 0

/-- A QUERY page. -/
def queryPage (e : Env) (m : Mod) (p : Nat) : List Byte :=
  if p = 0 then page0 e m else if p = 1 then page1 m else if p = 2 then page2 m else page3 m

/-- QUERY (R321). -/
def query (e : Env) (m : Mod) : Mod :=
  m.command 0x0002 (fun _ => true) (fun n ent =>
    let bs := (queryPage e m (entArg ent 0x10 2)).take (entArg ent 0x14 4)
    (m.toHost (entArg ent 8 8) bs).complete e n ent .ok (natLe 4 bs.length))

def execQuery (s : State) : Host.Outcome State Fault Refusal := runMod query s

/-! Queues (R316, R317). -/

/-- CREATE_QUEUE; QUEUE_INVALID for a queue that exists (DEDUCED from R306, log 31). -/
def createQueue (e : Env) (m : Mod) : Mod :=
  m.command 0x0003 (fun _ => true) (fun n ent =>
    let k := entArg ent 8 1
    match m.queue k with
    | some _ => m.complete e n ent .queueInvalid []
    | none =>
      let q := HQueue.create (BitVec.ofNat 64 (entArg ent 0x10 8)) (BitVec.ofNat 64 (entArg ent 0x18 8)) (entArg ent 9 1)
        (entArg ent 0xA 1) (entArg ent 0xB 1) (BitVec.ofNat 32 (entArg ent 0xC 4))
      ({ m with mbx.queues := vmodN m.mbx.queues k (fun _ => some q) }).complete e n ent .ok [])

def execCreateQueue (s : State) : Host.Outcome State Fault Refusal := runMod createQueue s

/-- DELETE_QUEUE: its completion is posted, to the queue that it deletes too, and unfetched entries are discarded (R314, R317). -/
def deleteQueue (e : Env) (m : Mod) : Mod :=
  m.command 0x0004 (fun _ => true) (fun n ent =>
    let k := entArg ent 8 1
    match m.queue k with
    | none => m.complete e n ent .queueInvalid []
    | some _ =>
      if m.graphsOn k then m.complete e n ent .graphsPending []
      else
        let m := { m with mbx.inService := none }.postEntry e n ent .ok 0 []
        ({ m with mbx.queues := vmodN m.mbx.queues k (fun _ => none) }).serveAll e)

def execDeleteQueue (s : State) : Host.Outcome State Fault Refusal := runMod deleteQueue s

/-! READ_RECORDS (R324). -/

/-- Whether a context sees a record. -/
def RecUnit.visible (u : RecUnit) (ctx : BitVec 32) : Bool := ctx == 0 || u.ctx == some ctx

/-- Units of the records from a list that a context sees, up to `room` units; an extended record is not split, and the first that
does not fit ends the copy. -/
def takeRecords (room : Nat) (ctx : BitVec 32) (l : List RecUnit) : List RecUnit :=
  match l with
  | [] => []
  | u :: r =>
    if !u.visible ctx then takeRecords room ctx r
    else if u.head && room < u.ext + 1 then []
    else if room = 0 then []
    else u :: takeRecords (room - 1) ctx r

/-- What READ_RECORDS copies: the first sequence and the units. It starts at a record head not yet lost. -/
def RecBuf.copy (b : RecBuf) (ctx : BitVec 32) (first room : Nat) : Nat × List (List Byte) :=
  let from_ := (b.units.filter (fun u => decide (first ≤ u.seq))).dropWhile (fun u => !u.head)
  let l := takeRecords room ctx from_
  ((match l with | u :: _ => u.seq | [] => match from_ with | u :: _ => u.seq | [] => b.write), l.map (fun u => u.bytes))

/-- READ_RECORDS. -/
def readRecords (e : Env) (m : Mod) : Mod :=
  m.command 0x0040 (fun _ => true) (fun n ent =>
    let r := m.recs.copy (entContext ent) (entArg ent 0x10 8) (entArg ent 0x18 4)
    (m.toHost (entArg ent 8 8) r.2.flatten).complete e n ent .ok (natLe 8 r.1 ++ natLe 4 r.2.length))

def execReadRecords (s : State) : Host.Outcome State Fault Refusal := runMod readRecords s

/-! Test mode and perturbation (R438, R439). -/

/-- TEST_ENABLE with enable 1. -/
def testEnable (e : Env) (m : Mod) : Mod :=
  m.command 0x00F0 (fun ent => entArg ent 8 1 == 1) (fun n ent => ({ m with life.test := true }).complete e n ent .ok [])

def execTestEnable (s : State) : Host.Outcome State Fault Refusal := runMod testEnable s

/-- TEST_ENABLE with enable 0 clears every PTB register. -/
def testEnableClear (e : Env) (m : Mod) : Mod :=
  m.command 0x00F0 (fun ent => entArg ent 8 1 == 0) (fun n ent => m.clearTest.complete e n ent .ok [])

def execTestEnableClear (s : State) : Host.Outcome State Fault Refusal := runMod testEnableClear s

/-- Fields of the PTB registers; reserved bits stay zero. -/
def ptbMask (r : Nat) : Word :=
  match r with
  | 0 => 0xFFFFFFFF0000001F#64
  | 1 => 0x000003FFFF003FFF#64
  | 2 => 0x0001FFFFFFFF00FF#64
  | 3 => 0x0000FFFFFF0FFFFF#64
  | _ => 0x00000000000FFFFF#64

/-- A field limited to a range. -/
def clampField (v : Word) (hi lo least most : Nat) : Word :=
  let x := bits v.toNat hi lo
  let y := max least (min most x)
  BitVec.ofNat 64 (v.toNat - place x lo + place y lo)

/-- A field written beyond its range takes its limit (R438, R439). All ranged fields lie in the low halves. -/
def ptbClamp (r : Nat) (v : Word) : Word :=
  match r with
  | 0 => v
  | 1 => clampField v 13 0 0 10000
  | 2 => clampField (clampField v 31 16 64 65535) 7 0 0 224
  | _ => clampField v 19 0 0 1000000

/-- PTB_WRITE: ignored while TEST is 0. -/
def ptbWrite (r : Fin 6) (part : RegPart) (v : Word) (_e : Env) (m : Mod) : Mod :=
  if m.portUp && m.life.test then
    { m with ptb.regs := vmod m.ptb.regs r (fun old =>
        let x := mergePart part old v &&& ptbMask r
        if part = .high then x else ptbClamp r x) }
  else m

def execPtbWrite (r : Fin 6) (part : RegPart) (value : Word) (s : State) : Host.Outcome State Fault Refusal :=
  runMod (ptbWrite r part value) s

/-! Plain register writes (R305, R306). -/

/-- Change the module of a state. -/
def State.onMod (s : State) (f : Env → Mod → Mod) : State := { s with mod := f ⟨s.fuses, s.time⟩ s.mod }

/-- Send the pending vectors of the MSI-X table that are no longer masked. -/
def Mod.flushPba (m : Mod) : Mod :=
  (List.range 128).foldl (fun m v =>
    if m.msix.pba.getLsbD v && !m.msix.masked v then
      { m with msix.pba := m.msix.pba &&& ~~~(1#128 <<< v), host.msgs := m.host.msgs ++ [v] }
    else m) m

/-- A write into the MSI-X table; of an entry's last four bytes only the mask bit is held (PRESUMED, log 7). -/
def Mod.writeMsix (m : Mod) (o bytes : Nat) (v : Word) : Mod :=
  let t := (List.range bytes).foldl (fun t i =>
    let b := BitVec.ofNat 8 (v.toNat / 2 ^ (8 * i))
    let a := o + i
    Mem.write t a (if a % 16 = 12 then b &&& 1#8 else if 12 < a % 16 then 0#8 else b)) m.msix.table
  ({ m with msix.table := t }).flushPba

/-- The part of a register that an access reaches. -/
def accessPart (off bytes : Nat) : RegPart := if bytes = 8 then .whole else if off % 8 = 0 then .low else .high

/-- Mask of MBX_WIN_OFFSET. -/
def winOffMask : Word := 0xFFFFFFFFFFFFF000#64

/-- A host write to a register: `reg` is the offset of its 8 bytes. Registers that have a row of their own take that row's meaning;
read-only registers and undefined offsets ignore the write. A doorbell does what its row does with nothing new in the ring. -/
def State.writeReg (s : State) (reg off bytes : Nat) (v : Word) : State :=
  let part := accessPart off bytes
  let m := s.mod
  if reg = 0x0100 then s.onMod (writeQ0Base false part v)
  else if reg = 0x0108 then s.onMod (writeQ0Base true part v)
  else if reg = 0x0110 then (if part = .high then s else s.onMod (writeQ0Cfg (mergePart part m.mbx.q0Cfg v)))
  else if reg = 0x0200 then
    (if part = .high then s else { s with mod.mbx.winHandle := v.extractLsb' 0 32 })
  else if reg = 0x0208 then { s with mod.mbx.winOffset := mergePart part m.mbx.winOffset v &&& winOffMask }
  else if reg = 0x0308 then
    { s with mod := ({ m with recs.read := mergePart part m.recs.read v }).recFull m.recs.unread }
  else if 0x1000 ≤ reg && reg < 0x1200 then (if part = .high then s else s.onMod (ringSq (Fin.ofNat 64 ((reg - 0x1000) / 8)) v []))
  else if 0x1200 ≤ reg && reg < 0x1400 then (if part = .high then s else s.onMod (ringCq (Fin.ofNat 64 ((reg - 0x1200) / 8)) v))
  else if reg = 0x100010 then
    (if part = .high then s else { s with time.ppsEn := v.getLsbD 0, time.ppsEdge := v.getLsbD 1 })
  else if reg = 0x200000 then (if part = .high then s else tallyHost (.ctrl v) s)
  else if reg = 0x200008 then (if part = .high then s else tallyHost (.status v) s)
  else if reg = 0x200018 then tallyHost (.value part v) s
  else if reg = 0x200028 then (if part = .high then s else tallyHost (.data 1 v) s)
  else if reg = 0x200030 then (if part = .high then s else tallyHost (.data 2 v) s)
  else if reg = 0x200038 then (if part = .high then s else tallyHost (.data 4 v) s)
  else if reg = 0x300010 then s.onMod (writePwrCtrl part v)
  else if 0x400000 ≤ reg && reg < 0x400030 then s.onMod (ptbWrite (Fin.ofNat 6 ((reg - 0x400000) / 8)) part v)
  else if 0x500000 ≤ reg && reg < 0x500800 then { s with mod := m.writeMsix (off - 0x500000) bytes v }
  else s

/-- REGISTER_WRITE: 4 or 8 bytes, naturally aligned; any other access completes with an Unsupported Request (R305). -/
def registerWrite (off bytes : Nat) (v : Word) (s : State) : State :=
  if !s.mod.portUp then s
  else if regAccess off bytes then s.writeReg (off / 8 * 8) off bytes v
  else { s with mod := s.mod.unsupported }

def execRegisterWrite (off bytes : Nat) (value : Word) (s : State) : Host.Outcome State Fault Refusal :=
  .next (registerWrite off bytes value s)

/-! MSI-X (R325). -/

/-- MSIX_MERGE_INTERVAL_END: what was merged goes out as one message, which opens the next interval. -/
def mergeEnd (v : Fin 128) (_e : Env) (m : Mod) : Mod :=
  let bit := 1#128 <<< v.val
  let m' := { m with msix.isOpen := m.msix.isOpen &&& ~~~bit, msix.merged := m.msix.merged &&& ~~~bit }
  if m.msix.merged.getLsbD v then m'.raise v else m'

def execMsixMergeIntervalEnd (v : Fin 128) (s : State) : Host.Outcome State Fault Refusal := runMod (mergeEnd v) s

end Sys2Proof.Machine
end

