-- ==== Sys2Proof/Machine/Submit.lean ====
section
/-! DEFINITION. SUBMIT_GRAPH (12_task_graphs: R281 to R293; R112, R194, R202, R203, R215, R223, R226, R228, R239, R240, R244, R258,
R264, R265, R363 to R367, R374, R379, R406, R431, R452): the submission image, checks 1 to 10, acceptance. -/

namespace Sys2Proof.Machine

/-! The image (R281, R283, R284, R289, R293). -/

/-- The image of a submission: a byte reader over its region, from the image's first byte. -/
structure Image where
  rd : Nat → Nat → Nat
  len : Nat

def Image.header (im : Image) : GHeader :=
  { flags := im.rd 6 2, nnodes := im.rd 8 4, nedges := im.rd 0xC 4, nodeOff := im.rd 0x10 4, edgeOff := im.rd 0x14 4,
    stageOff := im.rd 0x18 4, nstages := im.rd 0x1C 2, step := BitVec.ofNat 32 (im.rd 0x20 4), seed := BitVec.ofNat 64 (im.rd 0x28 8),
    cutNode := im.rd 0x30 4, cutBundle := im.rd 0x34 4, cutPass := im.rd 0x38 4, cutRegion := BitVec.ofNat 32 (im.rd 0x3C 4),
    imageLen := im.rd 0x40 8 }

def Image.regEnt (im : Image) (o : Nat) : RegEnt :=
  ⟨BitVec.ofNat 32 (im.rd o 4), BitVec.ofNat 8 (im.rd (o + 4) 1), im.rd (o + 8) 8, im.rd (o + 16) 8⟩

/-- Whether a region entry breaks no reserved byte: bytes 5 to 7 zero, and an unused entry all zero (R284). -/
def Image.regOk (im : Image) (o : Nat) : Bool :=
  im.rd (o + 5) 3 == 0 && (im.rd (o + 4) 1 != 0xFF || (im.rd o 4 == 0 && im.rd (o + 8) 8 == 0 && im.rd (o + 16) 8 == 0))

def Image.node (im : Image) (h : GHeader) (i : Nat) : Node :=
  let o := h.nodeOff + 512 * i
  { ty := im.rd o 1, phase := im.rd (o + 1) 1, takes := im.rd (o + 2) 1, flags := im.rd (o + 3) 1, mb := im.rd (o + 4) 2,
    stage := im.rd (o + 6) 1, block := im.rd (o + 7) 1, reel := BitVec.ofNat 32 (im.rd (o + 8) 4),
    dieMask := BitVec.ofNat 16 (im.rd (o + 0xC) 2), udie := im.rd (o + 0xE) 1, nslot := im.rd (o + 0xF) 1,
    tileMask := BitVec.ofNat 64 (im.rd (o + 0x10) 8), cueT := im.rd (o + 0x18) 8,
    param := (List.range 96).map (fun k => BitVec.ofNat 8 (im.rd (o + 0x20 + k) 1)),
    regs := (List.range 16).map (fun k => im.regEnt (o + 0x80 + 24 * k)),
    reservedOk := (List.range 16).all (fun k => im.regOk (o + 0x80 + 24 * k)) }

/-- An edge as its 8 bytes give it, with whether its reserved bits are zero. -/
def Image.edge (im : Image) (h : GHeader) (i : Nat) : Edge :=
  let w := im.rd (h.edgeOff + 8 * i) 8
  ⟨bits w 23 0, bits w 47 24, bitAt w 48, bits w 63 49 == 0⟩

def Image.blockEnt (im : Image) (o : Nat) : BlockEnt := ⟨BitVec.ofNat 32 (im.rd o 4), im.rd (o + 8) 8, im.rd (o + 16) 8⟩

def Image.stage (im : Image) (h : GHeader) (i : Nat) : StageEnt :=
  let o := h.stageOff + 64 * i
  { quota := im.rd o 8, stumps := BitVec.ofNat 32 (im.rd (o + 8) 4), acts := BitVec.ofNat 32 (im.rd (o + 0xC) 4),
    replay := BitVec.ofNat 32 (im.rd (o + 0x10) 4), offload := BitVec.ofNat 32 (im.rd (o + 0x14) 4), replayLen := im.rd (o + 0x18) 8,
    offloadLen := im.rd (o + 0x20) 8,
    blocks := (List.range (im.rd (o + 0x2C) 2)).map (fun k => im.blockEnt (im.rd (o + 0x28) 4 + 24 * k)) }

/-- Check 1 on a stage entry: NBLOCK in range, its block entries inside the image, reserved fields zero, no reserved policy. -/
def Image.stageOk (im : Image) (h : GHeader) (i : Nat) : Bool :=
  let o := h.stageOff + 64 * i
  let nb := im.rd (o + 0x2C) 2
  let bo := im.rd (o + 0x28) 4
  decide (1 ≤ nb) && decide (nb ≤ 255) && im.rd (o + 0x2E) 18 == 0 && decide (bo + 24 * nb ≤ h.imageLen) &&
    (List.range nb).all (fun k => decide (im.rd (bo + 24 * k) 4 < 8) && im.rd (bo + 24 * k) 4 % 4 != 3 && im.rd (bo + 24 * k + 4) 4 == 0)

def maxNodes : Nat := 262144

/-- Check 1 on the header and the tables' places. -/
def Image.headOk (im : Image) : Bool :=
  let h := im.header
  let nodesIn := decide (1 ≤ h.nnodes) && decide (h.nnodes ≤ maxNodes)
  im.rd 0 4 == 0x48505247 && im.rd 4 2 == 1 && decide (h.flags < 4) && decide (h.nedges ≤ 2 ^ 24) && h.nodeOff % 64 == 0 &&
    h.edgeOff % 8 == 0 && h.stageOff % 64 == 0 && decide (h.nstages ≤ 8) && im.rd 0x1E 2 == 0 && im.rd 0x24 4 == 0 &&
    im.rd 0x48 56 == 0 && (bitAt h.flags 1 || im.rd 0x30 16 == 0) && decide (128 ≤ h.imageLen) && decide (h.imageLen ≤ im.len) &&
    decide (h.edgeOff + 8 * h.nedges ≤ h.imageLen) && decide (h.stageOff + 64 * h.nstages ≤ h.imageLen) &&
    (!nodesIn || decide (h.nodeOff + 512 * h.nnodes ≤ h.imageLen)) && (List.range h.nstages).all (im.stageOk h)

/-! Check 3: parameter blocks (R226 and the rules of each type). -/

/-- A region that the context may name. -/
def Mod.ownRegion (m : Mod) (ctx : BitVec 32) (h : BitVec 32) : Option Region :=
  match m.region h with
  | some r => if ctx = 0 || r.ctx = ctx then some r else none
  | none => none

/-- Whether the bytes of a region entry can be read by a check: its handle is one that the context may name, and its range lies inside. The
checks before check 4 leave an entry that it will refuse to it (R291). -/
def Mod.readable (m : Mod) (ctx : BitVec 32) (r : RegEnt) : Bool :=
  match m.ownRegion ctx r.handle with
  | some g => decide (r.off + r.len ≤ g.len)
  | none => false

/-- Index bytes `o` to `o + k - 1` of a parameter block: each names an entry, or is 0xFF for none, used or not (R226, R284). -/
def Node.indexOk (x : Node) (o k : Nat) : Bool := (List.range k).all (fun i => decide (x.par (o + i) 1 < 16) || x.par (o + i) 1 == 0xFF)

/-- A region operand: the parameter byte at `o` names an entry of a kind, long enough. -/
def Node.has (x : Node) (o : Nat) (kinds : List (BitVec 8)) (len : Nat) : Bool :=
  decide (x.par o 1 < 16) && kinds.contains (x.parEnt o).kind && decide (len ≤ (x.parEnt o).len)

/-- An operand that may be absent. -/
def Node.may (x : Node) (o : Nat) (kinds : List (BitVec 8)) (len : Nat) : Bool := x.par o 1 == 0xFF || x.has o kinds len

def kIn : List (BitVec 8) := [0#8]
def kOut : List (BitVec 8) := [1#8]
def kRec : List (BitVec 8) := [2#8]

/-- Parameter bytes from `o` on are zero. -/
def Node.tailZero (x : Node) (o : Nat) : Bool := (x.param.drop o).all (fun b => b == 0)

/-- An FP64 or FP32 code that is finite and not negative. -/
def finNonNeg (f : FSpec) (c : Nat) : Bool := f.isFin c && !((f.decode c).lt .zero) && decide (c < 2 ^ (f.ebits + f.fbits))

/-- A record operand on a 64-byte boundary (R191). -/
def Node.recAt (x : Node) (o len : Nat) : Bool := x.has o kRec len && (x.parEnt o).off % 64 == 0

def Node.convertOk (x : Node) : Bool :=
  let c := x.cvt
  let bytes := fun fmt => ceilDiv (c.elems * fmtBits fmt) 8
  decide (c.sfmt ≤ 8) && decide (c.tfmt ≤ 8) && decide (x.par 0xA 1 < 4) && x.has 0xB kIn (bytes c.sfmt) && x.has 0xC kOut (bytes c.tfmt) &&
    (if isMx c.tfmt then x.has 0xD kOut c.scales else x.par 0xD 1 == 0xFF) &&
    (if c.tfmt ≤ 1 then x.par 0xE 1 == 0xFF || x.recAt 0xE 128 else x.recAt 0xE 128) && (x.par 0xF 1 == 0xFF || x.has 0xF kRec 64) &&
    (if isMx c.sfmt then x.has 0x10 kIn c.scales else x.par 0x10 1 == 0xFF) && x.tailZero 0x11

def Node.copyOk (x : Node) : Bool :=
  x.has 0 kIn (x.par 8 8) && x.has 1 kOut (x.par 8 8) && zeroAt x.param 2 6 && x.tailZero 0x10

def Node.assembleOk (x : Node) : Bool :=
  let p := x.asm
  let w := fmtBits p.out / 8
  let mat := p.n * p.n * p.batch * w
  let rhs := p.nrhs * p.n * p.batch * w
  decide (1 ≤ p.n) && decide (p.n ≤ 256) && decide (p.nrhs ≤ 64) && decide (1 ≤ p.batch) && decide (p.batch ≤ 65536) &&
    decide (p.out ≤ 1) && decide (p.pfmt ≤ 3) && decide (p.mfmt ≤ 3) && decide (p.flags < 32) && x.indexOk 0x14 11 && x.tailZero 0x1F &&
    (if p.reverse then
      x.has 0x14 kIn 0 && x.has 0x16 kIn (16 * p.np) && x.has 0x1A [1#8, 2#8] (w * srcElems (x.parEnt 0x14) p.pfmt) &&
        (if p.outer then x.has 0x1C kIn rhs && x.has 0x1D kIn rhs else x.has 0x18 kIn mat && (p.nrhs == 0 || x.has 0x19 kIn rhs)) &&
        (!p.gradMeas || (x.has 0x15 kIn 0 && x.has 0x17 kIn (16 * p.nm) && x.has 0x1B [1#8, 2#8] (w * srcElems (x.parEnt 0x15) p.mfmt))) &&
        x.may 0x1E kIn (if p.skipEnded then 0x40 + 16 * p.batch else 0)
     else
      (p.np == 0 || (x.has 0x14 kIn 0 && x.has 0x16 kIn (16 * p.np))) && (p.nm == 0 || (x.has 0x15 kIn 0 && x.has 0x17 kIn (16 * p.nm))) &&
        x.has 0x18 kOut mat && (p.nrhs == 0 || x.has 0x19 kOut rhs))

def Node.factorOk (x : Node) : Bool :=
  let p := x.facPar
  decide (1 ≤ p.n) && decide (p.n ≤ 256) && decide (p.kind ≤ 2) && decide (p.fmt ≤ 1) && decide (1 ≤ p.batch) && decide (p.batch ≤ 65536) &&
    decide (p.infmt ≤ 1) && decide (x.par 9 1 ≤ 1) && x.has 0xA kIn (p.n * p.n * p.batch * (fmtBits p.infmt / 8)) &&
    x.has 0xB kOut (factorBytes p.kind p.fmt p.n p.batch) && zeroAt x.param 0xC 4 && finNonNeg fp64 (x.par 0x10 8) && x.tailZero 0x18

def Node.solveOk (x : Node) : Bool :=
  let fl := x.par 2 1
  decide (1 ≤ x.par 0 2) && decide (x.par 0 2 ≤ 64) && decide (fl < 4) && decide (x.par 3 1 ≤ 1) && decide (x.par 4 1 ≤ 15) &&
    x.has 5 kIn 64 && x.has 6 kIn 0 && x.has 7 kOut 0 && (if bitAt fl 1 then x.par 3 1 == 0 && x.has 8 kIn 0 else x.may 8 kIn 0) &&
    x.may 9 kOut 0 && x.indexOk 5 5 && zeroAt x.param 0xA 6 && x.tailZero 0x18

def Node.iterOk (x : Node) : Bool :=
  let p := x.iter
  let w := fmtBits p.fmt / 8
  decide (1 ≤ p.n) && decide (p.n ≤ 16777216) && decide (1 ≤ p.nnz) && decide (p.nnz < 2 ^ 31) && decide (p.method ≤ 1) &&
    decide (p.precond ≤ 2) && (if p.precond = 2 then p.block == 2 || p.block == 4 || p.block == 8 else p.block == 0) &&
    decide (p.fmt ≤ 1) && decide (x.par 0xE 2 < 16) && finNonNeg fp64 (x.par 0x10 8) && finNonNeg fp64 (x.par 0x18 8) &&
    x.has 0x20 kIn (4 * (p.n + 1)) && x.has 0x21 kIn (4 * p.nnz) && x.has 0x22 kIn (w * p.nnz) && x.has 0x23 kIn (w * p.n) &&
    x.has 0x24 kOut (w * p.n) && (if p.warm then x.has 0x25 kIn (64 + w * p.n) else x.may 0x25 kIn 0) &&
    x.may 0x26 kOut (64 + w * p.n) && x.has 0x27 kOut 64 &&
    (!p.valgrad || (x.has 0x28 kIn (w * p.n) && x.has 0x29 kOut (w * p.nnz))) && x.indexOk 0x20 10 && x.tailZero 0x2A

def Node.updateOk (x : Node) : Bool :=
  let p := x.upd
  let f := fun o => finNonNeg fp32 (x.par o 4)
  let below1 := fun (v : FVal) => v.lt .one
  let small := fun s => p.pblock != 0 || decide (s ≤ 4096)
  decide (1 ≤ p.rows) && decide (p.rows < 2 ^ 31) && decide (1 ≤ p.cols) && decide (p.cols ≤ 65536) && decide (p.rule ≤ 3) &&
    (p.wfmt == 1 || p.wfmt == 2 || isMx p.wfmt) && decide (x.par 0x12 2 < 64) &&
    (p.proot == 1 || p.proot == 2 || p.proot == 4) && decide (p.ntouch < 2 ^ 31) && decide (1 ≤ p.k) && decide (p.delay ≤ p.k) &&
    decide (x.par 0x3E 2 ≤ 255) &&
    f 0x20 && f 0x24 && f 0x28 && f 0x2C && f 0x30 && f 0x34 && f 0x40 && f 0x44 && below1 p.b1 && below1 p.b2 && below1 p.bp &&
    (!p.kron || ((p.kleft || p.kright) && !p.embed && (!p.kleft || small p.rows) &&
      (!p.kright || small p.cols))) && p.pblock % 64 == 0 && decide (p.pblock ≤ 4096) &&
    x.has 0x15 kRec 64 && x.has 0x16 kIn (4 * p.cols * (if p.embed then p.ntouch else p.rows)) && x.has 0x17 kOut (wcBytes p) &&
    (x.par 0x18 1 == 0xFF || x.has 0x18 [0#8, 2#8] (16 + 8 * ceilDiv p.rows 64 * ceilDiv p.cols 64)) &&
    (if isMx p.wfmt then x.recAt 0x19 128 else x.par 0x19 1 == 0xFF || x.has 0x19 kRec 0) &&
    (x.par 0x1A 1 == 0xFF || x.has 0x1A kRec 64) && (if p.embed then x.has 0x1B kIn (4 * p.ntouch) else x.may 0x1B kIn 0) && x.tailZero 0x48

/-- Length tables (R367): sums that agree with the source and result regions, whole parts for every rank. -/
def Mod.tableOk (m : Mod) (x : Node) (c : Coll) : Bool :=
  let s := (x.parEnt 0x18).len
  let len := fun i => (m.lenEntry x i).getD 0
  let tabled := (x.parReg 0x1A).isSome && (c.op == 1 || c.op == 2 || c.op == 4)
  (!tabled || (if c.fabric then m.resLen x c c.rank else sumTo c.n (m.resLen x c)) == (x.parEnt 0x19).len) &&
  match c.op with
  | 1 => if (x.parReg 0x1A).isSome then (if c.fabric then sumTo c.n len == s else c.n * sumTo c.n len == s) else m.partLen x c 0 % (max 1 c.n * (fmtBits c.sfmt / 8)) == 0
  | 2 => if (x.parReg 0x1A).isNone then true else if c.fabric then len c.rank == s else sumTo c.n len == s
  | 4 => if c.fabric then m.partLen x c c.rank == s else sumTo c.n (m.partLen x c) == s
  | _ => true

/-- Parameter block of a COLLECTIVE (R363 to R367, R379). What a length table says is left out of account while check 4 will refuse its
entry. -/
def Mod.collectiveOk (m : Mod) (ctx : BitVec 32) (x : Node) : Bool :=
  let c := x.coll
  let unread := match x.parReg 0x1A with | some r => !m.readable ctx r | none => false
  let sum := c.red == 0
  let fmts := if c.reduces && sum then (if c.sfmt = 0 then c.rfmt == 0 else c.rfmt == 1 || c.rfmt == 2) else c.rfmt == c.sfmt
  let tab := match c.op with | 1 | 2 => 8 * c.n | 4 => 8 * c.n * c.n | _ => 0
  let l := m.partLen x c c.rank
  decide (c.op ≤ 6) && decide (c.red ≤ 1) && decide (x.par 2 1 ≤ 1) && decide (c.sfmt ≤ 2) && fmts && decide (x.par 6 2 ≤ 1) &&
    (if c.fabric then decide (c.group ≤ 11) && decide (1 ≤ c.n) && decide (c.rank < c.n) else
      c.group == 0 && x.par 0xA 2 == 0 && c.rank == 0 && decide (c.op ≤ 4)) &&
    (if c.op = 3 || c.op = 5 || c.op = 6 then decide (c.peer < c.n) else c.peer == 0) &&
    (if c.reduces then c.bucket % 4096 == 0 && decide (4096 ≤ c.bucket) && decide (c.bucket ≤ 67108864) else c.bucket == 0) &&
    (c.op == 6 || x.has 0x18 kIn 0) && (c.op == 5 || x.has 0x19 kOut 0) &&
    (if c.op = 4 then x.has 0x1A kIn tab else x.may 0x1A kIn tab) &&
    (if c.thin then c.fabric && c.reduces && sum && c.sfmt == 1 && l % 1024 == 0 &&
        x.has 0x1B kRec (roundUp (0x40 + (x.parEnt 0x18).len) 64 + (x.parEnt 0x18).len)
     else x.par 0x1B 1 == 0xFF) && x.indexOk 0x18 4 && x.tailZero 0x1C && (unread || m.tableOk x c) &&
    (c.op == 5 || unread || decide ((if c.fabric then m.resLen x c c.rank else sumTo c.n (m.resLen x c)) ≤ (x.parEnt 0x19).len))

/-- Parameter block of a node. -/
def Mod.paramOk (m : Mod) (ctx : BitVec 32) (x : Node) : Bool :=
  match x.ty with
  | 2 => x.convertOk
  | 3 => x.copyOk
  | 4 => m.collectiveOk ctx x
  | 5 => x.assembleOk
  | 6 => x.factorOk
  | 7 => x.solveOk
  | 8 => x.iterOk
  | 9 => x.updateOk
  | 12 => x.tailZero 8
  | _ => x.tailZero 0

/-- Placement of a node under its type (R285, R363, R452). -/
def Node.placementOk (x : Node) : Bool :=
  let d := x.dieMask != 0
  let t := x.tileMask != 0
  let u := decide (x.udie ≤ 1)
  let noU := x.udie == 0xFF
  (x.dieMask &&& 0xF000#16) == 0 && (noU || u) &&
    match x.ty with
    | 1 | 2 | 8 => d && t && noU
    | 3 => !t && ((d && noU) || (!d && u))
    | 4 => !t && noU && (if x.par 2 1 = 1 then !d else d)
    | 5 | 6 | 7 => d && !t && noU
    | 9 => u && d == t
    | _ => !d && !t && noU

/-- Slot table of a node (check 3 of R288; its reserved bits and bytes are zero, R10). A table whose entry check 4 will refuse is not read. -/
def Mod.slotTableOk (m : Mod) (ctx : BitVec 32) (x : Node) : Bool :=
  let kinds := fun k => (x.regs.filter (fun r => r.kind == k)).length
  if x.nslot = 0 then kinds 3#8 == 0 && kinds 4#8 == 0
  else
    kinds 3#8 == 1 && kinds 4#8 == 1 && decide (x.nslot ≤ 42) && ((x.entOf 4#8).getD ⟨0, 0, 0, 1⟩).len % 24 == 0 &&
      (!m.readable ctx ((x.entOf 4#8).getD ⟨0, 0, 0, 1⟩) ||
       let l := m.slotEnts x
       l.all (fun s => decide (s.rank < x.tiles.length) && decide (s.gb ≤ 41) && decide (s.flags ≤ 1)) &&
         (match x.entOf 4#8 with
          | some r => (List.range (r.len / 24)).all (fun i => leNat (m.entRead r (24 * i + 0xC) 4) == 0)
          | none => true) &&
         (List.range x.tiles.length).all (fun r => decide ((l.filter (fun s => s.rank == r)).length ≤ x.nslot)))

/-- Check 3 on a node. -/
def Mod.check3 (m : Mod) (ctx : BitVec 32) (h : GHeader) (x : Node) : Bool :=
  decide (1 ≤ x.ty) && decide (x.ty ≤ 12) && decide (x.phase ≤ 5) && decide (x.takes ≤ 15) &&
    (x.flags == 0 || (x.flags == 1 && x.ty == tyTile)) && (x.stage == 0xFF || decide (x.stage < h.nstages)) && x.placementOk &&
    x.reservedOk && x.regs.all (fun r => r.kind == 0xFF#8 || decide (r.kind.toNat ≤ 4)) &&
    (x.ty == tyTile || (x.reel == 0 && x.nslot == 0)) && (x.ty != tyCue || x.cueT != 0) && m.paramOk ctx x && m.slotTableOk ctx x

/-- Check 3 on an edge (R289). -/
def edgeOk (nn : Nat) (e : Edge) : Bool := decide (e.pred < e.succ) && decide (e.succ < nn) && e.zeroOk

/-! Check 4 (R284, R293, R258, R265, R315). -/

/-- Entries that must be of PERSIST class: GRAD, SLOTS and REC operands in HBM, a factor set, WSOUT (R284, R191, R223, R238, R244). -/
def Node.persistEnts (x : Node) : List RegEnt :=
  x.regs.filter (fun r => r.kind == 3#8 || r.kind == 4#8 || r.kind == 2#8) ++
    (if x.ty = tyFactor then [x.parEnt 0xB] else if x.ty = tyIter then (x.parReg 0x26).toList
     else if x.ty = tyUpdate then (x.parReg 0x18).toList else [])

/-- Whether an entry may lie in the slow tier: an UPDATE's state and a COPY's operands (R258). -/
def Node.maySlow (x : Node) (i : Nat) : Bool := (x.ty == tyUpdate && i == x.par 0x15 1) || x.ty == tyCopy

/-- The factor set of a SOLVE, as far as the submission tells it: of the last FACTOR node before it that writes the set, else of an unfinished
FACTOR node of another graph, else as it stands in memory (DEDUCED, log 23). -/
def Mod.solveSet (m : Mod) (ctx : BitVec 32) (nodes : List Node) (i : Nat) (x : Node) : Option FacSet :=
  let r := x.parEnt 5
  let makes := fun (y : Node) => y.ty == tyFactor && (y.parEnt 0xB).handle == r.handle && (y.parEnt 0xB).off == r.off
  let set := fun (y : Node) =>
    let p := y.facPar
    (⟨p.n, p.kind, p.fmt, p.batch, 0, 0, true⟩ : FacSet)
  match (nodes.take i).reverse.find? makes with
  | some y => some (set y)
  | none =>
    match m.allNodes.find? (fun y => makes y.2.2.1 && !y.2.2.2.isDone) with
    | some y => some (set y.2.2.1)
    | none => if m.readable ctx r && (m.facSet r).ok then some (m.facSet r) else none

/-- Whether a SOLVE's formats and regions fit a factor set (R226, R240). -/
def Node.solveFits (x : Node) (fs : FacSet) : Bool :=
  let bf := x.par 3 1
  let refine := bitAt (x.par 2 1) 1
  let vec := x.par 0 2 * fs.n * fs.batch * (fmtBits bf / 8)
  (if refine then fs.fmt == 1 && bf == 0 else bf == fs.fmt) && decide (fs.bytes ≤ (x.parEnt 5).len) &&
    decide (vec ≤ (x.parEnt 6).len) && decide (vec ≤ (x.parEnt 7).len) &&
    (!refine || decide (fs.n * fs.n * fs.batch * 8 ≤ (x.parEnt 8).len)) &&
    (match x.parReg 9 with | some r => decide (16 * fs.batch ≤ r.len) | none => true)

/-- Check 3 of a SOLVE's regions (R226). -/
def Mod.solveSizes (m : Mod) (ctx : BitVec 32) (nodes : List Node) (i : Nat) (x : Node) : Bool :=
  match m.solveSet ctx nodes i x with | some fs => x.solveFits fs | none => true

/-- The state region of an UPDATE agrees with its header and is large enough (R265; check 6). -/
def Mod.stateOk (m : Mod) (x : Node) : Bool :=
  let p := x.upd
  let r := x.parEnt 0x15
  let b := m.entRead r 0 64
  fieldAt b 0 4 == 0x53445055 && fieldAt b 4 1 == p.rule && fieldAt b 8 4 == p.rows && fieldAt b 0xC 4 == p.cols &&
    fieldAt b 0x28 8 == p.tensor && bitAt (fieldAt b 7 1) 0 == p.embed && decide (p.stateBytes (uhead b).jmax ≤ r.len)

/-- A COPY on an update die has that die's slow tier as source or destination (R452). -/
def Mod.copyPlaceOk (m : Mod) (x : Node) : Bool :=
  2 ≤ x.udie || [x.parEnt 0, x.parEnt 1].any (fun r => match m.region r.handle with | some g => g.cls == .slow && g.die == x.udie | none => false)

/-- Check 4 on a node. -/
def Mod.check4 (m : Mod) (ctx : BitVec 32) (x : Node) : Bool :=
  (x.ty != tyTile || (match Tbl.find m.mem.reels x.reel.toNat with | some r => ctx == 0 || r.ctx == ctx | none => false)) &&
    (x.regs.mapIdx (fun i r => (i, r))).all (fun y =>
      y.2.kind == 0xFF#8 || (match m.ownRegion ctx y.2.handle with
        | some g => decide (y.2.off + y.2.len ≤ g.len) && (g.cls != .slow || x.maySlow y.1) &&
            (x.ty != tyUpdate || y.1 != x.par 0x15 1 || (g.cls == .slow && g.die == x.udie)) &&
            (g.cls == .persist || !x.persistEnts.contains y.2 || (x.ty == tyUpdate && y.1 == x.par 0x15 1))
        | none => false))

/-- Check 4 on a stage: its regions allocated, of their classes, with the areas inside them. -/
def Mod.stageRegsOk (m : Mod) (ctx : BitVec 32) (s : StageEnt) : Bool :=
  let is := fun h cls len => match m.ownRegion ctx h with | some g => g.cls == cls && decide (len ≤ g.len) | none => false
  is s.stumps .persist 0 && is s.acts .act 0 && is s.replay .act s.replayLen &&
    (s.offload == 0xFFFFFFFF#32 || is s.offload .slow s.offloadLen)

/-! Checks 5 and 6. -/

/-- Whether two region entries overlap. -/
def entsMeet (a b : RegEnt) : Bool := a.handle == b.handle && decide (0 < a.len) && decide (0 < b.len) && rangeMeets (a.off, a.len) (b.off, b.len)

/-- Check 5: no OUT entry overlaps an IN, REC or other OUT entry. -/
def Node.check5 (x : Node) : Bool :=
  let l := x.regs.mapIdx (fun i r => (i, r))
  l.all (fun a => a.2.kind != 1#8 || l.all (fun b =>
    a.1 == b.1 || !(b.2.kind == 0#8 || b.2.kind == 1#8 || b.2.kind == 2#8) || !entsMeet a.2 b.2))

/-- Nodes that a node reaches along edges; edges point upward. -/
def reachFrom (edges : List Edge) (nn a : Nat) : List Nat :=
  (List.range nn).foldl (fun acc k =>
    if k = a || edges.any (fun e => e.succ == k && acc.contains e.pred) then acc ++ [k] else acc) []

def joined (edges : List Edge) (nn a b : Nat) : Bool := (reachFrom edges nn (min a b)).contains (max a b)

/-- Scale records of a node, and its watch record. -/
def Node.scaleRecs (x : Node) : List RegEnt :=
  if x.ty = tyConvert then (x.parReg 0xE).toList else if x.ty = tyUpdate then (x.parReg 0x19).toList else []
def Node.watchRecs (x : Node) : List RegEnt :=
  if x.ty = tyConvert then (x.parReg 0xF).toList else if x.ty = tyUpdate then (x.parReg 0x1A).toList else []
def Node.stateRecs (x : Node) : List RegEnt := if x.ty = tyUpdate then [x.parEnt 0x15] else []

def RegEnt.same (a b : RegEnt) : Bool := a.handle == b.handle && a.off == b.off

/-- Whether node `i` breaks check 6 against an earlier node `j`: a shared scale record or state region without a path (R194, R265), a
watch record named twice (R223), or a shared slot, whichever ranks name it, out of micro-batch order (R202, R292). -/
def Mod.clash6 (m : Mod) (edges : List Edge) (nn j i : Nat) (y x : Node) : Bool :=
  let meet := fun (a b : List RegEnt) => a.any (fun r => b.any r.same)
  (meet x.watchRecs y.watchRecs) || ((meet x.scaleRecs y.scaleRecs || meet x.stateRecs y.stateRecs) && !joined edges nn j i) ||
    (decide (x.mb ≤ y.mb) && m.shareSlot x y)

/-- Check 6 on a node's own slot table (R288). -/
def Mod.slots6 (m : Mod) (x : Node) : Bool :=
  let l := m.slotEnts x
  let grad := (x.entOf 3#8).getD ⟨0, 0, 0, 0⟩
  allDistinct (l.map (fun s => s.rank * 64 + s.gb)) &&
    l.all (fun s => (l.filter (fun k => k.key == s.key)).length == 1 && decide ((s.image + 1) * (2 * slotImage) ≤ grad.len))

/-- The slots that a node names in a gradient region. -/
def Mod.identities (m : Mod) (grad : RegEnt) (x : Node) : List SlotName :=
  if (x.entOf 3#8).any (fun r => r.handle == grad.handle && r.off == grad.off) then m.slotsNamed x else []

/-- Whether a gradient region has 49,280 bytes for each slot allocated in it by nodes 0 to `i` (R203). -/
def Mod.gradOk (m : Mod) (nodes : List Node) (i : Nat) (x : Node) : Bool :=
  match x.entOf 3#8 with
  | none => true
  | some grad =>
    let ids := (nodes.take (i + 1)).foldl (fun acc y =>
      (m.identities grad y).foldl (fun acc k => if acc.any k.same then acc else acc ++ [k]) acc) []
    decide (ids.length * (2 * slotImage) ≤ grad.len)

/-- The cut point (R112). -/
def Mod.cutOk (m : Mod) (ctx : BitVec 32) (h : GHeader) (nodes : List Node) : Bool :=
  if !bitAt h.flags 1 then true
  else
    let x := nodes.getD h.cutNode Node.blank
    decide (h.cutNode < nodes.length) && x.ty == tyTile &&
      (match Tbl.find m.mem.reels x.reel.toNat with
       | some r => ((bundleChain (reelCodeLen r.image / 2 + 1) (reelCode r.image) (reelCodeLen r.image / 2) 0).getD []).contains h.cutBundle
       | none => false) &&
      (match m.ownRegion ctx h.cutRegion with | some g => g.cls == .persist && decide (cutBytes * x.tiles.length ≤ g.len) | none => false)

/-- The first node that fails check 6; a cut point that breaks R112 is a fault of the node it names. -/
def Mod.bad6 (m : Mod) (ctx : BitVec 32) (h : GHeader) (edges : List Edge) (nodes : List Node) : Option Nat :=
  (List.range nodes.length).find? (fun i =>
    let x := nodes.getD i Node.blank
    (i == h.cutNode && !m.cutOk ctx h nodes) || !m.slots6 x || !m.gradOk nodes i x || (x.ty == tyUpdate && !m.stateOk x) || (List.range i).any (fun j => m.clash6 edges nodes.length j i (nodes.getD j Node.blank) x))

/-! Checks 7 to 10. -/

/-- Check 7: a fused-off engine or a lost tile (R21, R431). -/
def Mod.absent7 (m : Mod) (g : Grade) (x : Node) : Bool :=
  (!g.hasFp64Engines && (x.ty == tyAssemble || x.ty == tyFactor || x.ty == tySolve)) || x.tiles.any (fun p => m.flash.isLost p.1 p.2)

/-- Check 8 on a stage (R215). -/
def StageEnt.quotaOk (s : StageEnt) : Bool :=
  let stumps := fun off => (s.blocks.filter (fun b => (b.keep == 2) == off)).foldl (fun acc b => acc + b.stump) 0
  let most := s.blocks.foldl (fun acc b => max acc (b.stump + b.internal)) 0
  decide (stumps false ≤ s.quota) && decide (most ≤ s.replayLen) &&
    decide (stumps true ≤ if s.offload = 0xFFFFFFFF#32 then 0 else s.offloadLen)

/-- Bucket slots of a group (R374): a SEND and its RECV of one key count once. -/
def Mod.groupSlots (m : Mod) (nodes : List Node) (group : Nat) : Nat :=
  let l := (nodes.filter (fun x => x.ty == tyCollective && x.coll.fabric && x.coll.group == group))
  let paired := fun (x : Node) => x.coll.op == 6 && l.any (fun y => y.coll.op == 5 && y.coll.cid == x.coll.cid)
  l.foldl (fun acc x => acc + (if paired x then 0 else m.buckets x x.coll)) 0

/-- The first node, in index order, of a group whose slots exceed 256. -/
def Mod.bad9 (m : Mod) (nodes : List Node) : Option Nat :=
  let full := (List.range 12).filter (fun g => decide (256 < m.groupSlots nodes g))
  nodes.findIdx? (fun x => x.ty == tyCollective && x.coll.fabric && full.contains x.coll.group)

/-- Check 10: what stage B does not run: a node that names a die other than C0 or names U1, or a COLLECTIVE of FABRIC scope (R406). A COPY names
every die of its DIEMASK, though it runs on the first (R285). -/
def Node.needsC (x : Node) : Bool :=
  (x.dieMask &&& 0xFFFE#16) != 0 || x.udie == 1 || (x.ty == tyCollective && x.coll.fabric)

/-! The submission. -/

/-- A failed check: its number and status, the node and the edge position it names. -/
structure Reject where
  check : Nat
  status : Status
  node : Nat
  edge : Nat
deriving DecidableEq, Repr

def noNode : Nat := 0xFFFFFFFF

/-- Duplicate edges count once, tolerant only when every copy is (R289). -/
def mergeEdges (l : List Edge) : List Edge :=
  l.foldl (fun acc e =>
    if acc.any (fun x => x.pred == e.pred && x.succ == e.succ) then
      acc.map (fun x => if x.pred == e.pred && x.succ == e.succ then { x with tol := x.tol && e.tol } else x)
    else acc ++ [e]) []

/-- The index of a submission check's first offender. -/
def firstIdx {α : Type} (l : List α) (bad : α → Bool) : Option Nat := l.findIdx? bad

/-- The node that a failing edge names (R291). -/
def edgeNode (nn : Nat) (e : Edge) : Nat := if e.succ < nn then e.succ else if e.pred < nn then e.pred else noNode

/-- The parts of an accepted graph. -/
structure Parsed where
  hdr : GHeader
  nodes : List Node
  edges : List Edge
  stages : List StageEnt

/-- Checks 3 to 10 on the parsed tables. -/
def Mod.checkGraph (m : Mod) (gd : Grade) (ctx : BitVec 32) (p : Parsed) (raw : List Edge) : Option Reject :=
  let fail := fun c st n => some (⟨c, st, n, noNode⟩ : Reject)
  match (List.range p.nodes.length).find? (fun i =>
      let x := p.nodes.getD i Node.blank
      !m.check3 ctx p.hdr x || (x.ty == tyCopy && !m.copyPlaceOk x) || (x.ty == tySolve && !m.solveSizes ctx p.nodes i x)) with
  | some i => fail 3 .badDescriptor i
  | none =>
  match firstIdx raw (fun e => !edgeOk p.nodes.length e) with
  | some k => some ⟨3, .badDescriptor, edgeNode p.nodes.length (raw.getD k ⟨0, 0, false, true⟩), k⟩
  | none =>
  match firstIdx p.nodes (fun x => !m.check4 ctx x) with
  | some i => fail 4 .badDescriptor i
  | none =>
  if !p.stages.all (m.stageRegsOk ctx) then fail 4 .badDescriptor noNode
  else
  match firstIdx p.nodes (fun x => !x.check5) with
  | some i => fail 5 .badDescriptor i
  | none =>
  match m.bad6 ctx p.hdr p.edges p.nodes with
  | some i => fail 6 .badDescriptor i
  | none =>
  if !m.cutOk ctx p.hdr p.nodes then fail 6 .badDescriptor noNode
  else
  match firstIdx p.nodes (m.absent7 gd) with
  | some i => fail 7 .engineAbsent i
  | none =>
  if !p.stages.all StageEnt.quotaOk then fail 8 .quotaTooSmall noNode
  else
  match m.bad9 p.nodes with
  | some i => fail 9 .slotsExceeded i
  | none =>
  if m.life.stage = 2 then
    match firstIdx p.nodes Node.needsC with
    | some i => fail 10 .notReady i
    | none => none
  else none

/-- Unfinished graphs a module may hold, exclusive (check 2). -/
def graphMax : Nat := 64

/-- Parse an image whose header and tables are in range. -/
def Image.parse (im : Image) : Parsed × List Edge :=
  let h := im.header
  let raw := (List.range h.nedges).map (im.edge h)
  ({ hdr := h, nodes := (List.range h.nnodes).map (im.node h), edges := mergeEdges raw, stages := (List.range h.nstages).map (im.stage h) },
    raw)

/-- The image that a SUBMIT_GRAPH names: an HBM region of the command's context (check 1). -/
def Mod.imageAt (m : Mod) (ctx : BitVec 32) (h : BitVec 32) (off : Nat) : Option Image :=
  match m.ownRegion ctx h with
  | some r => if r.cls = .slow || r.len < off + 128 then none else some ⟨fun o n => leNat (r.readN (off + o) n), r.len - off⟩
  | none => none

/-- Checks 1 to 10 of R291. -/
def Mod.checkSubmit (m : Mod) (gd : Grade) (ctx : BitVec 32) (im : Option Image) : Option Reject :=
  match im with
  | none => some ⟨1, .badDescriptor, noNode, noNode⟩
  | some im =>
    if !im.headOk then some ⟨1, .badDescriptor, noNode, noNode⟩
    else if im.header.nnodes < 1 || maxNodes < im.header.nnodes || graphMax ≤ m.graphs.length then some ⟨2, .capacityExceeded, noNode, noNode⟩
    else m.checkGraph gd ctx im.parse.1 im.parse.2

/-- The dailies: a graph with another training step closes the open snapshot and opens one (R402). -/
def Mod.openDaily (e : Env) (m : Mod) (step : BitVec 32) : Mod :=
  let same := match m.pwr.daily with | some d => d.step == step | none => false
  if same then m
  else
    let new : Dailies :=
      { step := step, opened := e.now, closed := 0, energy := 0, maxP := 0, minCap := m.pwr.cap.toNat, belowDuty := 0, paceSent := 0,
        paceFollow := 0, dies := Vector.replicate 12 ⟨Vector.replicate 8 0, 0, 0, 0, 7⟩, stages := Vector.replicate 8 (0, 0, 0, 0) }
    ({ m with pwr.lastDaily := (match m.pwr.daily with | some d => some { d with closed := e.now } | none => m.pwr.lastDaily),
              pwr.daily := some new }).noteOps

/-- Accept a graph: its handle, its run state, its nodes released (R292, R294). -/
def Mod.accept (e : Env) (m : Mod) (n : Nat) (ent : List Byte) (p : Parsed) : Mod × Nat :=
  let h := nextHandle (m.graphs.length + 3) 24 m.mbx.graphCount.toNat false (fun k => (Tbl.find m.graphs k).isSome)
  let head := match m.queue n with | some q => q.sqHead | none => 0
  let g : Graph :=
    { seq := m.graphs.foldl (fun acc x => max acc (x.2.seq + 1)) 0, ctx := entContext ent, queue := n, sqHead := head,
      alive := entAlive ent, hdr := p.hdr, nodes := p.nodes, edges := p.edges, stages := p.stages,
      run := p.nodes.map (fun _ => NRun.fresh), stash := p.stages.map (fun _ => ⟨[], [], [], [], []⟩) }
  let m := { m with graphs := Tbl.put m.graphs h g, mbx.graphCount := BitVec.ofNat 24 (h + 1) }
  ((m.openDaily e p.hdr.step).releaseAll, h)

/-- SUBMIT_GRAPH (R291). -/
def submitGraph (e : Env) (m : Mod) : Mod :=
  m.command 0x0020 (fun _ => true) (fun n ent =>
    let ctx := entContext ent
    let im := m.imageAt ctx (BitVec.ofNat 32 (entArg ent 8 4)) (entArg ent 0x10 8)
    match m.checkSubmit e.fuses.grade ctx im, im with
    | some r, _ => m.complete e n ent r.status (natLe 4 r.check ++ natLe 4 r.node ++ natLe 4 r.edge)
    | none, some im =>
      let r := m.accept e n ent im.parse.1
      r.1.complete e n ent .ok (natLe 4 r.2)
    | none, none => m)

def execSubmitGraph (s : State) : Host.Outcome State Fault Refusal := runMod submitGraph s

end Sys2Proof.Machine
end

