-- ==== Sys2Proof/Machine/Dispatch.lean ====
section
/-! DEFINITION. Which meaning each command has: one arm per constructor, one arm per line. -/

namespace Sys2Proof.Machine

/-- The effect of a command on everything but the queue of waiting commands. -/
def exec (i : Instr) (s : State) : Host.Outcome State Fault Refusal :=
  match i with
  | .identify => Sys2Proof.Machine.execIdentify s
  | .query => Sys2Proof.Machine.execQuery s
  | .createQueue => Sys2Proof.Machine.execCreateQueue s
  | .deleteQueue => Sys2Proof.Machine.execDeleteQueue s
  | .loadReel image => Sys2Proof.Machine.execLoadReel image s
  | .reelRemove => Sys2Proof.Machine.execReelRemove s
  | .allocRegion => Sys2Proof.Machine.execAllocRegion s
  | .freeRegion => Sys2Proof.Machine.execFreeRegion s
  | .submitGraph => Sys2Proof.Machine.execSubmitGraph s
  | .abortGraph => Sys2Proof.Machine.execAbortGraph s
  | .setCap => Sys2Proof.Machine.execSetCap s
  | .setPhaseOp => Sys2Proof.Machine.execSetPhaseOp s
  | .armNanRecord => Sys2Proof.Machine.execArmNanRecord s
  | .readRecords => Sys2Proof.Machine.execReadRecords s
  | .timeSet => Sys2Proof.Machine.execTimeSet s
  | .park => Sys2Proof.Machine.execPark s
  | .deepPark => Sys2Proof.Machine.execDeepPark s
  | .parkRun => Sys2Proof.Machine.execParkRun s
  | .parkStateReached => Sys2Proof.Machine.execParkStateReached s
  | .resetModule => Sys2Proof.Machine.execResetModule s
  | .shutdown => Sys2Proof.Machine.execShutdown s
  | .testEnable => Sys2Proof.Machine.execTestEnable s
  | .testEnableClear => Sys2Proof.Machine.execTestEnableClear s
  | .mbxSqDb n value entries => Sys2Proof.Machine.execMbxSqDb n value entries s
  | .mbxCqDb n value => Sys2Proof.Machine.execMbxCqDb n value s
  | .mbxQ0CfgCreate value => Sys2Proof.Machine.execMbxQ0CfgCreate value s
  | .mbxQ0CfgDelete value => Sys2Proof.Machine.execMbxQ0CfgDelete value s
  | .winMemRead x len => Sys2Proof.Machine.execWinMemRead x len s
  | .winMemWrite x data => Sys2Proof.Machine.execWinMemWrite x data s
  | .tlyStart value => Sys2Proof.Machine.execTlyStart value s
  | .tlyResume value => Sys2Proof.Machine.execTlyResume value s
  | .tlyData8 value => Sys2Proof.Machine.execTlyData8 value s
  | .tlyData16 value => Sys2Proof.Machine.execTlyData16 value s
  | .tlyData32 value => Sys2Proof.Machine.execTlyData32 value s
  | .tlyValueWrite value => Sys2Proof.Machine.execTlyValueWrite value s
  | .tlyStatusClear value => Sys2Proof.Machine.execTlyStatusClear value s
  | .tlyWriteAbsorbed ch => Sys2Proof.Machine.execTlyWriteAbsorbed ch s
  | .ptbWrite r part value => Sys2Proof.Machine.execPtbWrite r part value s
  | .pwrCtrlWrite part value => Sys2Proof.Machine.execPwrCtrlWrite part value s
  | .registerWrite off bytes value => Sys2Proof.Machine.execRegisterWrite off bytes value s
  | .powerGood => Sys2Proof.Machine.execPowerGood s
  | .powerGoodLost pwrEn cut => Sys2Proof.Machine.execPowerGoodLost pwrEn cut s
  | .modResetN => Sys2Proof.Machine.execModResetN s
  | .perst => Sys2Proof.Machine.execPerst s
  | .thermalTrip unit temp => Sys2Proof.Machine.execThermalTrip unit temp s
  | .ppsEdge falling => Sys2Proof.Machine.execPpsEdge falling s
  | .readStage addr pec => Sys2Proof.Machine.execReadStage addr pec s
  | .readTemp addr pec => Sys2Proof.Machine.execReadTemp addr pec s
  | .readPower addr pec => Sys2Proof.Machine.execReadPower addr pec s
  | .wake addr pec => Sys2Proof.Machine.execWake addr pec s
  | .railHold k => Sys2Proof.Machine.execRailHold k s
  | .railRelease k => Sys2Proof.Machine.execRailRelease k s
  | .coreUndervolt k mv => Sys2Proof.Machine.execCoreUndervolt k mv s
  | .stageAReached => Sys2Proof.Machine.execStageAReached s
  | .stageBReached => Sys2Proof.Machine.execStageBReached s
  | .stageCReached ceilings delays failed => Sys2Proof.Machine.execStageCReached ceilings delays failed s
  | .stageDReached => Sys2Proof.Machine.execStageDReached s
  | .startFailed k => Sys2Proof.Machine.execStartFailed k s
  | .dieReset d => Sys2Proof.Machine.execDieReset d s
  | .updateDieReset u => Sys2Proof.Machine.execUpdateDieReset u s
  | .dieRejoin k => Sys2Proof.Machine.execDieRejoin k s
  | .timeExchange plane offset step source => Sys2Proof.Machine.execTimeExchange plane offset step source s
  | .timeBeacon transit => Sys2Proof.Machine.execTimeBeacon transit s
  | .timeHoldover => Sys2Proof.Machine.execTimeHoldover s
  | .cueFire d => Sys2Proof.Machine.execCueFire d s
  | .linkRetry io port vc err => Sys2Proof.Machine.execLinkRetry io port vc err s
  | .portRetrained io port => Sys2Proof.Machine.execPortRetrained io port s
  | .hello plane port number => Sys2Proof.Machine.execHello plane port number s
  | .planeLost plane => Sys2Proof.Machine.execPlaneLost plane s
  | .packetReceived plane port pkt => Sys2Proof.Machine.execPacketReceived plane port pkt s
  | .packetAcknowledged vc src dst seq => Sys2Proof.Machine.execPacketAcknowledged vc src dst seq s
  | .ingestArrival io port seg => Sys2Proof.Machine.execIngestArrival io port seg s
  | .ingestSegment => Sys2Proof.Machine.execIngestSegment s
  | .consumedReread => Sys2Proof.Machine.execConsumedReread s
  | .paceMessage msg => Sys2Proof.Machine.execPaceMessage msg s
  | .paceRepeat => Sys2Proof.Machine.execPaceRepeat s
  | .paceLapsed member => Sys2Proof.Machine.execPaceLapsed member s
  | .capFastLoop current voltage => Sys2Proof.Machine.execCapFastLoop current voltage s
  | .capSlowLoop watts floor units => Sys2Proof.Machine.execCapSlowLoop watts floor units s
  | .pacingFrame => Sys2Proof.Machine.execPacingFrame s
  | .junctionRead k temp => Sys2Proof.Machine.execJunctionRead k temp s
  | .hbmTempRead st temp => Sys2Proof.Machine.execHbmTempRead st temp s
  | .ceilingMeasurement d site op => Sys2Proof.Machine.execCeilingMeasurement d site op s
  | .vectorIdleTimeout d t => Sys2Proof.Machine.execVectorIdleTimeout d t s
  | .vectorWake d t => Sys2Proof.Machine.execVectorWake d t s
  | .roomToneEnd d t => Sys2Proof.Machine.execRoomToneEnd d t s
  | .taskStart g n => Sys2Proof.Machine.execTaskStart g n s
  | .reelCopy g n err => Sys2Proof.Machine.execReelCopy g n err s
  | .takeStart g n => Sys2Proof.Machine.execTakeStart g n s
  | .takeComplete g n err => Sys2Proof.Machine.execTakeComplete g n err s
  | .slotSave d t gb err => Sys2Proof.Machine.execSlotSave d t gb err s
  | .slotRestore g n err => Sys2Proof.Machine.execSlotRestore g n err s
  | .slotSpill slot err => Sys2Proof.Machine.execSlotSpill slot err s
  | .slotFill slot err => Sys2Proof.Machine.execSlotFill slot err s
  | .stashReservation g stage => Sys2Proof.Machine.execStashReservation g stage s
  | .replay g stage block mb err => Sys2Proof.Machine.execReplay g stage block mb err s
  | .tile g n rounds => Sys2Proof.Machine.execTile g n rounds s
  | .convert g n part err => Sys2Proof.Machine.execConvert g n part err s
  | .copy g n part err => Sys2Proof.Machine.execCopy g n part err s
  | .collective g n others => Sys2Proof.Machine.execCollective g n others s
  | .assemble g n part err => Sys2Proof.Machine.execAssemble g n part err s
  | .factor g n part err => Sys2Proof.Machine.execFactor g n part err s
  | .solve g n part err => Sys2Proof.Machine.execSolve g n part err s
  | .iterSolve g n part err => Sys2Proof.Machine.execIterSolve g n part err s
  | .update g n part err => Sys2Proof.Machine.execUpdate g n part err s
  | .rootComplete u => Sys2Proof.Machine.execRootComplete u s
  | .cue g n => Sys2Proof.Machine.execCue g n s
  | .barrier g n => Sys2Proof.Machine.execBarrier g n s
  | .hostNote g n => Sys2Proof.Machine.execHostNote g n s
  | .bucketIssue g n b err => Sys2Proof.Machine.execBucketIssue g n b err s
  | .bucketComplete g n b others err => Sys2Proof.Machine.execBucketComplete g n b others err s
  | .collectiveWaitExpired g n b => Sys2Proof.Machine.execCollectiveWaitExpired g n b s
  | .collectiveMismatch g n b cause => Sys2Proof.Machine.execCollectiveMismatch g n b cause s
  | .collectiveAbandoned g n b rank => Sys2Proof.Machine.execCollectiveAbandoned g n b rank s
  | .bundleIssue d t err => Sys2Proof.Machine.execBundleIssue d t err s
  | .done d t => Sys2Proof.Machine.execDone d t s
  | .mload d t err => Sys2Proof.Machine.execMload d t err s
  | .mmul d t err => Sys2Proof.Machine.execMmul d t err s
  | .mgrad d t err => Sys2Proof.Machine.execMgrad d t err s
  | .mmask d t err => Sys2Proof.Machine.execMmask d t err s
  | .mvec d t err => Sys2Proof.Machine.execMvec d t err s
  | .vld d t err => Sys2Proof.Machine.execVld d t err s
  | .vst d t => Sys2Proof.Machine.execVst d t s
  | .vgath d t err => Sys2Proof.Machine.execVgath d t err s
  | .vscat d t => Sys2Proof.Machine.execVscat d t s
  | .vgathm d t => Sys2Proof.Machine.execVgathm d t s
  | .vscatm d t => Sys2Proof.Machine.execVscatm d t s
  | .vadd d t => Sys2Proof.Machine.execVadd d t s
  | .vsub d t => Sys2Proof.Machine.execVsub d t s
  | .vmul d t => Sys2Proof.Machine.execVmul d t s
  | .vfma d t => Sys2Proof.Machine.execVfma d t s
  | .vmax d t => Sys2Proof.Machine.execVmax d t s
  | .vmin d t => Sys2Proof.Machine.execVmin d t s
  | .vdiv d t => Sys2Proof.Machine.execVdiv d t s
  | .vsqrt d t => Sys2Proof.Machine.execVsqrt d t s
  | .vexp d t => Sys2Proof.Machine.execVexp d t s
  | .vcvt d t => Sys2Proof.Machine.execVcvt d t s
  | .vwmul d t => Sys2Proof.Machine.execVwmul d t s
  | .dotw d t => Sys2Proof.Machine.execDotw d t s
  | .dotD d t => Sys2Proof.Machine.execDotD d t s
  | .vrmax d t => Sys2Proof.Machine.execVrmax d t s
  | .vrsum d t => Sys2Proof.Machine.execVrsum d t s
  | .vectorResume d t => Sys2Proof.Machine.execVectorResume d t s
  | .scratchReread d t clean => Sys2Proof.Machine.execScratchReread d t clean s
  | .qbinds d t => Sys2Proof.Machine.execQbinds d t s
  | .qbinde d t => Sys2Proof.Machine.execQbinde d t s
  | .qbindp d t => Sys2Proof.Machine.execQbindp d t s
  | .qunbind d t => Sys2Proof.Machine.execQunbind d t s
  | .dmain d t => Sys2Proof.Machine.execDmain d t s
  | .dmaout d t => Sys2Proof.Machine.execDmaout d t s
  | .dmainq d t => Sys2Proof.Machine.execDmainq d t s
  | .dmaoutq d t => Sys2Proof.Machine.execDmaoutq d t s
  | .dmaCompletion d t k err pad => Sys2Proof.Machine.execDmaCompletion d t k err pad s
  | .gatherReply d t elem err => Sys2Proof.Machine.execGatherReply d t elem err s
  | .queuePush d t q err mem => Sys2Proof.Machine.execQueuePush d t q err mem s
  | .queuePop d t q => Sys2Proof.Machine.execQueuePop d t q s
  | .accessProceeds d t pos => Sys2Proof.Machine.execAccessProceeds d t pos s
  | .tileStall d t => Sys2Proof.Machine.execTileStall d t s
  | .cutStopTimeout d t => Sys2Proof.Machine.execCutStopTimeout d t s
  | .cutPointReached g n => Sys2Proof.Machine.execCutPointReached g n s
  | .hbmScrub errs => Sys2Proof.Machine.execHbmScrub errs s
  | .hbmEccPoll reports => Sys2Proof.Machine.execHbmEccPoll reports s
  | .selfTest r => Sys2Proof.Machine.execSelfTest r s
  | .channelFailed st ch => Sys2Proof.Machine.execChannelFailed st ch s
  | .migrationPage st pair => Sys2Proof.Machine.execMigrationPage st pair s
  | .slowTierScrub u rows => Sys2Proof.Machine.execSlowTierScrub u rows s
  | .msixMergeIntervalEnd v => Sys2Proof.Machine.execMsixMergeIntervalEnd v s
  | .portDown io port => Sys2Proof.Machine.execPortDown io port s

end Sys2Proof.Machine
end

