-- ==== Sys2Proof/WellFormed.lean ====
section
/-! DEFINITION. Well-formed commands: the operands that the environment can in fact supply. A command outside this form is
still total in `exec`; no statement about the module needs one. -/

namespace Sys2Proof

/-- Bytes of WIN_MEM (R304: 64 GiB). -/
def winMemBytes : Nat := 2 ^ 36

/-- Offsets of WIN_REG whose writes have a row of their own: doorbells, MBX_Q0_CFG, the TLY block but its read-only
registers, PWR_CTRL and the PTB block (R305, R306, R421 to R424, R401, R439). -/
def hasOwnRow (off : Nat) : Bool :=
  let reg := off / 8 * 8
  reg == 0x110 || (decide (0x1000 ≤ reg) && decide (reg < 0x1400)) || reg == 0x200000 || reg == 0x200008 || reg == 0x200018 ||
    reg == 0x200028 || reg == 0x200030 || reg == 0x200038 || reg == 0x300010 || (decide (0x400000 ≤ reg) && decide (reg < 0x400030))

/-- A test's resource lies inside its unit: scratchpad row below 4,096, gradient-buffer row of a tile, lane below the lanes of its
group (R66, R425, R429). -/
def TestRes.wf (r : TestRes) : Bool :=
  match r with
  | .padRow _ _ _ row => decide (row < 4096)
  | .gbRow _ _ row => decide (row < 65536)
  | .imemRow _ _ row => decide (row < 1024)
  | .bridgeLane _ _ lane => decide (lane < 4096)
  | .arrayRow _ _ _ | .tile _ _ | .fabricLane _ _ | .hbmRow _ | .lpRow _ _ => true

/-- A bridge lane lies below the lanes of its group. -/
def LinkErr.wf (e : LinkErr) : Bool := match e with | .bridge _ _ lane => decide (lane < 4096) | _ => true

/-- Temperatures read by sensors fit in one byte (R401, R446). -/
def tempOk (t : Nat) : Bool := decide (t < 256)

/-- The operands of a command can occur. -/
def Instr.wf (i : Instr) : Bool :=
  match i with
  | .mbxSqDb _ _ entries => entries.all (fun e => e.length == 64)
  | .mbxQ0CfgCreate v => v.getLsbD 0
  | .mbxQ0CfgDelete v => !v.getLsbD 0
  | .winMemRead x len => decide (1 ≤ len) && decide (x + len ≤ winMemBytes)
  | .winMemWrite x data => decide (1 ≤ data.length) && decide (x + data.length ≤ winMemBytes)
  | .tlyStart v => v.toNat % 4 == 1
  | .tlyResume v => v.toNat % 4 == 2
  | .registerWrite off _ _ => decide (off < 2 ^ 26) && !hasOwnRow off
  | .thermalTrip (.die _) t | .thermalTrip (.io _) t => decide (115 ≤ t) && tempOk t
  | .thermalTrip (.stack _) t => decide (105 ≤ t) && tempOk t
  | .coreUndervolt _ mv => decide (mv < 500)
  | .stageCReached ceilings delays _ =>
    ceilings.all (fun l => decide (l.length ≤ 66) && l.all (fun x => decide (x ≤ 7))) && decide (delays.length ≤ 20)
  | .ingestArrival _ _ seg => decide (32 ≤ seg.length) && decide (seg.length ≤ 4128)
  | .paceMessage msg => decide (1 ≤ msg.duty) && decide (msg.duty ≤ 8)
  | .capFastLoop i v => decide (i < 65536) && decide (v < 65536)
  | .capSlowLoop w f units => decide (w < 65536) && decide (f < 65536) && units.all (fun u => decide (u < 65536))
  | .junctionRead _ t => tempOk t
  | .hbmTempRead _ t => tempOk t
  | .collectiveAbandoned _ _ _ rank => decide (rank < 65536)
  | .selfTest r => TestRes.wf r.res
  | .linkRetry _ _ _ err => LinkErr.wf err
  | .identify | .query | .createQueue | .deleteQueue | .loadReel _ | .reelRemove | .allocRegion | .freeRegion | .submitGraph
  | .abortGraph | .setCap | .setPhaseOp | .armNanRecord | .readRecords | .timeSet | .park | .deepPark | .parkRun
  | .parkStateReached | .resetModule | .shutdown | .testEnable | .testEnableClear | .mbxCqDb _ _ | .tlyData8 _ | .tlyData16 _
  | .tlyData32 _ | .tlyValueWrite _ | .tlyStatusClear _ | .tlyWriteAbsorbed _ | .ptbWrite _ _ _ | .pwrCtrlWrite _ _
  | .powerGood | .powerGoodLost _ _ | .modResetN | .perst | .ppsEdge _ | .readStage _ _ | .readTemp _ _ | .readPower _ _ | .wake _ _ | .railHold _
  | .railRelease _ | .stageAReached | .stageBReached | .stageDReached | .startFailed _ | .dieReset _ | .updateDieReset _
  | .dieRejoin _ | .timeExchange _ _ _ _ | .timeBeacon _ | .timeHoldover | .cueFire _ | .portRetrained _ _
  | .hello _ _ _ | .planeLost _ | .packetReceived _ _ _ | .packetAcknowledged _ _ _ _ | .ingestSegment | .consumedReread
  | .paceRepeat | .paceLapsed _ | .pacingFrame | .ceilingMeasurement _ _ _ | .vectorIdleTimeout _ _ | .vectorWake _ _
  | .roomToneEnd _ _ | .taskStart _ _ | .reelCopy _ _ _ | .takeStart _ _ | .takeComplete _ _ _ | .slotSave _ _ _ _
  | .slotRestore _ _ _ | .slotSpill _ _ | .slotFill _ _ | .stashReservation _ _ | .replay _ _ _ _ _ | .tile _ _ _ | .convert _ _ _ _
  | .copy _ _ _ _ | .collective _ _ _ | .assemble _ _ _ _ | .factor _ _ _ _ | .solve _ _ _ _ | .iterSolve _ _ _ _ | .update _ _ _ _
  | .rootComplete _ | .cue _ _ | .barrier _ _ | .hostNote _ _ | .bucketIssue _ _ _ _ | .bucketComplete _ _ _ _ _
  | .collectiveWaitExpired _ _ _ | .collectiveMismatch _ _ _ _ | .bundleIssue _ _ _ | .done _ _ | .mload _ _ _ | .mmul _ _ _
  | .mgrad _ _ _ | .mmask _ _ _ | .mvec _ _ _ | .vld _ _ _ | .vst _ _ | .vgath _ _ _ | .vscat _ _ | .vgathm _ _ | .vscatm _ _
  | .vadd _ _ | .vsub _ _ | .vmul _ _ | .vfma _ _ | .vmax _ _ | .vmin _ _ | .vdiv _ _ | .vsqrt _ _ | .vexp _ _ | .vcvt _ _
  | .vwmul _ _ | .dotw _ _ | .dotD _ _ | .vrmax _ _ | .vrsum _ _ | .vectorResume _ _ | .scratchReread _ _ _ | .qbinds _ _
  | .qbinde _ _ | .qbindp _ _ | .qunbind _ _ | .dmain _ _ | .dmaout _ _ | .dmainq _ _ | .dmaoutq _ _ | .dmaCompletion _ _ _ _ _
  | .gatherReply _ _ _ _ | .queuePush _ _ _ _ _ | .queuePop _ _ _ | .accessProceeds _ _ _ | .tileStall _ _ | .cutStopTimeout _ _
  | .cutPointReached _ _ | .hbmScrub _ | .hbmEccPoll _ | .channelFailed _ _ | .migrationPage _ _ | .slowTierScrub _ _
  | .msixMergeIntervalEnd _ | .portDown _ _ => true

end Sys2Proof
end

