-- ==== Sys2Proof/Safety.lean ====
section
/-! DEFINITION. The terms in which statements about the module are made: a command that completes, what two states share, and
what a sound state looks like. -/

namespace Sys2Proof.Machine

/-- A command answers a next state, and that state meets `P`. -/
def Completes (c : Instr) (s : State) (P : State → Prop) : Prop := ∃ t, exec c s = .next t ∧ P t

/-- A command answers a next state that differs from `s` in the module alone; the module meets `P`. -/
def OnModule (c : Instr) (s : State) (P : Mod → Prop) : Prop := ∃ m, exec c s = .next { s with mod := m } ∧ P m

/-- A command answers a next state that differs from `s` in one tile alone; the tile meets `P`. -/
def OnTile (c : Instr) (s : State) (d : Fin 12) (t : Fin 64) (P : Tile → Prop) : Prop :=
  ∃ x, exec c s = .next { s with mod := s.mod.updTile d t (fun _ => x) } ∧ P x

/-- Run commands one after the other, each as `exec` runs it. -/
def runAll (cs : List Instr) (s : State) : Host.Outcome State Fault Refusal :=
  match cs with
  | [] => .next s
  | c :: r => match exec c s with | .next t => runAll r t | .fault f => .fault f | .refused x => .refused x

/-- The environment of a state: what its module may read beside itself. -/
def State.env (s : State) : Env := ⟨s.fuses, s.time⟩

/-- No queue has an entry that waits to be fetched. -/
def Mod.quiet (m : Mod) : Prop := ∀ (n : Nat) (q : HQueue), m.queue n = some q → q.rung = []

/-- The command of entry `ent`, fetched from queue `n`, is in service, its opcode is `op`, and no other entry waits. -/
def Mod.serves (m : Mod) (op n : Nat) (ent : List Byte) : Prop :=
  m.mbx.inService = some (n, ent) ∧ entOpcode ent = op ∧ m.quiet

/-- The module once the entry `ent` is fetched from queue `n`, which the ring of `q` holds next, and checked (R311, R313): the queue is the
last served, its head and, where `adv` says so, its expected counter advance, and the firmware's tally channel holds the check value. -/
def Mod.fetched (m : Mod) (n : Fin 64) (q : HQueue) (ent : List Byte) (adv : Bool) : Mod :=
  let q' := { q with sqHead := (q.sqHead + 1) % 2 ^ q.log2Sq, alive := if adv then q.alive + 1 else q.alive }
  { m with mbx := { m.mbx with turn := n.val, queues := m.mbx.queues.set n.val (some q') },
           tally := vmodN m.tally 0 (fun c => c.check false (slice ent 0 0x3C)) }

/-- The module once its command in service is answered with a status and result (R314): nothing is in service, and the completion is
posted to the queue it came from. -/
def Mod.answer (e : Env) (m : Mod) (n : Nat) (ent : List Byte) (st : Status) (result : List Byte) : Mod :=
  ({ m with mbx.inService := none }).postEntry e n ent st 0 result

/-- Two modules have the same dies but for room tone, which holds no state and which a change of limits may stop (R138, R400). -/
def Mod.sameDies (m m' : Mod) : Prop := m.dies.map Die.toneOff = m'.dies.map Die.toneOff

/-- A read of a byte range of a region entry meets no line in error (R220, R336). -/
def Mod.clean (m : Mod) (r : RegEnt) (a n : Nat) : Prop := m.entPoisoned r a n = false ∧ m.entLost r a n = none

/-- Two regions are the same but for the bytes of the ranges given: offset and length. -/
def Region.sameBut (r r' : Region) (ranges : List (Nat × Nat)) : Prop :=
  r'.len = r.len ∧ r'.cls = r.cls ∧ ∀ a : Nat, (∀ x ∈ ranges, a < x.1 ∨ x.1 + x.2 ≤ a) → r'.read a = r.read a

/-- A channel that is not held has no write waiting (R423). -/
def TallyCh.sound (c : TallyCh) : Prop := c.busy = false → c.waiting = []

/-- Every tally channel is sound. -/
def State.tallySound (s : State) : Prop := ∀ i : Fin 14, (s.channel i).sound

/-- The grade carries the HBM stack, the I/O die or the tested resource that a command names (R15, R18, R429). -/
def Instr.present (g : Grade) (c : Instr) : Bool :=
  match c with
  | .thermalTrip (.stack st) _ => decide (st.val < g.hbmStacks)
  | .thermalTrip (.io n) _ => g.hasIo n.val
  | .hbmTempRead st _ => decide (st.val < g.hbmStacks)
  | .channelFailed st _ => decide (st.val < g.hbmStacks)
  | .migrationPage st _ => decide (st.val < g.hbmStacks)
  | .timeExchange p _ _ _ => g.hasIo p.val
  | .hello p _ _ => g.hasIo p.val
  | .planeLost p => g.hasIo p.val
  | .packetReceived p _ _ => g.hasIo p.val
  | .linkRetry io _ _ _ => g.hasIo io.val
  | .portRetrained io _ => g.hasIo io.val
  | .portDown io _ => g.hasIo io.val
  | .ingestArrival io _ _ => g.hasIo io.val
  | .selfTest r => g.hasRes r.res
  | _ => true

end Sys2Proof.Machine
end

