-- ==== Sys2Proof/Certificates/Slice0/Obligations.lean ====
section
/-! DEFINITION. The statements about the module, each with the rule of the spec it rests on. -/

open Sys2Proof Sys2Proof.Machine

/-! The machine: commands, time, reset. -/

/-- A step with a command at the front of the queue is that command run with the queue's rest (the queue is the model's own, log 1). -/
def Obligations.StepRunsTheFrontCommand : Prop :=
  ∀ (c : Instr) (rest : List Instr) (s : State), step { s with pending := c :: rest } = exec c { s with pending := rest }

/-- On an empty queue a powered module ticks: every count of fabric time advances by 1.6 ns with at most 200 ppm of correction
(R48, R49), and nothing but the time changes. That an idle step is a tick is the model's choice (log 1). -/
def Obligations.IdleStepTicksFabricTime : Prop :=
  ∀ s : State, s.pending = [] → s.mod.life.powered = true →
    ∃ tm : TimeState, step s = .next { s with time := tm } ∧
      (∀ i : Fin 8, (s.time.keeper[i.val]).fs + 1600000 - 320 ≤ (tm.keeper[i.val]).fs ∧
        (tm.keeper[i.val]).fs ≤ (s.time.keeper[i.val]).fs + 1600000 + 320) ∧
      (∀ i : Fin 12, (s.time.replica[i.val]).fs + 1600000 - 320 ≤ (tm.replica[i.val]).fs ∧
        (tm.replica[i.val]).fs ≤ (s.time.replica[i.val]).fs + 1600000 + 320) ∧
      (∀ i : Fin 8, (s.time.keeper[i.val]).corr = 0 → (s.time.keeper[i.val]).rate = 0 →
        (tm.keeper[i.val]).fs = (s.time.keeper[i.val]).fs + 1600000)

/-- Every command answers a next state, or the fault `absentUnit` exactly where it names a stack, an I/O die or a resource that the
grade does not carry (R15, R18). That such a command ends with this fault is the model's own choice (log 40). No command is refused. -/
def Obligations.CommandsStopOnlyAtAbsentUnits : Prop :=
  ∀ (c : Instr) (s : State),
    (Instr.present s.fuses.grade c = true → ∃ t, exec c s = .next t) ∧
    (Instr.present s.fuses.grade c = false → exec c s = .fault .absentUnit)

/-- No command writes a fuse (R19), and none touches the queue of waiting commands, which is the model's own (log 1). -/
def Obligations.CommandsKeepFusesAndQueue : Prop :=
  ∀ (c : Instr) (s t : State), exec c s = .next t → t.fuses = s.fuses ∧ t.pending = s.pending

/-- Once locked, fabric time never runs backward and stays locked, whatever the next step does, unless power is lost (R48, R52, R54). -/
def Obligations.LockedFabricTimeNeverRunsBackward : Prop :=
  ∀ s t : State, s.time.locked = true → s.mod.life.powered = true → (∀ pwrEn cut, s.pending.head? ≠ some (.powerGoodLost pwrEn cut)) → step s = .next t →
    t.time.locked = true ∧ (∀ i : Fin 8, (s.time.keeper[i.val]).fs ≤ (t.time.keeper[i.val]).fs) ∧
      (∀ i : Fin 12, (s.time.replica[i.val]).fs ≤ (t.time.replica[i.val]).fs)

/-- Every step keeps each tally channel sound: a channel that is not held has no write waiting (R423). -/
def Obligations.StepsKeepTallySound : Prop :=
  ∀ s t : State, s.tallySound → step s = .next t → t.tallySound

/-- The commands that may change the host's tally channel. -/
def tallyCommand (c : Instr) : Bool :=
  match c with
  | .tlyStart _ | .tlyResume _ | .tlyData8 _ | .tlyData16 _ | .tlyData32 _ | .tlyValueWrite _ | .tlyStatusClear _
  | .tlyWriteAbsorbed _ | .registerWrite _ _ _ | .powerGood | .powerGoodLost _ _ | .modResetN | .perst | .resetModule
  | .thermalTrip _ _ | .parkStateReached => true
  | _ => false

/-- The fourteen tally channels are separate (R419): no command but a TLY write and those that begin a reset or change the power state
changes the host channel, a TLY write changes it alone, a register write reaches the channels of no die, and the firmware's only where a
doorbell makes the firmware check an entry. -/
def Obligations.TallyChangesByItsOwnCommandsOnly : Prop :=
  (∀ (c : Instr) (s t : State), exec c s = .next t → tallyCommand c = false → t.tally = s.tally) ∧
  (∀ (off bytes : Nat) (v : Word) (s t : State), exec (.registerWrite off bytes v) s = .next t →
    (∀ i : Fin 14, 2 ≤ i.val → t.channel i.val = s.channel i.val) ∧
    (off < 0x1000 ∨ 0x1400 ≤ off → t.mod.tally = s.mod.tally)) ∧
  (∀ (c : Instr) (v : Word) (s t : State),
    c ∈ [Instr.tlyStart v, .tlyResume v, .tlyData8 v, .tlyData16 v, .tlyData32 v, .tlyValueWrite v, .tlyStatusClear v] →
      exec c s = .next t → t.mod = s.mod) ∧
  (∀ (ch : Fin 14) (s t : State), exec (.tlyWriteAbsorbed ch) s = .next t →
    ∀ i : Fin 14, i ≠ ch → t.channel i.val = s.channel i.val)

/-! The tally unit. -/

/-- A write to TLY_CTRL while the host channel is free (R421): accepted when its ALIVE equals TLY_ALIVE, else refused. Every other
part of the module is unchanged. Data writes to a free channel (R422): discarded while ACTIVE is 0; else 1, 2 or 4 bytes are fed,
low byte first, and the channel is held. Writes to TLY_VALUE and TLY_STATUS of a free channel: the running value is replaced, its
high half read as zero with POLY 0; a 1 clears ALIVE_STALE (R420, R423, R424). A write to TLY_CTRL with CMD 0 or 3 has no effect (R421). -/
def Obligations.TallyHostWrites : Prop :=
  (∀ (v : Word) (s : State), s.mod.portUp = true → s.tally.busy = false → s.tally.waiting = [] →
    let c := s.tally
    let alive : BitVec 8 := v.extractLsb' 24 8
    let wide := v.getLsbD 8
    let opened : Word → TallyCh := fun value =>
      { c with expected := c.expected + 1, run := alive, active := true, poly := wide, value := value }
    let refused : TallyCh := { c with stale := true, active := false }
    let put : TallyCh → State := fun x => { s with tally := x }
    (v.extractLsb' 0 2 = 1#2 → exec (.tlyStart v) s =
      .next (put (if alive = c.expected then opened (if wide then 0xFFFFFFFFFFFFFFFF#64 else 0xFFFFFFFF#64) else refused))) ∧
    (v.extractLsb' 0 2 = 2#2 → exec (.tlyResume v) s = .next (put (if alive = c.expected then opened c.value else refused)))) ∧
  (∀ (v : Word) (s : State), s.mod.portUp = true → s.tally.busy = false → s.tally.waiting = [] →
    (s.tally.active = false →
      exec (.tlyData8 v) s = .next s ∧ exec (.tlyData16 v) s = .next s ∧ exec (.tlyData32 v) s = .next s) ∧
    (s.tally.active = true →
      let c := s.tally
      let old : Word := if c.poly then c.value else c.value &&& 0xFFFFFFFF#64
      let held : List Byte → TallyCh := fun bs => { c with busy := true, value := BitVec.ofNat 64 (crcFeed c.poly old.toNat bs) }
      let fed : List Byte → State := fun bs => { s with tally := held bs }
      let b : Nat → Byte := fun i => v.extractLsb' (8 * i) 8
      exec (.tlyData8 v) s = .next (fed [b 0]) ∧ exec (.tlyData16 v) s = .next (fed [b 0, b 1]) ∧
      exec (.tlyData32 v) s = .next (fed [b 0, b 1, b 2, b 3]))) ∧
  (∀ (v : Word) (s : State), s.mod.portUp = true → s.tally.busy = false → s.tally.waiting = [] →
    (∃ t, exec (.tlyValueWrite v) s = .next t ∧ t.mod = s.mod ∧ t.time = s.time ∧
      t.readReg 0x200018 = (if s.tally.poly then v else v &&& 0xFFFFFFFF#64)) ∧
    exec (.tlyStatusClear v) s = .next { s with tally := { s.tally with stale := s.tally.stale && !v.getLsbD 0 } }) ∧
  (∀ (v : Word) (s : State), s.mod.portUp = true → s.tally.busy = false → s.tally.waiting = [] →
    v.extractLsb' 0 2 = 0#2 ∨ v.extractLsb' 0 2 = 3#2 →
      exec (.registerWrite 0x200000 8 v) s = .next s ∧ exec (.registerWrite 0x200000 4 v) s = .next s)

/-- While a data write holds the channel, later writes wait in arrival order (R423). When it is absorbed the first that waits takes effect:
a data write that is fed holds the channel again, and what waits behind it waits on; any other write, or a discarded data write, lets the
next one through, as if it had held the channel and been absorbed itself (R421 to R424). The absorption always completes, and changes that
channel alone. -/
def Obligations.TallyHeldWritesTakeTheirTurn : Prop :=
  (∀ (v : Word) (s : State), s.mod.portUp = true → s.tally.busy = true →
    let wait : TlyWrite → State := fun w => { s with tally := { s.tally with waiting := s.tally.waiting ++ [w] } }
    exec (.tlyStart v) s = .next (wait (.ctrl v)) ∧ exec (.tlyResume v) s = .next (wait (.ctrl v)) ∧
    exec (.tlyData8 v) s = .next (wait (.data 1 v)) ∧ exec (.tlyData16 v) s = .next (wait (.data 2 v)) ∧
    exec (.tlyData32 v) s = .next (wait (.data 4 v)) ∧ exec (.tlyValueWrite v) s = .next (wait (.value .whole v)) ∧
    exec (.tlyStatusClear v) s = .next (wait (.status v))) ∧
  (∀ (ch : Fin 14) (s : State),
    let c := s.channel ch.val
    let put : TallyCh → State := fun x => s.setChannel ch.val (fun _ => x)
    (c.busy = false → exec (.tlyWriteAbsorbed ch) s = .next s) ∧
    (c.busy = true → c.waiting = [] → exec (.tlyWriteAbsorbed ch) s = .next (put { c with busy := false })) ∧
    (∀ (w : TlyWrite) (r : List TlyWrite), c.busy = true → c.waiting = w :: r →
      let d := ({ c with busy := false, waiting := [] } : TallyCh).apply w
      (d.busy = true → exec (.tlyWriteAbsorbed ch) s = .next (put { d with waiting := r })) ∧
      (d.busy = false →
        exec (.tlyWriteAbsorbed ch) s = exec (.tlyWriteAbsorbed ch) (put { d with busy := true, waiting := r }))) ∧
    (∃ d : TallyCh, exec (.tlyWriteAbsorbed ch) s = .next (put d) ∧ (d.waiting ≠ [] → c.waiting ≠ []) ∧ (c.sound → d.sound))) ∧
  (∀ (c : TallyCh) (v : Word) (part : RegPart) (n : Nat), c.busy = false →
    (c.apply (.ctrl v)).busy = false ∧ (c.apply (.value part v)).busy = false ∧ (c.apply (.status v)).busy = false ∧
    (c.apply (.data n v)).busy = c.active)

/-- A run over any bytes leaves their check value in TLY_FINAL: START, then each byte by a write to TLY_DATA8 that is absorbed before
the next (R420 to R423). Nothing but the host channel changes. -/
def Obligations.TallyRunYieldsTheCheckValue : Prop :=
  ∀ (wide : Bool) (bs : List Byte) (s : State), s.mod.portUp = true → s.tally.busy = false → s.tally.waiting = [] →
    let start : Word := ((s.tally.expected.setWidth 64) <<< 24) ||| (if wide then 0x101#64 else 0x001#64)
    ∃ t, runAll (.tlyStart start :: bs.flatMap (fun b => [.tlyData8 (b.setWidth 64), .tlyWriteAbsorbed 0])) s = .next t ∧
      (t.readReg 0x200020).toNat = crcOf wide bs ∧ t.readReg 0x200010 = (s.tally.expected + 1).setWidth 64 ∧
      t.mod = s.mod ∧ t.time = s.time

/-! The mailbox. -/

/-- A completion (R310, R314): 32 bytes at the ring's tail with the phase in bit 0 of byte 0x0F; the tail advances and the phase
turns over at the end of the ring; the queue's vector is raised when the command asks for it. A full completion ring holds the
completion back, and the queue is not served (R311). -/
def Obligations.CompletionsReachTheRing : Prop :=
  (∀ (e : Env) (m : Mod) (n : Fin 64) (q : HQueue) (ent : List Byte) (st : Status) (result : List Byte),
    m.queue n.val = some q → q.held = [] → q.full = false →
    let entry := natLe 8 e.now ++ natLe 2 st.code ++ natLe 2 n.val ++ natLe 2 q.sqHead ++ [entAlive ent] ++
      [if q.phase then 1#8 else 0#8] ++ natLe 4 (entContext ent).toNat ++ padTo 12 result
    let next := (q.cqTail + 1) % 2 ^ q.log2Cq
    let a := m.answer e n.val ent st result
    a.host.mem = Mem.writeN m.host.mem (q.cqBase.toNat + 32 * q.cqTail) entry ∧
    a.queue n.val = some { q with cqTail := next, phase := if next = 0 then !q.phase else q.phase } ∧
    a.mbx.inService = none ∧ (∀ k : Nat, k ≠ n.val → a.queue k = m.queue k) ∧
    (entIrq ent = false → a.host.msgs = m.host.msgs ∧ a.msix = m.msix) ∧
    (entIrq ent = true → q.vector < 64 → m.msix.masked q.vector = false → m.msix.isOpen.getLsbD q.vector = false →
      a.host.msgs = m.host.msgs ++ [q.vector])) ∧
  (∀ (e : Env) (m : Mod) (n : Fin 64) (q : HQueue) (ent : List Byte) (st : Status) (result : List Byte),
    m.queue n.val = some q → q.full = true →
    let a := m.answer e n.val ent st result
    a.host = m.host ∧ (∃ entry, a.queue n.val = some { q with held := q.held ++ [(entIrq ent, entry)] }) ∧
      ∀ q', a.queue n.val = some q' → q'.ready = false)

/-- A submission doorbell (R310): one for a queue that does not exist, or with a tail outside the ring, is ignored with a
QUEUE_INVALID record; any other appends the entries up to the new tail. While a command is in service nothing else happens. A
completion doorbell (R310, R311): one for a queue that does not exist, or outside the ring, is ignored with a QUEUE_INVALID record;
any other sets the head, and with nothing held and a command in service that is all. On an idle mailbox the entry of a submission doorbell
is taken up at once (R311, R313): one that passes its checks is in service and nothing is posted; one that fails is answered with its
status. That these records name the management processor is the model's choice (log 12). -/
def Obligations.DoorbellsMoveTheRings : Prop :=
  (∀ (n : Fin 64) (v : Word) (entries : List (List Byte)) (s : State), s.mod.portUp = true →
    let tail := (v.extractLsb' 0 16).toNat
    (s.mod.queue n.val = none → exec (.mbxSqDb n v entries) s =
      .next { s with mod := s.mod.unitEvent s.env.now .queueInvalid mgmtRes [] }) ∧
    (∀ q, s.mod.queue n.val = some q → 2 ^ q.log2Sq ≤ tail → exec (.mbxSqDb n v entries) s =
      .next { s with mod := s.mod.unitEvent s.env.now .queueInvalid mgmtRes [] }) ∧
    (∀ q, s.mod.queue n.val = some q → tail < 2 ^ q.log2Sq → s.mod.mbx.inService.isSome = true →
      let count := (tail + 2 ^ q.log2Sq - q.sqTail) % 2 ^ q.log2Sq
      let q' := { q with sqTail := tail, rung := q.rung ++ (List.range count).map (fun i => padTo 64 (entries.getD i [])) }
      exec (.mbxSqDb n v entries) s =
        .next { s with mod := { s.mod with mbx := { s.mod.mbx with queues := s.mod.mbx.queues.set n.val (some q') } } }) ∧
    (∀ (q : HQueue) (ent : List Byte) (adv : Bool), s.mod.queue n.val = some q → q.rung = [] → q.held = [] → q.full = false →
      s.mod.mbx.inService = none → s.mod.quiet → tail = (q.sqTail + 1) % 2 ^ q.log2Sq → 1 < 2 ^ q.log2Sq → q.sqTail < 2 ^ q.log2Sq →
      ent = padTo 64 (entries.getD 0 []) →
      let m := s.mod.fetched n { q with sqTail := tail } ent adv
      (adv = true → s.mod.checkEntry q ent = (true, none) →
        exec (.mbxSqDb n v entries) s = .next { s with mod := { m with mbx := { m.mbx with inService := some (n.val, ent) } } }) ∧
      (∀ st, s.mod.checkEntry q ent = (adv, some st) → exec (.mbxSqDb n v entries) s =
        .next { s with mod := m.postEntry s.env n.val ent st 0 (if st = .aliveStale then [q.alive] else []) }))) ∧
  (∀ (n : Fin 64) (v : Word) (s : State), s.mod.portUp = true →
    let head := (v.extractLsb' 0 16).toNat
    (s.mod.queue n.val = none → exec (.mbxCqDb n v) s =
      .next { s with mod := s.mod.unitEvent s.env.now .queueInvalid mgmtRes [] }) ∧
    (∀ q, s.mod.queue n.val = some q → 2 ^ q.log2Cq ≤ head → exec (.mbxCqDb n v) s =
      .next { s with mod := s.mod.unitEvent s.env.now .queueInvalid mgmtRes [] }) ∧
    (∀ q, s.mod.queue n.val = some q → head < 2 ^ q.log2Cq → q.held = [] → s.mod.mbx.inService.isSome = true →
      let queues := s.mod.mbx.queues.set n.val (some { q with cqHead := head })
      exec (.mbxCqDb n v) s = .next { s with mod := { s.mod with mbx := { s.mod.mbx with queues := queues } } }))

/-- An idle mailbox fetches a rung entry and checks it in the order of R313: the check value, the alive counter, the context, the
opcode and its arguments, the stage; an entry that passes every check is in service, one that fails is consumed and answered with the
status of the first check it fails, and does nothing else. The firmware's tally channel computes the entry's check value (R419). A new
queue expects counter 0. -/
def Obligations.EntriesAreCheckedInOrder : Prop :=
  ∀ (m : Mod) (q : HQueue) (e : List Byte),
    (entCrcOk e = false → m.checkEntry q e = (false, some .cmdCrcFailed)) ∧
    (entCrcOk e = true → entAlive e ≠ q.alive → m.checkEntry q e = (false, some .aliveStale)) ∧
    (entCrcOk e = true → entAlive e = q.alive → entContext e ≠ q.context → m.checkEntry q e = (true, some .contextDenied)) ∧
    (entCrcOk e = true → entAlive e = q.alive → entContext e = q.context → opcodeRow (entOpcode e) = none →
      m.checkEntry q e = (true, some .badCommand)) ∧
    (entCrcOk e = true → entAlive e = q.alive → entContext e = q.context →
      ∀ (stage : Nat) (zeroOnly : Bool) (used : List (Nat × Nat)), opcodeRow (entOpcode e) = some (stage, zeroOnly, used) →
      let denied := (zeroOnly = true ∧ q.context ≠ 0) ∨ m.objectAllowed q.context (entOpcode e) e = false
      let bad := 1 < entFlags e ∨ entZero e used = false ∨ argsOk (entOpcode e) e = false
      let early := m.life.stage < stage ∨ (m.life.pstate = .park ∧ servedInPark (entOpcode e) = false)
      (denied → m.checkEntry q e = (true, some .contextDenied)) ∧
      (¬denied → bad → m.checkEntry q e = (true, some .badCommand)) ∧
      (¬denied → ¬bad → early → m.checkEntry q e = (true, some .notReady)) ∧
      (¬denied → ¬bad → ¬early → m.checkEntry q e = (true, none))) ∧
    (∀ (env : Env) (n : Fin 64) (adv : Bool) (st : Status), m.portUp = true → m.mbx.inService = none → m.queue n.val = some q →
      q.rung = [e] → q.held = [] → q.full = false →
      (∀ (k : Nat) (q' : HQueue), k ≠ n.val → m.queue k = some q' → q'.rung = []) → m.checkEntry q e = (adv, some st) →
      m.serveAll env = (m.fetched n { q with rung := [] } e adv).postEntry env n.val e st 0 (if st = .aliveStale then [q.alive] else [])) ∧
    (∀ (s : State) (v : Word), s.mod.portUp = true → s.mod.queue 0 = none → v.getLsbD 0 = true →
      4 ≤ (v.extractLsb' 8 5).toNat → (v.extractLsb' 8 5).toNat ≤ 16 → 4 ≤ (v.extractLsb' 16 5).toNat → (v.extractLsb' 16 5).toNat ≤ 16 →
      OnModule (.mbxQ0CfgCreate v) s (fun k => ∃ q', k.queue 0 = some q' ∧ q'.alive = 0)) ∧
    (∀ (s : State) (n : Nat) (ent : List Byte), s.mod.serves 0x0003 n ent → entArg ent 8 1 < 64 → s.mod.queue (entArg ent 8 1) = none →
      OnModule .createQueue s (fun k => ∃ q', k.queue (entArg ent 8 1) = some q' ∧ q'.alive = 0)) ∧
    (∀ (env : Env) (n : Fin 64), m.portUp = true → m.mbx.inService = none → m.queue n.val = some q → q.rung = [e] → q.held = [] →
      q.full = false → (∀ (k : Nat) (q' : HQueue), k ≠ n.val → m.queue k = some q' → q'.rung = []) → m.checkEntry q e = (true, none) →
      let a := m.serveAll env
      a.mbx.inService = some (n.val, e) ∧
      a.queue n.val = some { q with rung := [], sqHead := (q.sqHead + 1) % 2 ^ q.log2Sq, alive := q.alive + 1 } ∧
      a.host = m.host) ∧
    (∀ (n : Fin 64) (adv : Bool),
      let a := m.fetched n q e adv
      a.queue n.val = some { q with sqHead := (q.sqHead + 1) % 2 ^ q.log2Sq, alive := if adv then q.alive + 1 else q.alive } ∧
      (a.tally[0]).final.toNat = crcOf false (slice e 0 0x3C) ∧ a.mem = m.mem ∧ a.graphs = m.graphs ∧ a.host = m.host)

/-- MBX_Q0_CFG (R306, R307): ENABLE 1 creates queue 0 with context 0, and is refused while the queue exists or with a size out of
range; ENABLE 0 deletes it and its unfetched entries, and is refused while one of its graphs is unfinished; while it exists, a write
that changes its fields, and any write of its ring addresses, whole or of one half, is refused. That a write with ENABLE 0 which changes the
fields while a graph is unfinished is refused with QUEUE_INVALID, and that a write with ENABLE 0 and no queue 0 stores the fields, is the
model's choice (log 67). A refused write leaves the mailbox as it is and writes an event record with
its status; a write to the high half of MBX_Q0_CFG, which is reserved, has no effect. CREATE_QUEUE makes a queue that does not exist, and DELETE_QUEUE removes one that does, once its
completion is posted, to that queue too, unless one of its graphs is unfinished (R314, R316, R317). -/
def Obligations.QueuesComeAndGo : Prop :=
  (∀ (v : Word) (s : State), s.mod.portUp = true →
    let kept : Word := v &&& 0xFF1F1F01#64
    let sq := (v.extractLsb' 8 5).toNat
    let cq := (v.extractLsb' 16 5).toNat
    let refused : Instr → Nat → Prop := fun c code => OnModule c s (fun m => m.mbx = s.mod.mbx ∧ m.mem = s.mod.mem ∧
      m.graphs = s.mod.graphs ∧ m.recs.write = s.mod.recs.write + 1 ∧
      ∃ u ∈ m.recs.units, u.seq = s.mod.recs.write ∧ fieldAt u.bytes 8 2 = code)
    let fresh : HQueue :=
      { sqBase := s.mod.mbx.q0SqBase, cqBase := s.mod.mbx.q0CqBase, log2Sq := sq, log2Cq := cq, vector := (v.extractLsb' 24 8).toNat,
        context := 0, alive := 0, sqHead := 0, sqTail := 0, cqTail := 0, cqHead := 0, phase := true, rung := [], held := [] }
    let made : Option HQueue → State := fun q =>
      { s with mod := { s.mod with mbx := { s.mod.mbx with q0Cfg := kept, queues := s.mod.mbx.queues.set 0 q } } }
    (v.getLsbD 0 = true → s.mod.queue 0 = none → 4 ≤ sq → sq ≤ 16 → 4 ≤ cq → cq ≤ 16 →
      exec (.mbxQ0CfgCreate v) s = .next (made (some fresh))) ∧
    (v.getLsbD 0 = true → s.mod.queue 0 = none → sq < 4 ∨ 16 < sq ∨ cq < 4 ∨ 16 < cq →
      refused (.mbxQ0CfgCreate v) 0x080B) ∧
    (v.getLsbD 0 = true → (s.mod.queue 0).isSome = true → refused (.mbxQ0CfgCreate v) 0x080B) ∧
    (v.getLsbD 0 = false → s.mod.queue 0 = none →
      exec (.mbxQ0CfgDelete v) s = .next { s with mod := { s.mod with mbx := { s.mod.mbx with q0Cfg := kept } } }) ∧
    (v.getLsbD 0 = false → (s.mod.queue 0).isSome = true → (s.mod.mbx.q0Cfg ||| 1#64) = (kept ||| 1#64) →
      s.mod.graphs.any (fun g => g.2.queue == 0) = false → exec (.mbxQ0CfgDelete v) s = .next (made none)) ∧
    (v.getLsbD 0 = false → (s.mod.queue 0).isSome = true → (s.mod.mbx.q0Cfg ||| 1#64) = (kept ||| 1#64) →
      s.mod.graphs.any (fun g => g.2.queue == 0) = true → refused (.mbxQ0CfgDelete v) 0x080A) ∧
    ((s.mod.queue 0).isSome = true → (s.mod.mbx.q0Cfg ||| 1#64) ≠ (kept ||| 1#64) →
      (v.getLsbD 0 = false → refused (.mbxQ0CfgDelete v) 0x080B) ∧
      (v.getLsbD 0 = true → refused (.mbxQ0CfgCreate v) 0x080B)) ∧
    ((s.mod.queue 0).isSome = true → ∀ at_ ∈ [((0x0100, 8) : Nat × Nat), (0x0108, 8), (0x0100, 4), (0x0104, 4), (0x0108, 4), (0x010C, 4)],
      refused (.registerWrite at_.1 at_.2 v) 0x080B) ∧
    exec (.registerWrite 0x0114 4 v) s = .next s) ∧
  (∀ (s : State) (n : Nat) (ent : List Byte),
    let k := entArg ent 8 1
    let with_ : Option HQueue → Mod := fun q => { s.mod with mbx := { s.mod.mbx with queues := vmodN s.mod.mbx.queues k (fun _ => q) } }
    let fresh : HQueue :=
      { sqBase := BitVec.ofNat 64 (entArg ent 0x10 8), cqBase := BitVec.ofNat 64 (entArg ent 0x18 8), log2Sq := entArg ent 9 1,
        log2Cq := entArg ent 0xA 1, vector := entArg ent 0xB 1, context := BitVec.ofNat 32 (entArg ent 0xC 4), alive := 0, sqHead := 0,
        sqTail := 0, cqTail := 0, cqHead := 0, phase := true, rung := [], held := [] }
    (s.mod.serves 0x0003 n ent → s.mod.queue k = none →
      exec .createQueue s = .next { s with mod := (with_ (some fresh)).answer s.env n ent .ok [] }) ∧
    (s.mod.serves 0x0004 n ent → (s.mod.queue k).isSome = true → s.mod.graphs.any (fun g => g.2.queue == k) = false →
      let a := s.mod.answer s.env n ent .ok []
      exec .deleteQueue s =
        .next { s with mod := { a with mbx := { a.mbx with queues := vmodN a.mbx.queues k (fun _ => none) } } }) ∧
    (s.mod.serves 0x0004 n ent → (s.mod.queue k).isSome = true → s.mod.graphs.any (fun g => g.2.queue == k) = true →
      exec .deleteQueue s = .next { s with mod := s.mod.answer s.env n ent .graphsPending [] }))

/-- IDENTIFY, QUERY and READ_RECORDS complete whenever their entry is in service (R320, R321, R324): IDENTIFY writes its page to host memory,
which holds the grade register, the continuity level 1.0 and the stage, which reads at least 1 (DEDUCED, log 34); QUERY writes the page asked for, cut to
the length given, and answers that length; page 2 holds the last closed snapshot of the dailies, field by field (R402), and zero before the
first has closed (DESIGN CHOICE, log 14); what READ_RECORDS copies are whole units of the record buffer, from the first sequence
number on, that the command's context may see, as many of the oldest records as fit; it answers where it started and how many it copied,
and leaves the buffer as it is. -/
def Obligations.HostReadsPagesAndRecords : Prop :=
  (∀ (s : State) (n : Nat) (ent : List Byte), s.mod.serves 0x0001 n ent →
    let page := identifyPage s.env s.mod
    exec .identify s = .next { s with mod := (s.mod.toHost (entArg ent 8 8) page).answer s.env n ent .ok [] } ∧ page.length = 256 ∧
    fieldAt page 0x00 8 = s.fuses.gradeReg.toNat ∧ slice page 0x08 16 = padTo 16 s.fuses.serial ∧ fieldAt page 0x1C 4 = 0x00010000 ∧
    (s.mod.life.stage < 4 → fieldAt page 0x24 4 = 0xFFFFFFFF) ∧ fieldAt page 0x28 1 = max 1 s.mod.life.stage % 256) ∧
  (∀ (s : State) (n : Nat) (ent : List Byte), s.mod.serves 0x0002 n ent →
    let page := (queryPage s.env s.mod (entArg ent 0x10 2)).take (entArg ent 0x14 4)
    exec .query s = .next { s with mod := (s.mod.toHost (entArg ent 8 8) page).answer s.env n ent .ok (natLe 4 page.length) } ∧
    page.length ≤ entArg ent 0x14 4 ∧
    (entArg ent 0x10 2 = 0 → page.length = min 64 (entArg ent 0x14 4)) ∧
    (entArg ent 0x10 2 = 1 → page.length = min 804 (entArg ent 0x14 4) ∧
      ∀ i : Nat, i < min 792 (entArg ent 0x14 4) → page.getD i 0 = BitVec.ofNat 8 (s.mod.flash.agedOf (i / 66) (i % 66))) ∧
    (entArg ent 0x10 2 = 2 → page.length = min 960 (entArg ent 0x14 4) ∧
      (s.mod.pwr.lastDaily = none → ∀ i : Nat, page.getD i 0 = 0) ∧
      (∀ y, s.mod.pwr.lastDaily = some y → 960 ≤ entArg ent 0x14 4 →
        (∀ z ∈ [(0, 4, y.step.toNat), (8, 8, y.opened), (0x10, 8, y.closed), (0x18, 8, y.energy), (0x20, 2, y.maxP), (0x22, 2, y.minCap),
            (0x24, 4, y.belowDuty), (0x28, 4, y.paceSent), (0x2C, 4, y.paceFollow)], fieldAt page z.1 z.2.1 = z.2.2 % 2 ^ (8 * z.2.1)) ∧
        (∀ d : Fin 12, let at_ := 0x40 + 64 * d.val
          let x := y.dies[d.val]
          (∀ p : Fin 8, fieldAt page (at_ + 4 * p.val) 4 = (x.opTime[p.val]) % 2 ^ 32) ∧ fieldAt page (at_ + 0x20) 4 = x.wakes % 2 ^ 32 ∧
          fieldAt page (at_ + 0x24) 4 = x.toneUs % 2 ^ 32 ∧ fieldAt page (at_ + 0x28) 1 = x.maxTj % 256 ∧
          fieldAt page (at_ + 0x29) 1 = x.minOp % 256) ∧
        ∀ j : Fin 8, let at_ := 0x340 + 16 * j.val
          let x := y.stages[j.val]
          fieldAt page at_ 4 = x.1 % 2 ^ 32 ∧ fieldAt page (at_ + 4) 4 = x.2.1 % 2 ^ 32 ∧ fieldAt page (at_ + 8) 4 = x.2.2.1 % 2 ^ 32 ∧
          fieldAt page (at_ + 12) 4 = x.2.2.2 % 2 ^ 32)) ∧
    (entArg ent 0x10 2 = 3 → s.mod.flash.padRows = [] → 0x38 ≤ entArg ent 0x14 4 → ∀ i : Nat, i < 24 → page.getD (0x30 + i) 0 = 0)) ∧
  (∀ (s : State) (n : Nat) (ent : List Byte), s.mod.serves 0x0040 n ent →
    let start := (s.mod.recs.copy (entContext ent) (entArg ent 0x10 8) (entArg ent 0x18 4)).1
    let units := (s.mod.recs.copy (entContext ent) (entArg ent 0x10 8) (entArg ent 0x18 4)).2
    let m := (s.mod.toHost (entArg ent 8 8) units.flatten).answer s.env n ent .ok (natLe 8 start ++ natLe 4 units.length)
    exec .readRecords s = .next { s with mod := m } ∧ units.length ≤ entArg ent 0x18 4 ∧
    ∀ bs ∈ units, ∃ u ∈ s.mod.recs.units, u.bytes = bs ∧ entArg ent 0x10 8 ≤ u.seq ∧
      (entContext ent = 0 ∨ u.ctx = some (entContext ent))) ∧
  (∀ (s : State) (n : Nat) (ent : List Byte), s.mod.serves 0x0040 n ent →
    let room := entArg ent 0x18 4
    let from_ := (s.mod.recs.units.filter (fun u => decide (entArg ent 0x10 8 ≤ u.seq))).dropWhile (fun u => !u.head)
    let seen := from_.filter (fun u => entContext ent == 0 || u.ctx == some (entContext ent))
    ∃ copied rest, seen = copied ++ rest ∧
      (s.mod.recs.copy (entContext ent) (entArg ent 0x10 8) room).2 = copied.map (fun u => u.bytes) ∧
      ∀ u, rest.head? = some u → room < copied.length + (if u.head then u.ext + 1 else 1))

/-- The checks of a reel stop at the first that fails (R91): length, then MAGIC and VERSION, then the CRC, each with its detail code
and bundle index 0xFFFF_FFFF. LOAD_REEL (R91, R92): an image that fails a check is not stored, and the completion names the check
(the byte places of the detail code and the index in RESULT are the model's choice, log 12); the firmware's tally channel computes the
CRC that check 3 compares (R419); one that passes is stored under its REEL_ID when the store has room. REEL_REMOVE deletes a reel that no unfinished graph names. -/
def Obligations.ReelsAreCheckedAndLoaded : Prop :=
  (∀ (im : List Byte) (len : Nat), im.length = len →
    let cl := fieldAt im 0x08 4
    let sound := len = 128 + cl ∧ cl % 2 = 0 ∧ 2 ≤ cl ∧ cl ≤ 65536
    let named := fieldAt im 0 4 = 0x4C454552 ∧ fieldAt im 4 2 = 1
    let crc := fieldAt im 0x7C 4 = crc32c (slice im 0 0x7C ++ slice im 128 cl)
    (¬sound → imageCheck im len = .failed 0x01 0xFFFFFFFF) ∧
    (sound → ¬named → imageCheck im len = .failed 0x02 0xFFFFFFFF) ∧
    (sound → named → ¬crc → imageCheck im len = .failed 0x03 0xFFFFFFFF) ∧
    (imageCheck im len = .ok → sound ∧ named ∧ crc)) ∧
  (∀ (s : State) (n : Nat) (ent image : List Byte), s.mod.serves 0x0010 n ent →
    let im := padTo (entArg ent 0x10 4) image
    let id := entArg ent 0x18 4
    let seen := s.mod.reelTally im (entArg ent 0x10 4)
    seen = { s.mod with tally := seen.tally } ∧
    (imageCheck im im.length = .ok →
      (s.mod.reelTally im im.length).tally[0].final.toNat = crc32c (slice im 0 0x7C ++ slice im 128 (reelCodeLen im))) ∧
    (entArg ent 0x14 1 = 0 →
      (∀ d i, s.mod.reelCheck s.fuses.grade im (entArg ent 0x10 4) = .failed d i →
        exec (.loadReel image) s = .next { s with mod := seen.answer s.env n ent .reelCheckFailed (natLe 4 d ++ natLe 4 i) }) ∧
      (s.mod.reelCheck s.fuses.grade im (entArg ent 0x10 4) = .engineAbsent →
        exec (.loadReel image) s = .next { s with mod := seen.answer s.env n ent .engineAbsent [] }) ∧
      (∀ m', s.mod.reelCheck s.fuses.grade im (entArg ent 0x10 4) = .ok →
        seen.storeReel s.fuses.grade (entContext ent) im = (.ok, m') →
        exec (.loadReel image) s = .next { s with mod := m'.answer s.env n ent .ok (natLe 4 (reelIdOf im).toNat) } ∧
        ∃ r, Tbl.find m'.mem.reels (reelIdOf im).toNat = some r ∧
          (Tbl.find s.mod.mem.reels (reelIdOf im).toNat = none → r.image = im ∧ r.ctx = entContext ent))) ∧
    (entArg ent 0x14 1 = 1 →
      (Tbl.find s.mod.mem.reels id = none →
        exec .reelRemove s = .next { s with mod := s.mod.answer s.env n ent .objectUnknown [] }) ∧
      ((Tbl.find s.mod.mem.reels id).isSome = true →
        s.mod.graphs.any (fun g => g.2.nodes.any (fun x => x.ty == tyTile && x.reel == BitVec.ofNat 32 id)) = true →
        exec .reelRemove s = .next { s with mod := s.mod.answer s.env n ent .objectBusy [] }) ∧
      ((Tbl.find s.mod.mem.reels id).isSome = true →
        s.mod.graphs.any (fun g => g.2.nodes.any (fun x => x.ty == tyTile && x.reel == BitVec.ofNat 32 id)) = false →
        s.mod.mem.pendingRetire = [] →
        let m := { s.mod with mem := { s.mod.mem with reels := Tbl.del s.mod.mem.reels id, stalled := [] } }
        exec .reelRemove s = .next { s with mod := m.answer s.env n ent .ok (natLe 4 id) }) ∧
      ((Tbl.find s.mod.mem.reels id).isSome = true → Tbl.wf s.mod.mem.reels = true →
        s.mod.graphs.any (fun g => g.2.nodes.any (fun x => x.ty == tyTile && x.reel == BitVec.ofNat 32 id)) = false →
        OnModule .reelRemove s (fun m => Tbl.find m.mem.reels id = none))))

/-- ALLOC_REGION on the slow tier (R258, R316): the length is rounded up to whole pages, the region gets the next handle, belongs to
the command's context and reads as unwritten, as zero (DESIGN CHOICE, log 4); one that does not fit is refused with NO_SPACE. No other region changes. FREE_REGION
(R317): OBJECT_UNKNOWN, OBJECT_BUSY while an unfinished graph names the region, else the region is gone and every other region is as
before. -/
def Obligations.RegionsComeAndGo : Prop :=
  (∀ (s : State) (n : Nat) (ent : List Byte), s.mod.serves 0x0011 n ent → 3 ≤ s.mod.life.stage →
    let len := (entArg ent 8 8 + 4095) / 4096 * 4096
    let cls := classOf (entArg ent 0x10 1)
    let die := entArg ent 0x12 1
    let spread := entArg ent 0x11 1 == 1
    let h := s.mod.mbx.regionCount
    h ≠ 0 → h ≠ 0xFFFFFFFF#32 → Tbl.find s.mod.mem.regions h.toNat = none →
    (s.mod.allocate s.fuses.grade h.toNat cls spread die len (entContext ent) = none →
      exec .allocRegion s = .next { s with mod := s.mod.answer s.env n ent .noSpace [] }) ∧
    (∀ m1 r, s.mod.allocate s.fuses.grade h.toNat cls spread die len (entContext ent) = some (m1, r) →
      r.len = len ∧ r.ctx = entContext ent ∧ r.cls = cls ∧ (∀ a, r.read a = 0) ∧ m1.graphs = s.mod.graphs ∧
      (∀ (k : Nat) (x : Region), Tbl.find s.mod.mem.regions k = some x →
        ∃ pages, Tbl.find m1.mem.regions k = some { x with pages := pages }) ∧
      (let m := { m1 with mem := { m1.mem with regions := Tbl.put m1.mem.regions h.toNat r },
                          mbx := { m1.mbx with regionCount := h + 1 } }
       exec .allocRegion s = .next { s with mod := m.answer s.env n ent .ok (natLe 4 h.toNat ++ natLe 8 len) })) ∧
    (cls = .slow → s.mod.slowUsed die + len ≤ 512000000000 →
      (s.mod.allocate s.fuses.grade h.toNat cls spread die len (entContext ent)).isSome = true) ∧
    (cls = .slow → 512000000000 < s.mod.slowUsed die + len →
      s.mod.allocate s.fuses.grade h.toNat cls spread die len (entContext ent) = none)) ∧
  (∀ (s : State) (n : Nat) (ent : List Byte), s.mod.serves 0x0012 n ent →
    let h := entArg ent 8 4
    (Tbl.find s.mod.mem.regions h = none → exec .freeRegion s = .next { s with mod := s.mod.answer s.env n ent .objectUnknown [] }) ∧
    ((Tbl.find s.mod.mem.regions h).isSome = true → s.mod.regionBusy h = true →
      exec .freeRegion s = .next { s with mod := s.mod.answer s.env n ent .objectBusy [] }) ∧
    ((Tbl.find s.mod.mem.regions h).isSome = true → s.mod.regionBusy h = false → Tbl.wf s.mod.mem.regions = true →
      OnModule .freeRegion s (fun m => Tbl.find m.mem.regions h = none ∧
        (s.mod.mem.pendingRetire = [] → (∀ k : Nat, k ≠ h → Tbl.find m.mem.regions k = Tbl.find s.mod.mem.regions k) ∧
          m.mem.reels = s.mod.mem.reels ∧ m.mem.stalled = []) ∧
        m.graphs = s.mod.graphs ∧ m.dies = s.mod.dies ∧ m.pwr = s.mod.pwr)))

/-- SUBMIT_GRAPH (R291, R292): a submission that fails a check is rejected whole, with the check number and the node and edge it
names; one that passes every check completes, is held under its handle with every node it declares, and changes no memory and no tile; one
with another training step than the open snapshot of the dailies closes that snapshot and opens one (R402).
ABORT_GRAPH (R303): GRAPH_UNKNOWN, or it completes, and the
graph is ended and no longer held; the answer counts the nodes that completed with ABORTED: those that had, and every node not yet
completed but an UPDATE that has committed (R280). -/
def Obligations.GraphsAreSubmittedAndAborted : Prop :=
  (∀ (s : State) (n : Nat) (ent : List Byte), s.mod.serves 0x0020 n ent →
    let im := s.mod.imageAt (entContext ent) (BitVec.ofNat 32 (entArg ent 8 4)) (entArg ent 0x10 8)
    (∀ r, s.mod.checkSubmit s.fuses.grade (entContext ent) im = some r →
      exec .submitGraph s =
        .next { s with mod := s.mod.answer s.env n ent r.status (natLe 4 r.check ++ natLe 4 r.node ++ natLe 4 r.edge) }) ∧
    (im = none → s.mod.checkSubmit s.fuses.grade (entContext ent) im = some ⟨1, .badDescriptor, 0xFFFFFFFF, 0xFFFFFFFF⟩) ∧
    (∀ i, im = some i → s.mod.checkSubmit s.fuses.grade (entContext ent) im = none →
      let h := (s.mod.accept s.env n ent i.parse.1).2
      let m := (s.mod.accept s.env n ent i.parse.1).1.answer s.env n ent .ok (natLe 4 h)
      exec .submitGraph s = .next { s with mod := m } ∧
      m.mem = s.mod.mem ∧ m.dies.map (fun d => d.tiles) = s.mod.dies.map (fun d => d.tiles) ∧
      ∃ g, Tbl.find m.graphs h = some g ∧ g.nodes = i.parse.1.nodes ∧ g.edges = i.parse.1.edges ∧ g.ctx = entContext ent ∧
        g.queue = n ∧ g.run.length = g.nodes.length ∧ ∃ y, m.pwr.daily = some y ∧ y.step = g.hdr.step ∧
          (∀ z, s.mod.pwr.daily = some z → z.step = g.hdr.step → y.opened = z.opened ∧ m.pwr.lastDaily = s.mod.pwr.lastDaily) ∧
          (∀ z, s.mod.pwr.daily = some z → z.step ≠ g.hdr.step → y.opened = s.env.now ∧ m.pwr.lastDaily = some { z with closed := s.env.now }) ∧
          (s.mod.pwr.daily = none → y.opened = s.env.now ∧ m.pwr.lastDaily = s.mod.pwr.lastDaily))) ∧
  (∀ (s : State) (n : Nat) (ent : List Byte), s.mod.serves 0x0021 n ent →
    let g := entArg ent 8 4
    (Tbl.find s.mod.graphs g = none → exec .abortGraph s = .next { s with mod := s.mod.answer s.env n ent .graphUnknown [] }) ∧
    ((Tbl.find s.mod.graphs g).isSome = true →
      let m := ((s.mod.abortGraph s.env g).1).answer s.env n ent .ok (natLe 4 (s.mod.abortGraph s.env g).2)
      exec .abortGraph s = .next { s with mod := m } ∧
      (Tbl.wf s.mod.graphs = true → (∀ gr, Tbl.find s.mod.graphs g = some gr → gr.run.length = gr.nodes.length) →
        Tbl.find m.graphs g = none) ∧
      (∀ gr, Tbl.find s.mod.graphs g = some gr → gr.run.length = gr.nodes.length →
        (∀ k : Nat, ¬((gr.runOf k).isRunning = true ∧ (gr.node k).ty = tyUpdate ∧ (gr.runOf k).committed = true ∧
          (gr.runOf k).outcome = some .ok)) →
        (s.mod.abortGraph s.env g).2 = (gr.run.filter (fun r => !r.isDone || r.phase == .done .aborted)).length)))

/-- SET_CAP (R390): the cap in force is the value given, limited to 2,400 W to 7,600 W, with CAP_CLAMPED when it was limited; a
raised cap releases the hold of R393. Resets and park states keep the cap; power good gives it the flash default, 7,600 W as shipped. SET_PHASE_OP (R389, R401): bits [3p+2:3p] of the preference of each die of DIEMASK take the
point given; with a mask of 0, of every die and update die. -/
def Obligations.CapAndPreferenceAreSet : Prop :=
  (∀ (s : State) (n : Nat) (ent : List Byte), s.mod.serves 0x0030 n ent →
    let w := entArg ent 8 4
    let c := max 2400 (min 7600 w)
    OnModule .setCap s (fun m =>
      m.pwr.cap.toNat = c ∧ m.pwr.unreachable = (s.mod.pwr.unreachable && decide (c ≤ s.mod.pwr.cap.toNat)) ∧
      m.pwr.units = s.mod.pwr.units ∧ m.pwr.ctrl = s.mod.pwr.ctrl ∧ m.pwr.duty = s.mod.pwr.duty ∧ m.mem = s.mod.mem ∧
      m.graphs = s.mod.graphs ∧ m.dies = s.mod.dies ∧
      ∃ p : Power, m = ({ s.mod with pwr := p }).answer s.env n ent (if c = w then .ok else .capClamped) (natLe 4 c))) ∧
  (∀ (s : State) (n : Nat) (ent : List Byte), s.mod.serves 0x0031 n ent →
    let p := entArg ent 8 1
    let op := entArg ent 9 1
    let mask := entArg ent 0xA 2
    p ≤ 5 → op ≤ 7 → mask < 4096 →
    OnModule .setPhaseOp s (fun m =>
      (∀ k : Fin 14, mask = 0 ∨ (k.val < 12 ∧ mask.testBit k.val = true) →
        ∀ q : Fin 6, (m.pwr.units[k.val]).prefOf q.val = if q.val = p then op else (s.mod.pwr.units[k.val]).prefOf q.val) ∧
      (∀ k : Fin 14, ¬(mask = 0 ∨ (k.val < 12 ∧ mask.testBit k.val = true)) → m.pwr.units[k.val] = s.mod.pwr.units[k.val]) ∧
      m.pwr.cap = s.mod.pwr.cap ∧ m.mem = s.mod.mem ∧ m.graphs = s.mod.graphs ∧ m.sameDies s.mod)) ∧
  (∀ (c : Instr) (s t : State),
    c ∈ [Instr.modResetN, .perst, .resetModule, .park, .deepPark, .parkStateReached, .parkRun] ∨ (∃ addr pec, c = .wake addr pec) →
      exec c s = .next t → t.mod.pwr.cap = s.mod.pwr.cap) ∧
  (∀ s : State, s.mod.life.powered = false → Completes .powerGood s (fun t => t.mod.pwr.cap = s.mod.flash.defaultCap)) ∧
  State.reset.mod.flash.defaultCap = 7600#16

/-- ARM_NAN_RECORD (R197): the record of one die, or with DIE 0xFF of every die, is armed with a count of zero and takes the policy given;
the records of the other dies, and the tiles and comparators of every die, are as before. The NaNs that an element-wise vector operation writes
(R195, R196, R198, R199) are counted, each once, on their die; while the record is armed they fill it, naming the lowest of their elements (that
those of one operation arrive together is DEDUCED, log 16), an event record with the same bytes is written, and the record is disarmed; a filled
record keeps its bytes. Under HALT the task stops with NAN_FIRST, under RECORD it goes on. -/
def Obligations.NanRecordIsArmed : Prop :=
  (∀ (s : State) (n : Nat) (ent : List Byte), s.mod.serves 0x0032 n ent →
    let die := entArg ent 8 1
    OnModule .armNanRecord s (fun m =>
      (∀ k : Fin 12, (m.dies[k.val]).nan =
        if die = 0xFF ∨ k.val = die then { armed := true, halt := entArg ent 9 1 == 1, count := 0, filled := none }
        else (s.mod.dies[k.val]).nan) ∧
      (∀ k : Fin 12, (m.dies[k.val]).tiles = (s.mod.dies[k.val]).tiles ∧ (m.dies[k.val]).cues = (s.mod.dies[k.val]).cues) ∧
      m.mem = s.mod.mem ∧ m.graphs = s.mod.graphs ∧ m.pwr = s.mod.pwr)) ∧
  (∀ (d : Fin 12) (t : Fin 64) (o : VOp) (s : State) (gr : Graph) (g n : Nat), ∀ y ∈ [((.vadd d t, 0x10) : Instr × Nat), (.vsub d t, 0x11),
      (.vmul d t, 0x12), (.vfma d t, 0x13), (.vmax d t, 0x14), (.vmin d t, 0x15), (.vdiv d t, 0x16), (.vsqrt d t, 0x17), (.vexp d t, 0x1E)],
    s.mod.vecHead d t y.2 = some o → o.tooLong (s.mod.tile d t).long = false → s.mod.ownerOf d t = some (gr, g, n) →
    let x := s.mod.tile d t
    let el := fun r i => vElem (x.vreg r) (fmtBits o.ty) i
    let isNan := fun i => !isInt o.ty && (fmtSpec o.ty).isNan (vArith y.2 o.ty (el o.vs1 i) (el o.vs2 i) (el o.vs3 i)).bits
    let nans := (List.range o.vl).filter isNan
    let old := (s.mod.dies[d.val]).nan
    let count := min (old.count + nans.length) (2 ^ 32 - 1)
    OnModule y.1 s (fun m =>
      (nans = [] → (m.dies[d.val]).nan = old ∧ m.recs = s.mod.recs ∧ (m.tile d t).outcome = x.outcome) ∧
      (∀ k : Fin 12, k ≠ d → (m.dies[k.val]).nan = (s.mod.dies[k.val]).nan) ∧
      (∀ i, nans.head? = some i →
        (old.armed = true → ∃ bytes, (m.dies[d.val]).nan = { armed := false, halt := old.halt, count := count, filled := some bytes } ∧
          bytes.length = 64 ∧ (∃ u ∈ m.recs.units, u.seq = s.mod.recs.write ∧ u.bytes = bytes) ∧ m.recs.write = s.mod.recs.write + 1 ∧
          ∀ z ∈ [(8, 2, 0x0301), (0xA, 4, (dieRes d.val).toNat), (0xE, 6, taskId g n), (0x14, 1, min (gr.runOf n).take 255), (0x15, 1, 0x03),
            (0x16, 1, y.2), (0x17, 1, o.ty), (0x18, 4, s.mod.tileReel d t), (0x1C, 4, o.bundle), (0x20, 4, i), (0x30, 4, count),
            (0x34, 1, boolNat old.halt)], fieldAt bytes z.1 z.2.1 = z.2.2 % 2 ^ (8 * z.2.1)) ∧
        (old.armed = false → (m.dies[d.val]).nan = { old with count := count } ∧ m.recs = s.mod.recs) ∧
        (m.tile d t).outcome = if old.halt = true then some .nanFirst else x.outcome)))

/-- TIME_SET (R54): on the fabric time source, a value ahead of fabric time sets it, and one equal to it is accepted and changes no count
(DESIGN CHOICE, log 13); any other is refused with TIME_SET_REFUSED and changes no count. A locked module that learns of a forward step at
its next exchange (that the amount is the exchange's operand is the model's choice, log 45) steps every count forward by the same amount. -/
def Obligations.TimeIsSetForwardOnly : Prop :=
  ∀ (s : State) (n : Nat) (ent : List Byte), s.mod.serves 0x0041 n ent →
    let v := entArg ent 8 8
    let now := (s.time.keeper[0]).ns
    (s.time.source = false ∨ v < now →
      exec .timeSet s = .next { s with mod := s.mod.answer s.env n ent .timeSetRefused [] }) ∧
    (s.time.source = true → v = now → exec .timeSet s = .next { s with mod := s.mod.answer s.env n ent .ok [] }) ∧
    (s.time.source = true → (s.time.keeper[0]).fs < 2 ^ 64 * 1000000 → now + 1 ≤ v →
      ∃ t, exec .timeSet s = .next t ∧ (t.time.keeper[0]).fs = v * 1000000 ∧
        (∀ i : Fin 12, (t.time.replica[i.val]).fs = (s.time.replica[i.val]).fs + (v * 1000000 - (s.time.keeper[0]).fs)) ∧
        t.mod.mem = s.mod.mem ∧ t.mod.graphs = s.mod.graphs ∧ t.tally = s.tally) ∧
    (∀ (p : Fin 8) (offset : Int) (ns : Nat) (src : Bool) (z : State), z.fuses.grade.hasIo p.val = true → z.mod.planeUp p.val = true →
      z.time.locked = true → Completes (.timeExchange p offset ns src) z (fun t =>
        (∀ i : Fin 8, (t.time.keeper[i.val]).fs = (z.time.keeper[i.val]).fs + ns * 1000000) ∧
        (∀ i : Fin 12, (t.time.replica[i.val]).fs = (z.time.replica[i.val]).fs + ns * 1000000) ∧ t.mod = z.mod))

/-- PARK, DEEP_PARK and PARK_RUN (R413, R415): a park state is refused with GRAPHS_PENDING while a graph is unfinished, else its
entry begins; PARK with state 0 brings a parked module back to run and clears the perturbation settings; outside PARK it completes with OK and
changes nothing (DEDUCED, log 68). PARK_STATE_REACHED (R413, R415, R417): in PARK memory contents, the power settings and each die's NaN record
are kept, and the tiles and gradient slots are lost, the tiles to the values that the model gives a lost tile (DESIGN CHOICE, log 9); in DEEP_PARK memory is lost too, PWR_CTRL and the cap are kept, and a locked module goes into
holdover. -/
def Obligations.ParkStatesComeAndGo : Prop :=
  (∀ (s : State) (n : Nat) (ent : List Byte), s.mod.serves 0x0050 n ent →
    let entering : PState → State := fun p => { s with mod := { s.mod with life := { s.mod.life with entering := some p } } }
    (entArg ent 8 1 = 1 → s.mod.graphs = [] → exec .park s = .next (entering .park)) ∧
    (entArg ent 8 1 = 1 → s.mod.graphs ≠ [] → exec .park s = .next { s with mod := s.mod.answer s.env n ent .graphsPending [] }) ∧
    (entArg ent 8 1 = 2 → s.mod.graphs = [] → exec .deepPark s = .next (entering .deepPark)) ∧
    (entArg ent 8 1 = 2 → s.mod.graphs ≠ [] → exec .deepPark s = .next { s with mod := s.mod.answer s.env n ent .graphsPending [] }) ∧
    (entArg ent 8 1 = 0 → s.mod.life.pstate = .park → OnModule .parkRun s (fun m =>
      m.life = { s.mod.life with pstate := .run, test := false } ∧ m.ptb.regs = Vector.replicate 6 0 ∧ m.ing.parked = [] ∧
      m.pwr = s.mod.pwr ∧ m.mem.reels = s.mod.mem.reels)) ∧
    (entArg ent 8 1 = 0 → s.mod.life.pstate ≠ .park → exec .parkRun s = .next { s with mod := s.mod.answer s.env n ent .ok [] })) ∧
  (∀ (s : State) (n : Nat) (ent : List Byte), s.mod.serves 0x0050 n ent →
    (s.mod.life.entering = some .park → ∃ t, exec .parkStateReached s = .next t ∧
      t.mod.life.pstate = .park ∧ t.mod.life.entering = none ∧ t.mod.mem = s.mod.mem ∧ t.mod.pwr = s.mod.pwr ∧
      t.mod.flash = s.mod.flash ∧ t.mod.slots = [] ∧ t.time = s.time ∧
      (∀ k : Fin 12, (t.mod.dies[k.val]).nan = (s.mod.dies[k.val]).nan ∧
        (t.mod.dies[k.val]).tiles = Vector.replicate 64 Tile.cold)) ∧
    (s.mod.life.entering = some .deepPark → ∃ t, exec .parkStateReached s = .next t ∧
      t.mod.life.pstate = .deepPark ∧ t.mod.life.stage = 0 ∧ t.mod.mem.regions = [] ∧ t.mod.mem.reels = [] ∧
      t.mod.pwr.ctrl = s.mod.pwr.ctrl ∧ t.mod.pwr.cap = s.mod.pwr.cap ∧ t.mod.flash = s.mod.flash ∧
      (∀ i : Fin 8, (t.time.keeper[i.val]).fs = (s.time.keeper[i.val]).fs) ∧
      (s.time.locked = true → t.time.holdover = true)))

/-- SHUTDOWN completes, with no write of flash-held data open (R319, R418); TEST_ENABLE sets MBX_STATUS.TEST; with enable 0 it clears TEST and every PTB register (R319, R438). The PTB
registers (R438, R439): a write is ignored while TEST is 0; while it is 1, reserved bits stay zero, a field beyond its range
takes its limit, and every other field (PROB and UNITS, QMASK and DRAINS, VCMASK and REORDER among them) takes what is written; the block reads as zero while TEST is 0; every reset and every change of power state clears it (R417): power good and its loss, a
thermal trip, a module reset, a die reset by firmware or by the voltage supervisor (R42, R408), PARK, DEEP_PARK, and a wake from either. -/
def Obligations.TestModeAndPerturbation : Prop :=
  (∀ (s : State) (n : Nat) (ent : List Byte),
    (s.mod.serves 0x0052 n ent →
      exec .shutdown s = .next { s with mod := ({ s.mod with flashOpen := false }).answer s.env n ent .ok [] }) ∧
    (s.mod.serves 0x00F0 n ent → entArg ent 8 1 = 1 →
      let m := { s.mod with life := { s.mod.life with test := true } }
      exec .testEnable s = .next { s with mod := m.answer s.env n ent .ok [] }) ∧
    (s.mod.serves 0x00F0 n ent → entArg ent 8 1 = 0 →
      let m := { s.mod with life := { s.mod.life with test := false }, ptb := ⟨Vector.replicate 6 0⟩ }
      exec .testEnableClear s = .next { s with mod := m.answer s.env n ent .ok [] })) ∧
  (∀ (r : Fin 6) (v : Word) (s : State), s.mod.portUp = true →
    (s.mod.life.test = false → ∀ part, exec (.ptbWrite r part v) s = .next s) ∧
    (s.mod.life.test = true → ∀ part, OnModule (.ptbWrite r part v) s (fun m =>
      let ranged : List (List (Nat × Nat)) := [[], [(0, 13)], [(0, 7), (16, 31)], [(0, 19)], [(0, 19)], [(0, 19)]]
      let x := mergePart part (s.mod.ptb.regs[r.val]) v
      (m.ptb.regs[r.val]) &&& ptbMask r.val = m.ptb.regs[r.val] ∧ (∀ k : Fin 6, k ≠ r → m.ptb.regs[k.val] = s.mod.ptb.regs[k.val]) ∧
      (r = 0 → m.ptb.regs[0] = x &&& 0xFFFFFFFF0000001F#64) ∧
      (part = .high → m.ptb.regs[r.val] = x &&& ptbMask r.val) ∧
      (part ≠ .high → (r = 1 → ((m.ptb.regs[1]).extractLsb' 0 14).toNat = min 10000 (v.extractLsb' 0 14).toNat) ∧
        (r = 2 → ((m.ptb.regs[2]).extractLsb' 0 8).toNat = min 224 (v.extractLsb' 0 8).toNat ∧
          ((m.ptb.regs[2]).extractLsb' 16 16).toNat = max 64 (v.extractLsb' 16 16).toNat) ∧
        (3 ≤ r.val → ((m.ptb.regs[r.val]).extractLsb' 0 20).toNat = min 1000000 (v.extractLsb' 0 20).toNat) ∧
        (∀ i : Nat, (∀ y ∈ ranged.getD r.val [], i < y.1 ∨ y.2 < i) → (m.ptb.regs[r.val]).getLsbD i = (x &&& ptbMask r.val).getLsbD i)) ∧
      (ptbMask 1 = 0x3FFFF003FFF#64 ∧ ptbMask 2 = 0x1FFFFFFFF00FF#64 ∧ ptbMask 3 = 0xFFFFFF0FFFFF#64 ∧ ptbMask 4 = 0xFFFFF#64 ∧
        ptbMask 5 = 0xFFFFF#64) ∧
      m.life = s.mod.life ∧ m.mem = s.mod.mem ∧ m.pwr = s.mod.pwr)) ∧
    (s.mod.life.test = false → s.readReg (0x400000 + 8 * r.val) = 0)) ∧
  (∀ s : State,
    let clear : State → Prop := fun t => t.mod.life.test = false ∧ t.mod.ptb.regs = Vector.replicate 6 0
    (s.mod.life.powered = false → Completes .powerGood s clear) ∧
    (s.mod.life.powered = true → s.mod.life.trip = false → s.mod.life.pstate = .deepPark ∨ 1 ≤ s.mod.life.stage →
      Completes .modResetN s clear ∧ Completes .perst s clear) ∧
    (s.mod.life.powered = true → s.mod.life.trip = false → s.mod.life.pstate = .deepPark → Completes (.wake s.fuses.smbAddr none) s clear) ∧
    (∀ (n : Nat) (ent : List Byte), s.mod.serves 0x0051 n ent → Completes .resetModule s clear) ∧
    (∀ (n : Nat) (ent : List Byte), s.mod.serves 0x0050 n ent →
      (s.mod.life.entering = some .park ∨ s.mod.life.entering = some .deepPark → Completes .parkStateReached s clear) ∧
      (entArg ent 8 1 = 0 → s.mod.life.pstate = .park → Completes .parkRun s clear)) ∧
    (∀ d : Fin 12, s.mod.unitUp d.val = true → Completes (.dieReset d) s clear) ∧
    (∀ u : Fin 2, s.mod.unitUp (12 + u.val) = true → Completes (.updateDieReset u) s clear) ∧
    (∀ (k : Fin 14) (mv : Nat), s.mod.unitUp k.val = true → mv < 500 → Completes (.coreUndervolt k mv) s clear) ∧
    (s.mod.life.powered = true → ∀ pwrEn cut : Bool, Completes (.powerGoodLost pwrEn cut) s clear) ∧
    (s.mod.life.powered = true → s.mod.life.trip = false → ∀ (u : HotUnit) (temp : Nat), tripAt u ≤ temp →
      (∀ st, u = .stack st → st.val < s.fuses.grade.hbmStacks) → (∀ n, u = .io n → s.fuses.grade.hasIo n.val = true) →
      Completes (.thermalTrip u temp) s clear))

/-! Host registers and windows. -/

/-- WIN_MEM (R308): a read returns the bytes of the mapped region, zero beyond its length or with no region mapped, and a poisoned answer
with an ACT_POISON event where an ACT line is in error; where a PERSIST line cannot be decoded the answer is poisoned too, with
HBM_UNCORRECTABLE, which is the model's choice (log 15); a write reaches the region's bytes, and every byte outside it reads as before. Only HBM regions can be mapped, and FREE_REGION of the
mapped region clears VALID. -/
def Obligations.WindowReachesTheMappedRegion : Prop :=
  ∀ (x : Nat) (s : State), s.mod.portUp = true →
    let a := s.mod.mbx.winOffset.toNat + x
    let answer : Tlp → Mod := fun p => { s.mod with host := { s.mod.host with tlp := some p } }
    (∀ len : Nat, s.mod.winValid = false →
      exec (.winMemRead x len) s = .next { s with mod := answer (.data (List.replicate len 0)) }) ∧
    (∀ (len : Nat) (r : Region), s.mod.region s.mod.mbx.winHandle = some r → r.cls ≠ .slow →
      let bs := (List.range len).map (fun i => if a + i < r.len then r.read (a + i) else 0)
      (s.mod.regPoisoned r a (min len (r.len - a)) = false → exec (.winMemRead x len) s = .next { s with mod := answer (.data bs) }) ∧
      (s.mod.regPoisoned r a (min len (r.len - a)) = true →
        let tells : Nat → Prop := fun code => OnModule (.winMemRead x len) s (fun m =>
          m.host.tlp = some (.poisoned bs) ∧ m.mem = s.mod.mem ∧ m.graphs = s.mod.graphs ∧ m.mbx = s.mod.mbx ∧
          m.recs.write = s.mod.recs.write + 1 ∧ ∃ u ∈ m.recs.units, u.seq = s.mod.recs.write ∧ fieldAt u.bytes 8 2 = code)
        (r.cls = .act → tells 0x0501) ∧ (r.cls = .persist → tells (Status.hbmUncorrectable).code))) ∧
    (∀ data : List Byte, s.mod.winValid = false → exec (.winMemWrite x data) s = .next s) ∧
    (∀ (data : List Byte) (r : Region), s.mod.region s.mod.mbx.winHandle = some r → r.cls ≠ .slow → Mem.wf r.bytes = true →
      OnModule (.winMemWrite x data) s (fun m => ∃ r', m.region s.mod.mbx.winHandle = some r' ∧ r'.len = r.len ∧
        (∀ i : Nat, a ≤ i → i < a + data.length → i < r.len → r'.read i = data.getD (i - a) 0) ∧
        (∀ i : Nat, i < a ∨ a + data.length ≤ i ∨ r.len ≤ i → r'.read i = r.read i) ∧
        (∀ h : BitVec 32, h ≠ s.mod.mbx.winHandle → m.region h = s.mod.region h))) ∧
    (s.mod.winValid = true ↔ ∃ r, s.mod.region s.mod.mbx.winHandle = some r ∧ r.cls ≠ .slow) ∧
    (∀ (n : Nat) (ent : List Byte), s.mod.serves 0x0012 n ent → entArg ent 8 4 = s.mod.mbx.winHandle.toNat →
      (Tbl.find s.mod.mem.regions (entArg ent 8 4)).isSome = true → s.mod.regionBusy (entArg ent 8 4) = false →
      Tbl.wf s.mod.mem.regions = true → OnModule .freeRegion s (fun m => m.winValid = false ∧ m.mbx.winHandle = s.mod.mbx.winHandle))

/-- Plain registers (R305, R306, R64): an access that is not 4 or 8 bytes wide and naturally aligned gives an Unsupported Request
and changes no register but the error status (which bit of it is set is PRESUMED from PCIe, log 54); MBX_WIN_HANDLE, MBX_WIN_OFFSET and MBX_REC_READ take what is written with their reserved bits reading zero, and a read index
that falls so far behind that the buffer counts as full raises vector 64 (R325);
read-only registers and undefined offsets ignore it. PWR_CTRL (R396, R400, R401): the written fields are held with the reserved bits zero, and
the module registers with the group written; VGATE_US 0 turns on the vector engines of every die in service, which the model reads as waking the
gated ones at once (log 69). -/
def Obligations.RegisterWritesKeepTheirFields : Prop :=
  (∀ (v : Word) (s : State), s.mod.portUp = true →
    (∀ off bytes : Nat, (bytes ≠ 4 ∧ bytes ≠ 8) ∨ off % bytes ≠ 0 →
      exec (.registerWrite off bytes v) s =
        .next { s with mod := { s.mod with host := { s.mod.host with tlp := some .unsupported, aer := s.mod.host.aer ||| 0x100000#32 } } }) ∧
    (exec (.registerWrite 0x0208 8 v) s =
      .next { s with mod := { s.mod with mbx := { s.mod.mbx with winOffset := v &&& 0xFFFFFFFFFFFFF000#64 } } }) ∧
    (exec (.registerWrite 0x0200 8 v) s =
      .next { s with mod := { s.mod with mbx := { s.mod.mbx with winHandle := v.setWidth 32 } } }) ∧
    (let m := { s.mod with recs := { s.mod.recs with read := v } }
      let full := s.mod.recs.write - s.mod.recs.read.toNat < 196608 ∧ 196608 ≤ s.mod.recs.write - v.toNat
      (¬full → exec (.registerWrite 0x0308 8 v) s = .next { s with mod := m }) ∧
      (full → exec (.registerWrite 0x0308 8 v) s = .next { s with mod := m.raise 64 })) ∧
    (exec (.registerWrite 0x100010 8 v) s =
      .next { s with time := { s.time with ppsEn := v.getLsbD 0, ppsEdge := v.getLsbD 1 } }) ∧
    (∀ off ∈ [0x0000, 0x0040, 0x0300, 0x0900, 0x100000, 0x100008, 0x100018, 0x100020, 0x100028, 0x200010, 0x200020, 0x300000,
        0x300008, 0x300100, 0x501000, 0x1000000], exec (.registerWrite off 8 v) s = .next s)) ∧
  (∀ (part : RegPart) (v : Word) (s : State), s.mod.portUp = true →
    OnModule (.pwrCtrlWrite part v) s (fun m =>
      let x := mergePart part s.mod.pwr.ctrl v
      m.pwr.ctrl = x &&& 0xFFFF83F0FFFFFFFF#64 ∧ m.pwr.group = x.extractLsb' 48 16 ∧ m.pwr.cap = s.mod.pwr.cap ∧
      m.pwr.units = s.mod.pwr.units ∧ m.pwr.duty = s.mod.pwr.duty ∧ m.mem = s.mod.mem ∧ m.graphs = s.mod.graphs ∧
      (x.extractLsb' 16 16 ≠ 0#16 → m.sameDies s.mod) ∧
      (x.extractLsb' 16 16 = 0#16 → ∀ d : Fin 12, (m.dies[d.val]).nan = (s.mod.dies[d.val]).nan ∧
        (m.dies[d.val]).cues = (s.mod.dies[d.val]).cues ∧ ∀ t : Fin 64, { m.tile d t with tone := false } =
          { s.mod.tile d t with tone := false, gateOn := (s.mod.tile d t).gateOn || (s.mod.unitUp d.val && !(s.mod.dies[d.val]).inReset) })))

/-! Power, resets and stages. -/

/-- POWER_GOOD begins a cold start: fabric time at 0 and not locked, no stage, no memory contents, the cap at the flash default, the
flash kept; POWER_GOOD_LOST switches everything off, and keeps flash but for a write that it interrupts, which leaves the copy before it
(R403, R417, R418, R444). A latched trip is released where PWR_EN is deasserted, and nowhere else (R395, R445; DEDUCED, log 46). THERMAL_TRIP (R395): at
115 °C on a die (compute, update or I/O) or 105 °C on a stack the domains go off, the trip is latched, and flash records the unit and temperature; below that
nothing happens. A tripped module does not answer the host or a reset pin. Stage A of the next cold start reports the trip that flash
holds (R395, R408); that the record's detail holds the temperature in one byte is the model's choice (log 12). -/
def Obligations.PowerGoesAndTrips : Prop :=
  (∀ s : State,
    let off : Bool → Bool → Flash → State → Prop := fun on trip f t =>
      t.mod.life.powered = on ∧ t.mod.life.coldStart = true ∧ t.mod.life.stage = 0 ∧ t.mod.life.trip = trip ∧
      t.mod.mem.regions = [] ∧ t.mod.mem.reels = [] ∧
      t.mod.graphs = [] ∧ t.mod.flash = f ∧ t.mod.pwr.cap = f.defaultCap ∧ t.mod.pwr.ctrl = 0x000003F000140FA0#64 ∧
      t.time.locked = false ∧ (∀ i : Fin 8, (t.time.keeper[i.val]).fs = 0) ∧ (∀ n : Fin 64, t.mod.queue n.val = none) ∧
      t.mod.recs.units = []
    (s.mod.life.powered = false → Completes .powerGood s (off true s.mod.life.trip s.mod.flash)) ∧
    (s.mod.life.powered = true → exec .powerGood s = .next s) ∧
    (∀ pwrEn cut : Bool,
      (s.mod.life.powered = true → Completes (.powerGoodLost pwrEn cut) s (off false (s.mod.life.trip && pwrEn)
        (if cut = true ∧ s.mod.flashOpen = true then s.mod.flashOld.getD s.mod.flash else s.mod.flash))) ∧
      (s.mod.life.powered = false → exec (.powerGoodLost pwrEn cut) s =
        .next { s with mod := { s.mod with life := { s.mod.life with pwrEn := pwrEn, trip := s.mod.life.trip && pwrEn } } }))) ∧
  (∀ (u : HotUnit) (temp : Nat) (s : State), Instr.present s.fuses.grade (.thermalTrip u temp) = true → s.mod.life.powered = true →
    s.mod.life.trip = false →
    let limit := match u with | .die _ | .io _ => 115 | .stack _ => 105
    (temp < limit → exec (.thermalTrip u temp) s = .next s) ∧
    (limit ≤ temp → Completes (.thermalTrip u temp) s (fun t =>
      t.mod.life.trip = true ∧ t.mod.flash.tripRecord = some (u, temp) ∧ t.mod.portUp = false ∧ t.mod.mem.regions = [] ∧
      t.mod.graphs = [] ∧ t.mod.pwr.cap = s.mod.pwr.cap ∧ t.mod.recs = s.mod.recs ∧
      exec .modResetN t = .next t ∧ exec .perst t = .next t ∧
      (∀ addr pec, ∃ a, exec (.wake addr pec) t = .next { t with mod := { t.mod with host := { t.mod.host with smbus := a } } })))) ∧
  (∀ (u : HotUnit) (temp : Nat) (s : State), s.mod.life.powered = true → s.mod.life.trip = false → s.mod.life.pstate = .run →
    s.mod.life.stage = 0 → s.mod.life.coldStart = true → s.mod.flash.tripRecord = some (u, temp) → temp < 256 →
    OnModule .stageAReached s (fun m => m.life.stage = 1 ∧ ∃ r ∈ m.recs.units, fieldAt r.bytes 8 2 = 0x0707 ∧
      fieldAt r.bytes 10 4 = (match u with | .die k => dieRes k.val | .io n => ioRes n.val | .stack st => stackRes st.val).toNat ∧
      BitVec.ofNat 8 temp ∈ slice r.bytes 0x15 42))

/-- MOD_RESET_N, PERST# and RESET_MODULE begin a module reset (R408, R409, R417): no graph, queue, region or reel is left, the record
buffer gains a MODULE_RESET record with the cause and the count of graphs ended, and flash, cap and fabric time are kept. During a
reset that has not reached stage A a further pin only extends it, and so it does during a cold start before stage A (DEDUCED, log 42: R409 speaks
of a module reset in progress); in DEEP_PARK a pin is a wake (R413, R416).
That the record names the management processor is the model's choice (log 12). -/
def Obligations.ModuleResetKeepsWhatItMust : Prop :=
  ∀ s : State, s.mod.life.powered = true → s.mod.life.trip = false →
    let reset : Nat → State → Prop := fun cause t =>
      t.mod.life.stage = 0 ∧ t.mod.life.pstate = .run ∧ t.mod.graphs = [] ∧ t.mod.mem.regions = [] ∧ t.mod.mem.reels = [] ∧
      (∀ n : Fin 64, t.mod.queue n.val = none) ∧ t.mod.flash = s.mod.flash ∧ t.mod.pwr.cap = s.mod.pwr.cap ∧
      (∀ i : Fin 8, t.time.keeper[i.val] = s.time.keeper[i.val]) ∧ t.time.locked = s.time.locked ∧
      (∀ c : Fin 14, t.channel c.val = TallyCh.cold) ∧ t.mod.recs.write = s.mod.recs.write + 1 ∧
      ∃ u ∈ t.mod.recs.units, u.seq = s.mod.recs.write ∧
        u.bytes = recBytes s.env.now .moduleReset mgmtRes 0 0 (natLe 1 cause ++ natLe 4 s.mod.graphs.length) 0
    (s.mod.life.pstate ≠ .deepPark → 1 ≤ s.mod.life.stage → Completes .modResetN s (reset 1) ∧ Completes .perst s (reset 2)) ∧
    (∀ (n : Nat) (ent : List Byte), s.mod.serves 0x0051 n ent → Completes .resetModule s (reset 3)) ∧
    (s.mod.life.pstate ≠ .deepPark → s.mod.life.stage = 0 → s.mod.life.waking = false →
      exec .modResetN s = .next s ∧ exec .perst s = .next s) ∧
    (s.mod.life.pstate = .deepPark →
      let woken : State → Prop := fun t => t.mod.life.pstate = .run ∧ t.mod.life.stage = 0 ∧ t.mod.pwr.ctrl = s.mod.pwr.ctrl ∧
        t.mod.flash = s.mod.flash ∧ t.time = s.time ∧ t.mod.recs = s.mod.recs
      Completes .modResetN s woken ∧ Completes .perst s woken ∧ Completes (.wake s.fuses.smbAddr none) s woken)

/-- The stages come in order (R404, R406, R407, R350): A from a start, B unless C0 or U0 has failed its start test, C unless any unit has,
D with a plane in service and fabric time locked. Stage C calibrates the panel time paths, which are its operand (DESIGN CHOICE, log 6); at a cold start it measures every tile
ceiling, which is never raised (R37). A die whose rail is held, or that is in reset, keeps its ceilings until it runs (R42; DESIGN CHOICE, log 53).
START_FAILED marks a unit, with a record that names it, which stands in the buffer until 262,144 later units have overwritten it (R323); the
module stays where it is, and the loss of the die ends its graphs (R407, R435). -/
def Obligations.StagesComeInOrder : Prop :=
  ∀ s : State, s.mod.life.powered = true → s.mod.life.trip = false → s.mod.life.pstate = .run →
    let at_ : Nat → Mod → Prop := fun k m => m.life.stage = k ∧ m.life.pstate = .run ∧ m.mem = s.mod.mem ∧ m.graphs = s.mod.graphs
    (s.mod.life.stage = 0 → OnModule .stageAReached s (at_ 1)) ∧
    (s.mod.life.stage = 1 → s.mod.life.startFailed.contains 0 = false → s.mod.life.startFailed.contains 12 = false →
      OnModule .stageBReached s (at_ 2)) ∧
    (s.mod.life.stage = 1 → s.mod.life.startFailed.contains 0 = true ∨ s.mod.life.startFailed.contains 12 = true →
      exec .stageBReached s = .next s) ∧
    (s.mod.life.stage = 2 → s.mod.life.startFailed = [] → ∀ l delays failed, OnModule (.stageCReached l delays failed) s (fun m =>
      m.life.stage = 3 ∧ m.life.pstate = .run ∧
      (delays.length = 20 → s.mod.flash.pathDelay.length = 20 → m.flash.pathDelay = delays) ∧
      (failed = [] → s.mod.flt.pendingMeas = [] → s.mod.life.coldStart = false → at_ 3 m ∧ m.flash.aged = s.mod.flash.aged) ∧
      (failed = [] → s.mod.flt.pendingMeas = [] → s.mod.life.coldStart = true →
        (∀ (d : Fin 12) (t : Fin 64), (s.mod.tile d t).owner = none) → ∀ (d : Fin 12) (x : Fin 66),
          (m.flash.aged[d.val])[x.val] = if (s.mod.pwr.units[d.val]).held = false ∧ (s.mod.dies[d.val]).inReset = false
            then min ((s.mod.flash.aged[d.val])[x.val]) ((l.getD d.val []).getD x.val 7) else (s.mod.flash.aged[d.val])[x.val]))) ∧
    (s.mod.life.stage = 2 → s.mod.life.startFailed ≠ [] → ∀ l delays failed, exec (.stageCReached l delays failed) s = .next s) ∧
    (s.mod.life.stage = 3 → (∃ p : Fin 8, (s.mod.fab.planes[p.val]).inService = true) → s.time.locked = true →
      OnModule .stageDReached s (at_ 4)) ∧
    (s.mod.life.stage = 3 → s.time.locked = false ∨ (∀ p : Fin 8, (s.mod.fab.planes[p.val]).inService = false) →
      exec .stageDReached s = .next s) ∧
    (∀ k : Fin 14, s.mod.life.stage = 2 ∨ (s.mod.life.stage = 1 ∧ (k = 0 ∨ k = 12)) → s.mod.life.startFailed.contains k.val = false →
      OnModule (.startFailed k) s (fun m =>
        m.life = { s.mod.life with startFailed := s.mod.life.startFailed ++ [k.val] } ∧
        s.mod.recs.write + 1 ≤ m.recs.write ∧
        (m.recs.write ≤ s.mod.recs.write + 262144 → ∃ u ∈ m.recs.units, u.seq = s.mod.recs.write ∧
          u.bytes = recBytes s.env.now .startFailed (dieRes k.val) 0 0 [] 0) ∧
        (s.mod.graphs = [] → m.recs.write = s.mod.recs.write + 1 ∧ m.pwr = s.mod.pwr ∧ m.mem = s.mod.mem) ∧
        (Tbl.wf s.mod.graphs = true → (∀ (g : Nat) (gr : Graph), Tbl.find s.mod.graphs g = some gr → gr.run.length = gr.nodes.length) →
          m.graphs = [])))

/-- The SMBus (R445, R446): READ_STAGE, READ_TEMP and READ_POWER answer at address 0x58 + SLOT_ID from power good, in every stage and power
state, and change nothing but the answer; a temperature reads 0xFF where its die or stack is off or absent, and 254 above that; what is powered is read,
in service or not, the stacks in PARK too (DEDUCED, log 48). The packet error code follows
where the host asks for it; how it is computed, and that a transfer to another address or to a module without power is not acknowledged,
is PRESUMED from SMBus (log 65). WAKE is acknowledged with a right packet error code or none, and outside DEEP_PARK does nothing else. -/
def Obligations.SmbusReadsChangeNothing : Prop :=
  ∀ s : State,
    let heard : Option (List Byte) → State := fun a => { s with mod := { s.mod with host := { s.mod.host with smbus := a } } }
    let addr : BitVec 7 := 0x58#7 + s.fuses.slotId.setWidth 7
    (∀ (a : BitVec 7) (pec : Bool) (code : Option Byte), s.mod.life.powered = false ∨ a ≠ addr →
      exec (.readStage a pec) s = .next (heard none) ∧ exec (.readTemp a pec) s = .next (heard none) ∧
      exec (.readPower a pec) s = .next (heard none) ∧ exec (.wake a code) s = .next (heard none)) ∧
    (s.mod.life.powered = true → ∀ pec : Bool,
      let answers : Instr → Byte → Bool → (List Byte → Prop) → Prop := fun c code block p =>
        ∃ bs, p bs ∧ exec c s = .next (heard (some (bs ++ (if pec then
          [smbPec ([smbAddrByte addr false, code, smbAddrByte addr true] ++ (if block then [BitVec.ofNat 8 bs.length] else []) ++ bs)]
          else []))))
      answers (.readStage addr pec) 0x01 false (fun bs => bs.length = 1 ∧ (s.mod.life.stage < 8 → s.mod.life.trip = false →
        s.mod.alert = false → s.mod.life.pstate = .run → bs = [BitVec.ofNat 8 s.mod.life.stage])) ∧
      answers (.readTemp addr pec) 0x02 true (fun bs => bs.length = 48 ∧
        (s.mod.diesOn = false → ∀ k : Fin 14, bs.getD k.val 0 = 0xFF#8) ∧
        (s.mod.diesOn = true → ∀ k : Fin 14, bs.getD k.val 0 = BitVec.ofNat 8 (min 254 (s.mod.pwr.units[k.val]).tj)) ∧
        (∀ st : Fin 32, bs.getD (14 + st.val) 0 = if s.mod.stackOn s.fuses.grade st.val = true
          then BitVec.ofNat 8 (min 254 (s.mod.pwr.hbmStacks[st.val]).temp) else 0xFF#8) ∧
        (∀ i : Nat, i < 46 → bs.getD i 0 ≠ 0xFF#8 → bs.getD i 0 ≤ bs.getD 46 0)) ∧
      answers (.readPower addr pec) 0x03 true (fun bs => bs.length = 8 ∧ fieldAt bs 0 2 = s.mod.pwr.p1ms.toNat ∧
        fieldAt bs 2 2 = s.mod.pwr.vin.toNat ∧ fieldAt bs 4 2 = s.mod.pwr.i10us.toNat ∧ fieldAt bs 6 2 = s.mod.pwr.cap.toNat)) ∧
    (s.mod.life.powered = true → s.mod.life.pstate ≠ .deepPark → ∀ code : Option Byte,
      let right := smbPec [smbAddrByte addr false, 0x10]
      (code = none ∨ code = some right → exec (.wake addr code) s = .next (heard (some []))) ∧
      (∀ b, code = some b → b ≠ right → exec (.wake addr code) s = .next (heard none)))

/-- Rails and die resets (R42, R43, R63, R411, R412): a held rail is marked and released; what waited for a die goes on when it runs again, the
launches of the comparators that fired there meanwhile and the ceilings measured meanwhile (log 53), and nothing else changes; firmware's reset of a die puts it in reset, re-arms
its NaN record with its policy kept and clears its tiles, and leaves every other die as it is; a rejoin ends the reset and changes, beside what
waited, room tone alone (and turns the vector engines on where VGATE_US is 0: log 69), and does nothing to a unit that is in no reset; a core rail below 0.50 V resets its die and holds its rail. -/
def Obligations.DieResetsAreConfined : Prop :=
  let launched : Nat → Mod → Mod → Prop := fun d m m' => ∀ (g : Nat) (gr : Graph), Tbl.find m.graphs g = some gr →
    ∃ gr', Tbl.find m'.graphs g = some gr' ∧ gr' = { gr with run := gr'.run } ∧
      ∀ n : Nat, gr'.runOf n = { gr.runOf n with cuedIn := (gr.runOf n).cuedIn.filter (fun k => k != d) }
  (∀ (k : Fin 14) (s : State), s.mod.unitUp k.val = true →
    let held : Bool → State := fun b => { s with mod := { s.mod with pwr := { s.mod.pwr with
      units := s.mod.pwr.units.set k.val { s.mod.pwr.units[k.val] with held := b } } } }
    exec (.railHold k) s = .next (held true) ∧
    (12 ≤ k.val ∨ (∃ d : Fin 12, d.val = k.val ∧ (s.mod.dies[d.val]).inReset = true) → exec (.railRelease k) s = .next (held false)) ∧
    (∀ d : Fin 12, d.val = k.val → (s.mod.dies[d.val]).inReset = false →
      exec (.railRelease k) s = .next { s with mod := ((held false).mod.cuesProceed d.val).measureDue s.env } ∧
      (s.mod.flt.pendingMeas = [] → OnModule (.railRelease k) s (fun m => m = { (held false).mod with graphs := m.graphs } ∧
        launched d.val s.mod m)))) ∧
  (∀ (d : Fin 12) (s : State), s.mod.unitUp d.val = true →
    let struck : Mod → Prop := fun m =>
      (m.dies[d.val]).inReset = true ∧ (m.dies[d.val]).nan.armed = true ∧ (m.dies[d.val]).nan.halt = (s.mod.dies[d.val]).nan.halt ∧
      (m.dies[d.val]).cues = (s.mod.dies[d.val]).cues ∧
      (∀ t : Fin 64, ((m.dies[d.val]).tiles[t.val]).pad = ⟨[], [], []⟩ ∧ ((m.dies[d.val]).tiles[t.val]).vecQ = [] ∧
        ((m.dies[d.val]).tiles[t.val]).owner = ((s.mod.dies[d.val]).tiles[t.val]).owner) ∧
      (∀ k : Fin 12, k ≠ d → m.dies[k.val] = s.mod.dies[k.val]) ∧ m.udies = s.mod.udies ∧ m.mem = s.mod.mem
    OnModule (.dieReset d) s struck ∧
    (∀ mv, mv < 500 → OnModule (.coreUndervolt ⟨d.val, by omega⟩ mv) s (fun m => struck m ∧ (m.pwr.units[d.val]).held = true))) ∧
  (∀ (u : Fin 2) (s : State), s.mod.unitUp (12 + u.val) = true → OnModule (.updateDieReset u) s (fun m =>
    (m.udies[u.val]).inReset = true ∧ (m.udies[u.val]).jobs = (s.mod.udies[u.val]).jobs ∧ m.dies = s.mod.dies ∧ m.mem = s.mod.mem)) ∧
  (∀ (d : Fin 12) (s : State),
    ((s.mod.dies[d.val]).inReset = false → exec (.dieRejoin ⟨d.val, by omega⟩) s = .next s) ∧
    ((s.mod.dies[d.val]).inReset = true → OnModule (.dieRejoin ⟨d.val, by omega⟩) s (fun m => (m.dies[d.val]).inReset = false ∧
      (s.mod.pwr.ctrl.extractLsb' 16 16 = 0#16 → s.mod.unitUp d.val = true → s.mod.flt.pendingMeas = [] →
        ∀ t : Fin 64, (m.tile d t).gateOn = true) ∧
      (s.mod.flt.pendingMeas = [] → s.mod.pwr.ctrl.extractLsb' 16 16 ≠ 0#16 →
        m.sameDies { s.mod with dies := s.mod.dies.set d.val { s.mod.dies[d.val] with inReset := false } } ∧
        (∀ k : Fin 12, k ≠ d → m.dies[k.val] = s.mod.dies[k.val]) ∧ m = { s.mod with dies := m.dies, graphs := m.graphs } ∧
        (s.mod.unitUp d.val = true → (s.mod.pwr.units[d.val]).held = false → launched d.val s.mod m) ∧
        (s.mod.unitUp d.val = false ∨ (s.mod.pwr.units[d.val]).held = true → m.graphs = s.mod.graphs))))) ∧
  (∀ (u : Fin 2) (s : State), exec (.dieRejoin ⟨12 + u.val, by omega⟩) s =
    .next { s with mod := { s.mod with udies := s.mod.udies.set u.val { s.mod.udies[u.val] with inReset := false } } })

/-! Fabric time. -/

/-- TIME_EXCHANGE on a plane in service (R49, R52, R53): an unlocked module sets every count to one value, once, and says so with
TIME_STEPPED; a locked one steers IO0 by minus the median offset, unless it is the source and steers to its 1PPS input, and steps no count. TIME_BEACON, TIME_HOLDOVER and PPS_EDGE (R48,
R49, R51, R53, R64) complete: a beacon makes every other keeper and every replica steer to the count of IO0 that it carries, less the beacon's transit and with its
path delay (DESIGN CHOICE, log 6); a locked module
enters holdover with one record; the selected edge is captured, and the time source with PPS_EN steers to the nearest second (DEDUCED,
log 45). No count steps. That an offset is the module's count less fabric time is DEDUCED too (log 13). -/
def Obligations.TimeFollowsItsSource : Prop :=
  (∀ (p : Fin 8) (offset : Int) (source : Bool) (s : State), s.fuses.grade.hasIo p.val = true → s.mod.planeUp p.val = true →
    (s.time.locked = false → Completes (.timeExchange p offset 0 source) s (fun t =>
      t.time.locked = true ∧ t.time.holdover = false ∧ t.time.source = source ∧
      (∀ i : Fin 8, (t.time.keeper[i.val]).fs = (t.time.keeper[0]).fs ∧ (t.time.keeper[i.val]).corr = 0) ∧
      (∀ i : Fin 12, (t.time.replica[i.val]).fs = (t.time.keeper[0]).fs ∧ (t.time.replica[i.val]).corr = 0) ∧ t.mod.recs.write = s.mod.recs.write + 1 ∧ t.mod.mem = s.mod.mem ∧ t.tally = s.tally)) ∧
    (s.time.locked = true → Completes (.timeExchange p offset 0 source) s (fun t =>
      t.mod = s.mod ∧ t.tally = s.tally ∧ t.time.locked = true ∧ t.time.holdover = false ∧ t.time.source = source ∧
      (∀ i : Fin 8, (t.time.keeper[i.val]).fs = (s.time.keeper[i.val]).fs) ∧ t.time.replica = s.time.replica ∧
      (∃ med : Int, t.time.offset = BitVec.ofInt 64 med ∧
        (source = false ∨ s.time.ppsEn = false ∨ s.time.ppsSeen = false → (t.time.keeper[0]).corr = -med * 1000000) ∧
        (source = true → s.time.ppsEn = true → s.time.ppsSeen = true → t.time.keeper = s.time.keeper) ∧
        ((∀ q : Fin 8, q ≠ p → s.time.offsets[q.val] = none ∨ (s.mod.fab.planes[q.val]).inService = false) → med = offset))))) ∧
  (∀ s : State, s.mod.life.powered = true →
    (∀ transit : List Nat, exec (.timeBeacon transit) s = .next { s with time := s.time.beacon transit s.mod.flash.pathDelay } ∧
      Completes (.timeBeacon transit) s (fun t => t.mod = s.mod ∧ t.time.keeper[0] = s.time.keeper[0] ∧
        (∀ i : Fin 8, (t.time.keeper[i.val]).fs = (s.time.keeper[i.val]).fs ∧ (i ≠ 0 → (t.time.keeper[i.val]).corr =
          ((s.time.keeper[0]).fs : Int) - transit.getD i.val 0 + s.mod.flash.pathDelay.getD i.val 0 - ((s.time.keeper[i.val]).fs : Int))) ∧
        (∀ i : Fin 12, (t.time.replica[i.val]).fs = (s.time.replica[i.val]).fs ∧ (t.time.replica[i.val]).corr =
          ((s.time.keeper[0]).fs : Int) - transit.getD (8 + i.val) 0 + s.mod.flash.pathDelay.getD (8 + i.val) 0 -
            ((s.time.replica[i.val]).fs : Int)))) ∧
    (s.time.locked = true → s.time.holdover = false → Completes .timeHoldover s (fun t =>
      t.time = { s.time with holdover := true } ∧ t.mod.recs.write = s.mod.recs.write + 1 ∧ t.mod.mem = s.mod.mem)) ∧
    (s.time.holdover = true → exec .timeHoldover s = .next s) ∧
    (∀ falling : Bool, falling = s.time.ppsEdge → Completes (.ppsEdge falling) s (fun t =>
      t.mod = s.mod ∧ t.time.ppsSlate = BitVec.ofNat 64 (s.time.keeper[0]).ns ∧ t.time.ppsSeen = true ∧
      (t.time.keeper[0]).fs = (s.time.keeper[0]).fs ∧ t.time.replica = s.time.replica ∧
      (∀ i : Fin 8, i ≠ 0 → t.time.keeper[i.val] = s.time.keeper[i.val]) ∧
      (s.time.source = true → s.time.ppsEn = true → (t.time.keeper[0]).corr = ppsError (s.time.keeper[0]).fs) ∧
      (s.time.source = false ∨ s.time.ppsEn = false → t.time.keeper = s.time.keeper))) ∧
    (∀ falling : Bool, falling ≠ s.time.ppsEdge → exec (.ppsEdge falling) s = .next s))

/-! The fabric and ingest. -/

/-- Ports and planes (R347, R348, R350, R353, R354, R425, R426): a retry changes nothing; a fabric lane with an uncorrectable codeword, or more
than 10⁶ corrected symbols within 1 s, and a bridge lane with more than 16 flit-check errors within 1 s, is in error: counted, and its test
scheduled (the count then begins anew: DESIGN CHOICE, log 30); a port that goes down is down, its sending credits come anew with the next
training (DESIGN CHOICE, log 60), and the unacknowledged packets that went out on it are sent again over a port that is up, if there is one,
none lost and all in order (R354 has this for a lost plane; for a port alone it is the model's choice, log 28); the first hello sets the number in
force and brings its plane into service; a plane that offers another number is held out with ADDRESS_CONFLICT; a plane whose ports are
all down is lost, with its record. -/
def Obligations.PlanesComeAndGo : Prop :=
  ∀ (n : Fin 8) (port : Fin 4) (s : State), s.fuses.grade.hasIo n.val = true →
    let plane : Mod → Plane := fun m => m.plane n.val
    let noted : TestRes → Mod → Prop := fun r m => r ∈ m.flt.pendingTests ∧ (r, s.env.now) ∈ m.flt.recent
    (∀ vc, exec (.linkRetry n port vc .crc) s = .next s ∧
      (∀ lane, OnModule (.linkRetry n port vc (.fabric lane)) s (fun m => noted (.fabricLane n lane) m ∧
        m = { s.mod with flt := { s.mod.flt with recent := m.flt.recent, pendingTests := m.flt.pendingTests } })) ∧
      (∀ (err : LinkErr) (r : TestRes) (k limit : Nat), (∃ lane, err = .symbols lane k ∧ r = .fabricLane n lane ∧ limit = 1000000) ∨
          (∃ edge group lane, err = .bridge edge group lane ∧ r = .bridgeLane edge group lane ∧ k = 1 ∧ limit = 16) →
        let last := s.mod.flt.lanes.filter (fun x => decide (s.env.now < x.2.1 + 1000000000))
        let total := (last.filter (fun x => x.1 == r)).foldl (fun acc x => acc + x.2.2) k
        (limit < total → OnModule (.linkRetry n port vc err) s (fun m => noted r m ∧
          m = { s.mod with flt := { s.mod.flt with recent := m.flt.recent, pendingTests := m.flt.pendingTests,
                                                   lanes := last.filter (fun x => x.1 != r) } })) ∧
        (total ≤ limit → exec (.linkRetry n port vc err) s =
          .next { s with mod := { s.mod with flt := { s.mod.flt with lanes := last ++ [(r, s.env.now, k)] } } }))) ∧
    OnModule (.portDown n port) s (fun m =>
      m.port n.val port.val = { s.mod.port n.val port.val with
        up := false, retraining := false, spent := Vector.replicate 16 0, buf := Vector.replicate 16 [] } ∧
      (∀ (p : Fin 8) (q : Fin 4), (p, q) ≠ (n, port) → (m.port p.val q.val).up = (s.mod.port p.val q.val).up ∧
        (m.port p.val q.val).retraining = (s.mod.port p.val q.val).retraining ∧
        (m.port p.val q.val).credits = (s.mod.port p.val q.val).credits) ∧
      m.fab.planes = s.mod.fab.planes ∧ m.fab.sent.map Prod.snd = s.mod.fab.sent.map Prod.snd ∧
      (∀ x ∈ m.fab.sent, x.1 ≠ some (n.val, port.val)) ∧
      (∀ (i : Nat) (x : Option (Nat × Nat) × Packet), s.mod.fab.sent[i]? = some x →
        (x.1 ≠ some (n.val, port.val) → m.fab.sent[i]? = some x) ∧
        (x.1 = some (n.val, port.val) →
          (∃ (p : Fin 8) (q : Fin 4), (s.mod.plane p.val).inService = true ∧ (s.mod.port p.val q.val).up = true ∧ (p, q) ≠ (n, port)) →
          ∃ w, m.fab.sent[i]? = some (some w, x.2) ∧ (m.plane w.1).inService = true ∧ (m.port w.1 w.2).up = true)) ∧
      ((∀ x ∈ s.mod.fab.sent, x.1 ≠ some (n.val, port.val)) → m.fab.sent = s.mod.fab.sent ∧
        ∀ (p : Fin 8) (q : Fin 4), (p, q) ≠ (n, port) → m.port p.val q.val = s.mod.port p.val q.val)) ∧
    OnModule (.portRetrained n port) s (fun m => (m.port n.val port.val).retraining = false ∧
      (m.port n.val port.val).up = (s.mod.port n.val port.val).up ∧ m.fab.sent = s.mod.fab.sent) ∧
    (∀ num : BitVec 24, s.mod.linksUp = true → num ≠ 0xFFFFFF#24 → 2 ≤ s.mod.flash.working n.val port.val →
      (s.mod.fab.number = none ∨ s.mod.fab.number = some num → OnModule (.hello n port num) s (fun m =>
        m.fab.number = some num ∧ (plane m).inService = true ∧ (plane m).number = some num ∧ (m.port n.val port.val).up = true ∧
        (∀ q : Fin 8, q ≠ n → m.plane q.val = s.mod.plane q.val))) ∧
      (∀ old, s.mod.fab.number = some old → old ≠ num → OnModule (.hello n port num) s (fun m =>
        m.fab.number = some old ∧ (plane m).inService = false ∧ (plane m).heldOut = true ∧ m.recs.write = s.mod.recs.write + 1))) ∧
    ((plane s.mod).inService = true → (∀ q : Fin 4, (s.mod.port n.val q.val).up = false) → Completes (.planeLost n) s (fun t =>
      (plane t.mod).inService = false ∧ (plane t.mod).lost = true ∧ t.mod.recs.write = s.mod.recs.write + 1 ∧
      t.time.offsets[n.val] = none ∧ (∀ x ∈ t.mod.fab.sent, ∃ y ∈ s.mod.fab.sent, y.2 = x.2 ∧ (y.1.map Prod.fst ≠ some n.val → x = y)) ∧
      t.mod.fab.sent.length = s.mod.fab.sent.length)) ∧
    ((s.mod.port n.val 0).up = true → exec (.planeLost n) s = .next s)

/-- Packets (R351 to R353): one that arrives on a plane in service gives its channel's credit back; one for another module, or for an endpoint
that does not exist, is discarded; one for an endpoint of the module is delivered, and outside VC1 and VC2 it is acknowledged and a second
copy is discarded; on VC0 and VC3 the packets of each pair of endpoints go out in send order: one out of turn waits, and when its turn comes it
goes out at once, with every one that waits for it (that the numbers count from 0 for each channel and pair is the model's choice, log 28). A packet sent spends a credit of its channel, which its
acknowledgement gives back (DESIGN CHOICE, log 60), and waits in the port's buffer while the port retrains (R348). An acknowledgement releases the sender's copy and no other.
That an acknowledgement is held as channel, sender, destination and number is the model's own (log 28). -/
def Obligations.PacketsAreDeliveredOnce : Prop :=
  ∀ (n : Fin 8) (port : Fin 4) (p : Packet) (s : State), s.fuses.grade.hasIo n.val = true →
    let ours := s.mod.fab.number = some (p.dst.extractLsb' 8 24) ∧ s.fuses.grade.endpoint (p.dst.extractLsb' 0 8).toNat = true
    let key := (p.vc.val, p.src, p.dst, p.seq)
    let credited := (s.mod.updPort n.val port.val (Port.credit p.vc)).fab
    let gives : Fabric → Prop := fun f => exec (.packetReceived n port p) s = .next { s with mod := { s.mod with fab := f } }
    (∀ (x : Port) (k : Fin 16), ((x.credit p.vc).credits[k.val]) = (x.credits[k.val]) + (if k = p.vc then 1 else 0) ∧
      ((x.send p).spent[k.val]) = (x.spent[k.val]) + (if k = p.vc then 1 else 0) ∧
      (((x.send p).release p.vc).spent[k.val]) = x.spent[k.val] ∧
      ((x.send p).buf[k.val]) = (x.buf[k.val]) ++ (if k = p.vc ∧ x.retraining = true then [p] else [])) ∧
    (s.mod.planeUp n.val = false → exec (.packetReceived n port p) s = .next s) ∧
    (s.mod.planeUp n.val = true →
      (¬ours → gives credited) ∧
      (ours → p.vc = 1 ∨ p.vc = 2 → gives { credited with delivered := s.mod.fab.delivered ++ [p] }) ∧
      (ours → p.vc ≠ 1 → p.vc ≠ 2 →
        (key ∈ s.mod.fab.seen → gives { credited with acks := s.mod.fab.acks ++ [key] }) ∧
        (key ∉ s.mod.fab.seen → p.vc ≠ 0 → p.vc ≠ 3 → gives { credited with
          delivered := s.mod.fab.delivered ++ [p], acks := s.mod.fab.acks ++ [key], seen := s.mod.fab.seen ++ [key] }) ∧
        (key ∉ s.mod.fab.seen → p.vc = 0 ∨ p.vc = 3 →
          let turn : List Packet → Packet → Nat := fun l x => (l.filter (fun y => y.vc == x.vc && y.src == x.src && y.dst == x.dst)).length
          OnModule (.packetReceived n port p) s (fun m => m.fab.acks = s.mod.fab.acks ++ [key] ∧ m.fab.seen = s.mod.fab.seen ++ [key] ∧
            ∃ out, m.fab.delivered = s.mod.fab.delivered ++ out ∧ (∀ x, x ∈ s.mod.fab.reorder ++ [p] ↔ x ∈ out ∨ x ∈ m.fab.reorder) ∧
              (∀ (i : Nat) (x : Packet), out[i]? = some x → x.seq = turn (s.mod.fab.delivered ++ out.take i) x) ∧
              ∀ x ∈ m.fab.reorder, x.seq ≠ turn m.fab.delivered x) ∧
          ((∀ x ∈ s.mod.fab.reorder ++ [p], x.seq ≠ turn s.mod.fab.delivered x) → gives { credited with
            reorder := s.mod.fab.reorder ++ [p], acks := s.mod.fab.acks ++ [key], seen := s.mod.fab.seen ++ [key] })) ∧
        (key ∉ s.mod.fab.seen → p.vc = 0 ∨ p.vc = 3 → s.mod.fab.reorder = [] →
          p.seq = (s.mod.fab.delivered.filter (fun x => x.vc == p.vc && x.src == p.src && x.dst == p.dst)).length → gives { credited with
            delivered := s.mod.fab.delivered ++ [p], acks := s.mod.fab.acks ++ [key], seen := s.mod.fab.seen ++ [key] }))) ∧
    (∀ (vc : Fin 16) (src dst : BitVec 32) (seq : Nat), OnModule (.packetAcknowledged vc src dst seq) s (fun m =>
      (∀ x, x ∈ m.fab.sent ↔ x ∈ s.mod.fab.sent ∧ ¬(x.2.vc = vc ∧ x.2.src = src ∧ x.2.dst = dst ∧ x.2.seq = seq)) ∧
      m.fab.delivered = s.mod.fab.delivered ∧ m.mem = s.mod.mem))

/-- Ingest arrivals (R355, R359, R361): the credit goes back whatever happens; a running module buffers the segment, or keeps its header
alone when the 4 MiB of its I/O die are full; in PARK it is dropped at its die. CONSUMED is read again for every ring that the agent knows.
INGEST_SEGMENT (R356 to R360): the oldest segment is taken, and the first condition of R359 that applies decides: CORRUPT is counted at the
ring, open or not, and a segment with a failed CRC whose handle names no ring leaves no trace (DEDUCED, log 29); INGEST_UNROUTED at most once a second for a handle that names no open ring of its stream; LATE below CONSUMED as the agent
last read it; DUP where the slot holds the SEQ; a drop that extends the last gap entry, or opens one with INGEST_GAP, past the ring's end as
CONSUMED reads now, or for a segment lost to a full buffer; else the payload and header land in the slot and LANDED and HIGH follow. Every
other byte of the ring, and every other region, is as before. -/
def Obligations.SegmentsAreBufferedAndChecked : Prop :=
  (∀ (io : Fin 8) (port : Fin 4) (seg : List Byte) (s : State), s.fuses.grade.hasIo io.val = true →
    let full := 4194304 < s.mod.ing.heldBytes io.val + seg.length
    let credited : Mod → Prop := fun m =>
      ((m.port io.val port.val).credits[2]) = ((s.mod.port io.val port.val).credits[2]) + 1 ∧ m.mem = s.mod.mem
    (s.mod.linksUp = false → exec (.ingestArrival io port seg) s = .next s) ∧
    (s.mod.linksUp = true → s.mod.life.pstate = .run → OnModule (.ingestArrival io port seg) s (fun m =>
      credited m ∧ m.ing.consumed = s.mod.ing.consumed ∧
      (¬full → m.ing.buf = s.mod.ing.buf ++ [⟨io.val, s.env.ioNow io.val, seg, false⟩]) ∧
      (full → m.ing.buf = s.mod.ing.buf ++ [⟨io.val, s.env.ioNow io.val, seg.take 32, true⟩]))) ∧
    (s.mod.linksUp = true → s.mod.life.pstate = .park → OnModule (.ingestArrival io port seg) s (fun m =>
      credited m ∧ m.ing.buf = s.mod.ing.buf))) ∧
  (∀ s : State,
    (s.mod.agentUp = false → exec .consumedReread s = .next s ∧ exec .ingestSegment s = .next s) ∧
    (s.mod.ing.buf = [] → exec .ingestSegment s = .next s) ∧
    (s.mod.agentUp = true → OnModule .consumedReread s (fun m => m.mem = s.mod.mem ∧ m.ing.buf = s.mod.ing.buf ∧
      ∀ h v : Nat, (h, v) ∈ m.ing.consumed ↔ ∃ old r, (h, old) ∈ s.mod.ing.consumed ∧ s.mod.ringOf h = some r ∧ v = r.ring 0x40 8))) ∧
  (∀ (sg : Seg) (rest : List Seg) (s : State), s.mod.agentUp = true → s.mod.ing.buf = sg :: rest →
    let h := segHandle sg.bytes
    let seq := segSeq sg.bytes
    let now := s.env.now
    let after : (Mod → Prop) → Prop := fun p => OnModule .ingestSegment s (fun m => m.ing.buf = rest ∧
      (∀ k : Nat, k ≠ h → Tbl.find m.mem.regions k = Tbl.find s.mod.mem.regions k) ∧ m.graphs = s.mod.graphs ∧ m.pwr = s.mod.pwr ∧
      m.dies = s.mod.dies ∧ p m)
    let told : Mod → Nat → Prop := fun m code => m.recs.write = s.mod.recs.write + 1 ∧
      ∃ u ∈ m.recs.units, u.seq = s.mod.recs.write ∧ fieldAt u.bytes 8 2 = code
    after (fun _ => True) ∧
    (sg.lostHere = false → segOk sg.bytes = false → s.mod.ringShaped h = none → after (fun m => m.mem = s.mod.mem ∧ m.recs = s.mod.recs)) ∧
    (sg.lostHere = true ∨ segOk sg.bytes = true →
      (∀ r, s.mod.ringShaped h = some r → sg.lostHere = true ∨ segLength sg.bytes + 64 ≤ r.slotBytes) →
      (s.mod.ringOf h = none ∨ ∃ r, s.mod.ringOf h = some r ∧ r.ring 4 4 ≠ segStream sg.bytes) → after (fun m => m.mem = s.mod.mem ∧
        (s.mod.ing.unrouted.find? (fun x => x.1 == BitVec.ofNat 32 h) = none → told m 0x0606) ∧
        (∀ t, s.mod.ing.unrouted.find? (fun x => x.1 == BitVec.ofNat 32 h) = some (BitVec.ofNat 32 h, t) →
          (now < t + 1000000000 → m.recs = s.mod.recs) ∧ (t + 1000000000 ≤ now → told m 0x0606)))) ∧
    (∀ r : Region, Tbl.find s.mod.mem.regions h = some r → r.ringForm = true → Mem.wf r.bytes = true →
      let ends : (Mod → Region → Prop) → Prop := fun p => after (fun m => ∃ r', Tbl.find m.mem.regions h = some r' ∧
        r'.ring 0x38 8 = now ∧ p m r')
      let counted : Nat → Nat → Prop := fun a n => ends (fun m r' => m.recs = s.mod.recs ∧
        r'.ring a n = (r.ring a n + 1) % 2 ^ (8 * n) ∧ r.sameBut r' [(a, n), (0x38, 8)])
      let gaps := r.ring 0x34 4
      let last := 0x80 + (gaps + 63) % 64 * 32
      let next := 0x80 + gaps % 64 * 32
      let dropped : Nat → Nat → Prop := fun cause slate => ends (fun m r' => r'.ring 0x20 8 = (r.ring 0x20 8 + 1) % 2 ^ 64 ∧
        (if 0 < gaps ∧ r.ring (last + 8) 8 + 1 = seq ∧ r.ring (last + 24) 1 = cause
         then r'.ring (last + 8) 8 = seq ∧ m.recs = s.mod.recs ∧ r.sameBut r' [(last + 8, 8), (0x20, 8), (0x38, 8)]
         else r'.ring next 8 = seq ∧ r'.ring (next + 8) 8 = seq ∧ r'.ring (next + 16) 8 = slate % 2 ^ 64 ∧
           r'.ring (next + 24) 8 = cause ∧ r'.ring 0x34 4 = (gaps + 1) % 2 ^ 32 ∧ told m 0x0603 ∧
           r.sameBut r' [(next, 32), (0x34, 4), (0x20, 8), (0x38, 8)]))
      (sg.lostHere = false → segOk sg.bytes = false ∨ r.slotBytes < segLength sg.bytes + 64 → counted 0x30 4) ∧
      (r.ring 0x48 4 % 2 = 1 → r.ring 4 4 = segStream sg.bytes → sg.lostHere = true → dropped 2 sg.slate) ∧
      (r.ring 0x48 4 % 2 = 1 → r.ring 4 4 = segStream sg.bytes → sg.lostHere = false → segOk sg.bytes = true →
        segLength sg.bytes + 64 ≤ r.slotBytes →
        let fresh := r.ring 0x40 8
        let known := (Tbl.find s.mod.ing.consumed h).getD fresh
        let from_ := if known + r.nslots ≤ seq then fresh else known
        let slot := 0x1000 + seq % r.nslots * r.slotBytes
        (seq < known → counted 0x2C 4) ∧
        (known ≤ seq → r.ring slot 8 = seq → counted 0x28 4) ∧
        (known ≤ seq → r.ring slot 8 ≠ seq →
          (seq < from_ → counted 0x2C 4) ∧
          (from_ + r.nslots ≤ seq → dropped 1 now) ∧
          (from_ ≤ seq → seq < from_ + r.nslots → ends (fun m r' => m.recs = s.mod.recs ∧
            r'.ring 0x10 8 = (r.ring 0x10 8 + 1) % 2 ^ 64 ∧ r'.ring 0x18 8 = max (r.ring 0x18 8) seq ∧
            r'.ring slot 8 = seq ∧ r'.readN (slot + 8) 8 = slice sg.bytes 0x10 8 ∧ r'.ring (slot + 16) 8 = sg.slate % 2 ^ 64 ∧
            r'.readN (slot + 24) 4 = slice sg.bytes 0x18 4 ∧ r'.ring (slot + 28) 1 = sg.io % 256 ∧
            (∀ i : Nat, i < segLength sg.bytes → r'.read (slot + 64 + i) = sg.bytes.getD (32 + i) 0) ∧
            r.sameBut r' [(slot, 64 + segLength sg.bytes), (0x10, 8), (0x18, 8), (0x38, 8)]))))))

/-! Power and thermal control. -/

/-- The cap loops (R391 to R393, R446): their readings of the input current, voltage and mean power are refreshed in every stage and power
state of a powered module; from stage A on, without a trip, in PARK too, the fast loop, above 1.1 × cap, lowers
every cap point by one. The slow loop records the mean power and each unit's. Above the cap it lowers the cap points at the highest
operating point in force; with every cap point at OP0, the duty; at a duty of 1/8 it holds both and says so once. Below 0.97 × cap it ends
that hold and raises the duty, and with the duty at 8/8 the cap points at the lowest operating point after five such intervals in a row.
Between the two it moves nothing. Neither loop moves a preference, a junction limit or the cap. The slow loop adds its interval to the open
snapshot of the dailies (R402; that the times advance by 1 ms at each interval is the model's choice, log 14). -/
def Obligations.CapLoopsMoveCapPoints : Prop :=
  (∀ (i v : Nat) (s : State), s.mod.metering = true → i < 65536 → v < 65536 →
    OnModule (.capFastLoop i v) s (fun m =>
      m.pwr.i10us.toNat = i ∧ m.pwr.vin.toNat = v ∧ m.pwr.cap = s.mod.pwr.cap ∧ m.mem = s.mod.mem ∧ m.graphs = s.mod.graphs ∧
      ∀ k : Fin 14, m.pwr.units[k.val] = if 1100 * s.mod.pwr.cap.toNat < i * v
        then { s.mod.pwr.units[k.val] with capPoint := (s.mod.pwr.units[k.val]).capPoint - 1 } else s.mod.pwr.units[k.val])) ∧
  (∀ (i v w f : Nat) (units : List Nat) (s : State),
    (s.mod.life.powered = false → exec (.capFastLoop i v) s = .next s ∧ exec (.capSlowLoop w f units) s = .next s) ∧
    (s.mod.life.powered = true → s.mod.metering = false → i < 65536 → v < 65536 → w < 65536 →
      exec (.capFastLoop i v) s = .next { s with mod := { s.mod with pwr := { s.mod.pwr with
        i10us := BitVec.ofNat 16 i, vin := BitVec.ofNat 16 v } } } ∧
      exec (.capSlowLoop w f units) s = .next { s with mod := { s.mod with pwr := { s.mod.pwr with p1ms := BitVec.ofNat 16 w } } })) ∧
  (∀ (w f : Nat) (units : List Nat) (s : State), s.mod.metering = true → w < 65536 → OnModule (.capSlowLoop w f units) s (fun m =>
    let cap := s.mod.pwr.cap.toNat
    let moved : (Nat → Bool) → (Nat → Nat) → Prop := fun sel g => ∀ k : Fin 14,
      let old := s.mod.pwr.units[k.val]
      m.pwr.units[k.val] = { old with power := min (units.getD k.val 0) 65535, capPoint := if sel k.val then g old.capPoint else old.capPoint }
    let still := moved (fun _ => false) (fun x => x)
    m.pwr.p1ms.toNat = w ∧ m.pwr.cap = s.mod.pwr.cap ∧ m.mem = s.mod.mem ∧ m.graphs = s.mod.graphs ∧
    (s.mod.pwr.daily = none → m.pwr.daily = none) ∧
    (∀ y, s.mod.pwr.daily = some y → ∃ z, m.pwr.daily = some z ∧ z.step = y.step ∧ z.opened = y.opened ∧
      z.energy = min (y.energy + w) (2 ^ 64 - 1) ∧ z.maxP = max y.maxP w ∧ z.minCap = min y.minCap cap ∧
      z.belowDuty = (if s.mod.dutyInForce < 8 then min (y.belowDuty + 1000) (2 ^ 32 - 1) else y.belowDuty) ∧
      ∀ (d : Fin 12) (p : Fin 8), let old := (y.dies[d.val]).opTime[p.val]
        (z.dies[d.val]).opTime[p.val] =
          if s.mod.unitUp d.val = true ∧ s.mod.opInForce d.val = p.val then min (old + 1000) (2 ^ 32 - 1) else old) ∧
    (∀ k : Fin 14, (m.pwr.units[k.val]).pref = (s.mod.pwr.units[k.val]).pref ∧
      (m.pwr.units[k.val]).junction = (s.mod.pwr.units[k.val]).junction) ∧
    (w ≤ cap → 97 * cap ≤ 100 * w → still ∧ m.pwr.duty = s.mod.pwr.duty ∧ m.pwr.unreachable = s.mod.pwr.unreachable ∧ m.pwr.below = 0) ∧
    (cap < w → m.pwr.below = 0 ∧
      (s.mod.allCapped = false → m.pwr.duty = s.mod.pwr.duty ∧ m.pwr.unreachable = s.mod.pwr.unreachable ∧
        moved (fun k => s.mod.unitUp k && s.mod.opInForce k == s.mod.topOp) (fun x => x - 1)) ∧
      (s.mod.allCapped = true → still) ∧
      (s.mod.allCapped = true → 1 < s.mod.pwr.duty → m.pwr.duty = s.mod.pwr.duty - 1 ∧ m.pwr.unreachable = s.mod.pwr.unreachable) ∧
      (s.mod.allCapped = true → s.mod.pwr.duty = 1 → m.pwr.duty = 1 ∧ m.pwr.unreachable = true ∧
        (s.mod.pwr.unreachable = false → m.pwr.floor.toNat = min f 65535 ∧ m.recs.write = s.mod.recs.write + 1 ∧
          ∃ u ∈ m.recs.units, u.seq = s.mod.recs.write ∧ fieldAt u.bytes 8 2 = 0x0702) ∧
        (s.mod.pwr.unreachable = true → m.pwr.floor = s.mod.pwr.floor ∧ m.recs = s.mod.recs))) ∧
    (100 * w < 97 * cap → m.pwr.unreachable = false ∧ m.pwr.floor = 0 ∧
      (s.mod.pwr.duty < 8 → m.pwr.duty = s.mod.pwr.duty + 1 ∧ still) ∧
      (s.mod.pwr.duty = 8 → m.pwr.duty = 8 ∧
        (s.mod.pwr.below + 1 < 5 → m.pwr.below = s.mod.pwr.below + 1 ∧ still) ∧
        (5 ≤ s.mod.pwr.below + 1 → m.pwr.below = 0 ∧
          moved (fun k => s.mod.unitUp k && s.mod.opInForce k == s.mod.lowOp) (fun x => min 7 (x + 1)))))))

/-- Pace (R392, R396 to R399): a member of another module's group takes its announcement and drops one that ends with cause 0; a repeat
sends the last message again; a lapse takes the announcement away; a frame starts on a whole 8 µs. In lockstep class every compute die
runs at the lowest of the points that the module's dies reach by themselves and of those announced, and the duty does not exceed one
announced at OP0; a change that an announcement makes is told with PACE_FOLLOW, once (the bytes of its detail and its resource are the model's
choice, log 12). In free-running class each die keeps its own. -/
def Obligations.PaceIsAnnouncedAndFollowed : Prop :=
  ∀ s : State,
    (∀ p : PaceMsg, s.mod.hearsPace = true → s.mod.fab.number ≠ some p.member → OnModule (.paceMessage p) s (fun m =>
      (p ∈ m.pwr.announced ↔ p.cause ≠ 0) ∧ (∀ q : PaceMsg, q.member ≠ p.member → (q ∈ m.pwr.announced ↔ q ∈ s.mod.pwr.announced)) ∧
      m.pwr.cap = s.mod.pwr.cap ∧ m.pwr.units = s.mod.pwr.units ∧ m.mem = s.mod.mem ∧
      (s.mod.lockstep = true → p.cause ≠ 0 → s.mod.pwr.announced = [] → (∀ j : Fin 12, p.op.val < s.mod.ownOp j.val) →
        (∀ k : Fin 12, m.opInForce k.val = p.op.val) ∧ m.recs.write = s.mod.recs.write + 1 ∧
        ∃ u ∈ m.recs.units, u.seq = s.mod.recs.write ∧
          u.bytes = recBytes s.env.now .paceFollow mgmtRes 0 0 (natLe 1 p.cause.val ++ natLe 3 p.member.toNat) 0) ∧
      (s.mod.lockstep = true → p.cause ≠ 0 → s.mod.pwr.announced = [] → p.op ≠ 0 → (∃ j : Fin 12, s.mod.ownOp j.val ≤ p.op.val) →
        (∀ k : Fin 12, m.opInForce k.val = s.mod.opInForce k.val) ∧ m.recs = s.mod.recs))) ∧
    (∀ k : Fin 12,
      (s.mod.lockstep = false → s.mod.opInForce k.val = s.mod.ownOp k.val ∧ s.mod.dutyInForce = s.mod.pwr.duty) ∧
      (s.mod.lockstep = true → (∀ j : Fin 12, s.mod.opInForce k.val ≤ s.mod.ownOp j.val) ∧
        (∀ p ∈ s.mod.pwr.announced, s.mod.opInForce k.val ≤ p.op.val ∧ (p.op = 0 → s.mod.dutyInForce ≤ p.duty)) ∧
        s.mod.dutyInForce ≤ s.mod.pwr.duty ∧
        ((∃ j : Fin 12, s.mod.opInForce k.val = s.mod.ownOp j.val) ∨ ∃ p ∈ s.mod.pwr.announced, s.mod.opInForce k.val = p.op.val))) ∧
    (∀ p : PaceMsg, s.mod.hearsPace = true → s.mod.lockstep = true → s.mod.pwr.lastPace = some p → OnModule .paceRepeat s (fun m =>
      m.fab.paceOut = s.mod.fab.paceOut ++ [{ p with slate := BitVec.ofNat 64 s.env.now }] ∧ m.pwr.announced = s.mod.pwr.announced)) ∧
    (∀ member : BitVec 24, s.mod.pwr.announced.any (fun x => x.member == member) = true → OnModule (.paceLapsed member) s (fun m =>
      (∀ q, q ∈ m.pwr.announced ↔ q ∈ s.mod.pwr.announced ∧ q.member ≠ member) ∧ s.mod.recs.write + 1 ≤ m.recs.write)) ∧
    exec .pacingFrame s = .next { s with mod := { s.mod with pwr := { s.mod.pwr with frameStart := s.env.now / 8000 * 8000 } } }

/-- Temperatures and ceilings (R37 to R39, R344, R394): above 100 °C a die's junction limit falls to one below the point in force (DEDUCED,
log 51) and the first reading of an excursion is recorded; a powered die that is not in service yet is read alone, and a die in PARK is not read
(DEDUCED, log 48); a stack, of a die in service or in PARK (log 48), is hot above 95 °C, and at 82 °C or below its refresh rate is
restored; a measured ceiling below the aged one takes its place and is never raised, and a tile below OP5 moves to a free spare of OP5 or
higher; a site that carries a task, or whose die does not run (R42), is measured later (DESIGN CHOICE, log 53). -/
def Obligations.TemperaturesAndCeilings : Prop :=
  (∀ (k : Fin 14) (temp : Nat) (s : State), s.mod.unitUp k.val = true → OnModule (.junctionRead k temp) s (fun m =>
    (m.pwr.units[k.val]).tj = temp ∧ (∀ j : Fin 14, j ≠ k → m.pwr.units[j.val] = s.mod.pwr.units[j.val]) ∧ m.mem = s.mod.mem ∧
    (100 < temp → (s.mod.pwr.units[k.val]).hot = false →
      (m.pwr.units[k.val]).junction = s.mod.opInForce k.val - 1 ∧ (m.pwr.units[k.val]).hot = true ∧ s.mod.recs.write + 1 ≤ m.recs.write) ∧
    (temp ≤ 100 → (m.pwr.units[k.val]).hot = true → (s.mod.pwr.units[k.val]).hot = true))) ∧
  (∀ (k : Fin 14) (temp : Nat) (s : State), s.mod.unitUp k.val = false →
    exec (.junctionRead k temp) s = .next { s with mod := if s.mod.diesOn = true then { s.mod with pwr := { s.mod.pwr with
      units := s.mod.pwr.units.set k.val { s.mod.pwr.units[k.val] with tj := temp } } } else s.mod }) ∧
  (∀ (st : Fin 32) (temp : Nat) (s : State), st.val < s.fuses.grade.hbmStacks →
    s.mod.unitUp (hostDie st.val) = true ∨ (s.mod.life.powered = true ∧ s.mod.life.trip = false ∧ s.mod.life.pstate = .park) →
    OnModule (.hbmTempRead st temp) s (fun m =>
      let x := m.pwr.hbmStacks[st.val]
      x.temp = temp ∧ (85 < temp → x.doubled = true) ∧ (temp ≤ 82 → x.doubled = false) ∧ (95 < temp → x.hot = true) ∧
      (82 < temp → temp ≤ 85 → x.doubled = (s.mod.pwr.hbmStacks[st.val]).doubled) ∧
      (∀ j : Fin 32, j ≠ st → m.pwr.hbmStacks[j.val] = s.mod.pwr.hbmStacks[j.val]) ∧ m.mem = s.mod.mem)) ∧
  (∀ (d : Fin 12) (site : Fin 66) (op : Fin 8) (s : State), s.mod.unitUp d.val = true →
    let low := min ((s.mod.flash.aged[d.val])[site.val]) op.val
    (s.mod.siteFree d site.val = true → OnModule (.ceilingMeasurement d site op) s (fun m =>
      (m.flash.aged[d.val])[site.val] = low ∧
      (∀ x : Fin 66, x ≠ site → (m.flash.aged[d.val])[x.val] = (s.mod.flash.aged[d.val])[x.val]) ∧
      (∀ k : Fin 12, k ≠ d → m.flash.aged[k.val] = s.mod.flash.aged[k.val] ∧ m.flash.siteOf[k.val] = s.mod.flash.siteOf[k.val]) ∧
      (s.mod.slots = [] → m.mem = s.mod.mem) ∧ m.graphs = s.mod.graphs ∧
      (∀ (t : Fin 64) (x : Nat), s.mod.flash.tileAt d site.val = some t → low < 5 → s.mod.flash.bestSpare d = some x →
        5 ≤ s.mod.flash.agedOf d x → (m.flash.siteOf[d.val])[t.val] = x))) ∧
    (s.mod.siteIdle d site.val = false ∨ s.mod.unitRuns d.val = false → exec (.ceilingMeasurement d site op) s =
      .next { s with mod := { s.mod with flt := { s.mod.flt with
        pendingMeas := s.mod.flt.pendingMeas ++ [(d.val, site.val, op.val)] } } }))

/-! The tile: issue, gates and stops. -/

/-- The commands of one tile (R65 to R89, R97 to R167), and the tile each works on. -/
def tileOfCommand (c : Instr) : Option (Fin 12 × Fin 64) :=
  match c with
  | .vectorIdleTimeout d t | .vectorWake d t | .roomToneEnd d t | .bundleIssue d t _ | .done d t | .mload d t _ | .mmul d t _
  | .mgrad d t _ | .mmask d t _ | .mvec d t _ | .vld d t _ | .vst d t | .vgath d t _ | .vscat d t | .vgathm d t | .vscatm d t
  | .vadd d t | .vsub d t | .vmul d t | .vfma d t | .vmax d t | .vmin d t | .vdiv d t | .vsqrt d t | .vexp d t | .vcvt d t
  | .vwmul d t | .dotw d t | .dotD d t | .vrmax d t | .vrsum d t | .vectorResume d t | .scratchReread d t _ | .qbinds d t
  | .qbinde d t | .qbindp d t | .qunbind d t | .dmain d t | .dmaout d t | .dmainq d t | .dmaoutq d t | .dmaCompletion d t _ _ _
  | .gatherReply d t _ _ | .queuePush d t _ _ _ | .queuePop d t _ | .accessProceeds d t _ | .tileStall d t | .cutStopTimeout d t
  | .slotSave d t _ _ => some (d, t)
  | _ => none

/-- The tile commands that change module memory: a scatter, a transfer and its queue end, the save of a slot, and a reply or a push whose
read meets a line in error. -/
def writesMemory (c : Instr) : Bool :=
  match c with
  | .vscatm _ _ | .dmaCompletion _ _ _ _ _ | .queuePop _ _ _ | .slotSave _ _ _ _ => true
  | .gatherReply _ _ _ err | .queuePush _ _ _ _ err => err != .none
  | _ => false

/-- A tile command works on its tile: every other tile, the other dies, time, the tally channels, the mailbox, host memory, the flash
data, the power settings, the update dies, the fabric and the ingest buffers are unchanged; of the graphs only the run state of the task
that owns the tile may change, and module memory changes by a scatter, a transfer, a slot's save or an error met alone (R65, R72, R83, R86).
A pop by an outbound transfer writes the bytes that it moves and no other; the error that a gather's read or a push meets changes no byte. -/
def Obligations.TileCommandsStayOnTheirTile : Prop :=
  (∀ (c : Instr) (d : Fin 12) (t : Fin 64) (s s' : State), tileOfCommand c = some (d, t) → exec c s = .next s' →
    s'.time = s.time ∧ s'.tally = s.tally ∧ s'.mod.mbx = s.mod.mbx ∧ s'.mod.host.mem = s.mod.host.mem ∧ s'.mod.flash = s.mod.flash ∧
    s'.mod.life = s.mod.life ∧ s'.mod.pwr.units = s.mod.pwr.units ∧ s'.mod.pwr.ctrl = s.mod.pwr.ctrl ∧ s'.mod.pwr.cap = s.mod.pwr.cap ∧
    s'.mod.udies = s.mod.udies ∧ s'.mod.fab = s.mod.fab ∧ s'.mod.ing = s.mod.ing ∧
    (∀ k : Fin 12, k ≠ d → s'.mod.dies[k.val] = s.mod.dies[k.val]) ∧
    (∀ u : Fin 64, u ≠ t → s'.mod.tile d u = s.mod.tile d u) ∧
    (∀ g : Nat, (Tbl.find s'.mod.graphs g).map (fun x => x.nodes) = (Tbl.find s.mod.graphs g).map (fun x => x.nodes)) ∧
    (∀ g n : Nat, (s.mod.tile d t).owner ≠ some (g, n) →
      (Tbl.find s'.mod.graphs g).map (fun x => x.runOf n) = (Tbl.find s.mod.graphs g).map (fun x => x.runOf n)) ∧
    (writesMemory c = false → s'.mod.mem = s.mod.mem)) ∧
  (∀ (d : Fin 12) (t : Fin 64) (q : Fin 16) (s s' : State), exec (.queuePop d t q) s = .next s' →
    ((∀ i, ((s.mod.tile d t).queue q.val).cons ≠ .dma i) → s'.mod.mem = s.mod.mem) ∧
    (∀ i y, ((s.mod.tile d t).queue q.val).cons = .dma i → (s.mod.tile d t).dmas.find? (fun z => z.id == i) = some y →
      let r := s.mod.xferEntry d t y
      (∀ h : BitVec 32, h ≠ r.handle → s'.mod.region h = s.mod.region h) ∧ s'.mod.mem.reels = s.mod.mem.reels ∧
      (∀ g, s.mod.region r.handle = some g → Mem.wf g.bytes = true → ∃ g', s'.mod.region r.handle = some g' ∧
        g.sameBut g' [(r.off + y.offset + y.moved, min 64 (y.len - y.moved))]))) ∧
  (∀ (d : Fin 12) (t : Fin 64) (elem : Nat) (err : EngErr) (s s' : State), exec (.gatherReply d t elem err) s = .next s' →
    ∀ h : BitVec 32, (s'.mod.region h).map (fun g => (g.bytes, g.len, g.cls, g.undef)) =
      (s.mod.region h).map (fun g => (g.bytes, g.len, g.cls, g.undef))) ∧
  (∀ (d : Fin 12) (t : Fin 64) (q : Fin 16) (err : OpErr) (mem : EngErr) (s s' : State), exec (.queuePush d t q err mem) s = .next s' →
    ∀ h : BitVec 32, (s'.mod.region h).map (fun g => (g.bytes, g.len, g.cls, g.undef)) =
      (s.mod.region h).map (fun g => (g.bytes, g.len, g.cls, g.undef)))

/-- BUNDLE_ISSUE (R55, R97, R99, R102, R103, R107, R109, R110, R113, R146): the bundle at the program counter issues once its units accept
it, its WAITC holds and, with FENCE, the tile is quiet. Its A and B operations read the tile as it stood before: the A registers, predicates,
loop counters and descriptors take what the operations give, and nothing else does; where both write one thing, which R98 lets only two SDSETs
of one descriptor field do in a loaded reel, the B operation's value stays (DESIGN CHOICE, log 55). SETVL sets the vector length and its A register. Issue goes on at the next bundle, at a jump's or a branch's target, at a loop's body while
iterations are left, or past a LOOP of no iterations. The first bundle of a task is its start; one more than 48 ns after the launch time of its cue
makes it late on its first take, and TIM_LATE counts it (R58, R60, R62, R64; that a start within that time is never late is the model's choice,
log 56, and the launch time of several cues log 62's); the slate of a DONE is held with the tile
(DEDUCED, log 55). A bundle that may not issue changes nothing; the bundle of a cut point stops the tile, at the time of its die, though its
WAITC, its FENCE or a full unit would hold it yet (DESIGN CHOICE, log 55). -/
def Obligations.BundlesIssueInOrder : Prop :=
  ∀ (d : Fin 12) (t : Fin 64) (gr : Graph) (g n : Nat) (s : State), s.mod.ownerOf d t = some (gr, g, n) → s.mod.tileLive d t = true →
    (s.mod.tile d t).cutStop = false → s.mod.paceOpen s.env d = true →
    let x := s.mod.tile d t
    let b := bundleAt x.imem x.pc
    let now := s.env.dieNow d.val
    let named := gr.cutsNode n && x.pc == gr.hdr.cutBundle
    let passes := named = true → x.cutCount + 1 < gr.cutPass
    (named = true → x.doneSeen = false → x.suspended = false → gr.cutPass ≤ x.cutCount + 1 →
      OnTile (.bundleIssue d t .none) s d t (fun y => y = { x with cutStop := true, cutHit := true, stopSlate := now })) ∧
    (passes → (x.doneSeen = true ∨ x.suspended = true ∨ x.accepts b = false ∨ x.waitOk b = false ∨
        (b.fence = true ∧ x.quiet = false)) → exec (.bundleIssue d t .none) s = .next s) ∧
    (passes → x.doneSeen = false → x.suspended = false → x.accepts b = true → x.waitOk b = true →
        (b.fence = true → x.quiet = true) → OnModule (.bundleIssue d t .none) s (fun m =>
      let y := m.tile d t
      m.mem = s.mod.mem ∧ m.slots = s.mod.slots ∧ (∀ u : Fin 64, u ≠ t → m.tile d u = s.mod.tile d u) ∧
      (∀ k : Fin 12, k ≠ d → m.dies[k.val] = s.mod.dies[k.val]) ∧
      (∃ g', Tbl.find m.graphs g = some g' ∧ (g'.runOf n).phase = .running ∧ (g'.runOf n).outcome = none ∧
        ((gr.node n).proxied = false → (gr.runOf n).begun = [] → (g'.runOf n).start = now ∧ (g'.runOf n).begun = [d.val]) ∧
        ((gr.node n).proxied = false → d.val ∉ (gr.runOf n).begun → (gr.runOf n).late = none → (s.mod.ptb.regs[0]).getLsbD 4 = false →
          (∀ launch, gr.cueTime n = some launch → (gr.runOf n).take ≤ 1 → launch + 48 < now → (g'.runOf n).late = some (now - launch) ∧
            m.lateMax.toNat = max s.mod.lateMax.toNat (min (now - launch) (2 ^ 32 - 1)) ∧
            m.lateCount.toNat = min (s.mod.lateCount.toNat + 1) (2 ^ 32 - 1)) ∧
          (gr.cueTime n = none ∨ 1 < (gr.runOf n).take ∨ (∃ launch, gr.cueTime n = some launch ∧ now ≤ launch + 48) →
            (g'.runOf n).late = none ∧ m.lateMax = s.mod.lateMax ∧ m.lateCount = s.mod.lateCount))) ∧
      ((gr.node n).proxied = false → d.val ∈ (gr.runOf n).begun → m.graphs = s.mod.graphs) ∧
      y.stopSlate = (if y.doneSeen then now else x.stopSlate) ∧ y.cutCount = x.cutCount + (if named then 1 else 0) ∧
      y.pad = x.pad ∧ y.v = x.v ∧ y.acc = x.acc ∧ y.imem = x.imem ∧ y.owner = x.owner ∧ y.queues = x.queues ∧ y.dmas = x.dmas ∧
      y.active = x.active ∧ y.shadow = x.shadow ∧ y.carry = x.carry ∧ y.ctr = x.ctr ∧ y.gateOn = x.gateOn ∧
      (b.v = none → y.vecQ = x.vecQ) ∧ (b.q = none → y.qQ = x.qQ) ∧ (b.m = none → y.arrayQ = x.arrayQ ∧ y.mvQ = x.mvQ) ∧
      (∀ w, b.c = some w → slotOp w = 0x02 → y.pc = cTarget w) ∧
      (∀ w, b.c = some w → slotOp w = 0x03 → y.pc = if x.p.getLsbD (cN w) = cSense w then cTarget w else x.pc + b.len) ∧
      (∀ w, b.c = some w → slotOp w = 0x02 ∨ slotOp w = 0x03 → y.loops = x.loops ∧ y.lrc = x.lrc) ∧
      (∀ w, b.c = some w → slotOp w = 0x01 →
        let k := vget x.lc (cN w) 0
        y.lrc = vmodN x.lrc (cN w) (fun _ => k) ∧
        (k = 0 → y.pc = cTarget w + (bundleAt x.imem (cTarget w)).len) ∧
        (k ≠ 0 → y.pc = x.pc + b.len ∧ y.loops = ⟨cN w, x.pc + b.len, cTarget w⟩ :: x.loops.filter (fun l => l.n != cN w))) ∧
      ((∀ w, b.c = some w → slotOp w ≠ 0x01 ∧ slotOp w ≠ 0x02 ∧ slotOp w ≠ 0x03) →
        (x.loops = [] → y.pc = x.pc + b.len ∧ y.lrc = x.lrc ∧ y.loops = []) ∧
        (∀ l r, x.loops = l :: r →
          let left := vget x.lrc l.n 0 - 1
          (l.last ≠ x.pc → y.pc = x.pc + b.len ∧ y.lrc = x.lrc ∧ y.loops = x.loops) ∧
          (l.last = x.pc → left ≠ 0 → y.pc = l.first ∧ y.lrc = vmodN x.lrc l.n (fun _ => left) ∧ y.loops = x.loops) ∧
          (l.last = x.pc → left = 0 → (∀ k, r.head? = some k → k.last ≠ x.pc) →
            y.pc = x.pc + b.len ∧ y.lrc = vmodN x.lrc l.n (fun _ => 0) ∧ y.loops = r))) ∧
      y.doneSeen = decide (∃ w ∈ b.c.toList, slotOp w = 0x3F) ∧
      (∀ w, b.v = some w → vOp w = 1 → y.vl = min (vget x.a (vAreg w) 0).toNat ((if x.long then 4096 else 128) / fmtBits (vType w)) ∧
        vget y.a (vAreg w) 0 = BitVec.ofNat 48 y.vl) ∧
      ((∀ w, b.v = some w → vOp w ≠ 1) → y.vl = x.vl) ∧
      (let setvl : Option Nat := b.v.bind (fun w => if vOp w = 1 then some (vAreg w) else none)
        let s1 : Nat → AWord := fun w => vget x.a (abS1 w) 0
        let s2 : Nat → AWord := fun w => vget x.a (abS2 w) 0
        let shift : (AWord → Nat → AWord) → AWord → Nat → AWord := fun f v n => if n < 48 then f v n else 0
        let value : Nat → Option AWord := fun w =>
          match slotOp w with
          | 0x01 => some (s1 w + s2 w)
          | 0x02 => some (s1 w - s2 w)
          | 0x03 => some (s1 w + BitVec.ofInt 48 (signed 18 (abImm18 w)))
          | 0x04 => some (shift (fun v n => v <<< n) (s1 w) ((s2 w).toNat % 64))
          | 0x05 => some (shift (fun v n => v >>> n) (s1 w) ((s2 w).toNat % 64))
          | 0x06 => some (shift (fun v n => v <<< n) (s1 w) (abImm18 w % 64))
          | 0x07 => some (shift (fun v n => v >>> n) (s1 w) (abImm18 w % 64))
          | 0x08 => some (BitVec.ofInt 48 (signed 22 (abImm22 w)))
          | 0x09 => some (BitVec.ofNat 48 (abImm22 w * 2 ^ 26 + (vget x.a (abD w) 0).toNat % 2 ^ 26))
          | 0x1D => some (BitVec.ofNat 48 (vget x.lc (abN w) 0).toNat)
          | 0x1E => some (BitVec.ofNat 48 (vget x.lrc (abN w) 0).toNat)
          | _ => none
        let holds : Nat → Option Bool := fun w =>
          match slotOp w with
          | 0x10 => some (decide (s1 w = s2 w))
          | 0x11 => some (decide (s1 w ≠ s2 w))
          | 0x12 => some (decide ((s1 w).toInt < (s2 w).toInt))
          | 0x13 => some (decide ((s1 w).toNat < (s2 w).toNat))
          | 0x14 => some (decide ((s2 w).toInt ≤ (s1 w).toInt))
          | _ => none
        let field : Nat → Nat → Nat → Option Bool := fun k j w =>
          let f := abField w
          if slotOp w = 0x18 ∧ abSd w = k then
            (if f = 0 ∧ j < 32 then some (decide (j < 25) && (s2 w).getLsbD j)
             else if 1 ≤ f ∧ f ≤ 6 ∧ 16 + 16 * f ≤ j ∧ j < 32 + 16 * f then some ((s2 w).getLsbD (j - (16 + 16 * f))) else none)
          else none
        (∀ k : Fin 16, y.a[k.val] = if setvl = some k.val then BitVec.ofNat 48 y.vl else
          match b.b.bind (fun w => if abD w = k.val then value w else none),
            b.a.bind (fun w => if abD w = k.val then value w else none) with
          | some v, _ => v | none, some v => v | none, none => x.a[k.val]) ∧
        (∀ k : Fin 4, y.p.getLsbD k.val = match b.b.bind (fun w => if abPd w = k.val then holds w else none),
            b.a.bind (fun w => if abPd w = k.val then holds w else none) with
          | some v, _ => v | none, some v => v | none, none => x.p.getLsbD k.val) ∧
        (∀ k : Fin 4, y.lc[k.val] = match b.b.bind (fun w => if slotOp w = 0x1C ∧ abN w = k.val then some ((s1 w).setWidth 32) else none),
            b.a.bind (fun w => if slotOp w = 0x1C ∧ abN w = k.val then some ((s1 w).setWidth 32) else none) with
          | some v, _ => v | none, some v => v | none, none => x.lc[k.val]) ∧
        (∀ (k : Fin 32) (j : Nat), j < 128 → (y.sd[k.val]).getLsbD j = match b.b.bind (field k.val j), b.a.bind (field k.val j) with
          | some v, _ => v | none, some v => v | none, none => (x.sd[k.val]).getLsbD j))))

/-- A tile at rest (R82, R107, R113, R115, R137, R165 to R167, R414): DONE ends its part of the take once everything has completed, and the
tile holds the slate of it (DEDUCED, log 55); the idle vector
engine is gated unless VPIN or a VGATE_US of 0 holds it on, and woken for a V operation; room tone ends, and with the last of it on a die
that no task runs on or waits for, the die is in IDLE; a tile without a handshake that waits for no memory ends its take with TILE_STALL, and one beside a tile at the cut point stops. A cut point is reached once every tile
has stopped or executed DONE and no handshake of theirs can complete. -/
def Obligations.TilesFinishGateAndStop : Prop :=
  ∀ (d : Fin 12) (t : Fin 64) (s : State),
    let x := s.mod.tile d t
    (s.mod.tileLive d t = true → x.cutStop = false → x.doneSeen = true → x.quiet = true → x.suspended = false →
      OnTile (.done d t) s d t (fun y => y = { x with finished := true, stopSlate := s.env.dieNow d.val })) ∧
    (x.doneSeen = false ∨ x.quiet = false → exec (.done d t) s = .next s) ∧
    (x.gateOn = true → x.vecQ = [] → x.suspended = false → x.vpin = false ∨ s.mod.takeOpen d t = false →
      s.mod.pwr.ctrl.extractLsb' 16 16 ≠ 0 →
      OnTile (.vectorIdleTimeout d t) s d t (fun y => y = { x with gateOn := false })) ∧
    (x.vecQ ≠ [] ∨ s.mod.pwr.ctrl.extractLsb' 16 16 = 0 ∨ (x.vpin = true ∧ s.mod.takeOpen d t = true) →
      exec (.vectorIdleTimeout d t) s = .next s) ∧
    (s.mod.tileLive d t = true → (bundleAt x.imem x.pc).vReal.isSome = true → x.doneSeen = false → x.gateOn = false →
      OnModule (.vectorWake d t) s (fun m => m.tile d t = { x with gateOn := true } ∧ m.mem = s.mod.mem ∧ m.graphs = s.mod.graphs ∧
        m.recs = s.mod.recs ∧ ∀ y, s.mod.pwr.daily = some y → ∃ z, m.pwr.daily = some z ∧
          (z.dies[d.val]).wakes = min ((y.dies[d.val]).wakes + 1) (2 ^ 32 - 1) ∧ ∀ k : Fin 12, k ≠ d → z.dies[k.val] = y.dies[k.val])) ∧
    OnTile (.roomToneEnd d t) s d t (fun y => y = { x with tone := false }) ∧
    (s.mod.unitUp d.val = true → (∀ y ∈ s.mod.allNodes, y.2.2.1.dieMask.getLsbD d.val = true → y.2.2.2.isDone = true) →
      (∀ k : Fin 64, k ≠ t → (s.mod.tile d k).tone = false) → OnModule (.roomToneEnd d t) s (fun m => m.idle d.val = true)) ∧
    (s.mod.tileLive d t = true → x.suspended = false → x.cutStop = false → x.reread = [] → s.mod.memWait d t = false →
      OnModule (.tileStall d t) s (fun m => ∃ g n, x.owner = some (g, n) ∧ (m.tile d t).outcome = some .tileStall ∧
        (m.tile d t).pad = x.pad ∧ m.mem = s.mod.mem ∧
        (Tbl.find m.graphs g).map (fun gr => (gr.runOf n).outcome) = some (some .tileStall))) ∧
    (x.suspended = true ∨ s.mod.memWait d t = true → exec (.tileStall d t) s = .next s) ∧
    (∀ gr g n, s.mod.ownerOf d t = some (gr, g, n) → s.mod.tileLive d t = true → s.mod.cutOn (gr.node n) = true →
      OnTile (.cutStopTimeout d t) s d t (fun y =>
        y = if x.cutStop = true then x else { x with cutStop := true, stopSlate := s.env.dieNow d.val })) ∧
    (∀ gr g n, Tbl.find s.mod.graphs g = some gr → (gr.node n).ty = tyTile → (gr.runOf n).phase = .running → (gr.runOf n).outcome = none →
      gr.cutsNode n = true → s.mod.cutOn (gr.node n) = true → (gr.node n).dies.all (gr.runOf n).taken.contains = true →
      (∀ p ∈ (gr.node n).tiles, (s.mod.tile p.1 p.2).stopped = true ∧ s.mod.tileQuiet s.env p = true) →
      OnModule (.cutPointReached g n) s (fun m => m.dies = s.mod.dies ∧ m.slots = s.mod.slots ∧
        (∀ h : BitVec 32, h ≠ gr.hdr.cutRegion → m.region h = s.mod.region h) ∧
        (Tbl.find m.graphs g).map (fun y => (y.runOf n).outcome) = some (some .cutPointReached)))

/-! The array and the matrix-vector path. -/

/-- MLOAD, MMASK and MGRAD (R119 to R121, R130, R131): a load fills the shadow plane and leaves the active plane; 8 bytes become a slot's
mask; a slot's 4,096 values leave through DST in row order, to a queue as far as there is room, and the slot is unchanged (that END marks the
last entry of an MGRAD is the model's choice, log 61). -/
def Obligations.BlocksMasksAndSlotsMove : Prop :=
  ∀ (d : Fin 12) (t : Fin 64) (o : MOp) (s : State), (s.mod.tile d t).accessFree o.pos = true →
    (s.mod.tile d t).awaits o.pos = false → o.halt = false →
    let x := s.mod.tile d t
    let left := fun (y : Tile) => y.arrayQ.filter (fun k => k.pos != o.pos)
    (s.mod.arrayHead d t 1 = some o → x.operandFault arrayPorts o.src false (weightBytes o.fmt) = none →
      x.operandFault arrayPorts o.src2 false (scaleBytes o.fmt) = none → ∀ w x1 sc x2,
      x.fetch o.pos o.src 0 (weightBytes o.fmt) o.buf = .bytes w x1 → x1.fetch o.pos o.src2 0 (scaleBytes o.fmt) o.buf2 = .bytes sc x2 →
      OnTile (.mload d t .none) s d t (fun y =>
        (∃ b, y.shadow = some b ∧ b.fmt = o.fmt ∧ b.weights = w ∧ b.scales = sc) ∧ y.active = x2.active ∧ y.arrayQ = left x2 ∧
        y.queues = x2.queues ∧ y.pad = x2.pad ∧ y.v = x2.v ∧ y.a = x2.a ∧ y.carry = x2.carry ∧ y.acc = x2.acc ∧ y.pc = x2.pc)) ∧
    (s.mod.arrayHead d t 1 = some o → ∀ st, x.operandFault arrayPorts o.src false (weightBytes o.fmt) = some st →
      OnModule (.mload d t .none) s (fun m => (m.tile d t).outcome = some st ∧ (m.tile d t).shadow = x.shadow ∧ m.slots = s.mod.slots)) ∧
    (s.mod.arrayHead d t 4 = some o → ∀ i sl bs x1, s.mod.slotOf d t o.gb = some (i, sl) → sl.resident = true →
      x.operandFault arrayPorts o.src false 8 = none → x.fetch o.pos o.src 0 8 o.buf = .bytes bs x1 →
      OnModule (.mmask d t .none) s (fun m => m.slots = lmod s.mod.slots i (fun k => { k with mask := BitVec.ofNat 64 (leNat bs) }) ∧
        (m.tile d t).arrayQ = left x1 ∧ (m.tile d t).pad = x1.pad ∧ (m.tile d t).queues = x1.queues ∧ m.mem = s.mod.mem ∧
        m.graphs = s.mod.graphs)) ∧
    (s.mod.arrayHead d t 3 = some o → o.started = false → o.written = 0 → o.out = [] → ∀ i sl ds, s.mod.slotOf d t o.gb = some (i, sl) →
      sl.resident = true → o.dst = .desc ds → descOk ds = true → 16384 ≤ descBytes ds →
      OnModule (.mgrad d t .none) s (fun m => ∃ bs : List Byte, bs.length = 16384 ∧ (m.tile d t).pad = x.pad.writeBytes ds 0 bs ∧
        bs = (s.mod.drainResults s.env d t 0x01 { o with fmt := 1, ts := false } 0 sl.readOut).2.out ∧
        m.slots = s.mod.slots ∧ (m.tile d t).arrayQ = left x ∧ m.mem = s.mod.mem)) ∧
    (s.mod.arrayHead d t 3 = some o → ∀ i sl, s.mod.slotOf d t o.gb = some (i, sl) → sl.resident = false →
      x.operandFault arrayPorts o.dst true 16384 = none → exec (.mgrad d t .none) s = .next s) ∧
    (s.mod.arrayHead d t 3 = some o → (o.started = false → o.written = 0 ∧ o.out = []) → ∀ i sl q, s.mod.slotOf d t o.gb = some (i, sl) →
      sl.resident = true → o.dst = .queue q → q < 16 → x.operandFault arrayPorts o.dst true 16384 = none →
      let bs := if o.started then o.out else (s.mod.drainResults s.env d t 0x01 { o with fmt := 1, ts := false } 0 sl.readOut).2.out
      let es := (x.queue q).entries
      let k := min (64 - es.length) (ceilDiv bs.length 64)
      OnModule (.mgrad d t .none) s (fun m => let y := m.tile d t
        (y.queue q).entries = es ++ (List.range k).map (fun j => ⟨padTo 64 ((bs.drop (64 * j)).take 64), decide (bs.length ≤ 64 * (j + 1)), []⟩) ∧
        (∀ r : Nat, r ≠ q → y.queue r = x.queue r) ∧ y.pad = x.pad ∧ m.slots = s.mod.slots ∧ m.mem = s.mod.mem ∧
        (bs.length ≤ 64 * k → y.arrayQ = left x) ∧
        (64 * k < bs.length → ∃ z, y.arrayQ.head? = some z ∧ z.pos = o.pos ∧ z.started = true ∧ z.out = bs.drop (64 * k))))

/-- The queue entries that hold some bytes: 64 each, the last padded with zeros and marked END (R79, R124). -/
def entriesOf (bs : List Byte) : List QEntry :=
  (List.range (ceilDiv bs.length 64)).map (fun j => ⟨padTo 64 ((bs.drop (64 * j)).take 64), decide (bs.length ≤ 64 * (j + 1)), []⟩)

/-- MMUL and MVEC (R117, R118, R121, R124 to R127, R136, R141, R143): an MMUL that starts swaps the planes; a held one leaves one accumulator for each
output of each vector in the carry plane and writes nothing; one with DST clears the carry plane, and drains the results of its vector
there, from and to descriptors and queues alike; a residue mismatch met with its first or second vector fails the take once the results before that
vector are written, and schedules the row's test; one with ACC clears the carry plane, leaves the scratchpad and touches no slot but those it names. MVEC pops or reads its vector and its row, and writes its
row's result. A
count of zero does nothing and swaps nothing, though an earlier access holds its own. A NaN stops the task under HALT only once its operation has completed (R198). -/
def Obligations.ProductsAreFormed : Prop :=
  ∀ (d : Fin 12) (t : Fin 64) (o : MOp) (s : State), (s.mod.tile d t).awaits o.pos = false → o.halt = false →
    let x := s.mod.tile d t
    let fresh := x.accessFree o.pos = true ∧ o.started = false ∧ o.vec = 0 ∧ o.buf = [] ∧ o.buf2 = [] ∧ o.out = [] ∧ o.written = 0 ∧ o.accs = [] ∧ o.vlen = none
    let left := x.arrayQ.filter (fun k => k.pos != o.pos)
    let rest : Mod → Prop := fun m => m.mem = s.mod.mem ∧ (m.tile d t).v = x.v ∧ (m.tile d t).a = x.a ∧ (m.tile d t).acc = x.acc
    let swapped : Tile → Prop := fun y => y.active = x.blockFor ∧ y.shadow = none ∧ y.arrayQ = left
    (s.mod.arrayHead d t 2 = some o → o.count = 0 → ∀ err, OnTile (.mmul d t err) s d t (fun y =>
      y.arrayQ = left ∧ y.active = x.active ∧ y.shadow = x.shadow ∧ y.carry = x.carry ∧ y.pad = x.pad)) ∧
    (s.mod.arrayHead d t 2 = some o → o.count ≠ 0 → o.started = false → ∀ st, s.mod.mmulFault d t o = some st →
      OnModule (.mmul d t .none) s (fun m => (m.tile d t).outcome = some st ∧ (m.tile d t).pad = x.pad ∧ m.slots = s.mod.slots)) ∧
    (s.mod.arrayHead d t 2 = some o → o.count ≠ 0 → fresh → s.mod.mmulFault d t o = none → o.acc = false → o.dst = .none →
      ∀ (b : Block) (data sc : Nat → List Byte), x.blockFor = some b →
      ∀ xs : Nat → Tile, xs 0 = x → (∀ v : Nat, v < o.count → ∃ y : Tile,
        (xs v).fetch o.pos o.src (v * vecBytes o.fmt o.axis) (vecBytes o.fmt o.axis) [] = .bytes (data v) y ∧
        y.fetch o.pos o.src2 (v * vecScales o.fmt o.axis) (vecScales o.fmt o.axis) [] = .bytes (sc v) (xs (v + 1))) →
      OnTile (.mmul d t .none) s d t (fun y => swapped y ∧ y.pad = x.pad ∧ y.queues = (xs o.count).queues ∧ y.carry = some
        { axis := o.axis, count := o.count, outs := vecOuts o.fmt o.axis, f64 := o.fmt == 0,
          accs := (List.range o.count).flatMap (fun v =>
            (vecResults b x.carry { o with vec := v } (readVec o.fmt o.axis (data v) (sc v))).map
              (fun r => (BitVec.ofNat 64 r.2.1, r.2.2))) })) ∧
    (s.mod.arrayHead d t 2 = some o → o.count ≠ 0 → fresh → s.mod.mmulFault d t o = none → o.acc = false →
      ∀ ds dd, o.src = .desc ds → o.dst = .desc dd → (∀ q, o.src2 ≠ .queue q) → x.pad.poison = [] →
      OnModule (.mmul d t .none) s (fun m => swapped (m.tile d t) ∧ (m.tile d t).carry = none ∧ m.slots = s.mod.slots ∧ rest m)) ∧
    (s.mod.arrayHead d t 2 = some o → o.count = 1 → fresh → s.mod.mmulFault d t o = none → o.acc = false →
      ∀ (b : Block) (data sc : List Byte) (x1 x2 : Tile), x.blockFor = some b →
      x.fetch o.pos o.src 0 (vecBytes o.fmt o.axis) [] = .bytes data x1 → x1.fetch o.pos o.src2 0 (vecScales o.fmt o.axis) [] = .bytes sc x2 →
      let bs := (s.mod.drainResults s.env d t 0x01 o 0 (vecResults b x.carry o (readVec o.fmt o.axis data sc))).2.out
      let ends : (Tile → Prop) → Prop := fun p => OnModule (.mmul d t .none) s (fun m =>
        swapped (m.tile d t) ∧ (m.tile d t).carry = none ∧ m.slots = s.mod.slots ∧ rest m ∧ p (m.tile d t))
      (∀ dd, o.dst = .desc dd → ends (fun y => y.pad = x2.pad.writeBytes dd 0 bs ∧ y.queues = x2.queues)) ∧
      (∀ q, o.dst = .queue q → q < 16 → (x2.queue q).entries.length + ceilDiv bs.length 64 ≤ 64 → ends (fun y => y.pad = x2.pad ∧
        (∀ r : Nat, r ≠ q → y.queue r = x2.queue r) ∧ (y.queue q).entries = (x2.queue q).entries ++ entriesOf bs)) ∧
      (∀ row : Nat, OnModule (.mmul d t (.residue row 0)) s (fun m => (m.tile d t).outcome = some .arrayResidue ∧ (m.tile d t).pad = x.pad ∧
        m.slots = s.mod.slots ∧ rest m ∧
        .arrayRow d (Fin.ofNat 66 (s.mod.flash.site d t)) (Fin.ofNat 65 row) ∈ m.flt.pendingTests))) ∧
    (s.mod.arrayHead d t 2 = some o → o.count = 2 → fresh → s.mod.mmulFault d t o = none → o.acc = false →
      ∀ (dd : BitVec 128) (b : Block) (data sc : List Byte) (row : Nat), o.dst = .desc dd → x.blockFor = some b →
      x.fetch o.pos o.src 0 (vecBytes o.fmt o.axis) [] = .bytes data x → x.fetch o.pos o.src2 0 (vecScales o.fmt o.axis) [] = .bytes sc x →
      let bs := (s.mod.drainResults s.env d t 0x01 o 0 (vecResults b x.carry o (readVec o.fmt o.axis data sc))).2.out
      let z := { x with pad := x.pad.writeBytes dd 0 bs }
      (∃ p z1, z.fetch o.pos o.src (vecBytes o.fmt o.axis) (vecBytes o.fmt o.axis) [] = .bytes p z1 ∧
        ∃ p2 z2, z1.fetch o.pos o.src2 (vecScales o.fmt o.axis) (vecScales o.fmt o.axis) [] = .bytes p2 z2) →
      OnModule (.mmul d t (.residue row 1)) s (fun m => (m.tile d t).outcome = some .arrayResidue ∧ (m.tile d t).pad = z.pad ∧
        m.slots = s.mod.slots ∧ rest m ∧
        .arrayRow d (Fin.ofNat 66 (s.mod.flash.site d t)) (Fin.ofNat 65 row) ∈ m.flt.pendingTests)) ∧
    (s.mod.arrayHead d t 2 = some o → o.count ≠ 0 → fresh → s.mod.mmulFault d t o = none → o.acc = true →
      s.mod.slotsReady d t o = true → ∀ ds, o.src = .desc ds → (∀ q, o.src2 ≠ .queue q) → o.dst = .none → x.pad.poison = [] →
      OnModule (.mmul d t .none) s (fun m => swapped (m.tile d t) ∧ (m.tile d t).carry = none ∧ (m.tile d t).pad = x.pad ∧ rest m ∧
        ∀ i : Nat, (∀ gb ∈ o.gbs, ∀ sl, s.mod.slotOf d t gb ≠ some (i, sl)) → m.slots[i]? = s.mod.slots[i]?)) ∧
    (s.mod.arrayHead d t 2 = some o → o.count ≠ 0 → fresh → s.mod.mmulFault d t o = none →
      s.mod.slotsReady d t o = false → exec (.mmul d t .none) s = .next s) ∧
    (x.mvQ.head? = some o → s.mod.tileLive d t = true → o.count = 0 → ∀ err,
      OnTile (.mvec d t err) s d t (fun y => y.mvQ = x.mvQ.tail ∧ y.pad = x.pad ∧ y.active = x.active)) ∧
    (x.mvQ.head? = some o → s.mod.tileLive d t = true → o.count = 1 → fresh →
      ∀ dv dm dd row, o.src2 = .desc dv → o.src = .desc dm → o.dst = .desc dd → descOk dv = true → descBytes dv ≤ 8192 →
      x.pad.bytesBad dv 0 (descBytes dv) = [] →
      let w := fmtBits o.fmt / 8
      let l := descBytes dv / w
      descOk dm = true → l * w ≤ descBytes dm → descOk dd = true → outBytes o.fmt ≤ descBytes dd →
      x.pad.bytesBad dm 0 (l * w) = [] → row = x.pad.readBytes dm 0 (l * w) →
      let acc := mvRow o.fmt l row (x.pad.readBytes dv 0 (descBytes dv))
      OnModule (.mvec d t .none) s (fun m => (m.tile d t).mvQ = x.mvQ.tail ∧ (m.tile d t).active = x.active ∧ m.slots = s.mod.slots ∧
        (m.tile d t).pad = x.pad.writeBytes dd 0 (s.mod.drainResults s.env d t 0x02 { o with ts := false } 0 [(0, acc)]).2.out ∧ rest m)) ∧
    (x.mvQ.head? = some o → s.mod.tileLive d t = true → o.count = 1 → fresh → x.mvecFault o o.descLen = none →
      ∀ (vec row : List Byte) (x1 x2 : Tile),
      let popped : Nat → List QEntry → Tile → Tile → Prop := fun q es y y' => ∃ later, (y.queue q).entries = es ++ later ∧
        (∀ z ∈ es, z.bad = [] ∧ z.data.length = 64) ∧ y' = y.updQueue q (fun k => { k with entries := later })
      let w := fmtBits o.fmt / 8
      let l := vec.length / w
      ((∃ dv, o.src2 = .desc dv ∧ x.pad.bytesBad dv 0 (descBytes dv) = [] ∧ vec = x.pad.readBytes dv 0 (descBytes dv) ∧ x1 = x) ∨
        (∃ q es last, o.src2 = .queue q ∧ es.length < 64 ∧ popped q (es ++ [last]) x x1 ∧ last.last = true ∧ (∀ z ∈ es, z.last = false) ∧
          vec = (es ++ [last]).flatMap (fun z => z.data))) →
      x1.rowsFault o l = none →
      ((∃ dm, o.src = .desc dm ∧ x1.pad.bytesBad dm 0 (l * w) = [] ∧ row = x1.pad.readBytes dm 0 (l * w) ∧ x2 = x1) ∨
        (∃ q es, o.src = .queue q ∧ es.length = ceilDiv (l * w) 64 ∧ popped q es x1 x2 ∧ row = (es.flatMap (fun z => z.data)).take (l * w))) →
      let bs := (s.mod.drainResults s.env d t 0x02 { o with ts := false } 0 [(0, mvRow o.fmt l row vec)]).2.out
      let ends : (Tile → Prop) → Prop := fun p => OnModule (.mvec d t .none) s (fun m => (m.tile d t).mvQ = x.mvQ.tail ∧
        (m.tile d t).active = x.active ∧ m.slots = s.mod.slots ∧ rest m ∧ p (m.tile d t))
      (∀ dd, o.dst = .desc dd → ends (fun y => y.pad = x2.pad.writeBytes dd 0 bs ∧ y.queues = x2.queues)) ∧
      (∀ q, o.dst = .queue q → q < 16 → (x2.queue q).entries.length < 64 → ends (fun y => y.pad = x2.pad ∧
        (∀ r : Nat, r ≠ q → y.queue r = x2.queue r) ∧ (y.queue q).entries = (x2.queue q).entries ++ entriesOf bs)))

/-! The vector engine. -/

/-- VLD, VST, VGATH, VSCAT, VGATHM, GATHER_REPLY and VSCATM (R76, R86, R155 to R157): loads fill elements VRI to VL − 1 of VD from the
addresses that the operand or the index register gives, or from the entries of a queue as far as they have come, and no other element or
register; stores write the elements, −0 as +0, to the scratchpad, to module memory or to a queue as far as there is room, and no register; a gather from module memory holds a reply that comes early, and delivers its elements in order. -/
def Obligations.VectorMemoryMovesElements : Prop :=
  ∀ (d : Fin 12) (t : Fin 64) (o : VOp) (s : State), o.vd < 32 →
    let x := s.mod.tile d t
    let w := fmtBits o.ty
    let n := w / 8
    let ready : Nat → Prop := fun op => s.mod.vecHead d t op = some o ∧ o.tooLong x.long = false
    let loaded : (Nat → Nat) → Tile → Prop := fun a y => y.vecQ = x.vecQ.tail ∧ y.pad = x.pad ∧ y.queues = x.queues ∧ y.a = x.a ∧
      y.acc = x.acc ∧ (∀ r : Nat, r ≠ o.vd → y.vreg r = x.vreg r) ∧
      (∀ i : Nat, o.vri ≤ i → i < o.vl → vElem (y.vreg o.vd) w i = leNat (x.pad.readN (a i) n)) ∧
      (∀ i : Nat, i < o.vri ∨ o.vl ≤ i → (i + 1) * w ≤ 4096 → vElem (y.vreg o.vd) w i = vElem (x.vreg o.vd) w i)
    let code : Nat → List Byte := fun i => natLe n (storeCode o.ty (vElem (x.vreg o.vs1) w i))
    (ready 0x02 → ∀ ds, o.mem = .desc ds → x.vmemFault o false = none → x.accessFree o.pos = true → o.vri ≤ o.vl →
      (∀ i : Nat, o.vri ≤ i → i < o.vl → x.pad.poisoned (elemAddr ds i) n = false) →
      OnTile (.vld d t .none) s d t (loaded (elemAddr ds))) ∧
    (ready 0x03 → ∀ ds, o.mem = .desc ds → x.vmemFault o true = none → x.accessFree o.pos = true → OnTile (.vst d t) s d t (fun y =>
      y.vecQ = x.vecQ.tail ∧ y.v = x.v ∧ y.queues = x.queues ∧
      y.pad = x.pad.writeElems ds 0 o.vl ((List.range o.vl).flatMap code))) ∧
    (∀ q, o.mem = .queue q → q < 16 → x.accessFree o.pos = true → o.vri ≤ o.vl →
      let es := (x.queue q).entries
      let per := 512 / w
      let need := ceilDiv (o.vl - o.vri) per
      (ready 0x02 → x.vmemFault o false = none → (∀ z ∈ es.take need, z.bad = []) →
        let k := min need es.length
        OnTile (.vld d t .none) s d t (fun y => y.vecQ = (if k = need then [] else [{ o with vri := o.vri + k * per }]) ++ x.vecQ.tail ∧
          y.pad = x.pad ∧ y.a = x.a ∧ y.acc = x.acc ∧ (y.queue q).entries = es.drop k ∧ (∀ r : Nat, r ≠ q → y.queue r = x.queue r) ∧
          (∀ r : Nat, r ≠ o.vd → y.vreg r = x.vreg r) ∧
          (∀ i : Nat, i < k * per → o.vri + i < o.vl →
            vElem (y.vreg o.vd) w (o.vri + i) = ((es[i / per]?).map (fun z => elemAt z.data w (i % per))).getD 0) ∧
          (∀ i : Nat, i < o.vri ∨ o.vri + k * per ≤ i ∨ o.vl ≤ i → (i + 1) * w ≤ 4096 →
            vElem (y.vreg o.vd) w i = vElem (x.vreg o.vd) w i))) ∧
      (ready 0x03 → x.vmemFault o true = none →
        let k := min need (64 - es.length)
        OnTile (.vst d t) s d t (fun y => y.vecQ = (if k = need then [] else [{ o with vri := o.vri + k * per }]) ++ x.vecQ.tail ∧
          y.v = x.v ∧ y.pad = x.pad ∧ (∀ r : Nat, r ≠ q → y.queue r = x.queue r) ∧
          (y.queue q).entries = es ++ (List.range k).map (fun j => ⟨padTo 64 ((List.range (min per (o.vl - o.vri - j * per))).flatMap
            (fun i => code (o.vri + j * per + i))), false, []⟩)))) ∧
    (ready 0x02 ∨ ready 0x03 → ∀ st, x.vmemFault o (o.op == 0x03) = some st →
      OnModule (if o.op = 0x02 then .vld d t .none else .vst d t) s (fun m =>
        (m.tile d t).outcome = some st ∧ (m.tile d t).pad = x.pad ∧ (m.tile d t).v = x.v)) ∧
    (ready 0x04 → ∀ a : Nat → Nat, (x.formAddrs o).accessFree o.pos = true → o.vri ≤ o.vl →
      (∀ i : Nat, o.vri ≤ i → i < o.vl → (o.latch x).padAddr x i = some (a i) ∧ x.pad.poisoned (a i) n = false) →
      OnTile (.vgath d t .none) s d t (loaded a)) ∧
    (ready 0x05 → ∀ a : Nat → Nat, (x.formAddrs o).accessFree o.pos = true → o.vri = 0 →
      (∀ i : Nat, i < o.vl → (o.latch x).padAddr x i = some (a i)) → OnTile (.vscat d t) s d t (fun y =>
        y.vecQ = x.vecQ.tail ∧ y.v = x.v ∧ y.pad = (List.range o.vl).foldl (fun p i => p.writeN (a i) (code i)) x.pad)) ∧
    (ready 0x06 → o.vl = 0 → OnTile (.vgathm d t) s d t (fun y => y.vecQ = x.vecQ.tail ∧ y.v = x.v ∧ y.pad = x.pad)) ∧
    (ready 0x06 → o.vri < o.vl → o.replies = [] → o.bad = [] → ∀ r a, s.mod.portEntry d t o.stype false = some r →
      (o.latch x).entOff x r o.vri = some a → OnTile (.vgathm d t) s d t (fun y =>
        y.vecQ = { o.latch x with started := true } :: x.vecQ.tail ∧ y.v = x.v ∧ y.pad = x.pad)) ∧
    (ready 0x06 → o.started = true → o.bad = [] → ∀ r e, s.mod.portEntry d t o.stype false = some r → o.vri ≤ e → e < o.vl →
      Tbl.find o.replies e = none → ∀ a : Nat → Nat,
      (∀ i : Nat, o.vri ≤ i → i < o.vl → o.entOff x r i = some (a i) ∧ s.mod.clean r (a i) n) →
      let value := BitVec.ofNat 64 (leNat (s.mod.entRead r (a e) n))
      (e ≠ o.vri → Tbl.find o.replies o.vri = none → OnTile (.gatherReply d t e .none) s d t (fun y =>
        y.vecQ = { o with replies := Tbl.put o.replies e value } :: x.vecQ.tail ∧ y.v = x.v)) ∧
      (e = o.vri → e + 1 = o.vl → OnTile (.gatherReply d t e .none) s d t (fun y => y.vecQ = x.vecQ.tail ∧
        y.v = vmodN x.v o.vd (fun v => vSetElem v w e value.toNat)))) ∧
    (ready 0x07 → o.vri = 0 → 0 < o.vl → ∀ (r : RegEnt) (a : Nat → Nat), s.mod.portEntry d t o.stype true = some r →
      (∀ i : Nat, i < o.vl → o.entOff x r i = some (a i)) →
      let stored := (List.range o.vl).foldl (fun (m : Mod) i => m.entWrite r (a i) (code i)) s.mod
      exec (.vscatm d t) s = .next { s with mod := stored.updTile d t (fun y => y.endVec o) })

/-- Element faults (R70, R160 to R164): a double-bit error at an element of a load suspends the tile at that element, until the fifth; the
suspended operation resumes once its cause is gone; a clean re-read of the word that has waited longest clears that cause, and one that
fails again ends the take. -/
def Obligations.VectorFaultsSuspendAndResume : Prop :=
  ∀ (d : Fin 12) (t : Fin 64) (o : VOp) (s : State),
    let x := s.mod.tile d t
    (∀ ds el ad, s.mod.vecHead d t 0x02 = some o → o.tooLong x.long = false → o.mem = .desc ds → x.vmemFault o false = none →
      x.accessFree o.pos = true → o.vri ≤ el → el < o.vl →
      (∀ i : Nat, o.vri ≤ i → i < o.vl → x.pad.poisoned (elemAddr ds i) (fmtBits o.ty / 8) = false) →
      (o.resumes < 4 → OnTile (.vld d t (.double el ad)) s d t (fun y => y.suspended = true ∧ y.reread = x.reread ++ [(o.pos, el, ad)] ∧
        y.vecQ = { o with vri := el, replies := [], bad := [] } :: x.vecQ.tail ∧ y.pad = x.pad ∧
        ∀ r : Nat, r ≠ o.vd → y.vreg r = x.vreg r)) ∧
      (4 ≤ o.resumes → OnModule (.vld d t (.double el ad)) s (fun m => (m.tile d t).outcome = some .scratchUncorrectable ∧
        (m.tile d t).suspended = false))) ∧
    (s.mod.tileLive d t = true → x.suspended = true → x.vecQ.head? = some o → s.mod.mayResume d t = true →
      OnTile (.vectorResume d t) s d t (fun y => y = { x with suspended := false, vecQ := { o with resumes := o.resumes + 1 } :: x.vecQ.tail })) ∧
    (x.vecQ.head? = some o → x.awaits o.pos = true → exec (.vectorResume d t) s = .next s) ∧
    (∀ pos el ad rest, s.mod.tileLive d t = true → x.reread = (pos, el, ad) :: rest →
      OnModule (.scratchReread d t true) s (fun m => m.tile d t = { x with reread := rest } ∧ m.graphs = s.mod.graphs ∧ m.mem = s.mod.mem ∧
        m.slots = s.mod.slots) ∧
      OnModule (.scratchReread d t false) s (fun m => (m.tile d t).outcome = some .scratchUncorrectable ∧ (m.tile d t).pad = x.pad ∧
        m.mem = s.mod.mem))

/-- The element-wise operations (R149 to R151): elements 0 to VL − 1 of VD take the results, each computed from the sources as they stood
before; every other element, register, the scratchpad and memory are unchanged. Integer sums, differences and products wrap. -/
def Obligations.VectorArithmeticIsElementwise : Prop :=
  ∀ (d : Fin 12) (t : Fin 64) (o : VOp) (s : State), o.vd < 32 →
    let x := s.mod.tile d t
    let w := fmtBits o.ty
    let f := fmtSpec o.ty
    let ready : Nat → Prop := fun op => s.mod.vecHead d t op = some o ∧ o.tooLong x.long = false
    let a := fun i => vElem (x.vreg o.vs1) w i
    let b := fun i => vElem (x.vreg o.vs2) w i
    let c := fun i => vElem (x.vreg o.vs3) w i
    let gives : Instr → (Nat → Nat) → Prop := fun k val => OnModule k s (fun m =>
      let y := m.tile d t
      y.vecQ = x.vecQ.tail ∧ y.pad = x.pad ∧ y.queues = x.queues ∧ y.a = x.a ∧ y.acc = x.acc ∧ m.mem = s.mod.mem ∧ m.slots = s.mod.slots ∧
      (∀ r : Nat, r ≠ o.vd → y.vreg r = x.vreg r) ∧
      (∀ i : Nat, i < o.vl → vElem (y.vreg o.vd) w i = val i % 2 ^ w) ∧
      (∀ i : Nat, o.vl ≤ i → (i + 1) * w ≤ 4096 → vElem (y.vreg o.vd) w i = vElem (x.vreg o.vd) w i))
    (∀ k op, (k, op) ∈ [(Instr.vadd d t, 0x10), (.vsub d t, 0x11), (.vmul d t, 0x12), (.vfma d t, 0x13), (.vmax d t, 0x14),
        (.vmin d t, 0x15), (.vdiv d t, 0x16), (.vsqrt d t, 0x17), (.vexp d t, 0x1E)] → ready op →
      gives k (fun i => (vArith op o.ty (a i) (b i) (c i)).bits)) ∧
    (ready 0x20 → gives (.vcvt d t) (fun i => (vConvert o.stype o.ty (vElem (x.vreg o.vs1) (fmtBits o.stype) i)).bits)) ∧
    (ready 0x18 → gives (.vwmul d t) (fun i => (f.ofVal (x.product o o.stype i)).bits)) ∧
    (ready 0x19 → gives (.dotw d t) (fun i =>
      (f.ofVal (xsum [f.decode (c i), x.product o o.stype (2 * i), x.product o o.stype (2 * i + 1)])).bits)) ∧
    (o.ty = 9 → ready 0x10 → gives (.vadd d t) (fun i => a i + b i)) ∧
    (o.ty = 9 → ready 0x11 → gives (.vsub d t) (fun i => a i + 2 ^ 32 - b i)) ∧
    (o.ty = 9 → ready 0x12 → gives (.vmul d t) (fun i => a i * b i)) ∧
    (∀ k op, (k, op) ∈ [(Instr.vadd d t, 0x10), (.vsub d t, 0x11), (.vmul d t, 0x12), (.vcvt d t, 0x20), (.vwmul d t, 0x18),
        (.dotw d t, 0x19)] → s.mod.vecHead d t op = some o → o.tooLong x.long = true →
      OnModule k s (fun m => (m.tile d t).outcome = some .badOperation ∧ (m.tile d t).v = x.v))

/-- DOT.D, VRMAX and VRSUM (R152 to R154): the long accumulator takes the addend or goes on from what it held, and every product, exactly;
with KEEP no register is written; else elements 0 to VL − 1 of VD, or element 0 when VL is zero, take the one rounded result. -/
def Obligations.ReductionsRoundOnce : Prop :=
  ∀ (d : Fin 12) (t : Fin 64) (o : VOp) (s : State), o.vd < 32 →
    let x := s.mod.tile d t
    let w := fmtBits o.ty
    let f := fmtSpec o.ty
    let ready : Nat → Prop := fun op => s.mod.vecHead d t op = some o ∧ o.tooLong x.long = false
    let val : Nat → Nat → FVal := fun r i => fp64.decode (vElem (x.vreg r) 64 i)
    let cont := bitAt o.stype 0
    let acc := ((List.range o.vl).map (fun i => (val o.vs1 i).mul (val o.vs2 i))).foldl LongAcc.add
      (if cont then x.acc else LongAcc.zero.add (val o.vs3 0))
    let spread : Nat → Nat → Tile → Prop := fun w v y => y.vecQ = x.vecQ.tail ∧ y.pad = x.pad ∧ y.a = x.a ∧
      (∀ r : Nat, r ≠ o.vd → y.vreg r = x.vreg r) ∧ (∀ i : Nat, i < max 1 o.vl → vElem (y.vreg o.vd) w i = v % 2 ^ w)
    (ready 0x1A → bitAt o.stype 1 = true → OnTile (.dotD d t) s d t (fun y => y.acc = acc ∧ y.v = x.v ∧ y.vecQ = x.vecQ.tail)) ∧
    (ready 0x1A → bitAt o.stype 1 = false → o.ty = 0 → OnModule (.dotD d t) s (fun m =>
      (m.tile d t).acc = acc ∧ (m.tile d t).chainNan = none ∧ spread 64 (fp64.ofVal acc.val).bits (m.tile d t) ∧ m.mem = s.mod.mem)) ∧
    (ready 0x1C → OnModule (.vrmax d t) s (fun m => (m.tile d t).acc = x.acc ∧ m.mem = s.mod.mem ∧
      spread w (f.ofVal (((x.vcodes o.vs1 w o.vl).map f.decode).foldl FVal.max (f.decode (vElem (x.vreg o.vs3) w 0)))).bits (m.tile d t))) ∧
    (ready 0x1D → OnModule (.vrsum d t) s (fun m => (m.tile d t).acc = x.acc ∧ m.mem = s.mod.mem ∧
      spread w (f.ofVal (xsum (f.decode (vElem (x.vreg o.vs3) w 0) :: (x.vcodes o.vs1 w o.vl).map f.decode))).bits (m.tile d t)))

/-! The Q unit and the tile DMA engine. -/

/-- Queues (R76, R78 to R81): a binding waits until what is bound has moved its last element; a stream pushes its next elements, zero-filled
to 64 bytes, with END on the last, and pops an entry into its next elements; an inbound transfer pushes its next bytes of module memory in the
same form, and an outbound one writes the bytes of the entry that it pops to its next place there, and no other byte; what ports and the program
push and pop stands with their operations (`ProductsAreFormed`, `VectorMemoryMovesElements`); a full queue holds a push and an empty one a pop; a
waiting access proceeds once no earlier access overlaps it. -/
def Obligations.QueuesBindPushAndPop : Prop :=
  ∀ (d : Fin 12) (t : Fin 64) (s : State),
    let x := s.mod.tile d t
    let live := s.mod.tileLive d t = true
    let bound : QOp → Binding → Tile → Prop := fun o b y => y.qQ = x.qQ.tail ∧ y.pad = x.pad ∧ y.vecQ = x.vecQ ∧ y.dmas = x.dmas ∧
      y.queues = vmodN x.queues o.q (fun q => if o.consumer then { q with cons := b } else { q with prod := b })
    let ready : QOp → Prop := fun o => x.drained (if o.consumer then (x.queue o.q).cons else (x.queue o.q).prod) = true
    (∀ o, s.mod.qHead d t 0x01 = some o →
      (descOk o.desc = true → ready o → OnTile (.qbinds d t) s d t (bound o (.stream o.desc 0 o.pos o.bundle))) ∧
      (descOk o.desc = true → ¬ready o → exec (.qbinds d t) s = .next s) ∧
      (descOk o.desc = false → OnModule (.qbinds d t) s (fun m => (m.tile d t).outcome = some .badStream))) ∧
    (∀ c op b, (c, op, b) ∈ [(Instr.qbinde d t, 0x02, fun (o : QOp) => Binding.port o.port), (.qbindp d t, 0x03, fun _ => .program),
        (.qunbind d t, 0x04, fun _ => .unbound)] → ∀ o, s.mod.qHead d t op = some o →
      (ready o → OnTile c s d t (bound o (b o))) ∧ (¬ready o → exec c s = .next s)) ∧
    (∀ q : Fin 16, live → (x.queue q.val).entries.length = 64 → exec (.queuePush d t q .none .none) s = .next s) ∧
    (∀ q : Fin 16, (x.queue q.val).entries = [] → exec (.queuePop d t q) s = .next s) ∧
    (∀ (q : Fin 16) (ds : BitVec 128) (next pos bundle : Nat), live → (x.queue q.val).prod = .stream ds next pos bundle →
      (x.queue q.val).entries.length < 64 → next < descElems ds → x.awaits pos = false → x.accessFree pos = true →
      let n := min (64 / descEsize ds) (descElems ds - next)
      x.pad.elemsBad ds next n = [] → OnTile (.queuePush d t q .none .none) s d t (fun y => y.pad = x.pad ∧ y.qQ = x.qQ ∧
        (y.queue q.val).entries = (x.queue q.val).entries ++ [⟨padTo 64 (x.pad.readElems ds next n), decide (descElems ds ≤ next + n), []⟩] ∧
        (y.queue q.val).prod = .stream ds (next + n) pos bundle ∧ (∀ k : Nat, k ≠ q.val → y.queue k = x.queue k))) ∧
    (∀ (q : Fin 16) (ds : BitVec 128) (next pos bundle : Nat) (en : QEntry) (rest : List QEntry), live →
      (x.queue q.val).cons = .stream ds next pos bundle → (x.queue q.val).entries = en :: rest → next < descElems ds →
      x.accessFree pos = true →
      (en.poisoned = true → OnModule (.queuePop d t q) s (fun m => (m.tile d t).outcome = some .actPoison ∧ (m.tile d t).pad = x.pad)) ∧
      (en.poisoned = false →
        let n := min (64 / descEsize ds) (descElems ds - next)
        OnTile (.queuePop d t q) s d t (fun y => y.pad = x.pad.writeElems ds next n en.data ∧ (y.queue q.val).entries = rest ∧
          (y.queue q.val).cons = .stream ds (next + n) pos bundle ∧ (∀ k : Nat, k ≠ q.val → y.queue k = x.queue k)))) ∧
    (∀ (q : Fin 16) (i : Nat) (k : Dma), live → x.dmas.find? (fun z => z.id == i) = some k →
      let r := s.mod.xferEntry d t k
      let n := min 64 (k.len - k.moved)
      let from_ := k.offset + k.moved
      let moved : Tile → Prop := fun y => y.pad = x.pad ∧ y.qQ = x.qQ ∧ (∀ j : Nat, j ≠ q.val → y.queue j = x.queue j) ∧
        (y.queue q.val).prod = (x.queue q.val).prod ∧ (y.queue q.val).cons = (x.queue q.val).cons ∧
        y.dmas = x.dmas.map (fun z => if z.id == i then { z with moved := z.moved + n } else z)
      ((x.queue q.val).prod = .dma i → (x.queue q.val).entries.length < 64 →
        (k.len ≤ k.moved ∨ s.mod.lineFree d t k = false → exec (.queuePush d t q .none .none) s = .next s) ∧
        (k.moved < k.len → s.mod.lineFree d t k = true → s.mod.entLost r from_ n = none →
          OnTile (.queuePush d t q .none .none) s d t (fun y => moved y ∧ (y.queue q.val).entries = (x.queue q.val).entries ++
            [⟨padTo 64 (s.mod.entRead r from_ n), decide (k.len ≤ k.moved + n), s.mod.entBad r from_ n⟩]))) ∧
      (∀ en rest, (x.queue q.val).cons = .dma i → (x.queue q.val).entries = en :: rest →
        (k.len ≤ k.moved ∨ s.mod.lineFree d t k = false → exec (.queuePop d t q) s = .next s) ∧
        (k.moved < k.len → s.mod.lineFree d t k = true → en.poisoned = true →
          OnModule (.queuePop d t q) s (fun m => (m.tile d t).outcome = some .actPoison ∧ m.mem = s.mod.mem)) ∧
        (k.moved < k.len → s.mod.lineFree d t k = true → en.poisoned = false → OnModule (.queuePop d t q) s (fun m =>
          moved (m.tile d t) ∧ ((m.tile d t).queue q.val).entries = rest ∧ m.graphs = s.mod.graphs ∧ m.slots = s.mod.slots ∧
          m.mem = (s.mod.entWrite r from_ (en.data.take n)).mem)))) ∧
    (∀ (r : RegEnt) (o : Nat) (bs : List Byte) (rg : Region), s.mod.region r.handle = some rg → Mem.wf rg.bytes = true →
      (∀ n : Nat, s.mod.entRead r o n = (List.range n).map (fun j => rg.read (r.off + o + j))) ∧
      (∀ h : BitVec 32, h ≠ r.handle → (s.mod.entWrite r o bs).region h = s.mod.region h) ∧
      ∃ rg', (s.mod.entWrite r o bs).region r.handle = some rg' ∧ rg'.len = rg.len ∧
        (∀ j : Nat, j < bs.length → r.off + o + j < rg.len → rg'.read (r.off + o + j) = bs.getD j 0) ∧
        (∀ a : Nat, a < r.off + o ∨ r.off + o + bs.length ≤ a ∨ rg.len ≤ a → rg'.read a = rg.read a)) ∧
    (∀ pos : Nat, OnTile (.accessProceeds d t pos) s d t (fun y => y.pad = x.pad ∧ y.queues = x.queues ∧
      y.accesses = x.accesses.map (fun a => if a.pos = pos ∧ x.blocked pos a.ranges a.writes = false then { a with waiting := false } else a)))

/-- Transfers (R83, R84, R85, R106, R107): a transfer whose bytes lie in a region entry of a permitted kind starts while fewer than 16 are
outstanding, else it waits; one outside its entry ends the take with BAD_STREAM; a completed transfer has moved its bytes between the
scratchpad and its region, leaves the list and raises its counter; a queue end returns to what it was bound to before its transfers, whose
bytes have moved though they may not have completed (DEDUCED, log 20). -/
def Obligations.TransfersMoveTheirBytes : Prop :=
  ∀ (d : Fin 12) (t : Fin 64) (s : State),
    let x := s.mod.tile d t
    (∀ c op inb, (c, op, inb) ∈ [(Instr.dmain d t, 0x08, true), (.dmaout d t, 0x09, false)] → ∀ o, s.mod.qHead d t op = some o →
      descOk o.desc = true →
      (∀ r, s.mod.dmaEntry d t o inb (descBytes o.desc) = some r →
        (x.dmas.length < 16 → OnTile c s d t (fun y => y.qQ = x.qQ.tail ∧ y.pad = x.pad ∧ y.queues = x.queues ∧ y.nextXfer = x.nextXfer + 1 ∧
          ∃ k, y.dmas = x.dmas ++ [k] ∧ k.id = x.nextXfer ∧ k.inbound = inb ∧ k.viaQueue = none ∧ k.desc = o.desc ∧ k.offset = o.offset ∧
            k.len = descBytes o.desc ∧ k.moved = 0 ∧ k.ctr = o.ctr ∧ k.region = o.region)) ∧
        (16 ≤ x.dmas.length → exec c s = .next s)) ∧
      (s.mod.dmaEntry d t o inb (descBytes o.desc) = none → OnModule c s (fun m => (m.tile d t).outcome = some .badStream ∧ m.mem = s.mod.mem))) ∧
    (∀ c op inb, (c, op, inb) ∈ [(Instr.dmainq d t, 0x0A, true), (.dmaoutq d t, 0x0B, false)] → ∀ o r, s.mod.qHead d t op = some o → o.q < 16 →
      s.mod.dmaEntry d t o inb o.len = some r →
      let now := (x.queue o.q).bound (!inb)
      (x.dmas.length < 16 → x.drained now = true → OnTile c s d t (fun y => y.qQ = x.qQ.tail ∧ y.pad = x.pad ∧
        (y.queue o.q).bound (!inb) = .dma x.nextXfer ∧ (y.queue o.q).entries = (x.queue o.q).entries ∧
        ∃ k, y.dmas = x.dmas ++ [k] ∧ k.id = x.nextXfer ∧ k.inbound = inb ∧ k.viaQueue = some o.q ∧ k.len = o.len ∧ k.moved = 0 ∧
          ((∀ j, now ≠ .dma j) → k.prior = now) ∧
          (∀ j z, now = .dma j → x.dmas.find? (fun y => y.id == j) = some z → k.prior = z.prior))) ∧
      (16 ≤ x.dmas.length ∨ x.drained now = false → exec c s = .next s)) ∧
    (∀ (i : Nat) (k : Dma), x.dmas.find? (fun y => y.id == i) = some k → s.mod.tileLive d t = true → s.mod.lineFree d t k = true →
      x.accessFree k.pos = true →
      let r := s.mod.xferEntry d t k
      let ended : Tile → Prop := fun y => y.dmas = x.dmas.filter (fun z => z.id != k.id) ∧ y.v = x.v ∧
        y.ctr = vmodN x.ctr k.ctr (fun c => BitVec.ofNat 32 (min (c.toNat + 1) (2 ^ 32 - 1)))
      (k.viaQueue = none → k.inbound = true →
        s.mod.entBad r k.offset k.len = [] → s.mod.entLost r k.offset k.len = none →
        OnTile (.dmaCompletion d t i .none .none) s d t (fun y => ended y ∧
          y.pad = x.pad.writeElems k.desc 0 (descElems k.desc) (s.mod.entRead r k.offset k.len))) ∧
      (k.viaQueue = none → k.inbound = false → x.awaits k.pos = false → x.pad.elemsBad k.desc 0 (descElems k.desc) = [] →
        OnModule (.dmaCompletion d t i .none .none) s (fun m => ended (m.tile d t) ∧ (m.tile d t).pad = x.pad ∧
          m.mem = (s.mod.entWrite r k.offset (x.pad.readElems k.desc 0 (descElems k.desc))).mem)) ∧
      (∀ q, k.viaQueue = some q → k.len ≤ k.moved → OnModule (.dmaCompletion d t i .none .none) s (fun m =>
        let y := m.tile d t
        ended y ∧ y.pad = x.pad ∧ m = { s.mod with dies := m.dies, mem := if k.inbound then s.mod.mem else (s.mod.heal r k.offset k.len).mem } ∧
        ((x.queue q).bound (!k.inbound) = .dma k.id → q < 16 → (y.queue q).bound (!k.inbound) = k.prior) ∧
        ((x.queue q).bound (!k.inbound) ≠ .dma k.id → y.queue q = x.queue q))) ∧
      (∀ q, k.viaQueue = some q → k.moved < k.len → exec (.dmaCompletion d t i .none .none) s = .next s))

/-! Tasks, takes, nodes and slots. -/

/-- CUE_FIRE, TASK_START, REEL_COPY, TAKE_START and TILE (R57, R58, R67, R93 to R95, R167, R295): a task starts on each of its dies once its
conditions hold there and not before, and holds its tiles; the copy puts the reel's code into the tiles that await it, and between takes an
error seen in an earlier one is not forgotten; a take starts the
tiles of each die at the entry point with cleared registers, empty queues and an unwritten scratchpad, and VPIN turns the vector engine on;
a reel or a slot table that cannot be read ends the task with HBM_UNCORRECTABLE (R336);
the comparators whose time has come fire and leave the die, and what fires while the die does not run holds the launch of a task whose
proxy it is (R63). TILE runs the rounds of the node's tiles (the model's reading, log 27). -/
def Obligations.TasksStartOnFreeTiles : Prop :=
  ∀ (g n : Nat) (gr : Graph) (s : State), Tbl.find s.mod.graphs g = some gr →
    let x := gr.node n
    let r := gr.runOf n
    let run : Mod → (NRun → Prop) → Prop := fun m P => ∃ g', Tbl.find m.graphs g = some g' ∧ P (g'.runOf n) ∧ g'.nodes = gr.nodes ∧
      ∀ k : Nat, k ≠ n → g'.runOf k = gr.runOf k
    let toneless : Tile → Tile := fun y => { y with tone := false }
    let others : Mod → Prop := fun m => ∀ (d : Fin 12) (t : Fin 64), (d, t) ∉ x.tiles → m.tile d t = s.mod.tile d t
    (s.mod.reserved gr n = true → s.mod.mayStart gr n = false → exec (.taskStart g n) s = .next s) ∧
    (s.mod.reserved gr n = true → r.phase = .released → gr.cueHeld n = true → exec (.taskStart g n) s = .next s) ∧
    (s.mod.reserved gr n = true → x.dies ≠ [] → (∀ d ∈ x.dies, s.mod.mayStartOn s.env gr g n d = false) →
      exec (.taskStart g n) s = .next s) ∧
    (∀ d : Nat, s.mod.reserved gr n = true → s.mod.mayStart gr n = true →
      x.dies.find? (fun k => s.mod.mayStartOn s.env gr g n k) = some d → OnModule (.taskStart g n) s (fun m =>
        run m (fun y => y.phase = .running ∧ (r.phase = .released → y.take = 1) ∧ d ∈ y.on ∧ (r.phase = .running → ∀ k ∈ r.on, k ∈ y.on) ∧
          (x.dies = [d] → y.on = (if r.phase = .released then [d] else r.on ++ [d]))) ∧
        m.mem.reels = s.mod.mem.reels ∧
        (∀ (k : Fin 12) (t : Fin 64), (k, t) ∉ x.tiles → toneless (m.tile k t) = toneless (s.mod.tile k t)) ∧
        ∀ p ∈ x.tiles, p.1.val = d → (m.tile p.1 p.2).owner = some (g, n) ∧ (m.tile p.1 p.2).imem = (s.mod.tile p.1 p.2).imem)) ∧
    (s.mod.reserved gr n = true → s.mod.mayStart gr n = true → x.dies = [] → r.phase = .released → OnModule (.taskStart g n) s (fun m =>
      run m (fun y => y.phase = .running ∧ y.take = 1 ∧ y.on = []))) ∧
    (∀ k : Reel, Tbl.find s.mod.mem.reels x.reel.toNat = some k → x.ty = tyTile →
      (let ds := s.mod.copyDies g n x r
       (ds ≠ [] → s.mod.reelLost k = true → r.isRunning = true → r.outcome = none → OnModule (.reelCopy g n .none) s (fun m =>
        run m (fun y => y.outcome = some .hbmUncorrectable) ∧ m.dies = s.mod.dies ∧ m.mem = s.mod.mem)) ∧
       (ds ≠ [] → s.mod.reelLost k = false → OnModule (.reelCopy g n .none) s (fun m =>
        run m (fun y => (∀ d : Nat, d ∈ y.reelOn ↔ d ∈ r.reelOn ∨ d ∈ ds) ∧ { y with reelOn := r.reelOn } = r) ∧ others m ∧ m.mem = s.mod.mem ∧
          m.slots = s.mod.slots ∧ ∀ p ∈ x.tiles, m.tile p.1 p.2 =
            if p.1.val ∈ ds then { s.mod.tile p.1 p.2 with imem := reelCode k.image, reelId := some x.reel, imemBad := false,
                                                                   imemSeen := (s.mod.tile p.1 p.2).imemSeen && r.on.contains p.1.val }
            else s.mod.tile p.1 p.2))) ∧
      (let ds := s.mod.takeDies x r
       (∀ l, ds ≠ [] → s.mod.slotsLost x = some l → r.outcome = none → OnModule (.takeStart g n) s (fun m =>
        run m (fun y => y.outcome = some .hbmUncorrectable) ∧ m.dies = s.mod.dies ∧ m.mem = s.mod.mem)) ∧
       (ds ≠ [] → s.mod.slotsLost x = none →
        OnModule (.takeStart g n) s (fun m => run m (fun y => y = { r with taken := r.taken ++ ds }) ∧ others m ∧ m.mem = s.mod.mem ∧
          ∀ p ∈ x.tiles, let y := m.tile p.1 p.2
            (p.1.val ∉ ds → y = s.mod.tile p.1 p.2) ∧
            (p.1.val ∈ ds → y.owner = some (g, n) ∧ y.pc = reelEntry k.image ∧ y.imem = (s.mod.tile p.1 p.2).imem ∧
              y.gateOn = ((s.mod.tile p.1 p.2).gateOn || reelVpin k.image) ∧
              y.a = Vector.replicate 16 0 ∧ y.v = Vector.replicate 32 0 ∧ y.sd = Vector.replicate 32 0 ∧ y.ctr = Vector.replicate 4 0 ∧
              y.vl = 0 ∧ y.pad = ⟨[], [], []⟩ ∧ y.active = none ∧ y.shadow = none ∧ y.carry = none ∧ y.finished = false ∧
              y.outcome = none ∧ y.vecQ = [] ∧ y.dmas = [] ∧ ∀ q : Nat, (y.queue q).entries = [])))) ∧
      (r.isRunning = false → exec (.takeStart g n) s = .next s)) ∧
    (∀ rounds : Nat, x.ty = tyTile → r.phase = .running →
      exec (.tile g n rounds) s = .next { s with mod := tileRounds rounds x.tiles s.env s.mod }) ∧
    (∀ d : Fin 12, s.mod.unitUp d.val = true → OnModule (.cueFire d) s (fun m =>
      let due := ((s.mod.dies[d.val]).cues.take 64).filter (fun c => decide (c.1 ≤ s.env.dieNow d.val))
      (∀ c, c ∈ (m.dies[d.val]).cues ↔ c ∈ (s.mod.dies[d.val]).cues ∧ ∀ y ∈ due, y.1 ≠ c.1) ∧
      (∀ y ∈ due, (g, n) ∈ y.2 → n < gr.run.length → ∃ g', Tbl.find m.graphs g = some g' ∧ d.val ∈ (g'.runOf n).cued ∧
        (s.mod.unitRuns d.val = false → d.val ∈ (g'.runOf n).cuedIn)) ∧
      (s.mod.unitRuns d.val = true → ∃ g', Tbl.find m.graphs g = some g' ∧ (g'.runOf n).cuedIn = r.cuedIn) ∧
      (∀ k : Fin 12, k ≠ d → m.dies[k.val] = s.mod.dies[k.val]) ∧ m.mem = s.mod.mem)) ∧
    (∀ d : Fin 12, s.mod.unitUp d.val = false → exec (.cueFire d) s = .next s)

/-- CUE, BARRIER, HOST_NOTE and TAKE_COMPLETE (R61, R287, R299, R300): a node without work completes with a success once its edges and its cue
allow it; a take without an outcome goes on; a first covered fault is not counted, another transient fault counts one, and at the take
limit the task ends with TAKE_LIMIT (the parts of an engine node count for themselves: see `EnginePartsDoTheirWork`); a fault that is not
transient ends the task with its status, and a save image that cannot be read makes the fault final (R336). A late task completes with LATE_CUE,
or, where a fault takes precedence, with that fault; either way an event record holds LATE_CUE and the lateness (R61, R62; the place of the
lateness in it is the model's choice, log 12). DEDUCED are the waits: what follows
a fault waits while a touched slot's die does not run (log 26) or the recompute of poisoned lines has to wait (log 18), and the success of a
CONVERT waits for the update die that keeps its block's stump (log 18). -/
def Obligations.NodesAndTakesComplete : Prop :=
  ∀ (g n : Nat) (gr : Graph) (s : State), Tbl.wf s.mod.graphs = true → Tbl.find s.mod.graphs g = some gr →
    let x := gr.node n
    let r := gr.runOf n
    let ends : Mod → (Status → Prop) → Prop := fun m P => ∀ g', Tbl.find m.graphs g = some g' → ∃ st, (g'.runOf n).phase = .done st ∧ P st
    let tells : Mod → Prop := fun m => ∀ l, r.late = some l → m.recs.write ≤ s.mod.recs.write + 262144 →
      ∃ u ∈ m.recs.units, s.mod.recs.write ≤ u.seq ∧ fieldAt u.bytes 8 2 = 0x0203 ∧ fieldAt u.bytes 0x15 8 = l % 2 ^ 64
    let again : Mod → NRun → Prop := fun m q => s.mod.recs.write + 1 ≤ m.recs.write ∧ ∃ g', Tbl.find m.graphs g = some g' ∧
      g'.runOf n = { q with take := min 255 (r.take + 1), outcome := none, detail := [], notes := [], blame := [], reelOn := [], taken := [],
                            counts := [], parts := r.parts.map (fun p => { p with done := false }) } ∧
      ∀ k : Nat, k ≠ n → g'.runOf k = gr.runOf k
    (∀ c ty, (c, ty) ∈ [(Instr.cue g n, tyCue), (.barrier g n, tyBarrier), (.hostNote g n, tyHostNote)] →
      (s.mod.reserved gr n = true → s.mod.mayFire gr n ty = false → exec c s = .next s) ∧
      (s.mod.mayFire gr n ty = true → OnModule c s (fun m => ends m (fun st => st.success = true) ∧
        (s.mod.flt.pendingMeas = [] → m.mem = s.mod.mem) ∧
        (ty = tyHostNote → s.mod.recs.write + 1 ≤ m.recs.write)))) ∧
    (r.isRunning = false ∨ s.mod.takeEnd x r = none → exec (.takeComplete g n .none) s = .next s) ∧
    (∀ st, r.isRunning = true → s.mod.takeEnd x r = some st →
      (st.success = true → x.ty ≠ tyConvert ∨ s.mod.storeHeld gr n = false →
        OnModule (.takeComplete g n .none) s (fun m => ends m (fun z => z.success = true ∧ (r.late ≠ none → z = .lateCue)) ∧ tells m)) ∧
      (st.success = true → x.ty = tyConvert → s.mod.storeHeld gr n = true → exec (.takeComplete g n .none) s = .next s) ∧
      (st = .actPoison → x.ty = tyTile → s.mod.recomputeHeld g n r.blame = true → exec (.takeComplete g n .none) s = .next s) ∧
      (st.success = false → s.mod.restoreHeld g n x = true → exec (.takeComplete g n .none) s = .next s) ∧
      (st.success = false → s.mod.restoreHeld g n x = false → st ≠ .actPoison ∨ x.ty ≠ tyTile ∨ s.mod.recomputeHeld g n r.blame = false →
        s.mod.lostSaves g n x ≠ [] → OnModule (.takeComplete g n .none) s (fun m => ends m (fun z => z = .hbmUncorrectable))) ∧
      (s.mod.restoreHeld g n x = false → s.mod.lostSaves g n x = [] →
        (st.success = false → st ≠ .actPoison ∨ x.ty ≠ tyTile → st.counted = false →
          OnModule (.takeComplete g n .none) s (fun m => ends m (fun z => z = st) ∧ tells m)) ∧
        (st.covered = true → r.grace = false → OnModule (.takeComplete g n .none) s (fun m => again m { r with grace := true })) ∧
        (st.counted = true → st.covered = false ∨ r.grace = true → r.counted + 1 < x.limit →
          OnModule (.takeComplete g n .none) s (fun m => again m { r with counted := r.counted + 1 })) ∧
        (st.counted = true → st.covered = false ∨ r.grace = true → x.limit ≤ r.counted + 1 →
          OnModule (.takeComplete g n .none) s (fun m => ends m (fun z =>
            z = .takeLimit)))))

/-- Slots (R203 to R206): the save of a resident slot, which the first ACC MMUL in the array's queue that names it waits for (that the save comes
only once such an MMUL waits there is DEDUCED, log 35), goes to its save image, the spill of one without additions to its home image; a corrected error of a gradient buffer row that either meets is noted, while a
double-bit one awaits the re-read of that MMUL, or leaves the spill undone (R89, R425; the model's choice for a spill, log 30); a fill brings a spilled slot back when its tile has room, on a die whose rail is not held (R42); the restore after a take that does not succeed gives every touched slot its save
image, and waits while the die of one does not run (DEDUCED, log 26). A slot's image is 24,640 bytes. -/
def Obligations.SlotsAreSavedAndRestored : Prop :=
  (∀ sl : Slot, sl.imageBytes.length = 24640) ∧
  (∀ (d : Fin 12) (t : Fin 64) (gb : Fin 42) (i : Nat) (sl : Slot) (s : State), s.mod.slotOf d t gb.val = some (i, sl) →
    let first := (s.mod.tile d t).arrayQ.find? (fun o => o.acc && o.gbs.contains gb.val)
    let saves : OpErr → (Mod → Prop) → Prop := fun err P => OnModule (.slotSave d t gb err) s (fun m =>
      m.mem = (s.mod.entWrite sl.grad (sl.image * 49280 + 24640) sl.imageBytes).mem ∧ m.dies = s.mod.dies ∧ m.graphs = s.mod.graphs ∧
      m.slots = lmod s.mod.slots i (fun k => { k with saved := true }) ∧ P m)
    (∀ o, s.mod.tileLive d t = true → sl.resident = true → sl.saved = false → first = some o → (s.mod.tile d t).awaits o.pos = false →
      saves .none (fun m => m.flt = s.mod.flt) ∧
      (∀ row, saves (.gb row true) (fun m => .gbRow d (Fin.ofNat 66 (s.mod.flash.site d t)) row ∈ m.flt.pendingTests)) ∧
      (∀ row, OnTile (.slotSave d t gb (.gb row false)) s d t (fun y =>
        y = { s.mod.tile d t with reread := (s.mod.tile d t).reread ++ [(o.pos, row, 0xFFFFFFFFFFFFFF00 + gb.val)] }))) ∧
    (∀ err, sl.resident = false ∨ sl.saved = true ∨ first = none ∨ (∃ o, first = some o ∧ (s.mod.tile d t).awaits o.pos = true) →
      exec (.slotSave d t gb err) s = .next s)) ∧
  (∀ (i : Nat) (sl : Slot) (s : State), s.mod.slots[i]? = some sl → sl.graph ≠ 0 →
    let spills : OpErr → (Mod → Prop) → Prop := fun err P => OnModule (.slotSpill i err) s (fun m => m.dies = s.mod.dies ∧
      m.graphs = s.mod.graphs ∧ m.mem = (s.mod.entWrite sl.grad (sl.image * 49280) sl.imageBytes).mem ∧
      m.slots = lmod s.mod.slots i (fun k => { k with resident := false, vals := [] }) ∧ P m)
    let noted : Nat → Mod → Prop := fun row m => .gbRow (Fin.ofNat 12 sl.d)
      (Fin.ofNat 66 (s.mod.flash.site (Fin.ofNat 12 sl.d) (Fin.ofNat 64 sl.t))) row ∈ m.flt.pendingTests
    (sl.resident = true → sl.touched = false → s.mod.unitRuns sl.d = true → spills .none (fun m => m.flt = s.mod.flt) ∧
      (∀ row, spills (.gb row true) (noted row)) ∧
      (∀ row, OnModule (.slotSpill i (.gb row false)) s (fun m => noted row m ∧ m = { s.mod with flt := m.flt }))) ∧
    (∀ err, sl.resident = false ∨ sl.touched = true ∨ s.mod.unitRuns sl.d = false → exec (.slotSpill i err) s = .next s) ∧
    (sl.resident = false → s.mod.residents sl.d sl.t < 42 → s.mod.unitRuns sl.d = true →
      s.mod.entLost sl.grad (sl.image * 49280) 24640 = none → OnModule (.slotFill i .none) s (fun m => m.mem = s.mod.mem ∧ m.dies = s.mod.dies ∧
      m.graphs = s.mod.graphs ∧ m.slots[i]? = some { s.mod.getImage sl false with resident := true } ∧
      ∀ j : Nat, j ≠ i → m.slots[j]? = s.mod.slots[j]?)) ∧
    (sl.resident = true ∨ 42 ≤ s.mod.residents sl.d sl.t ∨ s.mod.unitRuns sl.d = false → exec (.slotFill i .none) s = .next s)) ∧
  (∀ (g n : Nat) (gr : Graph) (st : Status) (s : State), Tbl.find s.mod.graphs g = some gr → (gr.runOf n).phase = .running →
    (gr.runOf n).outcome = some st →
    (st.success = true → exec (.slotRestore g n .none) s = .next s) ∧
    (st.success = false → s.mod.restoreHeld g n (gr.node n) = true → exec (.slotRestore g n .none) s = .next s) ∧
    (st.success = false → s.mod.restoreHeld g n (gr.node n) = false → s.mod.lostSaves g n (gr.node n) = [] → OnModule (.slotRestore g n .none) s (fun m => m.mem = s.mod.mem ∧ m.dies = s.mod.dies ∧ m.graphs = s.mod.graphs ∧
      ∀ (i : Nat) (sl : Slot), s.mod.slots[i]? = some sl → m.slots[i]? =
        some (if sl.touched = true ∧ i ∈ s.mod.boundSlots g n (gr.node n) then { s.mod.getImage sl true with touched := false } else sl))))

/-! Engine nodes. -/

/-! The bytes that each engine may write: parameter offset, offset in its entry, length. -/

/-- The bytes that hold elements `lo` to `hi` of a packed tensor of `w`-bit elements. -/
def elemSpan (o base w lo hi : Nat) : Nat × Nat × Nat := (o, base + lo * w / 8, ceilDiv (hi * w) 8 - lo * w / 8)

/-- A part of a FACTOR of `p`: the header, and its matrices' status entries, exchanges and factors (R236, R238). -/
def factorWrites (x : Node) (p part : Nat) : List (Nat × Nat × Nat) :=
  let q := x.facPar
  let s := shareOf q.batch p part
  [(0xB, 0, 0x40), (0xB, 0x40 + 16 * s.1, 16 * (s.2 - s.1)), (0xB, pivOff q.batch + 4 * q.n * s.1, if q.kind = 0 then 4 * q.n * (s.2 - s.1) else 0),
    elemSpan 0xB (facOff q.kind q.n q.batch) (fmtBits q.fmt) (q.n * q.n * s.1) (q.n * q.n * s.2)]

/-- A part of a SOLVE of `p`: its matrices' solutions and, where the node names them, status entries (R240, R243). -/
def solveWrites (m : Mod) (x : Node) (p part : Nat) : List (Nat × Nat × Nat) :=
  let fs := m.facSet (x.parEnt 5)
  let s := shareOf fs.batch p part
  let v := x.par 0 2 * fs.n
  elemSpan 7 0 (fmtBits (x.par 3 1)) (v * s.1) (v * s.2) :: (if (x.parReg 9).isSome then [(9, 16 * s.1, 16 * (s.2 - s.1))] else [])

/-- A part of an ASSEMBLE of `p`: its matrices and right-hand sides, or in reverse form the gradients (R229, R253). -/
def assembleWrites (x : Node) (p part : Nat) : List (Nat × Nat × Nat) :=
  let q := x.asm
  let w := fmtBits q.out
  let s := shareOf q.batch p part
  if q.reverse then
    elemSpan 0x1A 0 w 0 (srcElems (x.parEnt 0x14) q.pfmt) ::
      (if q.gradMeas then [elemSpan 0x1B 0 w 0 (srcElems (x.parEnt 0x15) q.mfmt)] else [])
  else [elemSpan 0x18 0 w (q.n * q.n * s.1) (q.n * q.n * s.2), elemSpan 0x19 0 w (q.nrhs * q.n * s.1) (q.nrhs * q.n * s.2)]

/-- An ITER_SOLVE: the solution, the result record and, where the node names them, the gradient of the stored values, which stand from the first
row pointer on, and the warm-start record (R248, R250, R254). -/
def iterWrites (m : Mod) (x : Node) : List (Nat × Nat × Nat) :=
  let p := x.iter
  let w := fmtBits p.fmt
  [elemSpan 0x24 0 w 0 p.n, (0x27, 0, 64)] ++ (if p.valgrad then [elemSpan 0x29 0 w (m.csrFirst x) p.nnz] else []) ++
    (if (x.parReg 0x26).isSome then [(0x26, 0, 64), elemSpan 0x26 64 w 0 p.n] else [])

/-- An UPDATE: the working copy and the state region; of an embedding's state region, whose journal names its rows, the region from the
entry's start on (R261 to R264, R272). -/
def updateWrites (m : Mod) (x : Node) : List (Nat × Nat × Nat) :=
  let p := x.upd
  let all := match m.region (x.parEnt 0x15).handle with | some g => g.len | none => 0
  [(0x17, 0, wcBytes p), (0x15, 0, if p.embed then all else p.stateBytes 0)]

/-- Every region keeps its bytes outside a list of ranges of a node's entries. -/
def keepsOutside (m m' : Mod) (x : Node) (l : List (Nat × Nat × Nat)) : Prop :=
  ∀ (h : BitVec 32) (rg : Region), m.region h = some rg → Mem.wf rg.bytes = true → ∃ rg', m'.region h = some rg' ∧ rg'.len = rg.len ∧
    ∀ a : Nat, (∀ y ∈ l, (x.parEnt y.1).handle = h →
      a < (x.parEnt y.1).off + y.2.1 ∨ (x.parEnt y.1).off + y.2.1 + y.2.2 ≤ a) → rg'.read a = rg.read a

/-- A row of the engines: its command, node type, part, what the part reads, the ranges that it writes whole, those that it may write, and
what its work comes to. -/
structure EngineRow where
  command : EngErr → Instr
  ty : Nat
  part : Nat
  reads : Mod → Graph → Node → Reads
  outs : Mod → Graph → Node → List (Nat × Nat × Nat)
  writes : Mod → Graph → Node → List (Nat × Nat × Nat)
  work : Mod → Graph → Node → PartEnd

/-- The engine rows of a node's part. The parts of an ITER_SOLVE and of an UPDATE read a share each, and the one that is done last does the work
(the model's choice, log 21). -/
def engineRows (e : Env) (g n part : Nat) : List EngineRow :=
  let k := fun (gr : Graph) => (gr.runOf n).parts.length
  [⟨.convert g n part, tyConvert, part, cvtReads n part, fun _ gr x => cvtRanges (k gr) x (fun _ => false) part,
      fun _ gr x => cvtRanges (k gr) x (fun _ => true) part, cvtWork e g n part⟩,
    ⟨.copy g n part, tyCopy, part, copyReads n part, fun _ gr x => copyRanges (k gr) x part, fun _ gr x => copyRanges (k gr) x part,
      copyWork n part⟩,
    ⟨.assemble g n part, tyAssemble, part, assembleReads n part, fun _ gr x => assembleOuts gr n part x,
      fun _ gr x => assembleWrites x (k gr) part, assembleWork e g n part⟩,
    ⟨.factor g n part, tyFactor, part, factorReads n part, fun _ gr x => factorRanges (k gr) x part, fun _ gr x => factorWrites x (k gr) part,
      factorWork e g n part⟩,
    ⟨.solve g n part, tySolve, part, solveReads n part, fun m gr x => solveRanges m (k gr) x part, fun m gr x => solveWrites m x (k gr) part,
      solveWork e g n part⟩,
    ⟨.iterSolve g n part, tyIter, part, jointReads n part iterReads, jointOuts n part iterOuts, jointOuts n part iterWrites,
      jointWork n part (iterWork e g n)⟩,
    ⟨.update g n part, tyUpdate, part, jointReads n part updateReads, jointOuts n part updateOuts, jointOuts n part updateWrites,
      jointWork n part (updateWork e g n)⟩]

/-- Whether the work of a node's part meets no fault of its own: what R189, R191 and R223 ask of a CONVERT, R230 of an ASSEMBLE, R240 and R252
of a SOLVE, R244 of an ITER_SOLVE, R265 of an UPDATE and R272 of its list; a FACTOR and a COPY end with none. An ITER_SOLVE whose CAP_OK is set
completes at its cap too (R247). A journal left valid is completed before the UPDATE reads its region (R263). -/
def partNormal (m : Mod) (gr : Graph) (x : Node) : Prop :=
  (x.ty = tyConvert → x.cvt.elems = 0 ∨ m.cvtFault x x.cvt = false) ∧
  (x.ty = tyAssemble →
    firstBadMatrix x.asm (srcElems (x.parEnt 0x14) x.asm.pfmt) 0 (m.asmList (x.parEnt 0x16) x.asm.np) = none ∧
    (x.asm.reverse = false ∨ x.asm.gradMeas = true →
      firstBadMatrix x.asm (srcElems (x.parEnt 0x15) x.asm.mfmt) 0 (m.asmList (x.parEnt 0x17) x.asm.nm) = none)) ∧
  (x.ty = tySolve → solveFault gr x (m.facSet (x.parEnt 5)) = false) ∧
  (x.ty = tyIter → m.csrBad x x.iter = false ∧ x.iter.capOk = true) ∧
  (x.ty = tyUpdate →
    let m := if x.upd.embed then m.copyJournal x.upd (x.parEnt 0x15) else m
    let list := (List.range x.upd.ntouch).map (fun i => m.entCode (x.parEnt 0x1B) 32 i)
    m.updFault x x.upd = false ∧ (x.upd.embed = true → list.all (fun i => decide (i < x.upd.rows)) = true ∧
      (list.foldr insertNat []).length ≤ (uhead (m.entRead (x.parEnt 0x15) 0 64)).jmax))

/-- Engine nodes (R226, R237, R270, R299, R300, R301): a part that may run does its node's work, and is done whenever the node's own conditions
hold (`partNormal`); after the last part the task has succeeded; work that ends in a fault gives the task that status. A transient engine fault
of a part counts one, but the first covered fault of a part (R300) counts none; at the take limit it ends a split request with PARTIAL_FAULT and
any other with TAKE_LIMIT. An UPDATE that meets no fault of its own and whose roots are pending waits with nothing written. COPY moves its bytes,
after a journal left valid has been completed (R263); the shares of its parts follow one another and make its LENGTH. Every other engine writes
its own results alone: the bytes of module memory outside them are unchanged, however the part ends. Which die a part moves to, what counts as a
split request, and how the stacks of a SPREAD region divide a node's work, are the model's choice (log 21). -/
def Obligations.EnginePartsDoTheirWork : Prop :=
  ∀ (g n part : Nat) (s : State), ∀ row ∈ engineRows s.env g n part, ∀ (gr : Graph) (x : Node) (r : NRun),
    let ready := s.mod.partReady row.ty g n row.part = some (gr, x, r)
    let units := match r.parts[row.part]? with | some p => x.partUnits p | none => []
    let begun := s.mod.beginAll s.env g n (units.filter (fun k => decide (k < 12) || x.proxied))
    let sound := s.mod.lostRead (row.reads s.mod gr x) = none ∧ s.mod.poisonedRead (row.reads s.mod gr x) = none ∧
      (row.ty = tyUpdate → s.mod.updWaits x = false)
    (s.mod.partReady row.ty g n row.part = none → ∀ err, exec (row.command err) s = .next s) ∧
    (ready → sound → partNormal s.mod gr x → ∃ t, exec (row.command .none) s = .next t ∧ t.time = s.time ∧ t.tally = s.tally ∧
      t.mod.slots = s.mod.slots ∧ t.mod.pwr = s.mod.pwr ∧ (∀ k : Fin 12, (t.mod.dies[k.val]).tiles = (s.mod.dies[k.val]).tiles) ∧
      ∃ g' p, Tbl.find t.mod.graphs g = some g' ∧ (g'.runOf n).parts[row.part]? = some p ∧ p.done = true ∧
        (r.lastPart row.part = true → (g'.runOf n).outcome ≠ none) ∧ ∀ k : Nat, k ≠ n → g'.runOf k = gr.runOf k) ∧
    (ready → sound →
      (∀ m, row.work begun gr x = .done m →
        exec (row.command .none) s = .next { s with mod := (m.healAll x (row.outs m gr x)).updRun g n (fun y => y.partDone row.part) }) ∧
      (∀ st detail m, row.work begun gr x = .fail st detail m →
        exec (row.command .none) s = .next { s with mod := m.setOutcome g n st detail })) ∧
    (row.ty ≠ tyCopy → ready → ∀ m, (row.work begun gr x = .done m ∨ row.work begun gr x = .wait m ∨
      ∃ st detail, row.work begun gr x = .fail st detail m) → keepsOutside s.mod m x (row.writes s.mod gr x)) ∧
    (row.ty = tyUpdate → ready → r.lastPart row.part = true → s.mod.lostRead (row.reads s.mod gr x) = none →
      s.mod.poisonedRead (row.reads s.mod gr x) = none → x.upd.embed = false → s.mod.updFault x x.upd = false → s.mod.updWaits x = true →
      exec (row.command .none) s =
        .next { s with mod := (begun.keepState (x.parEnt 0x15)).updRun g n (fun y => { y with counts := [1] }) }) ∧
    (ready →
      exec (row.command .engine) s = .next { s with mod := begun.partsFault s.env g n [row.part] x r .engineFault [] } ∧
      (x.ty = tyCopy ∨ 1 < r.parts.length → r.divided x = true) ∧
      ∀ (st : Status) (p : Part) (next : Nat → Nat), r.parts[row.part]? = some p →
        let y := r.partsFault x [row.part] next st
        let count := if st.covered = true ∧ p.grace = false then p.counted else p.counted + 1
        y.outcome = (if x.limit ≤ count then some (if r.divided x then .partialFault else .takeLimit) else none) ∧
        y.parts = lmod r.parts row.part (fun _ => ⟨false, count, p.grace || st.covered, next p.unit⟩)) ∧
    (row.ty = tyCopy → ready → sound →
      let from_ := x.parEnt 0
      let to_ := x.parEnt 1
      let sh := copyShare x r.parts.length part
      let m1 := (s.mod.settleState x from_).settleState x to_
      ((∀ rg, s.mod.region from_.handle = some rg → rg.cls ≠ .slow) → (∀ rg, s.mod.region to_.handle = some rg → rg.cls ≠ .slow) →
        m1 = s.mod) ∧
      OnModule (row.command .none) s (fun m => m.dies = s.mod.dies ∧ m.slots = s.mod.slots ∧
        (∀ h : BitVec 32, h ≠ to_.handle → m.region h = m1.region h) ∧
        ∀ rg, m1.region to_.handle = some rg → Mem.wf rg.bytes = true → ∃ rg', m.region to_.handle = some rg' ∧ rg'.len = rg.len ∧
          (∀ i : Nat, sh.1 ≤ i → i < sh.2 → to_.off + i < rg.len → rg'.read (to_.off + i) = (m1.entRead from_ i 1).getD 0 0) ∧
          (∀ a : Nat, a < to_.off + sh.1 ∨ to_.off + sh.2 ≤ a ∨ rg.len ≤ a → rg'.read a = rg.read a))) ∧
    (∀ k : Nat, 0 < k → (copyShare x k 0).1 = 0 ∧ (copyShare x k (k - 1)).2 = x.par 8 8 ∧
      ∀ i : Nat, (copyShare x k i).2 = (copyShare x k (i + 1)).1)

/-- UPDATE of a wholly frozen tensor, and ROOT_COMPLETE (R269, R270, R275): a dense UPDATE whose every element is frozen, and whose freeze map
can be read, leaves the bytes of memory as they are, keeps the place of its state region (R263), and notes FROZEN_SKIPPED; the root unit finishes the oldest snapshot of
its die, which is the model's reading (log 25, DEDUCED: R270 gives no order between tensors), or does nothing when it has none; NaNs of the
roots reach the record of C0 or C5 (R257). -/
def Obligations.FrozenUpdatesAndRoots : Prop :=
  (∀ (g n part : Nat) (gr : Graph) (x : Node) (r : NRun) (s : State), s.mod.partReady tyUpdate g n part = some (gr, x, r) →
    s.mod.lostRead (jointReads n part updateReads s.mod gr x) = none → s.mod.poisonedRead (jointReads n part updateReads s.mod gr x) = none →
    r.lastPart part = true →
    x.upd.embed = false → ((s.mod.frozenMap x x.upd).filter id).length = x.upd.elems →
    OnModule (.update g n part .none) s (fun m =>
      (∀ (h : BitVec 32) (rg : Region), s.mod.region h = some rg → ∃ rg', m.region h = some rg' ∧ rg'.bytes = rg.bytes ∧ rg'.len = rg.len ∧
        rg'.undef = rg.undef ∧ rg'.pages = rg.pages ∧ rg'.poison = rg.poison ∧ ∀ o ∈ rg.states, o ∈ rg'.states) ∧
      m.mem.reels = s.mod.mem.reels ∧ m.dies = s.mod.dies ∧ m.udies = s.mod.udies ∧ ∃ g', Tbl.find m.graphs g = some g' ∧
        (g'.runOf n).outcome = some .ok ∧ (g'.runOf n).committed = r.committed ∧
        (0 < x.upd.elems → ∃ k ∈ (g'.runOf n).notes, k.code = .frozenSkipped))) ∧
  (∀ (u : Fin 2) (s : State),
    (s.mod.unitRuns (12 + u.val) = false ∨ (∀ j ∈ (s.mod.udies[u.val]).jobs, j.roots.isSome = true) →
      exec (.rootComplete u) s = .next s) ∧
    (∀ j : RootJob, s.mod.unitRuns (12 + u.val) = true → (s.mod.udies[u.val]).jobs.find? (fun y => y.roots.isNone) = some j →
      s.mod.rootWaiters u = [] → OnModule (.rootComplete u) s (fun m =>
        (m.udies[u.val]).jobs = (s.mod.udies[u.val]).jobs.map (fun y => if y = j then j.compute else y) ∧ j.compute.roots.isSome = true ∧
        (∀ h : BitVec 32, h ≠ j.handle → m.region h = s.mod.region h) ∧ m.graphs = s.mod.graphs ∧
        (∀ k : Fin 12, (m.dies[k.val]).tiles = (s.mod.dies[k.val]).tiles ∧
          (k.val ≠ (if u = 0 then 0 else 5) → m.dies[k.val] = s.mod.dies[k.val])))))

/-- Collectives (R366, R368, R372, R373, R376, R377): a bucket that is ready and whose inputs can be read is issued once; a completed one is remembered
and writes the result region alone; an ALL_REDUCE of one bucket writes the reduction over all ranks; COLLECTIVE issues and completes the one
bucket of a node, one that is ready with OK; an expired wait, in both scopes, a mismatch and an abandoned key end the node with its key, be it
running, released or still held; so does a key that the other end on the same module has abandoned. That the record of a MODULE node names
rank 0 is the model's choice (log 12). That entry r of
`others` is rank r's contribution is the model's choice (log 32). -/
def Obligations.CollectivesIssueAndReduce : Prop :=
  (∀ (g n b : Nat) (gr : Graph) (s : State), Tbl.find s.mod.graphs g = some gr → (gr.node n).ty = tyCollective →
    (gr.runOf n).phase = .running → (gr.runOf n).outcome = none →
    let x := gr.node n
    let c := x.coll
    let r := gr.runOf n
    let src := s.mod.bucketSrc x c b
    let own := src.flatMap (fun k => s.mod.entRead (x.parEnt 0x18) k.1 k.2)
    let readable := s.mod.lostRead (s.mod.bucketReads x c b) = none ∧ s.mod.poisonedRead (s.mod.bucketReads x c b) = none
    let run : Mod → (NRun → Prop) → Prop := fun m P => ∃ g', Tbl.find m.graphs g = some g' ∧ P (g'.runOf n)
    let ended : Status → List Byte → State := fun st extra => { s with mod := s.mod.updRun g n (fun y =>
      { y with outcome := some st, detail := natLe 1 c.group ++ natLe 2 c.cid ++ natLe 4 b ++ extra }) }
    (b ∈ r.issued ∨ s.mod.bucketReady gr n x c b = false → exec (.bucketIssue g n b .none) s = .next s) ∧
    (b ∉ r.issued → s.mod.bucketReady gr n x c b = true → (∀ d ∈ x.dies, d ∈ r.on) → c.thin = false → c.op ≠ 6 →
      readable → OnModule (.bucketIssue g n b .none) s (fun m =>
        run m (fun y => y.issued = r.issued ++ [b] ∧ y.contrib = Tbl.put r.contrib b own ∧ y.completed = r.completed ∧ y.parts = r.parts ∧
          y.outcome = none ∧ y.phase = .running ∧
          (r.begun = [] → x.proxied = true → y.start = s.env.dieNow (x.cueDies.headD 0))) ∧ m.mem = s.mod.mem ∧ m.dies = s.mod.dies ∧ (c.fabric = false → m.fab = s.mod.fab) ∧ (c.fabric = true → m.fab.sent.length = s.mod.fab.sent.length + 1))) ∧
    (∀ others : List (List Byte), b ∉ r.issued ∨ b ∈ r.completed → exec (.bucketComplete g n b others .none) s = .next s) ∧
    (∀ others : List (List Byte), b ∈ r.issued → b ∉ r.completed → OnModule (.bucketComplete g n b others .none) s (fun m =>
      run m (fun y => y.completed = r.completed ++ [b] ∧ y.issued = r.issued ∧
        y.parts = lmod r.parts b (fun p => { p with done := true }) ∧ ((∀ p ∈ y.parts, p.done = true) → y.outcome = some .ok)) ∧
      (∀ h : BitVec 32, h ≠ (x.parEnt 0x19).handle → m.region h = s.mod.region h) ∧
      m.dies = s.mod.dies ∧ m.fab = s.mod.fab)) ∧
    (∀ others : List (List Byte), b = 0 → 0 ∈ r.issued → 0 ∉ r.completed → c.op = 0 → c.fabric = true → c.thin = false → c.bucket = 0 →
      8 ≤ fmtBits c.rfmt →
      let count := s.mod.partLen x c c.rank / (fmtBits c.sfmt / 8)
      let part : Nat → List Byte := fun k => if k = c.rank then (Tbl.find r.contrib 0).getD [] else others.getD k []
      0 < count → OnModule (.bucketComplete g n 0 others .none) s (fun m => m.mem = (s.mod.entWrite (x.parEnt 0x19) 0
        ((List.range count).flatMap (fun i => natLe (fmtBits c.rfmt / 8)
          (reduceElem c.sfmt c.rfmt (c.red == 1) ((List.range c.n).map (fun k => elemAt (part k) (fmtBits c.sfmt) i))).code))).mem)) ∧
    (∀ others : List (List Byte), s.mod.buckets x c = 1 →
      (c.reduces = false ∨ c.fabric = false ∨
        ∀ k : Nat, slice (others.getD k []) (c.sent (s.mod.bucketRange x c 0 c.rank).1) (c.sent (s.mod.bucketRange x c 0 c.rank).2) =
          others.getD k []) →
      exec (.collective g n others) s =
        match exec (.bucketIssue g n 0 .none) s with | .next t => exec (.bucketComplete g n 0 others .none) t | y => y) ∧
    (∀ others : List (List Byte), s.mod.buckets x c = 1 → b = 0 → 0 ∉ r.issued → 0 ∉ r.completed → s.mod.bucketReady gr n x c 0 = true →
      (∀ d ∈ x.dies, d ∈ r.on) → c.thin = false → c.op ≠ 6 → readable → OnModule (.collective g n others) s (fun m =>
        run m (fun y => y.issued = r.issued ++ [0] ∧ y.completed = r.completed ++ [0] ∧
          y.parts = lmod r.parts 0 (fun p => { p with done := true }) ∧ ((∀ p ∈ y.parts, p.done = true) → y.outcome = some .ok)) ∧
        (∀ h : BitVec 32, h ≠ (x.parEnt 0x19).handle → m.region h = s.mod.region h) ∧ m.dies = s.mod.dies)) ∧
    (b < s.mod.buckets x c → b ∉ r.completed →
      (b ∈ r.issued → c.waitMs ≠ 0 → s.mod.perturbed = false → exec (.collectiveWaitExpired g n b) s =
        .next (ended .collectiveAbandoned (natLe 2 (if c.fabric = true then c.rank else 0)))) ∧
      (c.fabric = true → ∀ cause : Fin 6, cause ≠ 0 → exec (.collectiveMismatch g n b cause) s =
        .next (ended .collectiveMismatch (natLe 1 cause.val))) ∧
      (c.fabric = true → ∀ rank : Nat, rank ≠ c.rank ∨ ((c.op = 5 ∨ c.op = 6) ∧ c.peer = c.rank) →
        exec (.collectiveAbandoned g n b rank) s = .next (ended .collectiveAbandoned (natLe 2 rank))))) ∧
  (∀ (g n b : Nat) (gr : Graph) (s : State), Tbl.find s.mod.graphs g = some gr → (gr.node n).ty = tyCollective → n < gr.run.length →
    (gr.runOf n).phase = .held ∨ (gr.runOf n).phase = .released → (gr.runOf n).outcome = none →
    let c := (gr.node n).coll
    let ends : Instr → Status → List Byte → Prop := fun k st extra => OnModule k s (fun m => ∃ g', Tbl.find m.graphs g = some g' ∧
      g'.nodes = gr.nodes ∧ (g'.runOf n).phase = .running ∧ (g'.runOf n).outcome = some st ∧
      (g'.runOf n).detail = natLe 1 c.group ++ natLe 2 c.cid ++ natLe 4 b ++ extra ∧ ∀ k : Nat, k ≠ n → g'.runOf k = gr.runOf k)
    c.fabric = true → b < s.mod.buckets (gr.node n) c → b ∉ (gr.runOf n).completed →
      (∀ cause : Fin 6, cause ≠ 0 → ends (.collectiveMismatch g n b cause) .collectiveMismatch (natLe 1 cause.val)) ∧
      (∀ rank : Nat, rank ≠ c.rank → ends (.collectiveAbandoned g n b rank) .collectiveAbandoned (natLe 2 rank)))

/-- STASH_RESERVATION and REPLAY (R200, R211 to R214, R216, R217, R220, R260, R336, R412): a block that fits is reserved, one that keeps nothing on
the module goes to the offload area; one that does not fit demotes, and the first time in a training step raises STASH_PRESSURE; then it is
reserved or waits. A replay that a backward task wants or a suspended gather waits for runs once its units run, its stump can be fetched and
the area has room: there it writes the block's stump and the outputs of its completed forward nodes, for a gather of a forward node those up
to the producer, and nothing in any other region; those outputs in ACT regions, and the lines that the gathers wait for, read without error
from then on, and so does a line that a gather outside every stage waits for and that no block wrote (DESIGN CHOICE, log 18). A stump that cannot be read ends the tasks that need the replay: SLOW_UNCORRECTABLE where it is offloaded, HBM_UNCORRECTABLE
where it is not. The places in the two areas, their order and what a stump holds are the model's
choice (log 18); that STASH_PRESSURE is raised once for each owner's stage number and training step is its reading (log 39, DEDUCED). -/
def Obligations.StashReservesAndReplays : Prop :=
  ∀ (g : Nat) (j : Fin 8) (gr : Graph) (s : State), Tbl.find s.mod.graphs g = some gr → j.val < gr.stash.length →
    let st := gr.stashOf j.val
    let x := gr.stage j.val
    let stash : Mod → (StashSt → Prop) → Prop := fun m P => ∃ g', Tbl.find m.graphs g = some g' ∧ P (g'.stashOf j.val) ∧
      g'.run = gr.run ∧ g'.nodes = gr.nodes ∧ ∀ k : Nat, k ≠ j.val → g'.stashOf k = gr.stashOf k
    (s.mod.nextResv gr j.val = none → exec (.stashReservation g j) s = .next s) ∧
    (∀ mb b, s.mod.nextResv gr j.val = some (mb, b) →
      let p := gr.policyOf j.val mb b
      let e := x.block b
      let internal := if p = 0 then e.internal else 0
      let resv : Nat → Option Nat → StashSt := fun k off => { st with resv := st.resv ++ [⟨mb, b, e.stump, k, off, [], [], []⟩] }
      (p ≠ 2 → x.fits st (e.stump + internal) = true → OnModule (.stashReservation g j) s (fun m =>
        stash m (fun y => y = resv internal none) ∧ m.recs = s.mod.recs ∧ m.mem = s.mod.mem ∧ m.dies = s.mod.dies)) ∧
      (∀ a, p = 2 → x.offPlace st e.stump = some a → OnModule (.stashReservation g j) s (fun m =>
        stash m (fun y => y = resv 0 (some a)) ∧ m.recs = s.mod.recs ∧ m.mem = s.mod.mem ∧ m.dies = s.mod.dies)) ∧
      (p ≠ 2 → x.fits st (e.stump + internal) = false → OnModule (.stashReservation g j) s (fun m =>
        stash m (fun y => (∀ k ∈ gr.demotable j.val mb b, k ∈ y.demoted) ∧ (y.has mb b = true ∨ (mb, b) ∈ y.waiting)) ∧ m.dies = s.mod.dies ∧
        m.recs.write = s.mod.recs.write + (if ((gr.ctx, j.val), gr.hdr.step) ∈ s.mod.pressed then 0 else 1)))) ∧
    (∀ b mb : Nat,
      let key := (j.val, b, mb)
      let next := gr.nextReplay j.val = some (b, mb)
      let waits := (s.mod.gatherWaits g gr).filter (fun w => decide (gr.poisonKey w.1 w.2 = key))
      let none_ := (s.mod.gatherWaits g gr).filter (fun w => decide (gr.stages.length ≤ (gr.poisonKey w.1 w.2).1))
      let m0 := s.mod.madeGood (none_.map (fun w => w.2))
      let upto := if gr.nextReplay j.val = some (b, mb) then gr.nodes.length else waits.foldl (fun u w => max u (gr.upto w.1 [w.2] key)) 0
      let may := (next ∨ waits ≠ []) ∧ m0.mayReplay gr key upto = true
      let len := (x.block b).stump + (x.block b).internal
      let ran := gr.replayNodes j.val b mb upto
      let full := (gr.blockNodes phFwd j.val b mb).all (fun i => (gr.node i).bare || ran.contains i)
      (none_ = [] → m0 = s.mod) ∧
      (∀ w ∈ none_, m0.entPoisoned ⟨BitVec.ofNat 32 w.2.1, 0#8, w.2.2 * 64, 64⟩ 0 64 = false) ∧
      (∀ err, ¬may → exec (.replay g j b mb err) s = .next { s with mod := m0 }) ∧
      (may → m0.fetchStump gr j.val b mb = none → waits = [] → m0.stumpFault s.env gr key .none = none →
        exec (.replay g j b mb .none) s = .next { s with mod := m0 }) ∧
      (∀ kept p bs v, may → m0.stumpFault s.env gr key .none = none → gr.replayPlace j.val b mb = some (kept, p) →
        m0.fetchStump gr j.val b mb = some (bs, v) →
        let outs := ran.foldl (fun acc i => acc ++ m0.replayOuts gr v acc i) []
        OnModule (.replay g j b mb .none) s (fun m =>
          stash m (fun y => y.replayed = kept ++ [⟨b, mb, p, len, full⟩] ∧ y.resv = st.resv ∧ y.demoted = st.demoted) ∧ m.dies = s.mod.dies ∧
          m.slots = s.mod.slots ∧
          (∀ (h : BitVec 32) (rg : Region), h ≠ x.replay → s.mod.region h = some rg → ∃ rg', m.region h = some rg' ∧ rg'.bytes = rg.bytes ∧
            rg'.undef = rg.undef ∧ rg'.len = rg.len ∧ rg'.poison = rg.poison ∧
            (rg.cls = .act → (∀ o ∈ outs, ((gr.node o.1).reg o.2.1).handle = h →
              m.entPoisoned ((gr.node o.1).reg o.2.1) 0 ((gr.node o.1).reg o.2.1).len = false) ∧
              ∀ w ∈ waits, BitVec.ofNat 32 w.2.1 = h → m.entPoisoned ⟨h, 0#8, w.2.2 * 64, 64⟩ 0 64 = false)) ∧
          (∀ rg, s.mod.region x.replay = some rg → Mem.wf rg.bytes = true → p + len ≤ rg.len → ∃ rg', m.region x.replay = some rg' ∧
            let all := bs ++ outs.flatMap (fun o => o.2.2)
            ∀ k : Nat, k < len → k < all.length → rg'.read (p + k) = all.getD k 0))) ∧
      (∀ (err : EngErr) (f : Status × List Byte), may → (m0.meetError s.env err).stumpFault s.env gr key err = some f →
        (st.offOf mb b = none → f.1 = .hbmUncorrectable) ∧
        (∀ n, next → waits = [] → gr.replayFor j.val b mb = some n → (gr.runOf n).isRunning = true → exec (.replay g j b mb err) s =
          .next { s with mod := (m0.meetError s.env err).setOutcome g n f.1 f.2 }) ∧
        (¬next → OnModule (.replay g j b mb err) s (fun m => ∃ g', Tbl.find m.graphs g = some g' ∧
          ∀ w ∈ waits, (gr.runOf w.1).outcome = none → w.1 < gr.run.length → (g'.runOf w.1).outcome = some f.1))) ∧
      (∀ (u : Fin 2) (row a n : Nat), may → next → waits = [] → st.offOf mb b = some a → gr.replayFor j.val b mb = some n →
        (gr.runOf n).isRunning = true → exec (.replay g j b mb (.slow u row false)) s =
          .next { s with mod := (m0.meetError s.env (.slow u row false)).setOutcome g n .slowUncorrectable [] }))

/-! Memory errors, tests, interrupts, cold values. -/

/-- Errors of module memory and targeted tests (R260, R335, R336, R339 to R342, R426 to R428): scrubs and reports schedule the row's test, and
the scrub of the stacks in service poisons an ACT line in error and restores a PERSIST line of up to 32 wrong bytes or one half, and a reel with
a line that it cannot restore is lost; a failed channel marks its pair, and
a pair with no page is mapped out; migration without a free page stops; a self-test that passes counts a transient error, one of a scratchpad row that fails takes a spare row. -/
def Obligations.MemoryErrorsLeadToTests : Prop :=
  ∀ s : State,
    let kept : Mod → Prop := fun m => m.dies = s.mod.dies ∧ m.graphs = s.mod.graphs ∧ m.pwr = s.mod.pwr
    (∀ reports, s.mod.unitUp 0 = true → OnModule (.hbmEccPoll reports) s (fun m => kept m ∧ m.mem = s.mod.mem ∧ m.flash = s.mod.flash ∧
      ∀ y ∈ reports, 16 ≤ y.count → .hbmRow y.pageAddr ∈ m.flt.pendingTests)) ∧
    (∀ (u : Fin 2) rows, s.mod.unitUp (12 + u.val) = true → OnModule (.slowTierScrub u rows) s (fun m => kept m ∧ m.mem = s.mod.mem ∧
      m.flash = s.mod.flash ∧ ∀ y ∈ rows, .lpRow u y ∈ m.flt.pendingTests)) ∧
    (∀ errs, OnModule (.hbmScrub errs) s (fun m => kept m ∧ ∀ (h : BitVec 32) (rg : Region), s.mod.region h = some rg →
      ∃ rg', m.region h = some rg' ∧ rg'.bytes = rg.bytes ∧ rg'.len = rg.len ∧ rg'.pages = rg.pages)) ∧
    (∀ (a : BitVec 32) (line : Fin 64) (what : LineErr),
      ((s.mod.stacksIn s.fuses.grade).contains (addrStack a) = false → exec (.hbmScrub [(a, line, what)]) s = .next s) ∧
      ((s.mod.stacksIn s.fuses.grade).contains (addrStack a) = true →
        (∀ (h : BitVec 32) (i : Nat) (rg : Region) (b : BitVec 32) (p : PageLoc), s.mod.pageAt a = some (h.toNat, i) →
          s.mod.region h = some rg → (i * 64 + line.val) * 64 < rg.len → rg.pages[i]? = some p →
          rg.lineAddr (i * 64 + line.val) = some b → rg.cls ≠ .slow →
          OnModule (.hbmScrub [(a, line, what)]) s (fun m => .hbmRow b ∈ m.flt.pendingTests ∧ m.mem.reels = s.mod.mem.reels ∧
            ∃ rg', m.region h = some rg' ∧ rg'.bytes = rg.bytes ∧
              (∀ k : Nat, k ∈ rg'.poison ↔
                k ∈ rg.poison ∨ (k = i * 64 + line.val ∧ (rg.cls = .act ∨ decodes s.mod.mem.failedCh p what = false))))) ∧
        (s.mod.pageAt a = none → OnModule (.hbmScrub [(a, line, what)]) s (fun m => .hbmRow a ∈ m.flt.pendingTests ∧
          m.mem.regions = s.mod.mem.regions ∧ ∀ (k : Nat) (y : Reel), Tbl.find s.mod.mem.reels k = some y →
            ∃ z, Tbl.find m.mem.reels k = some z ∧ z.image = y.image ∧ (z.lost = true ↔ y.lost = true ∨
              ∃ p ∈ y.pages, p.stack = addrStack a ∧ p.page = addrPage a ∧ p.pair = addrChannel a / 2 ∧
                decodes s.mod.mem.failedCh p what = false))))) ∧
    (∀ (failed : List (Nat × Nat)) (p : PageLoc), (p.stack, 2 * p.pair) ∉ failed → (p.stack, 2 * p.pair + 1) ∉ failed →
      (∀ k : Nat, decodes failed p (.bytes k) = decide (k ≤ 32)) ∧ (∀ check, decodes failed p (.half check) = true) ∧
      decodes failed p .both = false) ∧
    (∀ st ch : Fin 32, st.val < s.fuses.grade.hbmStacks → s.mod.hbmAlive = true → (st.val, ch.val) ∉ s.mod.mem.failedCh →
      (st.val, ch.val / 2) ∉ s.mod.flash.mappedOut →
      ((s.mod.findPage (ofPair st.val (ch.val / 2))).isSome = true → OnModule (.channelFailed st ch) s (fun m => kept m ∧
        (st.val, ch.val) ∈ m.mem.failedCh ∧ (st.val, ch.val / 2) ∈ m.mem.marked ∧ m.mem.regions = s.mod.mem.regions ∧
        m.flash = s.mod.flash)) ∧
      (s.mod.findPage (ofPair st.val (ch.val / 2)) = none → s.mod.mem.pendingRetire = [] → OnModule (.channelFailed st ch) s (fun m => kept m ∧
        (st.val, ch.val / 2) ∈ m.flash.mappedOut ∧ m.recs.write = s.mod.recs.write + 1 ∧ m.mem.regions = s.mod.mem.regions))) ∧
    (∀ (st : Fin 32) (pair : Fin 16), st.val < s.fuses.grade.hbmStacks →
      let sel := ofPair st.val pair.val
      (s.mod.isMarked st.val pair.val = false ∨ (st.val, pair.val) ∈ s.mod.mem.stalled → exec (.migrationPage st pair) s = .next s) ∧
      (s.mod.isMarked st.val pair.val = true → (st.val, pair.val) ∉ s.mod.mem.stalled → (st.val, pair.val) ∉ s.mod.flash.mappedOut →
        s.mod.unitUp (hostDie st.val) = true →
        (s.mod.findPage sel = none → s.mod.mem.pendingRetire = [] → OnModule (.migrationPage st pair) s (fun m =>
          (st.val, pair.val) ∈ m.flash.mappedOut ∧ (st.val, pair.val) ∉ m.mem.marked ∧ m.recs.write = s.mod.recs.write + 1 ∧
          m.mem.regions = s.mod.mem.regions ∧ m.dies = s.mod.dies)) ∧
        (∀ p, s.mod.findPage sel = some p →
          (s.mod.moveOne s.fuses.grade p false = none → OnModule (.migrationPage st pair) s (fun m =>
            (st.val, pair.val) ∈ m.mem.stalled ∧ m.mem.regions = s.mod.mem.regions ∧ m.flash = s.mod.flash ∧
            m.recs.write = s.mod.recs.write + 1)) ∧
          (∀ m, s.mod.moveOne s.fuses.grade p false = some m → (m.findPage sel).isSome = true →
            exec (.migrationPage st pair) s = .next { s with mod := m })))) ∧
    (∀ t : TestRun, s.fuses.grade.hasRes t.res = true → s.mod.testable t.res = true → t.res ∈ s.mod.flt.pendingTests →
      (t.passed = true → s.mod.recentErrors s.env t.res < 8 → testClass t.res ≠ 2 → OnModule (.selfTest t) s (fun m =>
        m.flash = s.mod.flash ∧ t.res ∉ m.flt.pendingTests ∧ m.recs.write = s.mod.recs.write + 1 ∧ m.dies = s.mod.dies ∧ m.mem = s.mod.mem ∧
        m.flt.transient = vmodN s.mod.flt.transient (testClass t.res) (fun k => min (k + 1) (2 ^ 32 - 1)) ∧ m.flt.lasting = s.mod.flt.lasting)) ∧
      (∀ (d : Fin 12) (site : Fin 66) (bank : Fin 16) (row : Nat), t.res = .padRow d site bank row → t.passed = false →
        (s.mod.flash.padRows.filter (fun y => y.d == d.val && y.site == site.val && y.bank == bank.val)).length < 8 →
        OnModule (.selfTest t) s (fun m => m.flash = { s.mod.flash with padRows := s.mod.flash.padRows ++ [⟨d.val, site.val, bank.val, row⟩] } ∧
          t.res ∉ m.flt.pendingTests ∧ m.recs.write = s.mod.recs.write + 1 ∧ m.dies = s.mod.dies)))

/-- MSIX_MERGE_INTERVAL_END (R325): a vector raised again within its interval goes out as one message, unless it is masked, and opens the next
interval; one that was not leaves its interval closed. That a masked vector sets its pending bit is taken from PCIe (log 7, PRESUMED). -/
def Obligations.MergedInterruptsGoOutOnce : Prop :=
  ∀ (v : Fin 128) (s : State),
    let x := s.mod.msix
    (x.merged.getLsbD v.val = false → OnModule (.msixMergeIntervalEnd v) s (fun m => m.host = s.mod.host ∧
      m.msix.isOpen.getLsbD v.val = false ∧ m.msix.pba = x.pba ∧ ∀ k : Fin 128, k ≠ v → m.msix.isOpen.getLsbD k.val = x.isOpen.getLsbD k.val)) ∧
    (x.merged.getLsbD v.val = true → OnModule (.msixMergeIntervalEnd v) s (fun m =>
      m.host.msgs = (if x.masked v.val then s.mod.host.msgs else s.mod.host.msgs ++ [v.val]) ∧
      m.msix.pba = (if x.masked v.val then x.pba ||| (1#128 <<< v.val) else x.pba) ∧ m.msix.isOpen = x.isOpen ||| (1#128 <<< v.val) ∧
      m.msix.merged.getLsbD v.val = false ∧ ∀ k : Fin 128, k ≠ v → m.msix.merged.getLsbD k.val = x.merged.getLsbD k.val))

/-- Cold values of the registers, as the spec's tables give them (R64, R306, R401, R424); each NaN record is armed with a count of zero
(R197), and no command waits. -/
def Obligations.RegistersHaveTheirColdValues : Prop :=
  (∀ p ∈ ([(0x0000, 1#64), (0x0100, 0#64), (0x0108, 0#64), (0x0110, 0#64), (0x0200, 0#64), (0x0208, 0#64), (0x0300, 0#64), (0x0308, 0#64),
      (0x100000, 0#64), (0x100008, 0#64), (0x100010, 0#64), (0x100018, 0#64), (0x100020, 0#64), (0x100028, 0#64), (0x200000, 0#64),
      (0x200008, 0#64), (0x200010, 0#64), (0x200018, 0#64), (0x200020, 0xFFFFFFFF#64), (0x300008, 0x1DB01DB0#64),
      (0x300010, 0x000003F000140FA0#64)] : List (Nat × Word)), State.reset.readReg p.1 = p.2) ∧
  (State.reset.readReg 0x300000).extractLsb' 0 16 = 0x0800#16 ∧
  (∀ k : Fin 14, (State.reset.readReg (0x300100 + 8 * k.val)).extractLsb' 0 18 = 0x05B6D#18) ∧
  (∀ d : Fin 12, (State.reset.mod.dies[d.val]).nan.armed = true ∧ (State.reset.mod.dies[d.val]).nan.count = 0) ∧
  State.reset.pending = []

/-- The memories and tables of a state are in canonical form: keys rising, no zero byte listed, each node of a graph with its run state. -/
def canonical (s : State) : Prop :=
  Tbl.wf s.mod.graphs = true ∧ Tbl.wf s.mod.mem.regions = true ∧ Tbl.wf s.mod.mem.reels = true ∧ Mem.wf s.mod.host.mem = true ∧
    (∀ (g : Nat) (gr : Graph), Tbl.find s.mod.graphs g = some gr → gr.run.length = gr.nodes.length) ∧
    ∀ (h : BitVec 32) (r : Region), s.mod.region h = some r → Mem.wf r.bytes = true

/-- Every step keeps module memory, host memory and the graph table in canonical form, so that equal memories are equal data. -/
def Obligations.StepsKeepTablesCanonical : Prop :=
  ∀ s t : State, canonical s → step s = .next t → canonical t

/-- At reset every tally channel is sound and every memory and table is in canonical form. -/
def Obligations.ResetIsSoundAndCanonical : Prop := State.reset.tallySound ∧ canonical State.reset
end

