-- ==== Sys2Proof/Laws/Mem.lean ====
section
/-! SUPPORT. Laws of the tables and byte memories: a read after a write, and the canonical form that every memory operation
keeps. -/

namespace Sys2Proof.Machine

variable {α : Type}

/-! Reads after writes. -/

theorem find_put_same (t : Tbl α) (k : Nat) (v : α) : Tbl.find (Tbl.put t k v) k = some v := by
  induction t with
  | nil => simp [Tbl.put, Tbl.find]
  | cons x r ih =>
    obtain ⟨a, b⟩ := x
    simp only [Tbl.put]
    split
    · simp [Tbl.find]
    · split
      · simp [Tbl.find]
      · rename_i h1 h2
        simp [Tbl.find, h2, ih]

theorem find_put_other (t : Tbl α) (k j : Nat) (v : α) (h : j ≠ k) : Tbl.find (Tbl.put t k v) j = Tbl.find t j := by
  induction t with
  | nil => simp [Tbl.put, Tbl.find, h]
  | cons x r ih =>
    obtain ⟨a, b⟩ := x
    simp only [Tbl.put]
    split
    · simp [Tbl.find, h]
    · split
      · rename_i h1 h2
        subst h2
        simp [Tbl.find, h]
      · simp only [Tbl.find, ih]

/-- Every key of a table is above a bound. -/
def aboveAll (t : Tbl α) (k : Nat) : Prop := ∀ x ∈ t, k < x.1

theorem wf_cons (k : Nat) (v : α) (r : Tbl α) : Tbl.wf ((k, v) :: r) = true ↔ aboveAll r k ∧ Tbl.wf r = true := by
  induction r generalizing k v with
  | nil => simp [Tbl.wf, aboveAll]
  | cons x r ih =>
    obtain ⟨a, b⟩ := x
    constructor
    · intro h
      simp only [Tbl.wf, Bool.and_eq_true, decide_eq_true_eq] at h
      have h2 : Tbl.wf ((a, b) :: r) = true := by simp only [Tbl.wf, Bool.and_eq_true]; exact h.2
      have h3 := (ih a b).1 h2
      refine ⟨?_, h2⟩
      intro y hy
      rcases List.mem_cons.1 hy with rfl | hy
      · exact h.1
      · exact Nat.lt_trans h.1 (h3.1 y hy)
    · intro h
      have h1 : k < a := h.1 (a, b) (by simp)
      have h2 := h.2
      simp only [Tbl.wf, Bool.and_eq_true] at h2
      simp only [Tbl.wf, Bool.and_eq_true, decide_eq_true_eq]
      exact ⟨h1, h2⟩

theorem find_above (t : Tbl α) (k : Nat) (h : aboveAll t k) : Tbl.find t k = none := by
  induction t with
  | nil => rfl
  | cons x r ih =>
    obtain ⟨a, b⟩ := x
    have h1 : k < a := h (a, b) (by simp)
    simp only [Tbl.find]
    rw [if_neg (by omega)]
    exact ih (fun y hy => h y (by simp [hy]))

theorem find_del_same (t : Tbl α) (k : Nat) (h : Tbl.wf t = true) : Tbl.find (Tbl.del t k) k = none := by
  induction t with
  | nil => rfl
  | cons x r ih =>
    obtain ⟨a, b⟩ := x
    rw [wf_cons] at h
    simp only [Tbl.del]
    split
    · rename_i h1
      subst h1
      exact find_above r k h.1
    · rename_i h1
      simp [Tbl.find, h1, ih h.2]

theorem find_del_other (t : Tbl α) (k j : Nat) (h : j ≠ k) : Tbl.find (Tbl.del t k) j = Tbl.find t j := by
  induction t with
  | nil => rfl
  | cons x r ih =>
    obtain ⟨a, b⟩ := x
    simp only [Tbl.del]
    split
    · rename_i h1
      subst h1
      simp [Tbl.find, h]
    · simp [Tbl.find, ih]

/-! The canonical form of a table. -/

theorem mem_put (t : Tbl α) (k : Nat) (v : α) (x : Nat × α) (h : x ∈ Tbl.put t k v) : x = (k, v) ∨ x ∈ t := by
  induction t with
  | nil => simp [Tbl.put] at h; exact Or.inl h
  | cons y r ih =>
    obtain ⟨a, b⟩ := y
    simp only [Tbl.put] at h
    split at h
    · rcases List.mem_cons.1 h with h | h
      · exact Or.inl h
      · exact Or.inr h
    · split at h
      · rcases List.mem_cons.1 h with h | h
        · exact Or.inl h
        · exact Or.inr (by simp [h])
      · rcases List.mem_cons.1 h with h | h
        · exact Or.inr (by simp [h])
        · rcases ih h with h | h
          · exact Or.inl h
          · exact Or.inr (by simp [h])

theorem mem_del (t : Tbl α) (k : Nat) (x : Nat × α) (h : x ∈ Tbl.del t k) : x ∈ t := by
  induction t with
  | nil => simp [Tbl.del] at h
  | cons y r ih =>
    obtain ⟨a, b⟩ := y
    simp only [Tbl.del] at h
    split at h
    · simp [h]
    · rcases List.mem_cons.1 h with h | h
      · simp [h]
      · simp [ih h]

theorem put_wf (t : Tbl α) (k : Nat) (v : α) (h : Tbl.wf t = true) : Tbl.wf (Tbl.put t k v) = true := by
  induction t with
  | nil => simp [Tbl.put, Tbl.wf]
  | cons x r ih =>
    obtain ⟨a, b⟩ := x
    have h' := (wf_cons a b r).1 h
    simp only [Tbl.put]
    split
    · rename_i h1
      rw [wf_cons]
      refine ⟨?_, h⟩
      intro y hy
      rcases List.mem_cons.1 hy with rfl | hy
      · exact h1
      · exact Nat.lt_trans h1 (h'.1 y hy)
    · split
      · rename_i h1 h2
        subst h2
        rw [wf_cons]
        exact h'
      · rename_i h1 h2
        rw [wf_cons]
        refine ⟨?_, ih h'.2⟩
        intro y hy
        rcases mem_put r k v y hy with rfl | hy
        · show a < k
          omega
        · exact h'.1 y hy

theorem del_wf (t : Tbl α) (k : Nat) (h : Tbl.wf t = true) : Tbl.wf (Tbl.del t k) = true := by
  induction t with
  | nil => rfl
  | cons x r ih =>
    obtain ⟨a, b⟩ := x
    have h' := (wf_cons a b r).1 h
    simp only [Tbl.del]
    split
    · exact h'.2
    · rw [wf_cons]
      exact ⟨fun y hy => h'.1 y (mem_del r k y hy), ih h'.2⟩

theorem upd_wf (t : Tbl α) (k : Nat) (f : α → α) (h : Tbl.wf t = true) : Tbl.wf (Tbl.upd t k f) = true := by
  unfold Tbl.upd
  split
  · exact h
  · exact put_wf _ _ _ h

theorem find_upd_same (t : Tbl α) (k : Nat) (f : α → α) : Tbl.find (Tbl.upd t k f) k = (Tbl.find t k).map f := by
  unfold Tbl.upd
  split
  · rename_i h; simp [h]
  · rename_i v h; simp [h, find_put_same]

theorem find_upd_other (t : Tbl α) (k j : Nat) (f : α → α) (h : j ≠ k) : Tbl.find (Tbl.upd t k f) j = Tbl.find t j := by
  unfold Tbl.upd
  split
  · rfl
  · exact find_put_other _ _ _ _ h

/-! Byte memory. -/

theorem read_write_same (m : Mem) (a : Nat) (b : Byte) (h : Tbl.wf m = true) : Mem.read (Mem.write m a b) a = b := by
  unfold Mem.read Mem.write
  split
  · rename_i hb; rw [find_del_same m a h, hb]; rfl
  · rw [find_put_same]; rfl

theorem read_write_other (m : Mem) (a x : Nat) (b : Byte) (h : x ≠ a) : Mem.read (Mem.write m a b) x = Mem.read m x := by
  unfold Mem.read Mem.write
  split
  · rw [find_del_other m a x h]
  · rw [find_put_other m a x b h]

/-- A write keeps the canonical form. -/
theorem write_wf (m : Mem) (a : Nat) (b : Byte) (h : Mem.wf m = true) : Mem.wf (Mem.write m a b) = true := by
  simp only [Mem.wf, Bool.and_eq_true, List.all_eq_true, decide_eq_true_eq] at h ⊢
  unfold Mem.write
  split
  · exact ⟨del_wf m a h.1, fun x hx => h.2 x (mem_del m a x hx)⟩
  · rename_i hb
    refine ⟨put_wf m a b h.1, fun x hx => ?_⟩
    rcases mem_put m a b x hx with rfl | hx
    · exact hb
    · exact h.2 x hx

/-- So does a write of many bytes. -/
theorem writeN_wf (m : Mem) (a : Nat) (bs : List Byte) (h : Mem.wf m = true) : Mem.wf (Mem.writeN m a bs) = true := by
  induction bs generalizing m a with
  | nil => exact h
  | cons b r ih => exact ih _ _ (write_wf m a b h)

/-- Bytes outside the written range read as before. -/
theorem read_writeN_other (m : Mem) (a x : Nat) (bs : List Byte) (h : x < a ∨ a + bs.length ≤ x) :
    Mem.read (Mem.writeN m a bs) x = Mem.read m x := by
  induction bs generalizing m a with
  | nil => rfl
  | cons b r ih =>
    simp only [Mem.writeN, List.length_cons] at *
    rw [ih (Mem.write m a b) (a + 1) (by omega), read_write_other m a x b (by omega)]

/-- Bytes of the written range read as written. -/
theorem read_writeN (m : Mem) (a i : Nat) (bs : List Byte) (h : Mem.wf m = true) (hi : i < bs.length) :
    Mem.read (Mem.writeN m a bs) (a + i) = bs[i] := by
  induction bs generalizing m a i with
  | nil => simp at hi
  | cons b r ih =>
    simp only [Mem.writeN]
    cases i with
    | zero =>
      rw [read_writeN_other _ _ _ _ (by omega)]
      have hw : Tbl.wf m = true := by simp only [Mem.wf, Bool.and_eq_true] at h; exact h.1
      simp [read_write_same m a b hw]
    | succ i =>
      have := ih (Mem.write m a b) (a + 1) i (write_wf m a b h) (by simp at hi; omega)
      rw [show a + (i + 1) = a + 1 + i by omega, this]
      rfl

/-- A region's bytes keep the canonical form through a write, and through a range left undefined. -/
theorem region_writeN_wf (r : Region) (a : Nat) (bs : List Byte) (h : Mem.wf r.bytes = true) :
    Mem.wf (r.writeN a bs).bytes = true := writeN_wf _ _ _ h

theorem region_forget_bytes (r : Region) (a n tag : Nat) : (r.forget a n tag).bytes = r.bytes := by
  unfold Region.forget; split <;> rfl

end Sys2Proof.Machine
end

