-- ==== Sys2Proof/Laws/State.lean ====
section
/-! SUPPORT. What the shared updates of the module leave alone: one lemma for each update and each field it does not write. -/

namespace Sys2Proof.Machine

/-! Plain record updates. -/

@[simp] theorem updDie_life (m : Mod) (d : Fin 12) (f : Die → Die) : (m.updDie d f).life = m.life := rfl
@[simp] theorem updDie_flash (m : Mod) (d : Fin 12) (f : Die → Die) : (m.updDie d f).flash = m.flash := rfl
@[simp] theorem updDie_flashOld (m : Mod) (d : Fin 12) (f : Die → Die) : (m.updDie d f).flashOld = m.flashOld := rfl
@[simp] theorem updDie_flashOpen (m : Mod) (d : Fin 12) (f : Die → Die) : (m.updDie d f).flashOpen = m.flashOpen := rfl
@[simp] theorem updDie_tally (m : Mod) (d : Fin 12) (f : Die → Die) : (m.updDie d f).tally = m.tally := rfl
@[simp] theorem updDie_mbx (m : Mod) (d : Fin 12) (f : Die → Die) : (m.updDie d f).mbx = m.mbx := rfl
@[simp] theorem updDie_recs (m : Mod) (d : Fin 12) (f : Die → Die) : (m.updDie d f).recs = m.recs := rfl
@[simp] theorem updDie_msix (m : Mod) (d : Fin 12) (f : Die → Die) : (m.updDie d f).msix = m.msix := rfl
@[simp] theorem updDie_host (m : Mod) (d : Fin 12) (f : Die → Die) : (m.updDie d f).host = m.host := rfl
@[simp] theorem updDie_pwr (m : Mod) (d : Fin 12) (f : Die → Die) : (m.updDie d f).pwr = m.pwr := rfl
@[simp] theorem updDie_ptb (m : Mod) (d : Fin 12) (f : Die → Die) : (m.updDie d f).ptb = m.ptb := rfl
@[simp] theorem updDie_mem (m : Mod) (d : Fin 12) (f : Die → Die) : (m.updDie d f).mem = m.mem := rfl
@[simp] theorem updDie_graphs (m : Mod) (d : Fin 12) (f : Die → Die) : (m.updDie d f).graphs = m.graphs := rfl
@[simp] theorem updDie_slots (m : Mod) (d : Fin 12) (f : Die → Die) : (m.updDie d f).slots = m.slots := rfl
@[simp] theorem updDie_udies (m : Mod) (d : Fin 12) (f : Die → Die) : (m.updDie d f).udies = m.udies := rfl
@[simp] theorem updDie_fab (m : Mod) (d : Fin 12) (f : Die → Die) : (m.updDie d f).fab = m.fab := rfl
@[simp] theorem updDie_ing (m : Mod) (d : Fin 12) (f : Die → Die) : (m.updDie d f).ing = m.ing := rfl
@[simp] theorem updDie_flt (m : Mod) (d : Fin 12) (f : Die → Die) : (m.updDie d f).flt = m.flt := rfl
@[simp] theorem updDie_pressed (m : Mod) (d : Fin 12) (f : Die → Die) : (m.updDie d f).pressed = m.pressed := rfl
@[simp] theorem updDie_lateMax (m : Mod) (d : Fin 12) (f : Die → Die) : (m.updDie d f).lateMax = m.lateMax := rfl
@[simp] theorem updDie_lateCount (m : Mod) (d : Fin 12) (f : Die → Die) : (m.updDie d f).lateCount = m.lateCount := rfl
@[simp] theorem updDie_tick (m : Mod) (d : Fin 12) (f : Die → Die) : (m.updDie d f).tick = m.tick := rfl

@[simp] theorem updTile_life (m : Mod) (d : Fin 12) (t : Fin 64) (f : Tile → Tile) : (m.updTile d t f).life = m.life := rfl
@[simp] theorem updTile_flash (m : Mod) (d : Fin 12) (t : Fin 64) (f : Tile → Tile) : (m.updTile d t f).flash = m.flash := rfl
@[simp] theorem updTile_flashOld (m : Mod) (d : Fin 12) (t : Fin 64) (f : Tile → Tile) : (m.updTile d t f).flashOld = m.flashOld := rfl
@[simp] theorem updTile_flashOpen (m : Mod) (d : Fin 12) (t : Fin 64) (f : Tile → Tile) : (m.updTile d t f).flashOpen = m.flashOpen := rfl
@[simp] theorem updTile_tally (m : Mod) (d : Fin 12) (t : Fin 64) (f : Tile → Tile) : (m.updTile d t f).tally = m.tally := rfl
@[simp] theorem updTile_mbx (m : Mod) (d : Fin 12) (t : Fin 64) (f : Tile → Tile) : (m.updTile d t f).mbx = m.mbx := rfl
@[simp] theorem updTile_recs (m : Mod) (d : Fin 12) (t : Fin 64) (f : Tile → Tile) : (m.updTile d t f).recs = m.recs := rfl
@[simp] theorem updTile_msix (m : Mod) (d : Fin 12) (t : Fin 64) (f : Tile → Tile) : (m.updTile d t f).msix = m.msix := rfl
@[simp] theorem updTile_host (m : Mod) (d : Fin 12) (t : Fin 64) (f : Tile → Tile) : (m.updTile d t f).host = m.host := rfl
@[simp] theorem updTile_pwr (m : Mod) (d : Fin 12) (t : Fin 64) (f : Tile → Tile) : (m.updTile d t f).pwr = m.pwr := rfl
@[simp] theorem updTile_ptb (m : Mod) (d : Fin 12) (t : Fin 64) (f : Tile → Tile) : (m.updTile d t f).ptb = m.ptb := rfl
@[simp] theorem updTile_mem (m : Mod) (d : Fin 12) (t : Fin 64) (f : Tile → Tile) : (m.updTile d t f).mem = m.mem := rfl
@[simp] theorem updTile_graphs (m : Mod) (d : Fin 12) (t : Fin 64) (f : Tile → Tile) : (m.updTile d t f).graphs = m.graphs := rfl
@[simp] theorem updTile_slots (m : Mod) (d : Fin 12) (t : Fin 64) (f : Tile → Tile) : (m.updTile d t f).slots = m.slots := rfl
@[simp] theorem updTile_udies (m : Mod) (d : Fin 12) (t : Fin 64) (f : Tile → Tile) : (m.updTile d t f).udies = m.udies := rfl
@[simp] theorem updTile_fab (m : Mod) (d : Fin 12) (t : Fin 64) (f : Tile → Tile) : (m.updTile d t f).fab = m.fab := rfl
@[simp] theorem updTile_ing (m : Mod) (d : Fin 12) (t : Fin 64) (f : Tile → Tile) : (m.updTile d t f).ing = m.ing := rfl
@[simp] theorem updTile_flt (m : Mod) (d : Fin 12) (t : Fin 64) (f : Tile → Tile) : (m.updTile d t f).flt = m.flt := rfl
@[simp] theorem updTile_pressed (m : Mod) (d : Fin 12) (t : Fin 64) (f : Tile → Tile) : (m.updTile d t f).pressed = m.pressed := rfl
@[simp] theorem updTile_lateMax (m : Mod) (d : Fin 12) (t : Fin 64) (f : Tile → Tile) : (m.updTile d t f).lateMax = m.lateMax := rfl
@[simp] theorem updTile_lateCount (m : Mod) (d : Fin 12) (t : Fin 64) (f : Tile → Tile) : (m.updTile d t f).lateCount = m.lateCount := rfl
@[simp] theorem updTile_tick (m : Mod) (d : Fin 12) (t : Fin 64) (f : Tile → Tile) : (m.updTile d t f).tick = m.tick := rfl

@[simp] theorem updUnit_life (m : Mod) (k : Fin 14) (f : PUnit → PUnit) : (m.updUnit k f).life = m.life := rfl
@[simp] theorem updUnit_flash (m : Mod) (k : Fin 14) (f : PUnit → PUnit) : (m.updUnit k f).flash = m.flash := rfl
@[simp] theorem updUnit_flashOld (m : Mod) (k : Fin 14) (f : PUnit → PUnit) : (m.updUnit k f).flashOld = m.flashOld := rfl
@[simp] theorem updUnit_flashOpen (m : Mod) (k : Fin 14) (f : PUnit → PUnit) : (m.updUnit k f).flashOpen = m.flashOpen := rfl
@[simp] theorem updUnit_tally (m : Mod) (k : Fin 14) (f : PUnit → PUnit) : (m.updUnit k f).tally = m.tally := rfl
@[simp] theorem updUnit_mbx (m : Mod) (k : Fin 14) (f : PUnit → PUnit) : (m.updUnit k f).mbx = m.mbx := rfl
@[simp] theorem updUnit_recs (m : Mod) (k : Fin 14) (f : PUnit → PUnit) : (m.updUnit k f).recs = m.recs := rfl
@[simp] theorem updUnit_msix (m : Mod) (k : Fin 14) (f : PUnit → PUnit) : (m.updUnit k f).msix = m.msix := rfl
@[simp] theorem updUnit_host (m : Mod) (k : Fin 14) (f : PUnit → PUnit) : (m.updUnit k f).host = m.host := rfl
@[simp] theorem updUnit_ptb (m : Mod) (k : Fin 14) (f : PUnit → PUnit) : (m.updUnit k f).ptb = m.ptb := rfl
@[simp] theorem updUnit_mem (m : Mod) (k : Fin 14) (f : PUnit → PUnit) : (m.updUnit k f).mem = m.mem := rfl
@[simp] theorem updUnit_graphs (m : Mod) (k : Fin 14) (f : PUnit → PUnit) : (m.updUnit k f).graphs = m.graphs := rfl
@[simp] theorem updUnit_slots (m : Mod) (k : Fin 14) (f : PUnit → PUnit) : (m.updUnit k f).slots = m.slots := rfl
@[simp] theorem updUnit_dies (m : Mod) (k : Fin 14) (f : PUnit → PUnit) : (m.updUnit k f).dies = m.dies := rfl
@[simp] theorem updUnit_udies (m : Mod) (k : Fin 14) (f : PUnit → PUnit) : (m.updUnit k f).udies = m.udies := rfl
@[simp] theorem updUnit_fab (m : Mod) (k : Fin 14) (f : PUnit → PUnit) : (m.updUnit k f).fab = m.fab := rfl
@[simp] theorem updUnit_ing (m : Mod) (k : Fin 14) (f : PUnit → PUnit) : (m.updUnit k f).ing = m.ing := rfl
@[simp] theorem updUnit_flt (m : Mod) (k : Fin 14) (f : PUnit → PUnit) : (m.updUnit k f).flt = m.flt := rfl
@[simp] theorem updUnit_pressed (m : Mod) (k : Fin 14) (f : PUnit → PUnit) : (m.updUnit k f).pressed = m.pressed := rfl
@[simp] theorem updUnit_lateMax (m : Mod) (k : Fin 14) (f : PUnit → PUnit) : (m.updUnit k f).lateMax = m.lateMax := rfl
@[simp] theorem updUnit_lateCount (m : Mod) (k : Fin 14) (f : PUnit → PUnit) : (m.updUnit k f).lateCount = m.lateCount := rfl
@[simp] theorem updUnit_tick (m : Mod) (k : Fin 14) (f : PUnit → PUnit) : (m.updUnit k f).tick = m.tick := rfl

@[simp] theorem updGraph_life (m : Mod) (g : Nat) (f : Graph → Graph) : (m.updGraph g f).life = m.life := rfl
@[simp] theorem updGraph_flash (m : Mod) (g : Nat) (f : Graph → Graph) : (m.updGraph g f).flash = m.flash := rfl
@[simp] theorem updGraph_flashOld (m : Mod) (g : Nat) (f : Graph → Graph) : (m.updGraph g f).flashOld = m.flashOld := rfl
@[simp] theorem updGraph_flashOpen (m : Mod) (g : Nat) (f : Graph → Graph) : (m.updGraph g f).flashOpen = m.flashOpen := rfl
@[simp] theorem updGraph_tally (m : Mod) (g : Nat) (f : Graph → Graph) : (m.updGraph g f).tally = m.tally := rfl
@[simp] theorem updGraph_mbx (m : Mod) (g : Nat) (f : Graph → Graph) : (m.updGraph g f).mbx = m.mbx := rfl
@[simp] theorem updGraph_recs (m : Mod) (g : Nat) (f : Graph → Graph) : (m.updGraph g f).recs = m.recs := rfl
@[simp] theorem updGraph_msix (m : Mod) (g : Nat) (f : Graph → Graph) : (m.updGraph g f).msix = m.msix := rfl
@[simp] theorem updGraph_host (m : Mod) (g : Nat) (f : Graph → Graph) : (m.updGraph g f).host = m.host := rfl
@[simp] theorem updGraph_pwr (m : Mod) (g : Nat) (f : Graph → Graph) : (m.updGraph g f).pwr = m.pwr := rfl
@[simp] theorem updGraph_ptb (m : Mod) (g : Nat) (f : Graph → Graph) : (m.updGraph g f).ptb = m.ptb := rfl
@[simp] theorem updGraph_mem (m : Mod) (g : Nat) (f : Graph → Graph) : (m.updGraph g f).mem = m.mem := rfl
@[simp] theorem updGraph_slots (m : Mod) (g : Nat) (f : Graph → Graph) : (m.updGraph g f).slots = m.slots := rfl
@[simp] theorem updGraph_dies (m : Mod) (g : Nat) (f : Graph → Graph) : (m.updGraph g f).dies = m.dies := rfl
@[simp] theorem updGraph_udies (m : Mod) (g : Nat) (f : Graph → Graph) : (m.updGraph g f).udies = m.udies := rfl
@[simp] theorem updGraph_fab (m : Mod) (g : Nat) (f : Graph → Graph) : (m.updGraph g f).fab = m.fab := rfl
@[simp] theorem updGraph_ing (m : Mod) (g : Nat) (f : Graph → Graph) : (m.updGraph g f).ing = m.ing := rfl
@[simp] theorem updGraph_flt (m : Mod) (g : Nat) (f : Graph → Graph) : (m.updGraph g f).flt = m.flt := rfl
@[simp] theorem updGraph_pressed (m : Mod) (g : Nat) (f : Graph → Graph) : (m.updGraph g f).pressed = m.pressed := rfl
@[simp] theorem updGraph_lateMax (m : Mod) (g : Nat) (f : Graph → Graph) : (m.updGraph g f).lateMax = m.lateMax := rfl
@[simp] theorem updGraph_lateCount (m : Mod) (g : Nat) (f : Graph → Graph) : (m.updGraph g f).lateCount = m.lateCount := rfl
@[simp] theorem updGraph_tick (m : Mod) (g : Nat) (f : Graph → Graph) : (m.updGraph g f).tick = m.tick := rfl

@[simp] theorem updRun_life (m : Mod) (g n : Nat) (f : NRun → NRun) : (m.updRun g n f).life = m.life := rfl
@[simp] theorem updRun_flash (m : Mod) (g n : Nat) (f : NRun → NRun) : (m.updRun g n f).flash = m.flash := rfl
@[simp] theorem updRun_flashOld (m : Mod) (g n : Nat) (f : NRun → NRun) : (m.updRun g n f).flashOld = m.flashOld := rfl
@[simp] theorem updRun_flashOpen (m : Mod) (g n : Nat) (f : NRun → NRun) : (m.updRun g n f).flashOpen = m.flashOpen := rfl
@[simp] theorem updRun_tally (m : Mod) (g n : Nat) (f : NRun → NRun) : (m.updRun g n f).tally = m.tally := rfl
@[simp] theorem updRun_mbx (m : Mod) (g n : Nat) (f : NRun → NRun) : (m.updRun g n f).mbx = m.mbx := rfl
@[simp] theorem updRun_recs (m : Mod) (g n : Nat) (f : NRun → NRun) : (m.updRun g n f).recs = m.recs := rfl
@[simp] theorem updRun_msix (m : Mod) (g n : Nat) (f : NRun → NRun) : (m.updRun g n f).msix = m.msix := rfl
@[simp] theorem updRun_host (m : Mod) (g n : Nat) (f : NRun → NRun) : (m.updRun g n f).host = m.host := rfl
@[simp] theorem updRun_pwr (m : Mod) (g n : Nat) (f : NRun → NRun) : (m.updRun g n f).pwr = m.pwr := rfl
@[simp] theorem updRun_ptb (m : Mod) (g n : Nat) (f : NRun → NRun) : (m.updRun g n f).ptb = m.ptb := rfl
@[simp] theorem updRun_mem (m : Mod) (g n : Nat) (f : NRun → NRun) : (m.updRun g n f).mem = m.mem := rfl
@[simp] theorem updRun_slots (m : Mod) (g n : Nat) (f : NRun → NRun) : (m.updRun g n f).slots = m.slots := rfl
@[simp] theorem updRun_dies (m : Mod) (g n : Nat) (f : NRun → NRun) : (m.updRun g n f).dies = m.dies := rfl
@[simp] theorem updRun_udies (m : Mod) (g n : Nat) (f : NRun → NRun) : (m.updRun g n f).udies = m.udies := rfl
@[simp] theorem updRun_fab (m : Mod) (g n : Nat) (f : NRun → NRun) : (m.updRun g n f).fab = m.fab := rfl
@[simp] theorem updRun_ing (m : Mod) (g n : Nat) (f : NRun → NRun) : (m.updRun g n f).ing = m.ing := rfl
@[simp] theorem updRun_flt (m : Mod) (g n : Nat) (f : NRun → NRun) : (m.updRun g n f).flt = m.flt := rfl
@[simp] theorem updRun_pressed (m : Mod) (g n : Nat) (f : NRun → NRun) : (m.updRun g n f).pressed = m.pressed := rfl
@[simp] theorem updRun_lateMax (m : Mod) (g n : Nat) (f : NRun → NRun) : (m.updRun g n f).lateMax = m.lateMax := rfl
@[simp] theorem updRun_lateCount (m : Mod) (g n : Nat) (f : NRun → NRun) : (m.updRun g n f).lateCount = m.lateCount := rfl
@[simp] theorem updRun_tick (m : Mod) (g n : Nat) (f : NRun → NRun) : (m.updRun g n f).tick = m.tick := rfl

@[simp] theorem updRegion_life (m : Mod) (h : BitVec 32) (f : Region → Region) : (m.updRegion h f).life = m.life := rfl
@[simp] theorem updRegion_flash (m : Mod) (h : BitVec 32) (f : Region → Region) : (m.updRegion h f).flash = m.flash := rfl
@[simp] theorem updRegion_flashOld (m : Mod) (h : BitVec 32) (f : Region → Region) : (m.updRegion h f).flashOld = m.flashOld := rfl
@[simp] theorem updRegion_flashOpen (m : Mod) (h : BitVec 32) (f : Region → Region) : (m.updRegion h f).flashOpen = m.flashOpen := rfl
@[simp] theorem updRegion_tally (m : Mod) (h : BitVec 32) (f : Region → Region) : (m.updRegion h f).tally = m.tally := rfl
@[simp] theorem updRegion_mbx (m : Mod) (h : BitVec 32) (f : Region → Region) : (m.updRegion h f).mbx = m.mbx := rfl
@[simp] theorem updRegion_recs (m : Mod) (h : BitVec 32) (f : Region → Region) : (m.updRegion h f).recs = m.recs := rfl
@[simp] theorem updRegion_msix (m : Mod) (h : BitVec 32) (f : Region → Region) : (m.updRegion h f).msix = m.msix := rfl
@[simp] theorem updRegion_host (m : Mod) (h : BitVec 32) (f : Region → Region) : (m.updRegion h f).host = m.host := rfl
@[simp] theorem updRegion_pwr (m : Mod) (h : BitVec 32) (f : Region → Region) : (m.updRegion h f).pwr = m.pwr := rfl
@[simp] theorem updRegion_ptb (m : Mod) (h : BitVec 32) (f : Region → Region) : (m.updRegion h f).ptb = m.ptb := rfl
@[simp] theorem updRegion_graphs (m : Mod) (h : BitVec 32) (f : Region → Region) : (m.updRegion h f).graphs = m.graphs := rfl
@[simp] theorem updRegion_slots (m : Mod) (h : BitVec 32) (f : Region → Region) : (m.updRegion h f).slots = m.slots := rfl
@[simp] theorem updRegion_dies (m : Mod) (h : BitVec 32) (f : Region → Region) : (m.updRegion h f).dies = m.dies := rfl
@[simp] theorem updRegion_udies (m : Mod) (h : BitVec 32) (f : Region → Region) : (m.updRegion h f).udies = m.udies := rfl
@[simp] theorem updRegion_fab (m : Mod) (h : BitVec 32) (f : Region → Region) : (m.updRegion h f).fab = m.fab := rfl
@[simp] theorem updRegion_ing (m : Mod) (h : BitVec 32) (f : Region → Region) : (m.updRegion h f).ing = m.ing := rfl
@[simp] theorem updRegion_flt (m : Mod) (h : BitVec 32) (f : Region → Region) : (m.updRegion h f).flt = m.flt := rfl
@[simp] theorem updRegion_pressed (m : Mod) (h : BitVec 32) (f : Region → Region) : (m.updRegion h f).pressed = m.pressed := rfl
@[simp] theorem updRegion_lateMax (m : Mod) (h : BitVec 32) (f : Region → Region) : (m.updRegion h f).lateMax = m.lateMax := rfl
@[simp] theorem updRegion_lateCount (m : Mod) (h : BitVec 32) (f : Region → Region) : (m.updRegion h f).lateCount = m.lateCount := rfl
@[simp] theorem updRegion_tick (m : Mod) (h : BitVec 32) (f : Region → Region) : (m.updRegion h f).tick = m.tick := rfl

@[simp] theorem updQueue_life (m : Mod) (n : Nat) (f : HQueue → HQueue) : (m.updQueue n f).life = m.life := rfl
@[simp] theorem updQueue_flash (m : Mod) (n : Nat) (f : HQueue → HQueue) : (m.updQueue n f).flash = m.flash := rfl
@[simp] theorem updQueue_flashOld (m : Mod) (n : Nat) (f : HQueue → HQueue) : (m.updQueue n f).flashOld = m.flashOld := rfl
@[simp] theorem updQueue_flashOpen (m : Mod) (n : Nat) (f : HQueue → HQueue) : (m.updQueue n f).flashOpen = m.flashOpen := rfl
@[simp] theorem updQueue_tally (m : Mod) (n : Nat) (f : HQueue → HQueue) : (m.updQueue n f).tally = m.tally := rfl
@[simp] theorem updQueue_recs (m : Mod) (n : Nat) (f : HQueue → HQueue) : (m.updQueue n f).recs = m.recs := rfl
@[simp] theorem updQueue_msix (m : Mod) (n : Nat) (f : HQueue → HQueue) : (m.updQueue n f).msix = m.msix := rfl
@[simp] theorem updQueue_host (m : Mod) (n : Nat) (f : HQueue → HQueue) : (m.updQueue n f).host = m.host := rfl
@[simp] theorem updQueue_pwr (m : Mod) (n : Nat) (f : HQueue → HQueue) : (m.updQueue n f).pwr = m.pwr := rfl
@[simp] theorem updQueue_ptb (m : Mod) (n : Nat) (f : HQueue → HQueue) : (m.updQueue n f).ptb = m.ptb := rfl
@[simp] theorem updQueue_mem (m : Mod) (n : Nat) (f : HQueue → HQueue) : (m.updQueue n f).mem = m.mem := rfl
@[simp] theorem updQueue_graphs (m : Mod) (n : Nat) (f : HQueue → HQueue) : (m.updQueue n f).graphs = m.graphs := rfl
@[simp] theorem updQueue_slots (m : Mod) (n : Nat) (f : HQueue → HQueue) : (m.updQueue n f).slots = m.slots := rfl
@[simp] theorem updQueue_dies (m : Mod) (n : Nat) (f : HQueue → HQueue) : (m.updQueue n f).dies = m.dies := rfl
@[simp] theorem updQueue_udies (m : Mod) (n : Nat) (f : HQueue → HQueue) : (m.updQueue n f).udies = m.udies := rfl
@[simp] theorem updQueue_fab (m : Mod) (n : Nat) (f : HQueue → HQueue) : (m.updQueue n f).fab = m.fab := rfl
@[simp] theorem updQueue_ing (m : Mod) (n : Nat) (f : HQueue → HQueue) : (m.updQueue n f).ing = m.ing := rfl
@[simp] theorem updQueue_flt (m : Mod) (n : Nat) (f : HQueue → HQueue) : (m.updQueue n f).flt = m.flt := rfl
@[simp] theorem updQueue_pressed (m : Mod) (n : Nat) (f : HQueue → HQueue) : (m.updQueue n f).pressed = m.pressed := rfl
@[simp] theorem updQueue_lateMax (m : Mod) (n : Nat) (f : HQueue → HQueue) : (m.updQueue n f).lateMax = m.lateMax := rfl
@[simp] theorem updQueue_lateCount (m : Mod) (n : Nat) (f : HQueue → HQueue) : (m.updQueue n f).lateCount = m.lateCount := rfl
@[simp] theorem updQueue_tick (m : Mod) (n : Nat) (f : HQueue → HQueue) : (m.updQueue n f).tick = m.tick := rfl

@[simp] theorem entWrite_life (m : Mod) (r : RegEnt) (o : Nat) (bs : List Byte) : (m.entWrite r o bs).life = m.life := rfl
@[simp] theorem entWrite_flash (m : Mod) (r : RegEnt) (o : Nat) (bs : List Byte) : (m.entWrite r o bs).flash = m.flash := rfl
@[simp] theorem entWrite_flashOld (m : Mod) (r : RegEnt) (o : Nat) (bs : List Byte) : (m.entWrite r o bs).flashOld = m.flashOld := rfl
@[simp] theorem entWrite_flashOpen (m : Mod) (r : RegEnt) (o : Nat) (bs : List Byte) : (m.entWrite r o bs).flashOpen = m.flashOpen := rfl
@[simp] theorem entWrite_tally (m : Mod) (r : RegEnt) (o : Nat) (bs : List Byte) : (m.entWrite r o bs).tally = m.tally := rfl
@[simp] theorem entWrite_mbx (m : Mod) (r : RegEnt) (o : Nat) (bs : List Byte) : (m.entWrite r o bs).mbx = m.mbx := rfl
@[simp] theorem entWrite_recs (m : Mod) (r : RegEnt) (o : Nat) (bs : List Byte) : (m.entWrite r o bs).recs = m.recs := rfl
@[simp] theorem entWrite_msix (m : Mod) (r : RegEnt) (o : Nat) (bs : List Byte) : (m.entWrite r o bs).msix = m.msix := rfl
@[simp] theorem entWrite_host (m : Mod) (r : RegEnt) (o : Nat) (bs : List Byte) : (m.entWrite r o bs).host = m.host := rfl
@[simp] theorem entWrite_pwr (m : Mod) (r : RegEnt) (o : Nat) (bs : List Byte) : (m.entWrite r o bs).pwr = m.pwr := rfl
@[simp] theorem entWrite_ptb (m : Mod) (r : RegEnt) (o : Nat) (bs : List Byte) : (m.entWrite r o bs).ptb = m.ptb := rfl
@[simp] theorem entWrite_graphs (m : Mod) (r : RegEnt) (o : Nat) (bs : List Byte) : (m.entWrite r o bs).graphs = m.graphs := rfl
@[simp] theorem entWrite_slots (m : Mod) (r : RegEnt) (o : Nat) (bs : List Byte) : (m.entWrite r o bs).slots = m.slots := rfl
@[simp] theorem entWrite_dies (m : Mod) (r : RegEnt) (o : Nat) (bs : List Byte) : (m.entWrite r o bs).dies = m.dies := rfl
@[simp] theorem entWrite_udies (m : Mod) (r : RegEnt) (o : Nat) (bs : List Byte) : (m.entWrite r o bs).udies = m.udies := rfl
@[simp] theorem entWrite_fab (m : Mod) (r : RegEnt) (o : Nat) (bs : List Byte) : (m.entWrite r o bs).fab = m.fab := rfl
@[simp] theorem entWrite_ing (m : Mod) (r : RegEnt) (o : Nat) (bs : List Byte) : (m.entWrite r o bs).ing = m.ing := rfl
@[simp] theorem entWrite_flt (m : Mod) (r : RegEnt) (o : Nat) (bs : List Byte) : (m.entWrite r o bs).flt = m.flt := rfl
@[simp] theorem entWrite_pressed (m : Mod) (r : RegEnt) (o : Nat) (bs : List Byte) : (m.entWrite r o bs).pressed = m.pressed := rfl
@[simp] theorem entWrite_lateMax (m : Mod) (r : RegEnt) (o : Nat) (bs : List Byte) : (m.entWrite r o bs).lateMax = m.lateMax := rfl
@[simp] theorem entWrite_lateCount (m : Mod) (r : RegEnt) (o : Nat) (bs : List Byte) : (m.entWrite r o bs).lateCount = m.lateCount := rfl
@[simp] theorem entWrite_tick (m : Mod) (r : RegEnt) (o : Nat) (bs : List Byte) : (m.entWrite r o bs).tick = m.tick := rfl

@[simp] theorem nextTick_life (m : Mod) : (m.nextTick).life = m.life := rfl
@[simp] theorem nextTick_flash (m : Mod) : (m.nextTick).flash = m.flash := rfl
@[simp] theorem nextTick_flashOld (m : Mod) : (m.nextTick).flashOld = m.flashOld := rfl
@[simp] theorem nextTick_flashOpen (m : Mod) : (m.nextTick).flashOpen = m.flashOpen := rfl
@[simp] theorem nextTick_tally (m : Mod) : (m.nextTick).tally = m.tally := rfl
@[simp] theorem nextTick_mbx (m : Mod) : (m.nextTick).mbx = m.mbx := rfl
@[simp] theorem nextTick_recs (m : Mod) : (m.nextTick).recs = m.recs := rfl
@[simp] theorem nextTick_msix (m : Mod) : (m.nextTick).msix = m.msix := rfl
@[simp] theorem nextTick_host (m : Mod) : (m.nextTick).host = m.host := rfl
@[simp] theorem nextTick_pwr (m : Mod) : (m.nextTick).pwr = m.pwr := rfl
@[simp] theorem nextTick_ptb (m : Mod) : (m.nextTick).ptb = m.ptb := rfl
@[simp] theorem nextTick_mem (m : Mod) : (m.nextTick).mem = m.mem := rfl
@[simp] theorem nextTick_graphs (m : Mod) : (m.nextTick).graphs = m.graphs := rfl
@[simp] theorem nextTick_slots (m : Mod) : (m.nextTick).slots = m.slots := rfl
@[simp] theorem nextTick_dies (m : Mod) : (m.nextTick).dies = m.dies := rfl
@[simp] theorem nextTick_udies (m : Mod) : (m.nextTick).udies = m.udies := rfl
@[simp] theorem nextTick_fab (m : Mod) : (m.nextTick).fab = m.fab := rfl
@[simp] theorem nextTick_ing (m : Mod) : (m.nextTick).ing = m.ing := rfl
@[simp] theorem nextTick_flt (m : Mod) : (m.nextTick).flt = m.flt := rfl
@[simp] theorem nextTick_pressed (m : Mod) : (m.nextTick).pressed = m.pressed := rfl
@[simp] theorem nextTick_lateMax (m : Mod) : (m.nextTick).lateMax = m.lateMax := rfl
@[simp] theorem nextTick_lateCount (m : Mod) : (m.nextTick).lateCount = m.lateCount := rfl

/-! Interrupts and event records: they write the record buffer, the MSI-X state and the host side. -/

@[simp] theorem sendVector_life (m : Mod) (v : Nat) : (m.sendVector v).life = m.life := by unfold Mod.sendVector; split <;> rfl
@[simp] theorem sendVector_flash (m : Mod) (v : Nat) : (m.sendVector v).flash = m.flash := by unfold Mod.sendVector; split <;> rfl
@[simp] theorem sendVector_flashOld (m : Mod) (v : Nat) : (m.sendVector v).flashOld = m.flashOld := by unfold Mod.sendVector; split <;> rfl
@[simp] theorem sendVector_flashOpen (m : Mod) (v : Nat) : (m.sendVector v).flashOpen = m.flashOpen := by unfold Mod.sendVector; split <;> rfl
@[simp] theorem sendVector_tally (m : Mod) (v : Nat) : (m.sendVector v).tally = m.tally := by unfold Mod.sendVector; split <;> rfl
@[simp] theorem sendVector_mbx (m : Mod) (v : Nat) : (m.sendVector v).mbx = m.mbx := by unfold Mod.sendVector; split <;> rfl
@[simp] theorem sendVector_recs (m : Mod) (v : Nat) : (m.sendVector v).recs = m.recs := by unfold Mod.sendVector; split <;> rfl
@[simp] theorem sendVector_pwr (m : Mod) (v : Nat) : (m.sendVector v).pwr = m.pwr := by unfold Mod.sendVector; split <;> rfl
@[simp] theorem sendVector_ptb (m : Mod) (v : Nat) : (m.sendVector v).ptb = m.ptb := by unfold Mod.sendVector; split <;> rfl
@[simp] theorem sendVector_mem (m : Mod) (v : Nat) : (m.sendVector v).mem = m.mem := by unfold Mod.sendVector; split <;> rfl
@[simp] theorem sendVector_graphs (m : Mod) (v : Nat) : (m.sendVector v).graphs = m.graphs := by unfold Mod.sendVector; split <;> rfl
@[simp] theorem sendVector_slots (m : Mod) (v : Nat) : (m.sendVector v).slots = m.slots := by unfold Mod.sendVector; split <;> rfl
@[simp] theorem sendVector_dies (m : Mod) (v : Nat) : (m.sendVector v).dies = m.dies := by unfold Mod.sendVector; split <;> rfl
@[simp] theorem sendVector_udies (m : Mod) (v : Nat) : (m.sendVector v).udies = m.udies := by unfold Mod.sendVector; split <;> rfl
@[simp] theorem sendVector_fab (m : Mod) (v : Nat) : (m.sendVector v).fab = m.fab := by unfold Mod.sendVector; split <;> rfl
@[simp] theorem sendVector_ing (m : Mod) (v : Nat) : (m.sendVector v).ing = m.ing := by unfold Mod.sendVector; split <;> rfl
@[simp] theorem sendVector_flt (m : Mod) (v : Nat) : (m.sendVector v).flt = m.flt := by unfold Mod.sendVector; split <;> rfl
@[simp] theorem sendVector_pressed (m : Mod) (v : Nat) : (m.sendVector v).pressed = m.pressed := by unfold Mod.sendVector; split <;> rfl
@[simp] theorem sendVector_lateMax (m : Mod) (v : Nat) : (m.sendVector v).lateMax = m.lateMax := by unfold Mod.sendVector; split <;> rfl
@[simp] theorem sendVector_lateCount (m : Mod) (v : Nat) : (m.sendVector v).lateCount = m.lateCount := by unfold Mod.sendVector; split <;> rfl
@[simp] theorem sendVector_tick (m : Mod) (v : Nat) : (m.sendVector v).tick = m.tick := by unfold Mod.sendVector; split <;> rfl

@[simp] theorem raise_life (m : Mod) (v : Nat) : (m.raise v).life = m.life := by unfold Mod.raise; split <;> simp
@[simp] theorem raise_flash (m : Mod) (v : Nat) : (m.raise v).flash = m.flash := by unfold Mod.raise; split <;> simp
@[simp] theorem raise_flashOld (m : Mod) (v : Nat) : (m.raise v).flashOld = m.flashOld := by unfold Mod.raise; split <;> simp
@[simp] theorem raise_flashOpen (m : Mod) (v : Nat) : (m.raise v).flashOpen = m.flashOpen := by unfold Mod.raise; split <;> simp
@[simp] theorem raise_tally (m : Mod) (v : Nat) : (m.raise v).tally = m.tally := by unfold Mod.raise; split <;> simp
@[simp] theorem raise_mbx (m : Mod) (v : Nat) : (m.raise v).mbx = m.mbx := by unfold Mod.raise; split <;> simp
@[simp] theorem raise_recs (m : Mod) (v : Nat) : (m.raise v).recs = m.recs := by unfold Mod.raise; split <;> simp
@[simp] theorem raise_pwr (m : Mod) (v : Nat) : (m.raise v).pwr = m.pwr := by unfold Mod.raise; split <;> simp
@[simp] theorem raise_ptb (m : Mod) (v : Nat) : (m.raise v).ptb = m.ptb := by unfold Mod.raise; split <;> simp
@[simp] theorem raise_mem (m : Mod) (v : Nat) : (m.raise v).mem = m.mem := by unfold Mod.raise; split <;> simp
@[simp] theorem raise_graphs (m : Mod) (v : Nat) : (m.raise v).graphs = m.graphs := by unfold Mod.raise; split <;> simp
@[simp] theorem raise_slots (m : Mod) (v : Nat) : (m.raise v).slots = m.slots := by unfold Mod.raise; split <;> simp
@[simp] theorem raise_dies (m : Mod) (v : Nat) : (m.raise v).dies = m.dies := by unfold Mod.raise; split <;> simp
@[simp] theorem raise_udies (m : Mod) (v : Nat) : (m.raise v).udies = m.udies := by unfold Mod.raise; split <;> simp
@[simp] theorem raise_fab (m : Mod) (v : Nat) : (m.raise v).fab = m.fab := by unfold Mod.raise; split <;> simp
@[simp] theorem raise_ing (m : Mod) (v : Nat) : (m.raise v).ing = m.ing := by unfold Mod.raise; split <;> simp
@[simp] theorem raise_flt (m : Mod) (v : Nat) : (m.raise v).flt = m.flt := by unfold Mod.raise; split <;> simp
@[simp] theorem raise_pressed (m : Mod) (v : Nat) : (m.raise v).pressed = m.pressed := by unfold Mod.raise; split <;> simp
@[simp] theorem raise_lateMax (m : Mod) (v : Nat) : (m.raise v).lateMax = m.lateMax := by unfold Mod.raise; split <;> simp
@[simp] theorem raise_lateCount (m : Mod) (v : Nat) : (m.raise v).lateCount = m.lateCount := by unfold Mod.raise; split <;> simp
@[simp] theorem raise_tick (m : Mod) (v : Nat) : (m.raise v).tick = m.tick := by unfold Mod.raise; split <;> simp

@[simp] theorem raiseQueue_life (m : Mod) (v : Nat) : (m.raiseQueue v).life = m.life := by unfold Mod.raiseQueue; split <;> simp
@[simp] theorem raiseQueue_flash (m : Mod) (v : Nat) : (m.raiseQueue v).flash = m.flash := by unfold Mod.raiseQueue; split <;> simp
@[simp] theorem raiseQueue_flashOld (m : Mod) (v : Nat) : (m.raiseQueue v).flashOld = m.flashOld := by unfold Mod.raiseQueue; split <;> simp
@[simp] theorem raiseQueue_flashOpen (m : Mod) (v : Nat) : (m.raiseQueue v).flashOpen = m.flashOpen := by unfold Mod.raiseQueue; split <;> simp
@[simp] theorem raiseQueue_tally (m : Mod) (v : Nat) : (m.raiseQueue v).tally = m.tally := by unfold Mod.raiseQueue; split <;> simp
@[simp] theorem raiseQueue_mbx (m : Mod) (v : Nat) : (m.raiseQueue v).mbx = m.mbx := by unfold Mod.raiseQueue; split <;> simp
@[simp] theorem raiseQueue_recs (m : Mod) (v : Nat) : (m.raiseQueue v).recs = m.recs := by unfold Mod.raiseQueue; split <;> simp
@[simp] theorem raiseQueue_pwr (m : Mod) (v : Nat) : (m.raiseQueue v).pwr = m.pwr := by unfold Mod.raiseQueue; split <;> simp
@[simp] theorem raiseQueue_ptb (m : Mod) (v : Nat) : (m.raiseQueue v).ptb = m.ptb := by unfold Mod.raiseQueue; split <;> simp
@[simp] theorem raiseQueue_mem (m : Mod) (v : Nat) : (m.raiseQueue v).mem = m.mem := by unfold Mod.raiseQueue; split <;> simp
@[simp] theorem raiseQueue_graphs (m : Mod) (v : Nat) : (m.raiseQueue v).graphs = m.graphs := by unfold Mod.raiseQueue; split <;> simp
@[simp] theorem raiseQueue_slots (m : Mod) (v : Nat) : (m.raiseQueue v).slots = m.slots := by unfold Mod.raiseQueue; split <;> simp
@[simp] theorem raiseQueue_dies (m : Mod) (v : Nat) : (m.raiseQueue v).dies = m.dies := by unfold Mod.raiseQueue; split <;> simp
@[simp] theorem raiseQueue_udies (m : Mod) (v : Nat) : (m.raiseQueue v).udies = m.udies := by unfold Mod.raiseQueue; split <;> simp
@[simp] theorem raiseQueue_fab (m : Mod) (v : Nat) : (m.raiseQueue v).fab = m.fab := by unfold Mod.raiseQueue; split <;> simp
@[simp] theorem raiseQueue_ing (m : Mod) (v : Nat) : (m.raiseQueue v).ing = m.ing := by unfold Mod.raiseQueue; split <;> simp
@[simp] theorem raiseQueue_flt (m : Mod) (v : Nat) : (m.raiseQueue v).flt = m.flt := by unfold Mod.raiseQueue; split <;> simp
@[simp] theorem raiseQueue_pressed (m : Mod) (v : Nat) : (m.raiseQueue v).pressed = m.pressed := by unfold Mod.raiseQueue; split <;> simp
@[simp] theorem raiseQueue_lateMax (m : Mod) (v : Nat) : (m.raiseQueue v).lateMax = m.lateMax := by unfold Mod.raiseQueue; split <;> simp
@[simp] theorem raiseQueue_lateCount (m : Mod) (v : Nat) : (m.raiseQueue v).lateCount = m.lateCount := by unfold Mod.raiseQueue; split <;> simp
@[simp] theorem raiseQueue_tick (m : Mod) (v : Nat) : (m.raiseQueue v).tick = m.tick := by unfold Mod.raiseQueue; split <;> simp

@[simp] theorem recFull_life (m : Mod) (k : Nat) : (m.recFull k).life = m.life := by unfold Mod.recFull; split <;> simp
@[simp] theorem recFull_flash (m : Mod) (k : Nat) : (m.recFull k).flash = m.flash := by unfold Mod.recFull; split <;> simp
@[simp] theorem recFull_flashOld (m : Mod) (k : Nat) : (m.recFull k).flashOld = m.flashOld := by unfold Mod.recFull; split <;> simp
@[simp] theorem recFull_flashOpen (m : Mod) (k : Nat) : (m.recFull k).flashOpen = m.flashOpen := by unfold Mod.recFull; split <;> simp
@[simp] theorem recFull_tally (m : Mod) (k : Nat) : (m.recFull k).tally = m.tally := by unfold Mod.recFull; split <;> simp
@[simp] theorem recFull_mbx (m : Mod) (k : Nat) : (m.recFull k).mbx = m.mbx := by unfold Mod.recFull; split <;> simp
@[simp] theorem recFull_recs (m : Mod) (k : Nat) : (m.recFull k).recs = m.recs := by unfold Mod.recFull; split <;> simp
@[simp] theorem recFull_pwr (m : Mod) (k : Nat) : (m.recFull k).pwr = m.pwr := by unfold Mod.recFull; split <;> simp
@[simp] theorem recFull_ptb (m : Mod) (k : Nat) : (m.recFull k).ptb = m.ptb := by unfold Mod.recFull; split <;> simp
@[simp] theorem recFull_mem (m : Mod) (k : Nat) : (m.recFull k).mem = m.mem := by unfold Mod.recFull; split <;> simp
@[simp] theorem recFull_graphs (m : Mod) (k : Nat) : (m.recFull k).graphs = m.graphs := by unfold Mod.recFull; split <;> simp
@[simp] theorem recFull_slots (m : Mod) (k : Nat) : (m.recFull k).slots = m.slots := by unfold Mod.recFull; split <;> simp
@[simp] theorem recFull_dies (m : Mod) (k : Nat) : (m.recFull k).dies = m.dies := by unfold Mod.recFull; split <;> simp
@[simp] theorem recFull_udies (m : Mod) (k : Nat) : (m.recFull k).udies = m.udies := by unfold Mod.recFull; split <;> simp
@[simp] theorem recFull_fab (m : Mod) (k : Nat) : (m.recFull k).fab = m.fab := by unfold Mod.recFull; split <;> simp
@[simp] theorem recFull_ing (m : Mod) (k : Nat) : (m.recFull k).ing = m.ing := by unfold Mod.recFull; split <;> simp
@[simp] theorem recFull_flt (m : Mod) (k : Nat) : (m.recFull k).flt = m.flt := by unfold Mod.recFull; split <;> simp
@[simp] theorem recFull_pressed (m : Mod) (k : Nat) : (m.recFull k).pressed = m.pressed := by unfold Mod.recFull; split <;> simp
@[simp] theorem recFull_lateMax (m : Mod) (k : Nat) : (m.recFull k).lateMax = m.lateMax := by unfold Mod.recFull; split <;> simp
@[simp] theorem recFull_lateCount (m : Mod) (k : Nat) : (m.recFull k).lateCount = m.lateCount := by unfold Mod.recFull; split <;> simp
@[simp] theorem recFull_tick (m : Mod) (k : Nat) : (m.recFull k).tick = m.tick := by unfold Mod.recFull; split <;> simp

@[simp] theorem recVectors_life (m : Mod) (k : Nat) (c : Status) : (m.recVectors k c).life = m.life := by unfold Mod.recVectors; dsimp only; split <;> simp
@[simp] theorem recVectors_flash (m : Mod) (k : Nat) (c : Status) : (m.recVectors k c).flash = m.flash := by unfold Mod.recVectors; dsimp only; split <;> simp
@[simp] theorem recVectors_flashOld (m : Mod) (k : Nat) (c : Status) : (m.recVectors k c).flashOld = m.flashOld := by unfold Mod.recVectors; dsimp only; split <;> simp
@[simp] theorem recVectors_flashOpen (m : Mod) (k : Nat) (c : Status) : (m.recVectors k c).flashOpen = m.flashOpen := by unfold Mod.recVectors; dsimp only; split <;> simp
@[simp] theorem recVectors_tally (m : Mod) (k : Nat) (c : Status) : (m.recVectors k c).tally = m.tally := by unfold Mod.recVectors; dsimp only; split <;> simp
@[simp] theorem recVectors_mbx (m : Mod) (k : Nat) (c : Status) : (m.recVectors k c).mbx = m.mbx := by unfold Mod.recVectors; dsimp only; split <;> simp
@[simp] theorem recVectors_recs (m : Mod) (k : Nat) (c : Status) : (m.recVectors k c).recs = m.recs := by unfold Mod.recVectors; dsimp only; split <;> simp
@[simp] theorem recVectors_pwr (m : Mod) (k : Nat) (c : Status) : (m.recVectors k c).pwr = m.pwr := by unfold Mod.recVectors; dsimp only; split <;> simp
@[simp] theorem recVectors_ptb (m : Mod) (k : Nat) (c : Status) : (m.recVectors k c).ptb = m.ptb := by unfold Mod.recVectors; dsimp only; split <;> simp
@[simp] theorem recVectors_mem (m : Mod) (k : Nat) (c : Status) : (m.recVectors k c).mem = m.mem := by unfold Mod.recVectors; dsimp only; split <;> simp
@[simp] theorem recVectors_graphs (m : Mod) (k : Nat) (c : Status) : (m.recVectors k c).graphs = m.graphs := by unfold Mod.recVectors; dsimp only; split <;> simp
@[simp] theorem recVectors_slots (m : Mod) (k : Nat) (c : Status) : (m.recVectors k c).slots = m.slots := by unfold Mod.recVectors; dsimp only; split <;> simp
@[simp] theorem recVectors_dies (m : Mod) (k : Nat) (c : Status) : (m.recVectors k c).dies = m.dies := by unfold Mod.recVectors; dsimp only; split <;> simp
@[simp] theorem recVectors_udies (m : Mod) (k : Nat) (c : Status) : (m.recVectors k c).udies = m.udies := by unfold Mod.recVectors; dsimp only; split <;> simp
@[simp] theorem recVectors_fab (m : Mod) (k : Nat) (c : Status) : (m.recVectors k c).fab = m.fab := by unfold Mod.recVectors; dsimp only; split <;> simp
@[simp] theorem recVectors_ing (m : Mod) (k : Nat) (c : Status) : (m.recVectors k c).ing = m.ing := by unfold Mod.recVectors; dsimp only; split <;> simp
@[simp] theorem recVectors_flt (m : Mod) (k : Nat) (c : Status) : (m.recVectors k c).flt = m.flt := by unfold Mod.recVectors; dsimp only; split <;> simp
@[simp] theorem recVectors_pressed (m : Mod) (k : Nat) (c : Status) : (m.recVectors k c).pressed = m.pressed := by unfold Mod.recVectors; dsimp only; split <;> simp
@[simp] theorem recVectors_lateMax (m : Mod) (k : Nat) (c : Status) : (m.recVectors k c).lateMax = m.lateMax := by unfold Mod.recVectors; dsimp only; split <;> simp
@[simp] theorem recVectors_lateCount (m : Mod) (k : Nat) (c : Status) : (m.recVectors k c).lateCount = m.lateCount := by unfold Mod.recVectors; dsimp only; split <;> simp
@[simp] theorem recVectors_tick (m : Mod) (k : Nat) (c : Status) : (m.recVectors k c).tick = m.tick := by unfold Mod.recVectors; dsimp only; split <;> simp

@[simp] theorem eventExt_life (m : Mod) (slate : Nat) (c : Status) (r : BitVec 32) (task take : Nat) (dt : List Byte) (ctx : Option (BitVec 32)) (x : List (List Byte)) : (m.eventExt slate c r task take dt ctx x).life = m.life := by unfold Mod.eventExt; simp
@[simp] theorem eventExt_flash (m : Mod) (slate : Nat) (c : Status) (r : BitVec 32) (task take : Nat) (dt : List Byte) (ctx : Option (BitVec 32)) (x : List (List Byte)) : (m.eventExt slate c r task take dt ctx x).flash = m.flash := by unfold Mod.eventExt; simp
@[simp] theorem eventExt_flashOld (m : Mod) (slate : Nat) (c : Status) (r : BitVec 32) (task take : Nat) (dt : List Byte) (ctx : Option (BitVec 32)) (x : List (List Byte)) : (m.eventExt slate c r task take dt ctx x).flashOld = m.flashOld := by unfold Mod.eventExt; simp
@[simp] theorem eventExt_flashOpen (m : Mod) (slate : Nat) (c : Status) (r : BitVec 32) (task take : Nat) (dt : List Byte) (ctx : Option (BitVec 32)) (x : List (List Byte)) : (m.eventExt slate c r task take dt ctx x).flashOpen = m.flashOpen := by unfold Mod.eventExt; simp
@[simp] theorem eventExt_tally (m : Mod) (slate : Nat) (c : Status) (r : BitVec 32) (task take : Nat) (dt : List Byte) (ctx : Option (BitVec 32)) (x : List (List Byte)) : (m.eventExt slate c r task take dt ctx x).tally = m.tally := by unfold Mod.eventExt; simp
@[simp] theorem eventExt_mbx (m : Mod) (slate : Nat) (c : Status) (r : BitVec 32) (task take : Nat) (dt : List Byte) (ctx : Option (BitVec 32)) (x : List (List Byte)) : (m.eventExt slate c r task take dt ctx x).mbx = m.mbx := by unfold Mod.eventExt; simp
@[simp] theorem eventExt_pwr (m : Mod) (slate : Nat) (c : Status) (r : BitVec 32) (task take : Nat) (dt : List Byte) (ctx : Option (BitVec 32)) (x : List (List Byte)) : (m.eventExt slate c r task take dt ctx x).pwr = m.pwr := by unfold Mod.eventExt; simp
@[simp] theorem eventExt_ptb (m : Mod) (slate : Nat) (c : Status) (r : BitVec 32) (task take : Nat) (dt : List Byte) (ctx : Option (BitVec 32)) (x : List (List Byte)) : (m.eventExt slate c r task take dt ctx x).ptb = m.ptb := by unfold Mod.eventExt; simp
@[simp] theorem eventExt_mem (m : Mod) (slate : Nat) (c : Status) (r : BitVec 32) (task take : Nat) (dt : List Byte) (ctx : Option (BitVec 32)) (x : List (List Byte)) : (m.eventExt slate c r task take dt ctx x).mem = m.mem := by unfold Mod.eventExt; simp
@[simp] theorem eventExt_graphs (m : Mod) (slate : Nat) (c : Status) (r : BitVec 32) (task take : Nat) (dt : List Byte) (ctx : Option (BitVec 32)) (x : List (List Byte)) : (m.eventExt slate c r task take dt ctx x).graphs = m.graphs := by unfold Mod.eventExt; simp
@[simp] theorem eventExt_slots (m : Mod) (slate : Nat) (c : Status) (r : BitVec 32) (task take : Nat) (dt : List Byte) (ctx : Option (BitVec 32)) (x : List (List Byte)) : (m.eventExt slate c r task take dt ctx x).slots = m.slots := by unfold Mod.eventExt; simp
@[simp] theorem eventExt_dies (m : Mod) (slate : Nat) (c : Status) (r : BitVec 32) (task take : Nat) (dt : List Byte) (ctx : Option (BitVec 32)) (x : List (List Byte)) : (m.eventExt slate c r task take dt ctx x).dies = m.dies := by unfold Mod.eventExt; simp
@[simp] theorem eventExt_udies (m : Mod) (slate : Nat) (c : Status) (r : BitVec 32) (task take : Nat) (dt : List Byte) (ctx : Option (BitVec 32)) (x : List (List Byte)) : (m.eventExt slate c r task take dt ctx x).udies = m.udies := by unfold Mod.eventExt; simp
@[simp] theorem eventExt_fab (m : Mod) (slate : Nat) (c : Status) (r : BitVec 32) (task take : Nat) (dt : List Byte) (ctx : Option (BitVec 32)) (x : List (List Byte)) : (m.eventExt slate c r task take dt ctx x).fab = m.fab := by unfold Mod.eventExt; simp
@[simp] theorem eventExt_ing (m : Mod) (slate : Nat) (c : Status) (r : BitVec 32) (task take : Nat) (dt : List Byte) (ctx : Option (BitVec 32)) (x : List (List Byte)) : (m.eventExt slate c r task take dt ctx x).ing = m.ing := by unfold Mod.eventExt; simp
@[simp] theorem eventExt_flt (m : Mod) (slate : Nat) (c : Status) (r : BitVec 32) (task take : Nat) (dt : List Byte) (ctx : Option (BitVec 32)) (x : List (List Byte)) : (m.eventExt slate c r task take dt ctx x).flt = m.flt := by unfold Mod.eventExt; simp
@[simp] theorem eventExt_pressed (m : Mod) (slate : Nat) (c : Status) (r : BitVec 32) (task take : Nat) (dt : List Byte) (ctx : Option (BitVec 32)) (x : List (List Byte)) : (m.eventExt slate c r task take dt ctx x).pressed = m.pressed := by unfold Mod.eventExt; simp
@[simp] theorem eventExt_lateMax (m : Mod) (slate : Nat) (c : Status) (r : BitVec 32) (task take : Nat) (dt : List Byte) (ctx : Option (BitVec 32)) (x : List (List Byte)) : (m.eventExt slate c r task take dt ctx x).lateMax = m.lateMax := by unfold Mod.eventExt; simp
@[simp] theorem eventExt_lateCount (m : Mod) (slate : Nat) (c : Status) (r : BitVec 32) (task take : Nat) (dt : List Byte) (ctx : Option (BitVec 32)) (x : List (List Byte)) : (m.eventExt slate c r task take dt ctx x).lateCount = m.lateCount := by unfold Mod.eventExt; simp
@[simp] theorem eventExt_tick (m : Mod) (slate : Nat) (c : Status) (r : BitVec 32) (task take : Nat) (dt : List Byte) (ctx : Option (BitVec 32)) (x : List (List Byte)) : (m.eventExt slate c r task take dt ctx x).tick = m.tick := by unfold Mod.eventExt; simp

@[simp] theorem event_life (m : Mod) (slate : Nat) (c : Status) (r : BitVec 32) (task take : Nat) (dt : List Byte) (ctx : Option (BitVec 32)) : (m.event slate c r task take dt ctx).life = m.life := by unfold Mod.event; simp
@[simp] theorem event_flash (m : Mod) (slate : Nat) (c : Status) (r : BitVec 32) (task take : Nat) (dt : List Byte) (ctx : Option (BitVec 32)) : (m.event slate c r task take dt ctx).flash = m.flash := by unfold Mod.event; simp
@[simp] theorem event_flashOld (m : Mod) (slate : Nat) (c : Status) (r : BitVec 32) (task take : Nat) (dt : List Byte) (ctx : Option (BitVec 32)) : (m.event slate c r task take dt ctx).flashOld = m.flashOld := by unfold Mod.event; simp
@[simp] theorem event_flashOpen (m : Mod) (slate : Nat) (c : Status) (r : BitVec 32) (task take : Nat) (dt : List Byte) (ctx : Option (BitVec 32)) : (m.event slate c r task take dt ctx).flashOpen = m.flashOpen := by unfold Mod.event; simp
@[simp] theorem event_tally (m : Mod) (slate : Nat) (c : Status) (r : BitVec 32) (task take : Nat) (dt : List Byte) (ctx : Option (BitVec 32)) : (m.event slate c r task take dt ctx).tally = m.tally := by unfold Mod.event; simp
@[simp] theorem event_mbx (m : Mod) (slate : Nat) (c : Status) (r : BitVec 32) (task take : Nat) (dt : List Byte) (ctx : Option (BitVec 32)) : (m.event slate c r task take dt ctx).mbx = m.mbx := by unfold Mod.event; simp
@[simp] theorem event_pwr (m : Mod) (slate : Nat) (c : Status) (r : BitVec 32) (task take : Nat) (dt : List Byte) (ctx : Option (BitVec 32)) : (m.event slate c r task take dt ctx).pwr = m.pwr := by unfold Mod.event; simp
@[simp] theorem event_ptb (m : Mod) (slate : Nat) (c : Status) (r : BitVec 32) (task take : Nat) (dt : List Byte) (ctx : Option (BitVec 32)) : (m.event slate c r task take dt ctx).ptb = m.ptb := by unfold Mod.event; simp
@[simp] theorem event_mem (m : Mod) (slate : Nat) (c : Status) (r : BitVec 32) (task take : Nat) (dt : List Byte) (ctx : Option (BitVec 32)) : (m.event slate c r task take dt ctx).mem = m.mem := by unfold Mod.event; simp
@[simp] theorem event_graphs (m : Mod) (slate : Nat) (c : Status) (r : BitVec 32) (task take : Nat) (dt : List Byte) (ctx : Option (BitVec 32)) : (m.event slate c r task take dt ctx).graphs = m.graphs := by unfold Mod.event; simp
@[simp] theorem event_slots (m : Mod) (slate : Nat) (c : Status) (r : BitVec 32) (task take : Nat) (dt : List Byte) (ctx : Option (BitVec 32)) : (m.event slate c r task take dt ctx).slots = m.slots := by unfold Mod.event; simp
@[simp] theorem event_dies (m : Mod) (slate : Nat) (c : Status) (r : BitVec 32) (task take : Nat) (dt : List Byte) (ctx : Option (BitVec 32)) : (m.event slate c r task take dt ctx).dies = m.dies := by unfold Mod.event; simp
@[simp] theorem event_udies (m : Mod) (slate : Nat) (c : Status) (r : BitVec 32) (task take : Nat) (dt : List Byte) (ctx : Option (BitVec 32)) : (m.event slate c r task take dt ctx).udies = m.udies := by unfold Mod.event; simp
@[simp] theorem event_fab (m : Mod) (slate : Nat) (c : Status) (r : BitVec 32) (task take : Nat) (dt : List Byte) (ctx : Option (BitVec 32)) : (m.event slate c r task take dt ctx).fab = m.fab := by unfold Mod.event; simp
@[simp] theorem event_ing (m : Mod) (slate : Nat) (c : Status) (r : BitVec 32) (task take : Nat) (dt : List Byte) (ctx : Option (BitVec 32)) : (m.event slate c r task take dt ctx).ing = m.ing := by unfold Mod.event; simp
@[simp] theorem event_flt (m : Mod) (slate : Nat) (c : Status) (r : BitVec 32) (task take : Nat) (dt : List Byte) (ctx : Option (BitVec 32)) : (m.event slate c r task take dt ctx).flt = m.flt := by unfold Mod.event; simp
@[simp] theorem event_pressed (m : Mod) (slate : Nat) (c : Status) (r : BitVec 32) (task take : Nat) (dt : List Byte) (ctx : Option (BitVec 32)) : (m.event slate c r task take dt ctx).pressed = m.pressed := by unfold Mod.event; simp
@[simp] theorem event_lateMax (m : Mod) (slate : Nat) (c : Status) (r : BitVec 32) (task take : Nat) (dt : List Byte) (ctx : Option (BitVec 32)) : (m.event slate c r task take dt ctx).lateMax = m.lateMax := by unfold Mod.event; simp
@[simp] theorem event_lateCount (m : Mod) (slate : Nat) (c : Status) (r : BitVec 32) (task take : Nat) (dt : List Byte) (ctx : Option (BitVec 32)) : (m.event slate c r task take dt ctx).lateCount = m.lateCount := by unfold Mod.event; simp
@[simp] theorem event_tick (m : Mod) (slate : Nat) (c : Status) (r : BitVec 32) (task take : Nat) (dt : List Byte) (ctx : Option (BitVec 32)) : (m.event slate c r task take dt ctx).tick = m.tick := by unfold Mod.event; simp

@[simp] theorem unitEvent_life (m : Mod) (slate : Nat) (c : Status) (r : BitVec 32) (dt : List Byte) : (m.unitEvent slate c r dt).life = m.life := by unfold Mod.unitEvent; simp
@[simp] theorem unitEvent_flash (m : Mod) (slate : Nat) (c : Status) (r : BitVec 32) (dt : List Byte) : (m.unitEvent slate c r dt).flash = m.flash := by unfold Mod.unitEvent; simp
@[simp] theorem unitEvent_flashOld (m : Mod) (slate : Nat) (c : Status) (r : BitVec 32) (dt : List Byte) : (m.unitEvent slate c r dt).flashOld = m.flashOld := by unfold Mod.unitEvent; simp
@[simp] theorem unitEvent_flashOpen (m : Mod) (slate : Nat) (c : Status) (r : BitVec 32) (dt : List Byte) : (m.unitEvent slate c r dt).flashOpen = m.flashOpen := by unfold Mod.unitEvent; simp
@[simp] theorem unitEvent_tally (m : Mod) (slate : Nat) (c : Status) (r : BitVec 32) (dt : List Byte) : (m.unitEvent slate c r dt).tally = m.tally := by unfold Mod.unitEvent; simp
@[simp] theorem unitEvent_mbx (m : Mod) (slate : Nat) (c : Status) (r : BitVec 32) (dt : List Byte) : (m.unitEvent slate c r dt).mbx = m.mbx := by unfold Mod.unitEvent; simp
@[simp] theorem unitEvent_pwr (m : Mod) (slate : Nat) (c : Status) (r : BitVec 32) (dt : List Byte) : (m.unitEvent slate c r dt).pwr = m.pwr := by unfold Mod.unitEvent; simp
@[simp] theorem unitEvent_ptb (m : Mod) (slate : Nat) (c : Status) (r : BitVec 32) (dt : List Byte) : (m.unitEvent slate c r dt).ptb = m.ptb := by unfold Mod.unitEvent; simp
@[simp] theorem unitEvent_mem (m : Mod) (slate : Nat) (c : Status) (r : BitVec 32) (dt : List Byte) : (m.unitEvent slate c r dt).mem = m.mem := by unfold Mod.unitEvent; simp
@[simp] theorem unitEvent_graphs (m : Mod) (slate : Nat) (c : Status) (r : BitVec 32) (dt : List Byte) : (m.unitEvent slate c r dt).graphs = m.graphs := by unfold Mod.unitEvent; simp
@[simp] theorem unitEvent_slots (m : Mod) (slate : Nat) (c : Status) (r : BitVec 32) (dt : List Byte) : (m.unitEvent slate c r dt).slots = m.slots := by unfold Mod.unitEvent; simp
@[simp] theorem unitEvent_dies (m : Mod) (slate : Nat) (c : Status) (r : BitVec 32) (dt : List Byte) : (m.unitEvent slate c r dt).dies = m.dies := by unfold Mod.unitEvent; simp
@[simp] theorem unitEvent_udies (m : Mod) (slate : Nat) (c : Status) (r : BitVec 32) (dt : List Byte) : (m.unitEvent slate c r dt).udies = m.udies := by unfold Mod.unitEvent; simp
@[simp] theorem unitEvent_fab (m : Mod) (slate : Nat) (c : Status) (r : BitVec 32) (dt : List Byte) : (m.unitEvent slate c r dt).fab = m.fab := by unfold Mod.unitEvent; simp
@[simp] theorem unitEvent_ing (m : Mod) (slate : Nat) (c : Status) (r : BitVec 32) (dt : List Byte) : (m.unitEvent slate c r dt).ing = m.ing := by unfold Mod.unitEvent; simp
@[simp] theorem unitEvent_flt (m : Mod) (slate : Nat) (c : Status) (r : BitVec 32) (dt : List Byte) : (m.unitEvent slate c r dt).flt = m.flt := by unfold Mod.unitEvent; simp
@[simp] theorem unitEvent_pressed (m : Mod) (slate : Nat) (c : Status) (r : BitVec 32) (dt : List Byte) : (m.unitEvent slate c r dt).pressed = m.pressed := by unfold Mod.unitEvent; simp
@[simp] theorem unitEvent_lateMax (m : Mod) (slate : Nat) (c : Status) (r : BitVec 32) (dt : List Byte) : (m.unitEvent slate c r dt).lateMax = m.lateMax := by unfold Mod.unitEvent; simp
@[simp] theorem unitEvent_lateCount (m : Mod) (slate : Nat) (c : Status) (r : BitVec 32) (dt : List Byte) : (m.unitEvent slate c r dt).lateCount = m.lateCount := by unfold Mod.unitEvent; simp
@[simp] theorem unitEvent_tick (m : Mod) (slate : Nat) (c : Status) (r : BitVec 32) (dt : List Byte) : (m.unitEvent slate c r dt).tick = m.tick := by unfold Mod.unitEvent; simp

@[simp] theorem mbxEvent_life (e : Env) (m : Mod) (c : Status) : (m.mbxEvent e c).life = m.life := by unfold Mod.mbxEvent; simp
@[simp] theorem mbxEvent_flash (e : Env) (m : Mod) (c : Status) : (m.mbxEvent e c).flash = m.flash := by unfold Mod.mbxEvent; simp
@[simp] theorem mbxEvent_flashOld (e : Env) (m : Mod) (c : Status) : (m.mbxEvent e c).flashOld = m.flashOld := by unfold Mod.mbxEvent; simp
@[simp] theorem mbxEvent_flashOpen (e : Env) (m : Mod) (c : Status) : (m.mbxEvent e c).flashOpen = m.flashOpen := by unfold Mod.mbxEvent; simp
@[simp] theorem mbxEvent_tally (e : Env) (m : Mod) (c : Status) : (m.mbxEvent e c).tally = m.tally := by unfold Mod.mbxEvent; simp
@[simp] theorem mbxEvent_mbx (e : Env) (m : Mod) (c : Status) : (m.mbxEvent e c).mbx = m.mbx := by unfold Mod.mbxEvent; simp
@[simp] theorem mbxEvent_pwr (e : Env) (m : Mod) (c : Status) : (m.mbxEvent e c).pwr = m.pwr := by unfold Mod.mbxEvent; simp
@[simp] theorem mbxEvent_ptb (e : Env) (m : Mod) (c : Status) : (m.mbxEvent e c).ptb = m.ptb := by unfold Mod.mbxEvent; simp
@[simp] theorem mbxEvent_mem (e : Env) (m : Mod) (c : Status) : (m.mbxEvent e c).mem = m.mem := by unfold Mod.mbxEvent; simp
@[simp] theorem mbxEvent_graphs (e : Env) (m : Mod) (c : Status) : (m.mbxEvent e c).graphs = m.graphs := by unfold Mod.mbxEvent; simp
@[simp] theorem mbxEvent_slots (e : Env) (m : Mod) (c : Status) : (m.mbxEvent e c).slots = m.slots := by unfold Mod.mbxEvent; simp
@[simp] theorem mbxEvent_dies (e : Env) (m : Mod) (c : Status) : (m.mbxEvent e c).dies = m.dies := by unfold Mod.mbxEvent; simp
@[simp] theorem mbxEvent_udies (e : Env) (m : Mod) (c : Status) : (m.mbxEvent e c).udies = m.udies := by unfold Mod.mbxEvent; simp
@[simp] theorem mbxEvent_fab (e : Env) (m : Mod) (c : Status) : (m.mbxEvent e c).fab = m.fab := by unfold Mod.mbxEvent; simp
@[simp] theorem mbxEvent_ing (e : Env) (m : Mod) (c : Status) : (m.mbxEvent e c).ing = m.ing := by unfold Mod.mbxEvent; simp
@[simp] theorem mbxEvent_flt (e : Env) (m : Mod) (c : Status) : (m.mbxEvent e c).flt = m.flt := by unfold Mod.mbxEvent; simp
@[simp] theorem mbxEvent_pressed (e : Env) (m : Mod) (c : Status) : (m.mbxEvent e c).pressed = m.pressed := by unfold Mod.mbxEvent; simp
@[simp] theorem mbxEvent_lateMax (e : Env) (m : Mod) (c : Status) : (m.mbxEvent e c).lateMax = m.lateMax := by unfold Mod.mbxEvent; simp
@[simp] theorem mbxEvent_lateCount (e : Env) (m : Mod) (c : Status) : (m.mbxEvent e c).lateCount = m.lateCount := by unfold Mod.mbxEvent; simp
@[simp] theorem mbxEvent_tick (e : Env) (m : Mod) (c : Status) : (m.mbxEvent e c).tick = m.tick := by unfold Mod.mbxEvent; simp

/-! Completions and the service of the queues: they write the mailbox, the MSI-X state and the host side. -/

@[simp] theorem post_life (m : Mod) (n : Nat) (en : List Byte) (irq : Bool) : (m.post n en irq).life = m.life := by
  unfold Mod.post; split; · rfl
  split; · rfl
  simp only []; split <;> simp
@[simp] theorem post_flash (m : Mod) (n : Nat) (en : List Byte) (irq : Bool) : (m.post n en irq).flash = m.flash := by
  unfold Mod.post; split; · rfl
  split; · rfl
  simp only []; split <;> simp
@[simp] theorem post_flashOld (m : Mod) (n : Nat) (en : List Byte) (irq : Bool) : (m.post n en irq).flashOld = m.flashOld := by
  unfold Mod.post; split; · rfl
  split; · rfl
  simp only []; split <;> simp
@[simp] theorem post_flashOpen (m : Mod) (n : Nat) (en : List Byte) (irq : Bool) : (m.post n en irq).flashOpen = m.flashOpen := by
  unfold Mod.post; split; · rfl
  split; · rfl
  simp only []; split <;> simp
@[simp] theorem post_tally (m : Mod) (n : Nat) (en : List Byte) (irq : Bool) : (m.post n en irq).tally = m.tally := by
  unfold Mod.post; split; · rfl
  split; · rfl
  simp only []; split <;> simp
@[simp] theorem post_recs (m : Mod) (n : Nat) (en : List Byte) (irq : Bool) : (m.post n en irq).recs = m.recs := by
  unfold Mod.post; split; · rfl
  split; · rfl
  simp only []; split <;> simp
@[simp] theorem post_pwr (m : Mod) (n : Nat) (en : List Byte) (irq : Bool) : (m.post n en irq).pwr = m.pwr := by
  unfold Mod.post; split; · rfl
  split; · rfl
  simp only []; split <;> simp
@[simp] theorem post_ptb (m : Mod) (n : Nat) (en : List Byte) (irq : Bool) : (m.post n en irq).ptb = m.ptb := by
  unfold Mod.post; split; · rfl
  split; · rfl
  simp only []; split <;> simp
@[simp] theorem post_mem (m : Mod) (n : Nat) (en : List Byte) (irq : Bool) : (m.post n en irq).mem = m.mem := by
  unfold Mod.post; split; · rfl
  split; · rfl
  simp only []; split <;> simp
@[simp] theorem post_graphs (m : Mod) (n : Nat) (en : List Byte) (irq : Bool) : (m.post n en irq).graphs = m.graphs := by
  unfold Mod.post; split; · rfl
  split; · rfl
  simp only []; split <;> simp
@[simp] theorem post_slots (m : Mod) (n : Nat) (en : List Byte) (irq : Bool) : (m.post n en irq).slots = m.slots := by
  unfold Mod.post; split; · rfl
  split; · rfl
  simp only []; split <;> simp
@[simp] theorem post_dies (m : Mod) (n : Nat) (en : List Byte) (irq : Bool) : (m.post n en irq).dies = m.dies := by
  unfold Mod.post; split; · rfl
  split; · rfl
  simp only []; split <;> simp
@[simp] theorem post_udies (m : Mod) (n : Nat) (en : List Byte) (irq : Bool) : (m.post n en irq).udies = m.udies := by
  unfold Mod.post; split; · rfl
  split; · rfl
  simp only []; split <;> simp
@[simp] theorem post_fab (m : Mod) (n : Nat) (en : List Byte) (irq : Bool) : (m.post n en irq).fab = m.fab := by
  unfold Mod.post; split; · rfl
  split; · rfl
  simp only []; split <;> simp
@[simp] theorem post_ing (m : Mod) (n : Nat) (en : List Byte) (irq : Bool) : (m.post n en irq).ing = m.ing := by
  unfold Mod.post; split; · rfl
  split; · rfl
  simp only []; split <;> simp
@[simp] theorem post_flt (m : Mod) (n : Nat) (en : List Byte) (irq : Bool) : (m.post n en irq).flt = m.flt := by
  unfold Mod.post; split; · rfl
  split; · rfl
  simp only []; split <;> simp
@[simp] theorem post_pressed (m : Mod) (n : Nat) (en : List Byte) (irq : Bool) : (m.post n en irq).pressed = m.pressed := by
  unfold Mod.post; split; · rfl
  split; · rfl
  simp only []; split <;> simp
@[simp] theorem post_lateMax (m : Mod) (n : Nat) (en : List Byte) (irq : Bool) : (m.post n en irq).lateMax = m.lateMax := by
  unfold Mod.post; split; · rfl
  split; · rfl
  simp only []; split <;> simp
@[simp] theorem post_lateCount (m : Mod) (n : Nat) (en : List Byte) (irq : Bool) : (m.post n en irq).lateCount = m.lateCount := by
  unfold Mod.post; split; · rfl
  split; · rfl
  simp only []; split <;> simp
@[simp] theorem post_tick (m : Mod) (n : Nat) (en : List Byte) (irq : Bool) : (m.post n en irq).tick = m.tick := by
  unfold Mod.post; split; · rfl
  split; · rfl
  simp only []; split <;> simp

@[simp] theorem postEntry_life (e : Env) (m : Mod) (n : Nat) (en : List Byte) (c : Status) (fl : Nat) (r : List Byte) : (m.postEntry e n en c fl r).life = m.life := by
  unfold Mod.postEntry; split; · rfl
  simp
@[simp] theorem postEntry_flash (e : Env) (m : Mod) (n : Nat) (en : List Byte) (c : Status) (fl : Nat) (r : List Byte) : (m.postEntry e n en c fl r).flash = m.flash := by
  unfold Mod.postEntry; split; · rfl
  simp
@[simp] theorem postEntry_flashOld (e : Env) (m : Mod) (n : Nat) (en : List Byte) (c : Status) (fl : Nat) (r : List Byte) : (m.postEntry e n en c fl r).flashOld = m.flashOld := by
  unfold Mod.postEntry; split; · rfl
  simp
@[simp] theorem postEntry_flashOpen (e : Env) (m : Mod) (n : Nat) (en : List Byte) (c : Status) (fl : Nat) (r : List Byte) : (m.postEntry e n en c fl r).flashOpen = m.flashOpen := by
  unfold Mod.postEntry; split; · rfl
  simp
@[simp] theorem postEntry_tally (e : Env) (m : Mod) (n : Nat) (en : List Byte) (c : Status) (fl : Nat) (r : List Byte) : (m.postEntry e n en c fl r).tally = m.tally := by
  unfold Mod.postEntry; split; · rfl
  simp
@[simp] theorem postEntry_recs (e : Env) (m : Mod) (n : Nat) (en : List Byte) (c : Status) (fl : Nat) (r : List Byte) : (m.postEntry e n en c fl r).recs = m.recs := by
  unfold Mod.postEntry; split; · rfl
  simp
@[simp] theorem postEntry_pwr (e : Env) (m : Mod) (n : Nat) (en : List Byte) (c : Status) (fl : Nat) (r : List Byte) : (m.postEntry e n en c fl r).pwr = m.pwr := by
  unfold Mod.postEntry; split; · rfl
  simp
@[simp] theorem postEntry_ptb (e : Env) (m : Mod) (n : Nat) (en : List Byte) (c : Status) (fl : Nat) (r : List Byte) : (m.postEntry e n en c fl r).ptb = m.ptb := by
  unfold Mod.postEntry; split; · rfl
  simp
@[simp] theorem postEntry_mem (e : Env) (m : Mod) (n : Nat) (en : List Byte) (c : Status) (fl : Nat) (r : List Byte) : (m.postEntry e n en c fl r).mem = m.mem := by
  unfold Mod.postEntry; split; · rfl
  simp
@[simp] theorem postEntry_graphs (e : Env) (m : Mod) (n : Nat) (en : List Byte) (c : Status) (fl : Nat) (r : List Byte) : (m.postEntry e n en c fl r).graphs = m.graphs := by
  unfold Mod.postEntry; split; · rfl
  simp
@[simp] theorem postEntry_slots (e : Env) (m : Mod) (n : Nat) (en : List Byte) (c : Status) (fl : Nat) (r : List Byte) : (m.postEntry e n en c fl r).slots = m.slots := by
  unfold Mod.postEntry; split; · rfl
  simp
@[simp] theorem postEntry_dies (e : Env) (m : Mod) (n : Nat) (en : List Byte) (c : Status) (fl : Nat) (r : List Byte) : (m.postEntry e n en c fl r).dies = m.dies := by
  unfold Mod.postEntry; split; · rfl
  simp
@[simp] theorem postEntry_udies (e : Env) (m : Mod) (n : Nat) (en : List Byte) (c : Status) (fl : Nat) (r : List Byte) : (m.postEntry e n en c fl r).udies = m.udies := by
  unfold Mod.postEntry; split; · rfl
  simp
@[simp] theorem postEntry_fab (e : Env) (m : Mod) (n : Nat) (en : List Byte) (c : Status) (fl : Nat) (r : List Byte) : (m.postEntry e n en c fl r).fab = m.fab := by
  unfold Mod.postEntry; split; · rfl
  simp
@[simp] theorem postEntry_ing (e : Env) (m : Mod) (n : Nat) (en : List Byte) (c : Status) (fl : Nat) (r : List Byte) : (m.postEntry e n en c fl r).ing = m.ing := by
  unfold Mod.postEntry; split; · rfl
  simp
@[simp] theorem postEntry_flt (e : Env) (m : Mod) (n : Nat) (en : List Byte) (c : Status) (fl : Nat) (r : List Byte) : (m.postEntry e n en c fl r).flt = m.flt := by
  unfold Mod.postEntry; split; · rfl
  simp
@[simp] theorem postEntry_pressed (e : Env) (m : Mod) (n : Nat) (en : List Byte) (c : Status) (fl : Nat) (r : List Byte) : (m.postEntry e n en c fl r).pressed = m.pressed := by
  unfold Mod.postEntry; split; · rfl
  simp
@[simp] theorem postEntry_lateMax (e : Env) (m : Mod) (n : Nat) (en : List Byte) (c : Status) (fl : Nat) (r : List Byte) : (m.postEntry e n en c fl r).lateMax = m.lateMax := by
  unfold Mod.postEntry; split; · rfl
  simp
@[simp] theorem postEntry_lateCount (e : Env) (m : Mod) (n : Nat) (en : List Byte) (c : Status) (fl : Nat) (r : List Byte) : (m.postEntry e n en c fl r).lateCount = m.lateCount := by
  unfold Mod.postEntry; split; · rfl
  simp
@[simp] theorem postEntry_tick (e : Env) (m : Mod) (n : Nat) (en : List Byte) (c : Status) (fl : Nat) (r : List Byte) : (m.postEntry e n en c fl r).tick = m.tick := by
  unfold Mod.postEntry; split; · rfl
  simp

@[simp] theorem serve_life (k : Nat) (e : Env) (m : Mod) : (m.serve k e).life = m.life := by
  induction k generalizing m with
  | zero => rfl
  | succ k ih =>
    unfold Mod.serve
    split; · rfl
    split; · rfl
    split; · rfl
    dsimp only
    split; · rfl
    rw [ih]; simp
@[simp] theorem serve_flash (k : Nat) (e : Env) (m : Mod) : (m.serve k e).flash = m.flash := by
  induction k generalizing m with
  | zero => rfl
  | succ k ih =>
    unfold Mod.serve
    split; · rfl
    split; · rfl
    split; · rfl
    dsimp only
    split; · rfl
    rw [ih]; simp
@[simp] theorem serve_flashOld (k : Nat) (e : Env) (m : Mod) : (m.serve k e).flashOld = m.flashOld := by
  induction k generalizing m with
  | zero => rfl
  | succ k ih =>
    unfold Mod.serve
    split; · rfl
    split; · rfl
    split; · rfl
    dsimp only
    split; · rfl
    rw [ih]; simp
@[simp] theorem serve_flashOpen (k : Nat) (e : Env) (m : Mod) : (m.serve k e).flashOpen = m.flashOpen := by
  induction k generalizing m with
  | zero => rfl
  | succ k ih =>
    unfold Mod.serve
    split; · rfl
    split; · rfl
    split; · rfl
    dsimp only
    split; · rfl
    rw [ih]; simp
@[simp] theorem serve_recs (k : Nat) (e : Env) (m : Mod) : (m.serve k e).recs = m.recs := by
  induction k generalizing m with
  | zero => rfl
  | succ k ih =>
    unfold Mod.serve
    split; · rfl
    split; · rfl
    split; · rfl
    dsimp only
    split; · rfl
    rw [ih]; simp
@[simp] theorem serve_pwr (k : Nat) (e : Env) (m : Mod) : (m.serve k e).pwr = m.pwr := by
  induction k generalizing m with
  | zero => rfl
  | succ k ih =>
    unfold Mod.serve
    split; · rfl
    split; · rfl
    split; · rfl
    dsimp only
    split; · rfl
    rw [ih]; simp
@[simp] theorem serve_ptb (k : Nat) (e : Env) (m : Mod) : (m.serve k e).ptb = m.ptb := by
  induction k generalizing m with
  | zero => rfl
  | succ k ih =>
    unfold Mod.serve
    split; · rfl
    split; · rfl
    split; · rfl
    dsimp only
    split; · rfl
    rw [ih]; simp
@[simp] theorem serve_mem (k : Nat) (e : Env) (m : Mod) : (m.serve k e).mem = m.mem := by
  induction k generalizing m with
  | zero => rfl
  | succ k ih =>
    unfold Mod.serve
    split; · rfl
    split; · rfl
    split; · rfl
    dsimp only
    split; · rfl
    rw [ih]; simp
@[simp] theorem serve_graphs (k : Nat) (e : Env) (m : Mod) : (m.serve k e).graphs = m.graphs := by
  induction k generalizing m with
  | zero => rfl
  | succ k ih =>
    unfold Mod.serve
    split; · rfl
    split; · rfl
    split; · rfl
    dsimp only
    split; · rfl
    rw [ih]; simp
@[simp] theorem serve_slots (k : Nat) (e : Env) (m : Mod) : (m.serve k e).slots = m.slots := by
  induction k generalizing m with
  | zero => rfl
  | succ k ih =>
    unfold Mod.serve
    split; · rfl
    split; · rfl
    split; · rfl
    dsimp only
    split; · rfl
    rw [ih]; simp
@[simp] theorem serve_dies (k : Nat) (e : Env) (m : Mod) : (m.serve k e).dies = m.dies := by
  induction k generalizing m with
  | zero => rfl
  | succ k ih =>
    unfold Mod.serve
    split; · rfl
    split; · rfl
    split; · rfl
    dsimp only
    split; · rfl
    rw [ih]; simp
@[simp] theorem serve_udies (k : Nat) (e : Env) (m : Mod) : (m.serve k e).udies = m.udies := by
  induction k generalizing m with
  | zero => rfl
  | succ k ih =>
    unfold Mod.serve
    split; · rfl
    split; · rfl
    split; · rfl
    dsimp only
    split; · rfl
    rw [ih]; simp
@[simp] theorem serve_fab (k : Nat) (e : Env) (m : Mod) : (m.serve k e).fab = m.fab := by
  induction k generalizing m with
  | zero => rfl
  | succ k ih =>
    unfold Mod.serve
    split; · rfl
    split; · rfl
    split; · rfl
    dsimp only
    split; · rfl
    rw [ih]; simp
@[simp] theorem serve_ing (k : Nat) (e : Env) (m : Mod) : (m.serve k e).ing = m.ing := by
  induction k generalizing m with
  | zero => rfl
  | succ k ih =>
    unfold Mod.serve
    split; · rfl
    split; · rfl
    split; · rfl
    dsimp only
    split; · rfl
    rw [ih]; simp
@[simp] theorem serve_flt (k : Nat) (e : Env) (m : Mod) : (m.serve k e).flt = m.flt := by
  induction k generalizing m with
  | zero => rfl
  | succ k ih =>
    unfold Mod.serve
    split; · rfl
    split; · rfl
    split; · rfl
    dsimp only
    split; · rfl
    rw [ih]; simp
@[simp] theorem serve_pressed (k : Nat) (e : Env) (m : Mod) : (m.serve k e).pressed = m.pressed := by
  induction k generalizing m with
  | zero => rfl
  | succ k ih =>
    unfold Mod.serve
    split; · rfl
    split; · rfl
    split; · rfl
    dsimp only
    split; · rfl
    rw [ih]; simp
@[simp] theorem serve_lateMax (k : Nat) (e : Env) (m : Mod) : (m.serve k e).lateMax = m.lateMax := by
  induction k generalizing m with
  | zero => rfl
  | succ k ih =>
    unfold Mod.serve
    split; · rfl
    split; · rfl
    split; · rfl
    dsimp only
    split; · rfl
    rw [ih]; simp
@[simp] theorem serve_lateCount (k : Nat) (e : Env) (m : Mod) : (m.serve k e).lateCount = m.lateCount := by
  induction k generalizing m with
  | zero => rfl
  | succ k ih =>
    unfold Mod.serve
    split; · rfl
    split; · rfl
    split; · rfl
    dsimp only
    split; · rfl
    rw [ih]; simp
@[simp] theorem serve_tick (k : Nat) (e : Env) (m : Mod) : (m.serve k e).tick = m.tick := by
  induction k generalizing m with
  | zero => rfl
  | succ k ih =>
    unfold Mod.serve
    split; · rfl
    split; · rfl
    split; · rfl
    dsimp only
    split; · rfl
    rw [ih]; simp

@[simp] theorem serveAll_life (e : Env) (m : Mod) : (m.serveAll e).life = m.life := by unfold Mod.serveAll; simp
@[simp] theorem serveAll_flash (e : Env) (m : Mod) : (m.serveAll e).flash = m.flash := by unfold Mod.serveAll; simp
@[simp] theorem serveAll_flashOld (e : Env) (m : Mod) : (m.serveAll e).flashOld = m.flashOld := by unfold Mod.serveAll; simp
@[simp] theorem serveAll_flashOpen (e : Env) (m : Mod) : (m.serveAll e).flashOpen = m.flashOpen := by unfold Mod.serveAll; simp
@[simp] theorem serveAll_recs (e : Env) (m : Mod) : (m.serveAll e).recs = m.recs := by unfold Mod.serveAll; simp
@[simp] theorem serveAll_pwr (e : Env) (m : Mod) : (m.serveAll e).pwr = m.pwr := by unfold Mod.serveAll; simp
@[simp] theorem serveAll_ptb (e : Env) (m : Mod) : (m.serveAll e).ptb = m.ptb := by unfold Mod.serveAll; simp
@[simp] theorem serveAll_mem (e : Env) (m : Mod) : (m.serveAll e).mem = m.mem := by unfold Mod.serveAll; simp
@[simp] theorem serveAll_graphs (e : Env) (m : Mod) : (m.serveAll e).graphs = m.graphs := by unfold Mod.serveAll; simp
@[simp] theorem serveAll_slots (e : Env) (m : Mod) : (m.serveAll e).slots = m.slots := by unfold Mod.serveAll; simp
@[simp] theorem serveAll_dies (e : Env) (m : Mod) : (m.serveAll e).dies = m.dies := by unfold Mod.serveAll; simp
@[simp] theorem serveAll_udies (e : Env) (m : Mod) : (m.serveAll e).udies = m.udies := by unfold Mod.serveAll; simp
@[simp] theorem serveAll_fab (e : Env) (m : Mod) : (m.serveAll e).fab = m.fab := by unfold Mod.serveAll; simp
@[simp] theorem serveAll_ing (e : Env) (m : Mod) : (m.serveAll e).ing = m.ing := by unfold Mod.serveAll; simp
@[simp] theorem serveAll_flt (e : Env) (m : Mod) : (m.serveAll e).flt = m.flt := by unfold Mod.serveAll; simp
@[simp] theorem serveAll_pressed (e : Env) (m : Mod) : (m.serveAll e).pressed = m.pressed := by unfold Mod.serveAll; simp
@[simp] theorem serveAll_lateMax (e : Env) (m : Mod) : (m.serveAll e).lateMax = m.lateMax := by unfold Mod.serveAll; simp
@[simp] theorem serveAll_lateCount (e : Env) (m : Mod) : (m.serveAll e).lateCount = m.lateCount := by unfold Mod.serveAll; simp
@[simp] theorem serveAll_tick (e : Env) (m : Mod) : (m.serveAll e).tick = m.tick := by unfold Mod.serveAll; simp

@[simp] theorem complete_life (e : Env) (m : Mod) (n : Nat) (en : List Byte) (c : Status) (r : List Byte) : (m.complete e n en c r).life = m.life := by unfold Mod.complete; simp
@[simp] theorem complete_flash (e : Env) (m : Mod) (n : Nat) (en : List Byte) (c : Status) (r : List Byte) : (m.complete e n en c r).flash = m.flash := by unfold Mod.complete; simp
@[simp] theorem complete_flashOld (e : Env) (m : Mod) (n : Nat) (en : List Byte) (c : Status) (r : List Byte) : (m.complete e n en c r).flashOld = m.flashOld := by unfold Mod.complete; simp
@[simp] theorem complete_flashOpen (e : Env) (m : Mod) (n : Nat) (en : List Byte) (c : Status) (r : List Byte) : (m.complete e n en c r).flashOpen = m.flashOpen := by unfold Mod.complete; simp
@[simp] theorem complete_recs (e : Env) (m : Mod) (n : Nat) (en : List Byte) (c : Status) (r : List Byte) : (m.complete e n en c r).recs = m.recs := by unfold Mod.complete; simp
@[simp] theorem complete_pwr (e : Env) (m : Mod) (n : Nat) (en : List Byte) (c : Status) (r : List Byte) : (m.complete e n en c r).pwr = m.pwr := by unfold Mod.complete; simp
@[simp] theorem complete_ptb (e : Env) (m : Mod) (n : Nat) (en : List Byte) (c : Status) (r : List Byte) : (m.complete e n en c r).ptb = m.ptb := by unfold Mod.complete; simp
@[simp] theorem complete_mem (e : Env) (m : Mod) (n : Nat) (en : List Byte) (c : Status) (r : List Byte) : (m.complete e n en c r).mem = m.mem := by unfold Mod.complete; simp
@[simp] theorem complete_graphs (e : Env) (m : Mod) (n : Nat) (en : List Byte) (c : Status) (r : List Byte) : (m.complete e n en c r).graphs = m.graphs := by unfold Mod.complete; simp
@[simp] theorem complete_slots (e : Env) (m : Mod) (n : Nat) (en : List Byte) (c : Status) (r : List Byte) : (m.complete e n en c r).slots = m.slots := by unfold Mod.complete; simp
@[simp] theorem complete_dies (e : Env) (m : Mod) (n : Nat) (en : List Byte) (c : Status) (r : List Byte) : (m.complete e n en c r).dies = m.dies := by unfold Mod.complete; simp
@[simp] theorem complete_udies (e : Env) (m : Mod) (n : Nat) (en : List Byte) (c : Status) (r : List Byte) : (m.complete e n en c r).udies = m.udies := by unfold Mod.complete; simp
@[simp] theorem complete_fab (e : Env) (m : Mod) (n : Nat) (en : List Byte) (c : Status) (r : List Byte) : (m.complete e n en c r).fab = m.fab := by unfold Mod.complete; simp
@[simp] theorem complete_ing (e : Env) (m : Mod) (n : Nat) (en : List Byte) (c : Status) (r : List Byte) : (m.complete e n en c r).ing = m.ing := by unfold Mod.complete; simp
@[simp] theorem complete_flt (e : Env) (m : Mod) (n : Nat) (en : List Byte) (c : Status) (r : List Byte) : (m.complete e n en c r).flt = m.flt := by unfold Mod.complete; simp
@[simp] theorem complete_pressed (e : Env) (m : Mod) (n : Nat) (en : List Byte) (c : Status) (r : List Byte) : (m.complete e n en c r).pressed = m.pressed := by unfold Mod.complete; simp
@[simp] theorem complete_lateMax (e : Env) (m : Mod) (n : Nat) (en : List Byte) (c : Status) (r : List Byte) : (m.complete e n en c r).lateMax = m.lateMax := by unfold Mod.complete; simp
@[simp] theorem complete_lateCount (e : Env) (m : Mod) (n : Nat) (en : List Byte) (c : Status) (r : List Byte) : (m.complete e n en c r).lateCount = m.lateCount := by unfold Mod.complete; simp
@[simp] theorem complete_tick (e : Env) (m : Mod) (n : Nat) (en : List Byte) (c : Status) (r : List Byte) : (m.complete e n en c r).tick = m.tick := by unfold Mod.complete; simp

/-! The state around the module. -/

/-- What a command that runs on the module answers. -/
theorem runMod_next (f : Env → Mod → Mod) (s : State) : runMod f s = .next { s with mod := f ⟨s.fuses, s.time⟩ s.mod } := rfl

/-- A command that is not the one in service does nothing. -/
theorem command_idle (m : Mod) (op : Nat) (ok : List Byte → Bool) (f : Nat → List Byte → Mod) (h : m.mbx.inService = none) :
    m.command op ok f = m := by simp [Mod.command, h]

/-- The command in service runs. -/
theorem command_run (m : Mod) (op n : Nat) (ok : List Byte → Bool) (ent : List Byte) (f : Nat → List Byte → Mod)
    (h : m.mbx.inService = some (n, ent)) (ho : entOpcode ent = op) (hk : ok ent = true) : m.command op ok f = f n ent := by
  simp [Mod.command, h, ho, hk]

end Sys2Proof.Machine
end

