-- ==== Sys2Proof/Laws/Tile.lean ====
section
/-! SUPPORT. Lemmas about vectors, tiles and run states: reading what was changed and what was not, and what ending a take does. -/

namespace Sys2Proof.Machine

/-! Vectors and lists. -/

theorem vmod_same {α : Type} {n : Nat} (v : Vector α n) (i : Fin n) (f : α → α) : (vmod v i f)[i.val] = f v[i.val] := by
  simp [vmod]

theorem vmod_other {α : Type} {n : Nat} (v : Vector α n) (i j : Fin n) (f : α → α) (h : j ≠ i) : (vmod v i f)[j.val] = v[j.val] := by
  simp only [vmod]
  exact Vector.getElem_set_ne i.isLt j.isLt (fun e => h (Fin.ext e.symm))

theorem vmod_vmod {α : Type} {n : Nat} (v : Vector α n) (i : Fin n) (f g : α → α) : vmod (vmod v i f) i g = vmod v i (fun x => g (f x)) := by
  simp [vmod]

theorem vmod_id {α : Type} {n : Nat} (v : Vector α n) (i : Fin n) : vmod v i (fun x => x) = v := by
  simp [vmod]

theorem vmod_congr {α : Type} {n : Nat} (v : Vector α n) (i : Fin n) (f g : α → α) (h : f v[i.val] = g v[i.val]) :
    vmod v i f = vmod v i g := by
  simp [vmod, h]

theorem vget_vmodN_same {α : Type} {n : Nat} (v : Vector α n) (i : Nat) (f : α → α) (d : α) (h : i < n) :
    vget (vmodN v i f) i d = f (vget v i d) := by
  simp [vget, vmodN, h]

theorem vget_vmodN_other {α : Type} {n : Nat} (v : Vector α n) (i j : Nat) (f : α → α) (d : α) (h : j ≠ i) :
    vget (vmodN v i f) j d = vget v j d := by
  simp only [vget, vmodN]
  split
  · split
    · exact Vector.getElem_set_ne _ _ (fun e => h e.symm)
    · rfl
  · rfl

theorem lmod_length {α : Type} (l : List α) (i : Nat) (f : α → α) : (lmod l i f).length = l.length := by
  induction l generalizing i with
  | nil => simp [lmod]
  | cons x xs ih => cases i <;> simp [lmod, ih]

theorem lmod_get_same {α : Type} (l : List α) (i : Nat) (f : α → α) : (lmod l i f)[i]? = (l[i]?).map f := by
  induction l generalizing i with
  | nil => simp [lmod]
  | cons x xs ih => cases i <;> simp [lmod, ih]

theorem lmod_get_other {α : Type} (l : List α) (i j : Nat) (f : α → α) (h : j ≠ i) : (lmod l i f)[j]? = l[j]? := by
  induction l generalizing i j with
  | nil => simp [lmod]
  | cons x xs ih =>
    cases i with
    | zero => cases j with
      | zero => exact absurd rfl h
      | succ j => simp [lmod]
    | succ i => cases j with
      | zero => simp [lmod]
      | succ j => simpa [lmod] using ih i j (fun e => h (by rw [e]))

/-! Tiles. -/

@[simp] theorem tile_updTile_same (m : Mod) (d : Fin 12) (t : Fin 64) (f : Tile → Tile) : (m.updTile d t f).tile d t = f (m.tile d t) := by
  simp [Mod.tile, Mod.updTile, Mod.updDie, vmod_same]

theorem tile_updTile_other (m : Mod) (d k : Fin 12) (t u : Fin 64) (f : Tile → Tile) (h : k ≠ d ∨ u ≠ t) :
    (m.updTile d t f).tile k u = m.tile k u := by
  unfold Mod.tile Mod.updTile Mod.updDie
  by_cases hk : k = d
  · subst hk
    simp [vmod_same, vmod_other _ _ _ _ (h.resolve_left (fun e => e rfl))]
  · simp [vmod_other _ _ _ _ hk]

theorem die_updTile_other (m : Mod) (d k : Fin 12) (t : Fin 64) (f : Tile → Tile) (h : k ≠ d) :
    (m.updTile d t f).dies[k.val] = m.dies[k.val] := by
  simp only [Mod.updTile, Mod.updDie]
  exact vmod_other _ _ _ _ h

/-- Two changes of one tile are one. -/
theorem updTile_updTile (m : Mod) (d : Fin 12) (t : Fin 64) (f g : Tile → Tile) :
    (m.updTile d t f).updTile d t g = m.updTile d t (fun x => g (f x)) := by
  simp [Mod.updTile, Mod.updDie, vmod_vmod]

theorem updTile_congr (m : Mod) (d : Fin 12) (t : Fin 64) (f g : Tile → Tile) (h : f (m.tile d t) = g (m.tile d t)) :
    m.updTile d t f = m.updTile d t g := by
  simp only [Mod.updTile, Mod.updDie]
  congr 1
  apply vmod_congr
  congr 1
  exact vmod_congr _ _ _ _ h

theorem updTile_const (m : Mod) (d : Fin 12) (t : Fin 64) (f : Tile → Tile) :
    m.updTile d t f = m.updTile d t (fun _ => f (m.tile d t)) :=
  updTile_congr m d t _ _ rfl

theorem updTile_id (m : Mod) (d : Fin 12) (t : Fin 64) : m.updTile d t (fun x => x) = m := by
  simp [Mod.updTile, Mod.updDie, vmod_id]

/-- A command that changes one tile by a function. -/
theorem onTile_of {c : Instr} {s : State} {d : Fin 12} {t : Fin 64} {f : Tile → Tile} {P : Tile → Prop}
    (h : exec c s = .next { s with mod := s.mod.updTile d t f }) (hp : P (f (s.mod.tile d t))) : OnTile c s d t P :=
  ⟨f (s.mod.tile d t), by rw [h, updTile_const], hp⟩

/-! Run states. -/

theorem find_updRun_same (m : Mod) (g n : Nat) (f : NRun → NRun) :
    Tbl.find (m.updRun g n f).graphs g = (Tbl.find m.graphs g).map (fun x => { x with run := lmod x.run n f }) := by
  simp [Mod.updRun, Mod.updGraph, find_upd_same]

theorem find_updRun_other (m : Mod) (g k n : Nat) (f : NRun → NRun) (h : k ≠ g) :
    Tbl.find (m.updRun g n f).graphs k = Tbl.find m.graphs k := by
  simp [Mod.updRun, Mod.updGraph, find_upd_other _ _ _ _ h]

theorem runOf_lmod_other (x : Graph) (n k : Nat) (f : NRun → NRun) (h : k ≠ n) :
    ({ x with run := lmod x.run n f } : Graph).runOf k = x.runOf k := by
  simp [Graph.runOf, List.getD_eq_getElem?_getD, lmod_get_other _ _ _ _ h]

theorem runOf_lmod_same (x : Graph) (n : Nat) (f : NRun → NRun) (h : n < x.run.length) :
    ({ x with run := lmod x.run n f } : Graph).runOf n = f (x.runOf n) := by
  simp [Graph.runOf, List.getD_eq_getElem?_getD, lmod_get_same, List.getElem?_eq_getElem h]

/-- A node that runs is a node of its graph. -/
theorem running_lt (x : Graph) (n : Nat) (h : (x.runOf n).isRunning = true) : n < x.run.length := by
  rcases Nat.lt_or_ge n x.run.length with hl | hl
  · exact hl
  · simp [Graph.runOf, List.getD_eq_getElem?_getD, List.getElem?_eq_none hl, NRun.isRunning, NRun.fresh] at h

/-- What a live tile says of its task (R299). -/
theorem tileLive_cases (m : Mod) (d : Fin 12) (t : Fin 64) (h : m.tileLive d t = true) :
    ∃ gr g n, (m.tile d t).owner = some (g, n) ∧ Tbl.find m.graphs g = some gr ∧ m.ownerOf d t = some (gr, g, n) ∧
      (gr.runOf n).isRunning = true ∧ (gr.runOf n).outcome = none ∧ (m.tile d t).outcome = none ∧ (m.tile d t).finished = false ∧
      m.unitUp d.val = true := by
  unfold Mod.tileLive at h
  cases ho : m.ownerOf d t with
  | none => simp [ho] at h
  | some y =>
    obtain ⟨gr, g, n⟩ := y
    unfold Mod.ownerOf at ho
    cases hw : (m.tile d t).owner with
    | none => simp [hw] at ho
    | some p =>
      obtain ⟨g', n'⟩ := p
      simp only [hw, Option.map_eq_some_iff] at ho
      obtain ⟨x, hx, he⟩ := ho
      simp only [Prod.mk.injEq] at he
      obtain ⟨rfl, rfl, rfl⟩ := he
      have ho' : m.ownerOf d t = some (x, g', n') := by simp [Mod.ownerOf, hw, hx]
      simp only [ho', Bool.and_eq_true, Option.isNone_iff_eq_none, Bool.not_eq_true'] at h
      exact ⟨x, g', n', rfl, hx, rfl, h.1.1.1.1.1.1, h.1.1.1.1.1.2, h.1.1.1.1.2, h.1.1.1.2, h.2⟩

/-- Ending the take of a live tile's task: the tile and the task carry the status, and nothing else of the module changes. -/
theorem failTile_live (m : Mod) (d : Fin 12) (t : Fin 64) (st : Status) (detail : List Byte) (h : m.tileLive d t = true) :
    ∃ gr g n, (m.tile d t).owner = some (g, n) ∧ Tbl.find m.graphs g = some gr ∧
      m.failTile d t st detail = (m.updTile d t (fun x => { x with outcome := some st, fault := detail })).updRun g n
        (fun r => if r.outcome.isNone then { r with outcome := some st, detail := detail } else r) ∧
      (Tbl.find (m.failTile d t st detail).graphs g).map (fun y => (y.runOf n).outcome) = some (some st) := by
  obtain ⟨gr, g, n, ho, hf, -, hr, hn, hx, -⟩ := tileLive_cases m d t h
  have e : m.failTile d t st detail = (m.updTile d t (fun x => { x with outcome := some st, fault := detail })).updRun g n
      (fun r => if r.outcome.isNone then { r with outcome := some st, detail := detail } else r) := by
    simp only [Mod.failTile, ho]
    congr 1
    apply updTile_congr
    simp [hx]
  refine ⟨gr, g, n, ho, hf, e, ?_⟩
  rw [e, find_updRun_same]
  simp [hf, runOf_lmod_same _ _ _ (running_lt gr n hr), hn]

end Sys2Proof.Machine
end

