-- ==== Sys2Proof/Laws/Host.lean ====
section
/-! SUPPORT. Lemmas about the mailbox: the command in service, its completion, and what a completion leaves alone. -/

namespace Sys2Proof.Machine

/-- The command in service runs its own meaning. -/
theorem command_of_serves {m : Mod} {op n : Nat} {ent : List Byte} (h : m.serves op n ent) (ok : List Byte → Bool)
    (f : Nat → List Byte → Mod) (hok : ok ent = true) : m.command op ok f = f n ent := by
  obtain ⟨hs, ho, -⟩ := h
  simp [Mod.command, hs, ho, hok]

/-- A command whose opcode or form is not the one in service does nothing. -/
theorem command_other {m : Mod} {op op' n : Nat} {ent : List Byte} (h : m.serves op' n ent) (ok : List Byte → Bool)
    (f : Nat → List Byte → Mod) (hne : op' ≠ op ∨ ok ent = false) : m.command op ok f = m := by
  obtain ⟨hs, ho, -⟩ := h
  simp only [Mod.command, hs, ho]
  rcases hne with hne | hne
  · simp [hne]
  · simp [hne]

/-- Quietness rests on the queues alone. -/
theorem quiet_of_queues {m m' : Mod} (h : m.quiet) (e : m'.mbx.queues = m.mbx.queues) : m'.quiet := by
  intro n q hq
  apply h n q
  simpa [Mod.queue, e] using hq

/-- A change of one queue that leaves it nothing to fetch keeps the mailbox quiet. -/
theorem quiet_vmodN {m m' : Mod} (h : m.quiet) (k : Nat) (f : Option HQueue → Option HQueue)
    (e : m'.mbx.queues = vmodN m.mbx.queues k f) (hf : ∀ q, f (m.queue k) = some q → q.rung = []) : m'.quiet := by
  intro n q hq
  simp only [Mod.queue, e] at hq
  by_cases hn : n = k
  · subst hn
    by_cases hl : n < 64
    · rw [vget_vmodN_same _ _ _ _ hl] at hq
      exact hf q hq
    · simp [vget, hl] at hq
  · rw [vget_vmodN_other _ _ _ _ _ hn] at hq
    exact h n q hq

/-- With nothing to fetch there is no queue to serve. -/
theorem nextQueue_quiet {m : Mod} (h : m.quiet) : m.nextQueue = none := by
  unfold Mod.nextQueue
  extract_lets order ready
  have hr : ready = [] := by
    refine List.filterMap_eq_nil_iff.mpr (fun n _ => ?_)
    cases hq : m.queue n with
    | none => rfl
    | some q => simp [HQueue.ready, h n q hq]
  simp [hr]

theorem serve_quiet {m : Mod} (fuel : Nat) (e : Env) (h : m.quiet) : m.serve fuel e = m := by
  cases fuel with
  | zero => rfl
  | succ k => simp [Mod.serve, nextQueue_quiet h]

/-- Service of a quiet mailbox does nothing. -/
theorem serveAll_quiet {m : Mod} (e : Env) (h : m.quiet) : m.serveAll e = m := serve_quiet _ e h

/-- What a raised vector changes: the host side and the MSI-X bits. -/
theorem raise_frame (m : Mod) (v : Nat) : m.raise v = { m with host := (m.raise v).host, msix := (m.raise v).msix } := by
  simp only [Mod.raise, Mod.sendVector]
  split
  · rfl
  · split <;> rfl

theorem raiseQueue_frame (m : Mod) (v : Nat) :
    m.raiseQueue v = { m with host := (m.raiseQueue v).host, msix := (m.raiseQueue v).msix } := by
  simp only [Mod.raiseQueue]
  split
  · rw [raise_frame]
  · rfl

/-- What posting a completion changes: its queue, the host side and the MSI-X bits. -/
theorem post_frame (m : Mod) (n : Nat) (entry : List Byte) (irq : Bool) :
    m.post n entry irq = { m with mbx := (m.post n entry irq).mbx, host := (m.post n entry irq).host, msix := (m.post n entry irq).msix } := by
  simp only [Mod.post]
  split
  · rfl
  · split
    · rfl
    · split
      · rw [raiseQueue_frame]
      · rfl

theorem postEntry_frame (e : Env) (m : Mod) (n : Nat) (ent : List Byte) (st : Status) (k : Nat) (r : List Byte) :
    m.postEntry e n ent st k r = { m with mbx := (m.postEntry e n ent st k r).mbx, host := (m.postEntry e n ent st k r).host,
                                          msix := (m.postEntry e n ent st k r).msix } := by
  simp only [Mod.postEntry]
  split
  · rfl
  · rw [post_frame]

/-- Posting a completion adds no entry to fetch. -/
theorem post_quiet {m : Mod} (n : Nat) (entry : List Byte) (irq : Bool) (h : m.quiet) : (m.post n entry irq).quiet := by
  simp only [Mod.post]
  split
  · exact h
  · rename_i q hq
    split
    · refine quiet_vmodN h n (fun _ => some { q with held := q.held ++ [(irq, entry)] }) rfl ?_
      intro q' e
      simp only [Option.some.injEq] at e
      subst e
      exact h n q hq
    · have hm : ∀ x : Mod, x.mbx.queues = vmodN m.mbx.queues n (fun _ => some (q.write m.host.mem entry).1) → x.quiet := by
        intro x hx
        refine quiet_vmodN h n (fun _ => some (q.write m.host.mem entry).1) hx ?_
        intro q' e
        simp only [Option.some.injEq] at e
        subst e
        exact h n q hq
      split
      · exact hm _ (by simp)
      · exact hm _ rfl

theorem postEntry_quiet {m : Mod} (e : Env) (n : Nat) (ent : List Byte) (st : Status) (k : Nat) (r : List Byte) (h : m.quiet) :
    (m.postEntry e n ent st k r).quiet := by
  simp only [Mod.postEntry]
  split
  · exact h
  · exact post_quiet n _ _ h

/-- In a quiet mailbox a command's completion is its answer, and nothing else follows. -/
theorem complete_quiet {m : Mod} (e : Env) (n : Nat) (ent : List Byte) (st : Status) (r : List Byte) (h : m.quiet) :
    m.complete e n ent st r = m.answer e n ent st r := by
  have h' : ({ m with mbx.inService := none } : Mod).quiet := quiet_of_queues h rfl
  simp only [Mod.complete, Mod.answer]
  exact serveAll_quiet e (postEntry_quiet e n ent st 0 r h')

/-- What an answer changes: the mailbox, the host side and the MSI-X bits. -/
theorem answer_frame (e : Env) (m : Mod) (n : Nat) (ent : List Byte) (st : Status) (r : List Byte) :
    m.answer e n ent st r =
      { m with mbx := (m.answer e n ent st r).mbx, host := (m.answer e n ent st r).host, msix := (m.answer e n ent st r).msix } := by
  simp only [Mod.answer]
  rw [postEntry_frame]

end Sys2Proof.Machine
end

