-- ==== Sys2Proof/Tests/Slice0.lean ====
section
/-! SUPPORT. Tests: well-formed commands, a witness for each statement that has hypotheses, and single steps with values taken from the
spec. -/

namespace Sys2Proof.Tests

open Sys2Proof Sys2Proof.Machine

set_option Elab.async false

/-! Small states. -/

/-- A module in stage D. -/
def up : State := { State.reset with mod.life := { Life.cold with stage := 4, coldStart := false } }

/-- A task that runs on C0, with one part. -/
def running : NRun := { NRun.fresh with phase := .running, take := 1, on := [0], taken := [0], parts := [⟨false, 0, false, 0⟩] }

/-- A TILE node on C0, tile 0, with reel 7. -/
def tileNode : Node := { Node.blank with ty := 0x01, reel := 7, dieMask := 1, tileMask := 1 }

def header : GHeader :=
  { flags := 0, nnodes := 1, nedges := 0, nodeOff := 0, edgeOff := 0, stageOff := 0, nstages := 0, step := 0, seed := 0, cutNode := 0,
    cutBundle := 0, cutPass := 0, cutRegion := 5, imageLen := 0 }

/-- A graph of one node. -/
def graph (x : Node) (r : NRun) : Graph :=
  { seq := 0, ctx := 0, queue := 0, sqHead := 0, alive := 0, hdr := header, nodes := [x], edges := [], stages := [], run := [r], stash := [] }

/-- The module in stage D with one graph, handle 1. -/
def withGraph (g : Graph) : State := { up with mod := { up.mod with graphs := [(1, g)] } }

/-- A running TILE task on C0, tile 0, whose tile is as `f` makes it. -/
def tileState (f : Tile → Tile) : State :=
  let s := withGraph (graph tileNode running)
  { s with mod := s.mod.updTile 0 0 (fun x => f { x with owner := some (1, 0) }) }

/-- A queue pair with rings of 16 entries. -/
def ring : HQueue :=
  { sqBase := 0x1000, cqBase := 0x2000, log2Sq := 4, log2Cq := 4, vector := 3, context := 0, alive := 0, sqHead := 0, sqTail := 0,
    cqTail := 0, cqHead := 0, phase := true, rung := [], held := [] }

/-- A 64-byte command entry: an opcode and one argument byte at offset 8. -/
def entry (op arg : Nat) : List Byte := padTo 64 (natLe 8 op ++ natLe 1 arg)

/-- A module with queue 0, which serves a command. -/
def serving (ent : List Byte) (s : State) : State :=
  { s with mod := { s.mod with mbx := { s.mod.mbx with queues := vmodN (Vector.replicate 64 none) 0 (fun _ => some ring), inService := some (0, ent) } } }

/-- A PERSIST region of one page, handle 9, with a byte at 16. -/
def region : Region :=
  { cls := .persist, spread := false, die := 0, len := 4096, ctx := 0, bytes := [(16, 0xA5#8)], undef := [], poison := [], replayed := [], pages := [⟨0, 0, 0, 0⟩], states := [] }

def withRegion (r : Region) (s : State) : State := { s with mod := { s.mod with mem := { s.mod.mem with regions := [(9, r)] } } }

/-- The next state of a command has a property. -/
def gives (c : Instr) (s : State) (p : State → Bool) : Bool :=
  match exec c s with
  | .next t => p t
  | _ => false

theorem serving_queue (ent : List Byte) (s : State) (n : Nat) :
    (serving ent s).mod.queue n = if n = 0 then some ring else none := by
  by_cases h : n = 0
  · subst h; rfl
  · simp only [Mod.queue, serving, h, if_false]
    rw [vget_vmodN_other _ _ _ _ _ h]
    simp [vget]

/-- The queues of `serving` have no entry waiting. -/
theorem serving_quiet (ent : List Byte) (s : State) : (serving ent s).mod.quiet := by
  intro n q h
  rw [serving_queue] at h
  by_cases hn : n = 0
  · simp only [hn, if_true, Option.some.injEq] at h; subst h; rfl
  · simp [hn] at h

/-- `serving` serves its command. -/
theorem serving_serves (ent : List Byte) (s : State) (op : Nat) (h : entOpcode ent = op) : (serving ent s).mod.serves op 0 ent :=
  ⟨rfl, h, serving_quiet ent s⟩


/-! Ill-formed commands, one for each check, and a well-formed one beside it. -/

theorem test_wf_doorbell_entries : Instr.wf (.mbxSqDb 0 1 [[0, 0]]) = false ∧ Instr.wf (.mbxSqDb 0 1 [entry 1 0]) = true := by decide
theorem test_wf_queue0_create : Instr.wf (.mbxQ0CfgCreate 0x000400#64) = false ∧ Instr.wf (.mbxQ0CfgCreate 0x040401#64) = true := by decide
theorem test_wf_queue0_delete : Instr.wf (.mbxQ0CfgDelete 0x040401#64) = false ∧ Instr.wf (.mbxQ0CfgDelete 0x040400#64) = true := by decide
theorem test_wf_window_read : Instr.wf (.winMemRead 0xFFFFFFFFF 2) = false ∧ Instr.wf (.winMemRead 0 0) = false ∧
    Instr.wf (.winMemRead 0xFFFFFFFFF 1) = true := by decide
theorem test_wf_window_write : Instr.wf (.winMemWrite 0xFFFFFFFFF [1, 2]) = false ∧ Instr.wf (.winMemWrite 0 []) = false := by decide
theorem test_wf_tally_command : Instr.wf (.tlyStart 0x2#64) = false ∧ Instr.wf (.tlyResume 0x1#64) = false ∧
    Instr.wf (.tlyStart 0x101#64) = true := by decide
theorem test_wf_register_own_row : Instr.wf (.registerWrite 0x1008 8 0) = false ∧ Instr.wf (.registerWrite 0x300010 8 0) = false ∧
    Instr.wf (.registerWrite 0x4000000 8 0) = false ∧ Instr.wf (.registerWrite 0x0208 8 0) = true := by decide
theorem test_wf_trip : Instr.wf (.thermalTrip (.die 3) 114) = false ∧ Instr.wf (.thermalTrip (.stack 3) 104) = false ∧
    Instr.wf (.thermalTrip (.die 3) 256) = false ∧ Instr.wf (.thermalTrip (.die 3) 115) = true := by decide
theorem test_wf_undervolt : Instr.wf (.coreUndervolt 0 500) = false ∧ Instr.wf (.coreUndervolt 0 499) = true := by decide
theorem test_wf_ceilings : Instr.wf (.stageCReached [List.replicate 67 7] [] []) = false ∧ Instr.wf (.stageCReached [[8]] [] []) = false ∧
    Instr.wf (.stageCReached [List.replicate 66 7] [] []) = true := by decide
theorem test_wf_segment_length : Instr.wf (.ingestArrival 0 0 [1]) = false ∧ Instr.wf (.ingestArrival 0 0 (List.replicate 32 0)) = true := by decide
theorem test_wf_duty : Instr.wf (.paceMessage ⟨1, 3, 9, 1, 0⟩) = false ∧ Instr.wf (.paceMessage ⟨1, 3, 0, 1, 0⟩) = false ∧
    Instr.wf (.paceMessage ⟨1, 3, 8, 1, 0⟩) = true := by decide
theorem test_wf_cap_samples : Instr.wf (.capFastLoop 65536 0) = false ∧ Instr.wf (.capFastLoop 0 65536) = false ∧
    Instr.wf (.capSlowLoop 65536 0 []) = false ∧ Instr.wf (.capSlowLoop 0 65536 []) = false ∧ Instr.wf (.capSlowLoop 65535 65535 []) = true := by decide
theorem test_wf_temperatures : Instr.wf (.junctionRead 0 256) = false ∧ Instr.wf (.hbmTempRead 0 256) = false ∧
    Instr.wf (.junctionRead 0 255) = true := by decide
theorem test_wf_rank : Instr.wf (.collectiveAbandoned 1 0 0 65536) = false ∧ Instr.wf (.collectiveAbandoned 1 0 0 65535) = true := by decide
theorem test_wf_test_rows : Instr.wf (.selfTest ⟨.padRow 0 0 0 4096, true, true⟩) = false ∧
    Instr.wf (.selfTest ⟨.gbRow 0 0 65536, true, true⟩) = false ∧ Instr.wf (.selfTest ⟨.bridgeLane 0 0 4096, true, true⟩) = false ∧
    Instr.wf (.selfTest ⟨.padRow 0 0 0 4095, true, true⟩) = true := by decide

/-! Witnesses: for each statement with hypotheses, a state and operands that meet them, clause by clause. -/

theorem witness_IdleStepTicksFabricTime : up.pending = [] ∧ up.mod.life.powered = true := by decide +kernel

theorem witness_CommandsStopOnlyAtAbsentUnits : Instr.present .f (.planeLost 7) = true ∧ Instr.present .m (.planeLost 7) = false ∧
    Instr.present .f (.hbmTempRead 23 40) = true ∧ Instr.present .f (.hbmTempRead 24 40) = false := by decide

theorem witness_CommandsKeepFusesAndQueue : ∃ t, exec (.wake 0x58 none) up = .next t := ⟨_, rfl⟩

/-- Locked time with a beacon at the front of the queue. -/
def locked : State := { up with time := { up.time with locked := true } }

theorem witness_LockedFabricTimeNeverRunsBackward :
    let s := { locked with pending := [.timeBeacon []] }
    s.time.locked = true ∧ s.mod.life.powered = true ∧ (∀ pwrEn cut : Bool, s.pending.head? ≠ some (.powerGoodLost pwrEn cut)) ∧ ∃ t, step s = .next t :=
  ⟨by decide +kernel, by decide +kernel, by decide +kernel, _, rfl⟩

theorem witness_StepsKeepTallySound : State.reset.tallySound ∧ ∃ t, step State.reset = .next t :=
  ⟨by intro i _; revert i; decide +kernel, _, rfl⟩

theorem witness_TallyChangesByItsOwnCommandsOnly : tallyCommand (.wake 0x58 none) = false ∧ (∃ t, exec (.wake 0x58 none) up = .next t) ∧
    (∃ t, exec (.registerWrite 0x200018 8 5) up = .next t) ∧ (∃ t, exec (.tlyWriteAbsorbed 13) up = .next t) ∧
    ∃ t, exec (.tlyStart 1) up = .next t := ⟨rfl, ⟨_, rfl⟩, ⟨_, rfl⟩, ⟨_, rfl⟩, _, rfl⟩

/-- R316, R91, R249: a TLY write changes no other part of the module, and the channels are fourteen. -/
theorem test_tally_channels : (State.reset.channel 0 = TallyCh.cold ∧ State.reset.channel 13 = TallyCh.cold) ∧
    gives (.tlyStart 1) up (fun t => t.tally.active && decide (t.mod = up.mod)) = true := by decide +kernel

theorem witness_TallyHostWrites : up.mod.portUp = true ∧ up.tally.busy = false ∧ up.tally.waiting = [] ∧
    (0x1#64).extractLsb' 0 2 = 1#2 ∧ (0x2#64).extractLsb' 0 2 = 2#2 ∧ up.tally.active = false := by decide +kernel

/-- The host channel as a write of START and one byte leaves it. -/
def fed : State := match runAll [.tlyStart 1, .tlyData8 0x31] up with | .next t => t | _ => up

theorem witness_TallyHostWrites_active :
    let s := match exec (.tlyStart 1) up with | .next t => t | _ => up
    s.mod.portUp = true ∧ s.tally.busy = false ∧ s.tally.waiting = [] ∧ s.tally.active = true := by decide +kernel

theorem witness_TallyHostWrites_reserved : (0x09000100#64).extractLsb' 0 2 = 0#2 ∧ (0xFF#64).extractLsb' 0 2 = 3#2 := by decide +kernel

theorem witness_TallyHeldWritesTakeTheirTurn :
    let held := match exec (.tlyData8 0x32) fed with | .next t => t | _ => up
    fed.mod.portUp = true ∧ (fed.channel 0).busy = true ∧ fed.tally.waiting = [] ∧
      held.tally.busy = true ∧ held.tally.waiting = [.data 1 0x32] ∧
      (({ held.tally with busy := false, waiting := [] } : TallyCh).apply (.data 1 0x32)).busy = true := by decide +kernel

theorem witness_TallyRunYieldsTheCheckValue : up.mod.portUp = true ∧ up.tally.busy = false ∧ up.tally.waiting = [] := by
  decide +kernel

theorem witness_CompletionsReachTheRing : (serving [] up).mod.queue 0 = some ring ∧ ring.held = [] ∧ ring.full = false ∧
    entIrq (entry 1 0) = false ∧ entIrq ([1#8, 0, 0, 1] ++ List.replicate 60 0) = true ∧ ({ ring with cqTail := 15 } : HQueue).full = true ∧
    ({ Msix.cold with table := [] } : Msix).masked 3 = false := by decide +kernel

theorem witness_DoorbellsMoveTheRings : (serving [] up).mod.portUp = true ∧ up.mod.queue 0 = none ∧ (serving [] up).mod.queue 0 = some ring ∧
    2 ^ ring.log2Sq ≤ ((16#64).extractLsb' 0 16).toNat ∧ ((15#64).extractLsb' 0 16).toNat < 2 ^ ring.log2Sq ∧
    (serving [] up).mod.mbx.inService.isSome = true ∧ ring.held = [] := by decide +kernel

/-- A module that has reached stage C. -/
def atStageThree : Mod := { up.mod with life := { up.mod.life with stage := 3 } }

/-- An entry whose check value is right. -/
def sealEntry (e : List Byte) : List Byte := slice e 0 60 ++ natLe 4 (crc32c (slice e 0 60))

theorem witness_EntriesAreCheckedInOrder : entCrcOk (entry 0x52 0) = false ∧ entCrcOk (sealEntry (entry 0x52 0)) = true ∧
    entAlive (sealEntry (entry 0x52 0)) = ring.alive ∧ entAlive (entry 0x52 0) ≠ ({ ring with alive := 1 } : HQueue).alive ∧
    entContext (entry 0x52 0) = ring.context ∧ entContext (entry 0x52 0) ≠ ({ ring with context := 1 } : HQueue).context ∧
    opcodeRow (entOpcode (entry 0x53 0)) = none := by decide +kernel

theorem witness_EntriesAreCheckedInOrder_served :
    let e := sealEntry (entry 0x52 0)
    let q := { ring with rung := [e] }
    let m := { up.mod with mbx := { up.mod.mbx with queues := vmodN (Vector.replicate 64 none) 0 (fun _ => some q) } }
    m.portUp = true ∧ m.mbx.inService = none ∧ m.queue 0 = some q ∧ q.held = [] ∧ q.full = false ∧
      (∀ (k : Nat) (q' : HQueue), k ≠ 0 → m.queue k = some q' → q'.rung = []) ∧ m.checkEntry q e = (true, none) := by
  refine ⟨by decide +kernel, by decide +kernel, by decide +kernel, rfl, by decide +kernel, ?_, by decide +kernel⟩
  intro k q' hk h
  simp only [Mod.queue] at h
  rw [vget_vmodN_other _ _ _ _ _ hk] at h
  simp [vget] at h

theorem witness_EntriesAreCheckedInOrder_rows :
    opcodeRow (entOpcode (entry 0x41 0)) = some (4, true, [(8, 8)]) ∧ ({ ring with context := 1 } : HQueue).context ≠ 0 ∧
    entFlags (entry 0x2000052 0) = 2 ∧ (atStageThree.checkEntry ring (sealEntry (entry 0x41 0))) = (true, some .notReady) ∧
    servedInPark 0x41 = false ∧ entZero (sealEntry (entry 0x41 0)) [(8, 8)] = true ∧ argsOk 0x41 (sealEntry (entry 0x41 0)) = true ∧
    (serving (entry 0x3 1) up).mod.queue (entArg (entry 0x3 1) 8 1) = none ∧ entArg (entry 0x3 1) 8 1 < 64 := by decide +kernel

theorem witness_EntriesAreCheckedInOrder_failed :
    let e := sealEntry (entry 0x53 0)
    let q := { ring with rung := [e] }
    let m := { up.mod with mbx := { up.mod.mbx with queues := vmodN (Vector.replicate 64 none) 0 (fun _ => some q) } }
    m.portUp = true ∧ m.mbx.inService = none ∧ m.queue 0 = some q ∧ q.held = [] ∧ q.full = false ∧
      (∀ (k : Nat) (q' : HQueue), k ≠ 0 → m.queue k = some q' → q'.rung = []) ∧ m.checkEntry q e = (true, some .badCommand) := by
  refine ⟨by decide +kernel, by decide +kernel, by decide +kernel, rfl, by decide +kernel, ?_, by decide +kernel⟩
  intro k q' hk h
  simp only [Mod.queue] at h
  rw [vget_vmodN_other _ _ _ _ _ hk] at h
  simp [vget] at h

theorem witness_QueuesComeAndGo : up.mod.portUp = true ∧ up.mod.queue 0 = none ∧ (serving [] up).mod.queue 0 = some ring ∧
    ((0x101001#64).extractLsb' 8 5).toNat = 16 ∧ ((0x040401#64).extractLsb' 8 5).toNat = 4 ∧ ((0x040301#64).extractLsb' 8 5).toNat < 4 ∧
    (0x040401#64).getLsbD 0 = true ∧ (0x040400#64).getLsbD 0 = false ∧ up.mod.graphs.any (fun g => g.2.queue == 0) = false ∧
    (withGraph (graph tileNode running)).mod.graphs.any (fun g => g.2.queue == 0) = true ∧
    (serving (entry 0x3 0) up).mod.queue (entArg (entry 0x3 1) 8 1) = none ∧
    ((serving [] up).mod.mbx.q0Cfg ||| 1#64) ≠ ((0x03040401#64 &&& 0xFF1F1F01#64) ||| 1#64) ∧
    ({ up.mod.mbx with q0Cfg := 0x03040401#64 } : Mailbox).q0Cfg ||| 1#64 = (0x03040400#64 &&& 0xFF1F1F01#64) ||| 1#64 := by decide +kernel

theorem witness_QueuesComeAndGo_served : (serving (entry 0x3 1) up).mod.serves 0x0003 0 (entry 0x3 1) ∧
    (serving (entry 0x4 0) up).mod.serves 0x0004 0 (entry 0x4 0) :=
  ⟨serving_serves _ _ _ (by decide +kernel), serving_serves _ _ _ (by decide +kernel)⟩

/-- Any served command is a witness of its own service. -/
theorem witness_HostReadsPagesAndRecords : (serving (entry 0x1 0) up).mod.serves 0x0001 0 (entry 0x1 0) ∧
    (serving (entry 0x2 0) up).mod.serves 0x0002 0 (entry 0x2 0) ∧ (serving (entry 0x40 0) up).mod.serves 0x0040 0 (entry 0x40 0) :=
  ⟨serving_serves _ _ _ (by decide +kernel), serving_serves _ _ _ (by decide +kernel), serving_serves _ _ _ (by decide +kernel)⟩

/-- A command entry with fields (offset, bytes, value). -/
def fields (l : List (Nat × Nat × Nat)) : List Byte := Mem.readN (l.foldl (fun m f => Mem.writeN m f.1 (natLe f.2.1 f.2.2)) []) 0 64

/-- A reel of one bundle, DONE, REEL_ID 7, by the layouts of R90 and R95. -/
def reelImage : List Byte :=
  let code := natLe 2 0x0460 ++ natLe 4 0xFC000000
  let h := padTo 0x7C (natLe 4 0x4C454552 ++ natLe 4 1 ++ natLe 4 6 ++ natLe 4 0 ++ natLe 4 7)
  h ++ natLe 4 (crc32c (h ++ code)) ++ code

theorem test_reel_passes_its_checks : imageCheck reelImage 134 = .ok ∧ imageCheck reelImage 135 = .failed 0x01 0xFFFFFFFF ∧
    imageCheck (lmod reelImage 0 (fun _ => 0)) 134 = .failed 0x02 0xFFFFFFFF ∧
    imageCheck (lmod reelImage 6 (fun _ => 1)) 134 = .failed 0x03 0xFFFFFFFF := by decide +kernel

def loadEntry : List Byte := fields [(0, 2, 0x10), (0x10, 4, 134)]
def removeEntry : List Byte := fields [(0, 2, 0x10), (0x14, 1, 1), (0x18, 4, 7)]
/-- A module whose reel store holds the reel. -/
def withReel (s : State) : State := { s with mod := { s.mod with mem := { s.mod.mem with reels := [(7, ⟨0, reelImage, [], false⟩)] } } }

theorem witness_ReelsAreCheckedAndLoaded_image : reelImage.length = 134 ∧ (lmod reelImage 0 (fun _ => 0)).length = 134 := by decide +kernel

theorem witness_ReelsAreCheckedAndLoaded_load : (serving loadEntry up).mod.serves 0x0010 0 loadEntry ∧ entArg loadEntry 0x14 1 = 0 ∧
    padTo (entArg loadEntry 0x10 4) reelImage = reelImage ∧
    (serving loadEntry up).mod.reelCheck .f reelImage 134 = .ok ∧
    ((serving loadEntry up).mod.storeReel .f (entContext loadEntry) reelImage).1 = .ok ∧
    (serving loadEntry up).mod.reelCheck .f [] 134 = .failed 0x01 0xFFFFFFFF ∧
    Tbl.find (serving loadEntry up).mod.mem.reels (reelIdOf reelImage).toNat = none :=
  ⟨serving_serves _ _ _ (by decide +kernel), by decide +kernel⟩

theorem witness_ReelsAreCheckedAndLoaded_remove : (serving removeEntry (withReel up)).mod.serves 0x0010 0 removeEntry ∧
    entArg removeEntry 0x14 1 = 1 ∧ (Tbl.find (withReel up).mod.mem.reels (entArg removeEntry 0x18 4)).isSome = true ∧
    Tbl.find up.mod.mem.reels 7 = none ∧
    (withReel up).mod.graphs.any (fun g => g.2.nodes.any (fun x => x.ty == tyTile && x.reel == 7#32)) = false ∧
    (withReel (withGraph (graph tileNode running))).mod.graphs.any (fun g => g.2.nodes.any (fun x => x.ty == tyTile && x.reel == 7#32)) = true :=
  ⟨serving_serves _ _ _ (by decide +kernel), by decide +kernel⟩

theorem witness_RegionsComeAndGo : (serving (entry 0x11 0) up).mod.serves 0x0011 0 (entry 0x11 0) ∧
    (serving (entry 0x12 9) (withRegion region up)).mod.serves 0x0012 0 (entry 0x12 9) ∧ 3 ≤ up.mod.life.stage ∧
    up.mod.mbx.regionCount ≠ 0 ∧ up.mod.mbx.regionCount ≠ 0xFFFFFFFF#32 ∧
    Tbl.find up.mod.mem.regions 1 = none ∧ Tbl.find (withRegion region up).mod.mem.regions (entArg (entry 0x12 9) 8 4) = some region ∧
    (withRegion region up).mod.regionBusy 9 = false ∧ Tbl.wf (withRegion region up).mod.mem.regions = true ∧
    Tbl.find up.mod.mem.regions 9 = none :=
  ⟨serving_serves _ _ _ (by decide +kernel), serving_serves _ _ _ (by decide +kernel), by decide +kernel⟩

/-- A submission of one BARRIER node, by the layouts of R281, R283 and R284. -/
def image : Mem :=
  ([(0, 4, 0x48505247), (4, 2, 1), (8, 4, 1), (0x10, 4, 128), (0x14, 4, 640), (0x40, 8, 640), (128, 1, 0x0B), (132, 2, 0xFFFF), (134, 2, 0xFFFF),
    (142, 1, 0xFF)] ++ (List.range 16).map (fun i => (128 + 0x80 + 24 * i + 4, 1, 0xFF))).foldl
      (fun m (f : Nat × Nat × Nat) => Mem.writeN m f.1 (natLe f.2.1 f.2.2)) []

def submission : State := withRegion { region with bytes := image } up
def submitEntry : List Byte := fields [(0, 2, 0x20), (8, 4, 9)]
def abortEntry : List Byte := fields [(0, 2, 0x21), (8, 4, 1)]

theorem witness_GraphsAreSubmittedAndAborted_accept : (serving submitEntry submission).mod.serves 0x0020 0 submitEntry ∧
    ((serving submitEntry submission).mod.imageAt 0 9 0).isSome = true ∧
    (serving submitEntry submission).mod.checkSubmit .f 0 ((serving submitEntry submission).mod.imageAt 0 9 0) = none :=
  ⟨serving_serves _ _ _ (by decide +kernel), by decide +kernel⟩

theorem witness_GraphsAreSubmittedAndAborted_reject : (serving submitEntry up).mod.serves 0x0020 0 submitEntry ∧
    (serving submitEntry up).mod.checkSubmit .f 0 ((serving submitEntry up).mod.imageAt 0 9 0) =
      some ⟨1, .badDescriptor, 0xFFFFFFFF, 0xFFFFFFFF⟩ :=
  ⟨serving_serves _ _ _ (by decide +kernel), by decide +kernel⟩

theorem witness_GraphsAreSubmittedAndAborted_abort :
    (serving abortEntry (withGraph (graph tileNode running))).mod.serves 0x0021 0 abortEntry ∧ entArg abortEntry 8 4 = 1 ∧
    Tbl.find (withGraph (graph tileNode running)).mod.graphs 1 = some (graph tileNode running) ∧
    Tbl.wf (withGraph (graph tileNode running)).mod.graphs = true ∧ (graph tileNode running).run.length = (graph tileNode running).nodes.length ∧
    Tbl.find up.mod.graphs 1 = none :=
  ⟨serving_serves _ _ _ (by decide +kernel), by decide +kernel⟩

def phaseEntry : List Byte := fields [(0, 2, 0x31), (8, 1, 5), (9, 1, 7), (0xA, 2, 0xFFF)]

theorem witness_CapAndPreferenceAreSet : (serving (entry 0x30 1) up).mod.serves 0x0030 0 (entry 0x30 1) ∧
    (serving phaseEntry up).mod.serves 0x0031 0 phaseEntry ∧ entArg phaseEntry 8 1 ≤ 5 ∧ entArg phaseEntry 9 1 ≤ 7 ∧
    entArg phaseEntry 0xA 2 < 4096 :=
  ⟨serving_serves _ _ _ (by decide +kernel), serving_serves _ _ _ (by decide +kernel), by decide +kernel⟩

theorem witness_CapAndPreferenceAreSet_kept : (∃ t, exec .modResetN up = .next t) ∧
    ({ up.mod.life with powered := false } : Life).powered = false := ⟨⟨_, rfl⟩, rfl⟩

theorem witness_NanRecordIsArmed : (serving (entry 0x32 0xFF) up).mod.serves 0x0032 0 (entry 0x32 0xFF) :=
  serving_serves _ _ _ (by decide +kernel)

/-- A module that is the fabric time source. -/
def source : State := { locked with time := { locked.time with source := true } }

theorem witness_TimeIsSetForwardOnly : (serving (entry 0x41 1) source).mod.serves 0x0041 0 (entry 0x41 1) ∧ source.time.source = true ∧
    (source.time.keeper[0]).ns + 1 ≤ entArg (entry 0x41 1) 8 8 ∧ (source.time.keeper[0]).fs < 2 ^ 64 * 1000000 ∧ up.time.source = false :=
  ⟨serving_serves _ _ _ (by decide +kernel), by decide +kernel⟩

/-- A module in PARK, and one that enters a park state. -/
def parked : State := { up with mod := { up.mod with life := { up.mod.life with pstate := .park } } }
def entering (p : PState) : State := { up with mod := { up.mod with life := { up.mod.life with entering := some p } } }

theorem witness_ParkStatesComeAndGo : (∀ k ∈ ([0, 1, 2] : List Nat), entArg (entry 0x50 k) 8 1 = k) ∧
    (serving (entry 0x50 0) parked).mod.serves 0x0050 0 (entry 0x50 0) ∧ (serving (entry 0x50 1) up).mod.serves 0x0050 0 (entry 0x50 1) ∧
    (serving (entry 0x50 1) (entering .park)).mod.serves 0x0050 0 (entry 0x50 1) ∧
    (serving (entry 0x50 2) (entering .deepPark)).mod.serves 0x0050 0 (entry 0x50 2) ∧
    parked.mod.life.pstate = .park ∧ up.mod.life.pstate ≠ .park ∧ up.mod.graphs = [] ∧ (withGraph (graph tileNode running)).mod.graphs ≠ [] ∧
    (entering .park).mod.life.entering = some .park ∧ (entering .deepPark).mod.life.entering = some .deepPark :=
  ⟨by decide +kernel, serving_serves _ _ _ (by decide +kernel), serving_serves _ _ _ (by decide +kernel),
    serving_serves _ _ _ (by decide +kernel), serving_serves _ _ _ (by decide +kernel), by decide +kernel⟩

/-- A module in test mode. -/
def testing : State := { up with mod := { up.mod with life := { up.mod.life with test := true } } }

theorem witness_TestModeAndPerturbation : (serving (entry 0x52 0) up).mod.serves 0x0052 0 (entry 0x52 0) ∧
    (serving (entry 0xF0 1) up).mod.serves 0x00F0 0 (entry 0xF0 1) ∧ entArg (entry 0xF0 1) 8 1 = 1 ∧
    (serving (entry 0xF0 0) up).mod.serves 0x00F0 0 (entry 0xF0 0) ∧ entArg (entry 0xF0 0) 8 1 = 0 ∧
    up.mod.portUp = true ∧ up.mod.life.test = false ∧ testing.mod.portUp = true ∧ testing.mod.life.test = true :=
  ⟨serving_serves _ _ _ (by decide +kernel), serving_serves _ _ _ (by decide +kernel), by decide +kernel,
    serving_serves _ _ _ (by decide +kernel), by decide +kernel⟩

theorem witness_TestModeAndPerturbation_cleared :
    let deep := { testing with mod := { testing.mod with life := { testing.mod.life with pstate := .deepPark, stage := 0 } } }
    testing.mod.life.powered = true ∧ testing.mod.life.trip = false ∧ 1 ≤ testing.mod.life.stage ∧ deep.mod.life.pstate = .deepPark ∧
    (serving (entry 0x51 0) testing).mod.serves 0x0051 0 (entry 0x51 0) ∧
    (serving (entry 0x50 0) parked).mod.serves 0x0050 0 (entry 0x50 0) ∧ parked.mod.life.pstate = .park ∧
    testing.mod.unitUp 11 = true ∧ testing.mod.unitUp 13 = true :=
  ⟨by decide +kernel, by decide +kernel, by decide +kernel, by decide +kernel, serving_serves _ _ _ (by decide +kernel),
    serving_serves _ _ _ (by decide +kernel), by decide +kernel⟩

/-- A module whose window is mapped to the region. -/
def windowed (r : Region) : State := { withRegion r up with mod := { (withRegion r up).mod with mbx := { up.mod.mbx with winHandle := 9 } } }

theorem witness_WindowReachesTheMappedRegion : (windowed region).mod.portUp = true ∧ up.mod.winValid = false ∧
    (windowed region).mod.region (windowed region).mod.mbx.winHandle = some region ∧ region.cls ≠ .slow ∧ Mem.wf region.bytes = true ∧
    (windowed region).mod.regPoisoned region 0 64 = false ∧ (windowed region).mod.regPoisoned { region with poison := [0] } 0 1 = true := by
  decide +kernel

theorem witness_WindowReachesTheMappedRegion_freed : (serving (entry 0x12 9) (windowed region)).mod.serves 0x0012 0 (entry 0x12 9) ∧
    entArg (entry 0x12 9) 8 4 = (windowed region).mod.mbx.winHandle.toNat ∧
    (Tbl.find (windowed region).mod.mem.regions 9).isSome = true ∧ (windowed region).mod.regionBusy 9 = false ∧
    Tbl.wf (windowed region).mod.mem.regions = true :=
  ⟨serving_serves _ _ _ (by decide +kernel), by decide +kernel⟩

theorem witness_RegisterWritesKeepTheirFields : up.mod.portUp = true ∧ (0x0204 : Nat) % 8 ≠ 0 := by decide +kernel

/-- A module without power. -/
def dark : State := { up with mod := { up.mod with life := { up.mod.life with powered := false } } }

theorem witness_PowerGoesAndTrips : dark.mod.life.powered = false ∧ up.mod.life.powered = true ∧ up.mod.life.trip = false ∧
    Instr.present up.fuses.grade (.thermalTrip (.die 13) 115) = true ∧ Instr.present up.fuses.grade (.thermalTrip (.stack 23) 105) = true ∧
    Instr.present up.fuses.grade (.thermalTrip (.io 7) 115) = true := by
  decide +kernel

theorem witness_PowerGoesAndTrips_reported :
    let s := { State.reset with mod := { State.reset.mod with flash := { State.reset.mod.flash with tripRecord := some (.stack 3, 106) } } }
    s.mod.life.powered = true ∧ s.mod.life.trip = false ∧ s.mod.life.pstate = .run ∧ s.mod.life.stage = 0 ∧ s.mod.life.coldStart = true ∧
    s.mod.flash.tripRecord = some (.stack 3, 106) := by decide +kernel

theorem witness_ModuleResetKeepsWhatItMust :
    let deep := { up with mod := { up.mod with life := { up.mod.life with pstate := .deepPark, stage := 0 } } }
    let first := { up with mod := { up.mod with life := { up.mod.life with stage := 0 } } }
    up.mod.life.powered = true ∧ up.mod.life.trip = false ∧ up.mod.life.pstate ≠ .deepPark ∧ 1 ≤ up.mod.life.stage ∧
    deep.mod.life.pstate = .deepPark ∧ first.mod.life.stage = 0 ∧ first.mod.life.waking = false := by decide +kernel

theorem witness_ModuleResetKeepsWhatItMust_served : (serving (entry 0x51 0) up).mod.serves 0x0051 0 (entry 0x51 0) :=
  serving_serves _ _ _ (by decide +kernel)

/-- A module at a stage. -/
def atStage (k : Nat) : State := { up with mod := { up.mod with life := { up.mod.life with stage := k } } }

/-- A module whose plane 0 is in service, with locked time. -/
def onPlane : State :=
  { up with time := { up.time with locked := true },
            mod := { up.mod with fab := { up.mod.fab with
              number := some 5
              planes := Vector.replicate 8 ⟨some 5, true, false, false⟩
              ports := Vector.replicate 8 (Vector.replicate 4 { Port.cold with up := true }) } } }

theorem witness_StagesComeInOrder :
    let failed := fun (k : Nat) => { atStage k with mod := { (atStage k).mod with life := { (atStage k).mod.life with startFailed := [0] } } }
    up.mod.life.powered = true ∧ up.mod.life.trip = false ∧ up.mod.life.pstate = .run ∧ (atStage 1).mod.life.startFailed.contains 0 = false ∧
    (atStage 1).mod.life.startFailed.contains 12 = false ∧ (failed 1).mod.life.startFailed.contains 0 = true ∧
    (atStage 1).mod.life.stage = 1 ∧ (atStage 2).mod.life.stage = 2 ∧ (atStage 2).mod.life.startFailed = [] ∧ (failed 2).mod.life.startFailed ≠ [] ∧
    (atStage 2).mod.graphs = [] ∧ (atStage 2).mod.flt.pendingMeas = [] ∧ (∀ (d : Fin 12) (t : Fin 64), ((atStage 2).mod.tile d t).owner = none) ∧
    (atStage 2).mod.flash.pathDelay.length = 20 ∧ (List.replicate 20 0).length = 20 ∧ (onPlane.mod.fab.planes[0]).inService = true ∧
    onPlane.time.locked = true ∧ (atStage 3).time.locked = false := by decide +kernel

theorem witness_SmbusReadsChangeNothing : up.mod.life.powered = true ∧ up.mod.life.stage < 8 ∧ up.mod.life.trip = false ∧
    up.mod.alert = false ∧ up.mod.life.pstate = .run ∧ up.mod.unitUp 13 = true ∧ (up.mod.pwr.units[13]).tj < 255 ∧
    (atStage 1).mod.unitUp 13 = false := by decide +kernel

theorem witness_DieResetsAreConfined : up.mod.unitUp 0 = true ∧ up.mod.unitUp 11 = true ∧ up.mod.unitUp 13 = true := by decide +kernel

theorem witness_TimeFollowsItsSource : onPlane.fuses.grade.hasIo 7 = true ∧ onPlane.mod.planeUp 7 = true ∧ onPlane.time.locked = true ∧
    onPlane.time.holdover = false ∧ ({ onPlane with time := up.time } : State).mod.planeUp 7 = true ∧ up.time.locked = false ∧
    onPlane.mod.life.powered = true ∧ (∀ q : Fin 8, q ≠ 7 → onPlane.time.offsets[q.val] = none) := by decide +kernel

theorem witness_PlanesComeAndGo :
    let down := { onPlane with mod := { onPlane.mod with fab := { onPlane.mod.fab with ports := up.mod.fab.ports } } }
    up.fuses.grade.hasIo 7 = true ∧ up.mod.linksUp = true ∧ 2 ≤ up.mod.flash.working 7 3 ∧ up.mod.fab.number = none ∧
    onPlane.mod.linksUp = true ∧ onPlane.mod.fab.number = some 5 ∧ (5 : BitVec 24) ≠ 6 ∧ (down.mod.plane 7).inService = true ∧
    (∀ q : Fin 4, (down.mod.port 7 q.val).up = false) ∧ (onPlane.mod.port 7 0).up = true := by decide +kernel

/-- A packet for C3 of module 5 on a virtual channel. -/
def packet (vc : Fin 16) : Packet := ⟨vc, 0x00000900#32, 0x00000503#32, 0, [1]⟩

theorem witness_PacketsAreDeliveredOnce :
    let seen := { onPlane with mod := { onPlane.mod with fab := { onPlane.mod.fab with seen := [(4, 0x00000900#32, 0x00000503#32, 0)] } } }
    onPlane.mod.fab.number = some ((packet 4).dst.extractLsb' 8 24) ∧
    onPlane.fuses.grade.endpoint ((packet 4).dst.extractLsb' 0 8).toNat = true ∧ onPlane.mod.planeUp 0 = true ∧
    ((4 : Fin 16).val, (packet 4).src, (packet 4).dst, (packet 4).seq) ∉ onPlane.mod.fab.seen ∧
    ((4 : Fin 16).val, (packet 4).src, (packet 4).dst, (packet 4).seq) ∈ seen.mod.fab.seen ∧ onPlane.mod.fab.reorder = [] ∧
    (∀ k ∈ ([0, 3] : List (Fin 16)), (k.val, (packet k).src, (packet k).dst, (packet k).seq) ∉ onPlane.mod.fab.seen ∧ (packet k).seq =
      (onPlane.mod.fab.delivered.filter (fun x => x.vc == k && x.src == (packet k).src && x.dst == (packet k).dst)).length) ∧
    up.mod.fab.number ≠ some ((packet 4).dst.extractLsb' 8 24) := by decide +kernel

/-- A segment for handle 9, whose check value is zero and wrong. -/
def segment : List Byte := [9#8] ++ List.replicate 31 0#8

theorem witness_SegmentsAreBufferedAndChecked :
    let s := { withRegion region onPlane with mod := { (withRegion region onPlane).mod with
      ing := { onPlane.mod.ing with buf := [⟨0, 0, segment, false⟩] } } }
    onPlane.fuses.grade.hasIo 0 = true ∧ onPlane.mod.linksUp = true ∧ onPlane.mod.life.pstate = .run ∧ onPlane.mod.agentUp = true ∧
    s.mod.agentUp = true ∧ s.mod.ing.buf = [⟨0, 0, segment, false⟩] ∧ s.mod.ringShaped 9 = none ∧
    4194304 < ({ onPlane.mod.ing with buf := [⟨0, 0, segment, false⟩] } : Ingest).heldBytes 0 + 4194273 ∧ segHandle segment = 9 := by decide +kernel

/-- A PERSIST region that is an open ring of one slot of 64 bytes (R357, R358), handle 9. -/
def ringRegion : Region :=
  let header : Mem := [(0, 4, 0x474E4952), (8, 4, 1), (0xC, 4, 64), (0x48, 4, 1)].foldl
    (fun m (f : Nat × Nat × Nat) => Mem.writeN m f.1 (natLe f.2.1 f.2.2)) []
  { region with len := 0x2000, bytes := header }

theorem witness_SegmentsAreBufferedAndChecked_corrupt :
    let s := { withRegion ringRegion onPlane with mod := { (withRegion ringRegion onPlane).mod with
      ing := { onPlane.mod.ing with buf := [⟨0, 0, segment, false⟩] } } }
    s.mod.agentUp = true ∧ s.mod.ing.buf = [⟨0, 0, segment, false⟩] ∧ s.mod.ringShaped (segHandle segment) = some ringRegion ∧
    segOk segment = false ∧ segHandle segment < 2 ^ 32 := by decide +kernel

theorem witness_CapLoopsMoveCapPoints :
    let low := { up with mod := { up.mod with pwr := { up.mod.pwr with duty := 1, units := Vector.replicate 14 { PUnit.cold with capPoint := 0 } } } }
    up.mod.metering = true ∧ (1100 : Nat) * up.mod.pwr.cap.toNat < 65535 * 1000 ∧ up.mod.pwr.cap.toNat ≤ 7600 ∧
    97 * up.mod.pwr.cap.toNat ≤ 100 * 7600 ∧ up.mod.pwr.cap.toNat < 7601 ∧ low.mod.metering = true ∧ low.mod.allCapped = true ∧
    low.mod.pwr.duty = 1 ∧ low.mod.pwr.unreachable = false := by decide +kernel

/-- A pace message of module 6. -/
def pace (cause : Fin 6) : PaceMsg := ⟨6, 3, 8, cause, 0⟩

theorem witness_PaceIsAnnouncedAndFollowed :
    let s := { onPlane with mod := { onPlane.mod with pwr := { onPlane.mod.pwr with
      ctrl := 0x000183F000140FA0#64, group := 1, lastPace := some (pace 1), announced := [pace 2] } } }
    s.mod.hearsPace = true ∧ s.mod.fab.number ≠ some (pace 1).member ∧ s.mod.pwr.lastPace = some (pace 1) ∧
    s.mod.pwr.announced.any (fun x => x.member == 6) = true := by decide +kernel

theorem witness_TemperaturesAndCeilings : up.mod.unitUp 13 = true ∧ (up.mod.pwr.units[13]).hot = false ∧ 23 < up.fuses.grade.hbmStacks ∧
    up.mod.unitUp (hostDie 23) = true ∧ up.mod.unitUp 11 = true ∧ parked.mod.life.powered = true ∧ parked.mod.life.trip = false ∧
    parked.mod.life.pstate = .park ∧ up.mod.siteFree 11 63 = true ∧
    (up.mod.updUnit 11 (fun u => { u with held := true })).unitRuns 11 = false ∧ up.mod.slots = [] ∧ up.mod.flash.tileAt 11 63 = some 63 ∧
    min (up.mod.flash.agedOf 11 63) 4 < 5 ∧ up.mod.flash.bestSpare 11 = some 64 ∧ 5 ≤ up.mod.flash.agedOf 11 64 ∧
    (tileState id).mod.siteIdle 0 0 = false := by decide +kernel

theorem witness_TileCommandsStayOnTheirTile : tileOfCommand (.roomToneEnd 0 0) = some (0, 0) ∧ (∃ t, exec (.roomToneEnd 0 0) up = .next t) ∧
    (up.mod.tile 0 0).owner ≠ some (1, 0) ∧ writesMemory (.roomToneEnd 0 0) = false := ⟨rfl, ⟨_, rfl⟩, by decide +kernel, rfl⟩

/-! Tiles. A bundle is its header and the words of its slots (R95, R96). -/

/-- A bundle of one 32-bit slot: A, B or C by the mask bit. -/
def bundle1 (maskBit w : Nat) : List Byte := natLe 2 (2 ^ (10 + maskBit) + 3 * 32) ++ natLe 4 w
/-- A bundle of one 64-bit slot: M, V or Q by the mask bit. -/
def bundle2 (maskBit w : Nat) : List Byte := natLe 2 (2 ^ (10 + maskBit) + 5 * 32) ++ natLe 8 w

/-- A tile about to issue a bundle. -/
def issuing (code : List Byte) : State := tileState (fun x => { x with imem := code })

/-- What BUNDLE_ISSUE asks of a state before the cut point. -/
def mayIssue (s : State) : Bool :=
  (s.mod.ownerOf 0 0).isSome && s.mod.tileLive 0 0 && !(s.mod.tile 0 0).cutStop && s.mod.paceOpen s.env (0 : Fin 12)

theorem witness_BundlesIssueInOrder :
    let s := issuing (bundle1 5 0x04448000)
    let x := s.mod.tile 0 0
    let b := bundleAt x.imem x.pc
    mayIssue s = true ∧ (graph tileNode running).cutsNode 0 = false ∧ x.doneSeen = false ∧ x.suspended = false ∧ x.accepts b = true ∧
    x.waitOk b = true ∧ b.fence = false ∧ b.a = some 0x04448000 ∧ b.b = none ∧ b.v = none ∧ b.c = none ∧ x.loops = [] ∧ slotOp 0x04448000 = 0x01 ∧
    tileNode.proxied = false ∧ running.begun = [] ∧
    (∀ w ∈ ([(0x02, 0x08000000), (0x04, 0x10000000), (0x05, 0x14000000), (0x08, 0x20000000), (0x13, 0x4C000000), (0x1C, 0x70000000)] : List (Nat × Nat)),
      (bundleAt (bundle1 5 w.2) 0).a = some w.2 ∧ slotOp w.2 = w.1) := by decide +kernel

theorem witness_BundlesIssueInOrder_flow : mayIssue (issuing (bundle1 0 0x08000000)) = true ∧
    (∀ w ∈ ([(0x02, 0x08000000), (0x03, 0x0C000000), (0x3F, 0xFC000000)] : List (Nat × Nat)),
      (bundleAt (bundle1 0 w.2) 0).c = some w.2 ∧ slotOp w.2 = w.1) ∧
    (tileState (fun x => { x with doneSeen := true })).mod.tileLive 0 0 = true := by decide +kernel

theorem witness_BundlesIssueInOrder_cut :
    let g := { graph tileNode running with hdr := { header with flags := 2 } }
    let s := { issuing (bundle1 5 0) with mod := { (issuing (bundle1 5 0)).mod with graphs := [(1, g)] } }
    let x := s.mod.tile 0 0
    mayIssue s = true ∧ g.cutsNode 0 = true ∧ x.pc = g.hdr.cutBundle ∧ x.doneSeen = false ∧ g.cutPass ≤ x.cutCount + 1 := by decide +kernel

theorem witness_TilesFinishGateAndStop :
    let done := tileState (fun x => { x with doneSeen := true })
    let x := done.mod.tile 0 0
    let idle := tileState (fun x => { x with gateOn := true })
    let wake := issuing (bundle2 2 0x1E00000000000000)
    done.mod.tileLive 0 0 = true ∧ x.cutStop = false ∧ x.doneSeen = true ∧ x.quiet = true ∧ x.suspended = false ∧
    (idle.mod.tile 0 0).gateOn = true ∧ (idle.mod.tile 0 0).vecQ = [] ∧ (idle.mod.tile 0 0).vpin = false ∧
    idle.mod.pwr.ctrl.extractLsb' 16 16 ≠ 0 ∧ wake.mod.tileLive 0 0 = true ∧
    (bundleAt (wake.mod.tile 0 0).imem (wake.mod.tile 0 0).pc).vReal.isSome = true ∧ (wake.mod.tile 0 0).gateOn = false ∧
    (wake.mod.tile 0 0).reread = [] ∧ wake.mod.memWait 0 0 = false := by decide +kernel

theorem witness_TilesFinishGateAndStop_idle :
    let s0 := tileState (fun x => { x with tone := true })
    let s := { s0 with mod := { s0.mod with graphs := [(1, graph tileNode { running with phase := .done .ok })] } }
    s.mod.unitUp 0 = true ∧ s.mod.allNodes ≠ [] ∧
    (∀ y ∈ s.mod.allNodes, y.2.2.1.dieMask.getLsbD 0 = true → y.2.2.2.isDone = true) ∧
    (∀ k : Fin 64, k ≠ 0 → (s.mod.tile 0 k).tone = false) ∧ s.mod.idle 0 = false := by decide +kernel

theorem witness_TilesFinishGateAndStop_cut :
    let g := { graph tileNode running with hdr := { header with flags := 2 } }
    let s0 := tileState (fun x => { x with cutStop := true, cutHit := true })
    let s := { s0 with mod := { s0.mod with graphs := [(1, g)] } }
    (s.mod.ownerOf 0 0).isSome = true ∧ s.mod.tileLive 0 0 = true ∧ s.mod.cutOn (g.node 0) = true ∧ Tbl.find s.mod.graphs 1 = some g ∧
    (g.node 0).ty = tyTile ∧ (g.runOf 0).phase = .running ∧ (g.runOf 0).outcome = none ∧ g.cutsNode 0 = true ∧
    (g.node 0).dies.all (g.runOf 0).taken.contains = true ∧
    (∀ p ∈ (g.node 0).tiles, (s.mod.tile p.1 p.2).stopped = true ∧ s.mod.tileQuiet s.env p = true) := by decide +kernel

/-- A stream of `count` elements of 2^`esize` bytes from `base` upward (R72). -/
def stream (base esize count : Nat) : BitVec 128 :=
  BitVec.ofNat 128 (base + esize * 2 ^ 22 + count * 2 ^ 32 + 2 ^ 48 + 2 ^ 64 + 2 ^ 80)

/-- An M operation that has not started. -/
def mop (op fmt count : Nat) (src src2 dst : Opnd) : MOp :=
  { bundle := 0, pos := 0, op := op, fmt := fmt, src := src, src2 := src2, dst := dst, count := count, tsx := 0, tsw := 0, axis := false,
    acc := false, ts := false, gb := 0, started := false, vec := 0, buf := [], buf2 := [], vlen := none, out := [], written := 0, accs := [],
    masks := [], halt := false }

def arrayState (o : MOp) (f : Tile → Tile) : State := tileState (fun x => f { x with arrayQ := [o] })

/-- A resident slot of graph 1 on tile (0, 0). -/
def slot : Slot :=
  { graph := 1, d := 0, t := 0, tileSet := (1, 1), image := 0, tensor := 0, brow := 0, bcol := 0, grad := ⟨9, 3, 0, 65536⟩, resident := true, mbCount := 0,
    mbLast := 0, mask := 0, vals := [], saved := true, touched := false }

def withSlot (sl : Slot) (s : State) : State :=
  { s with mod := { s.mod with slots := [sl] }.updTile 0 0 (fun x => { x with slotBind := [(0, 0)] }) }

theorem witness_BlocksMasksAndSlotsMove_load :
    let o := mop 1 2 0 (.desc (stream 0 6 256)) .none .none
    let bad := mop 1 2 0 (.desc (stream 1 1 8192)) .none .none
    let s := arrayState o id
    let x := s.mod.tile 0 0
    x.accessFree o.pos = true ∧ s.mod.arrayHead 0 0 1 = some o ∧ x.operandFault arrayPorts o.src false (weightBytes o.fmt) = none ∧
    x.operandFault arrayPorts o.src2 false (scaleBytes o.fmt) = none ∧ x.pad.bytesBad (stream 0 6 256) 0 (weightBytes 2) = [] ∧
    x.awaits o.pos = false ∧ o.halt = false ∧
    (arrayState bad id).mod.arrayHead 0 0 1 = some bad ∧ x.operandFault arrayPorts bad.src false (weightBytes bad.fmt) = some .badStream := by
  decide +kernel

theorem witness_BlocksMasksAndSlotsMove_slots :
    let o := mop 4 0 0 (.desc (stream 0 0 8)) .none .none
    let s := withSlot slot (arrayState o id)
    let k := mop 3 0 0 .none .none (.desc (stream 0 6 256))
    let r := withSlot slot (arrayState k id)
    s.mod.arrayHead 0 0 4 = some o ∧ s.mod.slotOf 0 0 o.gb = some (0, slot) ∧ slot.resident = true ∧
    (s.mod.tile 0 0).operandFault arrayPorts o.src false 8 = none ∧ (s.mod.tile 0 0).pad.bytesBad (stream 0 0 8) 0 8 = [] ∧
    r.mod.arrayHead 0 0 3 = some k ∧ k.started = false ∧ k.written = 0 ∧ descOk (stream 0 6 256) = true ∧
    16384 ≤ descBytes (stream 0 6 256) ∧ r.mod.slotOf 0 0 k.gb = some (0, slot) ∧
    (r.mod.tile 0 0).operandFault arrayPorts k.dst true 16384 = none := by decide +kernel

/-- A block in FP32 format. -/
def block : Block := { fmt := 1, weights := [], scales := [], square := true }

theorem witness_ProductsAreFormed :
    let held := mop 2 1 1 (.desc (stream 0 0 256)) .none .none
    let out := { held with dst := .desc (stream 4096 0 256) }
    let zero := { held with count := 0 }
    let s := arrayState held (fun x => { x with shadow := some block })
    let t := arrayState out (fun x => { x with shadow := some block })
    s.mod.arrayHead 0 0 2 = some held ∧ s.mod.mmulFault 0 0 held = none ∧ (s.mod.tile 0 0).blockFor = some block ∧
    (s.mod.tile 0 0).accessFree 0 = true ∧ (s.mod.tile 0 0).awaits 0 = false ∧ held.halt = false ∧ t.mod.arrayHead 0 0 2 = some out ∧
    t.mod.mmulFault 0 0 out = none ∧ (t.mod.tile 0 0).pad.poison = [] ∧ (arrayState zero id).mod.arrayHead 0 0 2 = some zero ∧
    (arrayState held id).mod.mmulFault 0 0 held = some .badOperation := by decide +kernel

theorem witness_ProductsAreFormed_slots :
    let o := { mop 2 1 1 (.desc (stream 0 0 256)) .none .none with acc := true }
    let s := withSlot slot (arrayState o (fun x => { x with shadow := some block }))
    let w := withSlot { slot with saved := false } (arrayState o (fun x => { x with shadow := some block }))
    s.mod.arrayHead 0 0 2 = some o ∧ s.mod.mmulFault 0 0 o = none ∧ s.mod.slotsReady 0 0 o = true ∧ w.mod.arrayHead 0 0 2 = some o ∧
    w.mod.mmulFault 0 0 o = none ∧ w.mod.slotsReady 0 0 o = false := by decide +kernel

theorem witness_ProductsAreFormed_rows :
    let o := mop 5 1 1 (.desc (stream 0 2 4)) (.desc (stream 64 2 4)) (.desc (stream 128 2 1))
    let s := tileState (fun x => { x with mvQ := [o] })
    let z := tileState (fun x => { x with mvQ := [{ o with count := 0 }] })
    (s.mod.tile 0 0).mvQ.head? = some o ∧ s.mod.tileLive 0 0 = true ∧ (s.mod.tile 0 0).awaits 0 = false ∧ descOk (stream 64 2 4) = true ∧
    descBytes (stream 64 2 4) ≤ 8192 ∧ (s.mod.tile 0 0).pad.bytesBad (stream 64 2 4) 0 16 = [] ∧ (s.mod.tile 0 0).pad.bytesBad (stream 0 2 4) 0 16 = [] ∧ descOk (stream 0 2 4) = true ∧
    descOk (stream 128 2 1) = true ∧ outBytes 1 ≤ descBytes (stream 128 2 1) ∧ (z.mod.tile 0 0).mvQ.head? = some { o with count := 0 } := by
  decide +kernel

/-! The vector engine. -/

/-- A V operation on registers 1, 2 and 3 with result 0. -/
def vop (op ty vl : Nat) (mem : Opnd) : VOp :=
  { bundle := 0, pos := 0, op := op, ty := ty, vd := 0, vs1 := 1, vs2 := 2, vs3 := 3, mem := mem, base := 0, stype := 0, vl := vl, vri := 0,
    resumes := 0, started := false, idx := none, replies := [], bad := [] }

def vecState (o : VOp) (f : Tile → Tile) : State := tileState (fun x => f { x with gateOn := true, vecQ := [o] })

/-- The operation is at the head of the queue and its VL is in range. -/
def vecReady (s : State) (o : VOp) : Bool := (s.mod.vecHead 0 0 o.op == some o) && !o.tooLong (s.mod.tile 0 0).long

/-- A module with a region entry 0 of a kind for the TILE node, and the region. -/
def withEntry (kind : BitVec 8) (s : State) : State :=
  let g := graph { tileNode with regs := [⟨9, kind, 0, 4096⟩] } running
  { s with mod := { s.mod with graphs := [(1, g)], mem := { s.mod.mem with regions := [(9, region)] } } }

theorem witness_VectorMemoryMovesElements :
    let ld := vop 0x02 1 4 (.desc (stream 0 2 4))
    let st := vop 0x03 1 4 (.desc (stream 0 2 4))
    let off := vop 0x02 1 4 (.desc (stream 1 2 4))
    let x := (vecState ld id).mod.tile 0 0
    vecReady (vecState ld id) ld = true ∧ x.vmemFault ld false = none ∧ x.accessFree ld.pos = true ∧ ld.vri ≤ ld.vl ∧ ld.vd < 32 ∧
    (∀ i : Fin 4, x.pad.poisoned (elemAddr (stream 0 2 4) i.val) 4 = false) ∧ vecReady (vecState st id) st = true ∧
    x.vmemFault st true = none ∧ vecReady (vecState off id) off = true ∧ x.vmemFault off false = some .badStream := by decide +kernel

theorem witness_VectorMemoryMovesElements_gather :
    let o := vop 0x04 1 4 .none
    let c := vop 0x05 1 4 .none
    let x := (vecState o id).mod.tile 0 0
    vecReady (vecState o id) o = true ∧ (x.formAddrs o).accessFree o.pos = true ∧
    (∀ i : Fin 4, (o.latch x).padAddr x i.val = some 0 ∧ x.pad.poisoned 0 4 = false) ∧ vecReady (vecState c id) c = true ∧
    (x.formAddrs c).accessFree c.pos = true := by decide +kernel

theorem witness_VectorMemoryMovesElements_module :
    let o := vop 0x06 1 2 .none
    let r := { o with started := true, idx := some 0 }
    let z := { o with vl := 0 }
    let c := { vop 0x07 1 1 .none with idx := some 0 }
    let s := withEntry 0 (vecState o id)
    let p := withEntry 0 (vecState r id)
    vecReady s o = true ∧ s.mod.portEntry 0 0 0 false = some ⟨9, 0, 0, 4096⟩ ∧ o.replies = [] ∧ o.bad = [] ∧
    (o.latch (s.mod.tile 0 0)).entOff (s.mod.tile 0 0) ⟨9, 0, 0, 4096⟩ 0 = some 0 ∧ vecReady p r = true ∧ r.started = true ∧
    Tbl.find r.replies 1 = none ∧ (∀ i : Fin 2, r.entOff (p.mod.tile 0 0) ⟨9, 0, 0, 4096⟩ i.val = some 0) ∧
    p.mod.entPoisoned ⟨9, 0, 0, 4096⟩ 0 4 = false ∧ vecReady (withEntry 0 (vecState z id)) z = true ∧
    vecReady (withEntry 1 (vecState c id)) c = true ∧ (withEntry 1 (vecState c id)).mod.portEntry 0 0 0 true = some ⟨9, 1, 0, 4096⟩ ∧
    c.entOff (p.mod.tile 0 0) ⟨9, 1, 0, 4096⟩ 0 = some 0 := by decide +kernel

theorem witness_VectorFaultsSuspendAndResume :
    let o := vop 0x02 1 4 (.desc (stream 0 2 4))
    let s := vecState o (fun x => { x with suspended := true })
    let w := vecState o (fun x => { x with suspended := true, reread := [(0, 3, 12)] })
    vecReady (vecState o id) o = true ∧ o.resumes < 4 ∧ o.vri ≤ 3 ∧ 3 < o.vl ∧
    vecReady (vecState { o with resumes := 4 } id) { o with resumes := 4 } = true ∧ s.mod.tileLive 0 0 = true ∧
    (s.mod.tile 0 0).suspended = true ∧ (s.mod.tile 0 0).vecQ.head? = some o ∧ s.mod.mayResume 0 0 = true ∧
    (w.mod.tile 0 0).awaits o.pos = true ∧ (w.mod.tile 0 0).vecQ.head? = some o ∧
    w.mod.tileLive 0 0 = true ∧ (w.mod.tile 0 0).reread = [(0, 3, 12)] := by decide +kernel

theorem witness_VectorArithmeticIsElementwise :
    (∀ o ∈ ([vop 0x10 1 4 .none, vop 0x11 9 4 .none, vop 0x12 9 4 .none, vop 0x13 1 1 .none, vop 0x14 1 1 .none, vop 0x15 1 1 .none,
        vop 0x16 1 1 .none, vop 0x17 1 1 .none, vop 0x1E 1 1 .none, { vop 0x20 1 1 .none with stype := 2 }, { vop 0x18 1 1 .none with stype := 2 },
        { vop 0x19 1 1 .none with stype := 2 }] : List VOp), vecReady (vecState o id) o = true ∧ o.vd < 32) ∧
    (vecState (vop 0x10 1 5 .none) id).mod.vecHead 0 0 0x10 = some (vop 0x10 1 5 .none) ∧ (vop 0x10 1 5 .none).tooLong false = true := by
  decide +kernel

theorem witness_ReductionsRoundOnce :
    (∀ o ∈ ([vop 0x1A 0 2 .none, { vop 0x1A 0 2 .none with stype := 2 }, vop 0x1C 1 4 .none, vop 0x1D 1 0 .none] : List VOp),
      vecReady (vecState o id) o = true ∧ o.vd < 32) ∧ bitAt (vop 0x1A 0 2 .none).stype 1 = false ∧
    bitAt ({ vop 0x1A 0 2 .none with stype := 2 } : VOp).stype 1 = true := by decide +kernel

/-! The Q unit and transfers. -/

def qop (op : Nat) (desc : BitVec 128) : QOp :=
  { bundle := 0, pos := 0, op := op, q := 3, consumer := false, desc := desc, port := 2, offset := 0, len := 64, region := 0, ctr := 1 }

def qState (o : QOp) (f : Tile → Tile) : State := tileState (fun x => f { x with qQ := [o] })

/-- Queue 3 of a tile as `f` makes it. -/
def queue3 (f : TQueue → TQueue) (x : Tile) : Tile := x.updQueue 3 f

theorem witness_QueuesBindPushAndPop :
    let o := qop 0x01 (stream 0 2 4)
    let busy := queue3 (fun q => { q with prod := .stream (stream 0 2 4) 3 0 0 })
    let s := qState o id
    s.mod.qHead 0 0 0x01 = some o ∧ descOk o.desc = true ∧ (s.mod.tile 0 0).drained ((s.mod.tile 0 0).queue o.q).prod = true ∧
    (qState o busy).mod.qHead 0 0 0x01 = some o ∧
    ((qState o busy).mod.tile 0 0).drained (((qState o busy).mod.tile 0 0).queue o.q).prod = false ∧ descOk (stream 1 2 4) = false ∧
    (∀ op ∈ ([0x02, 0x03, 0x04] : List Nat), (qState (qop op 0) id).mod.qHead 0 0 op = some (qop op 0)) := by decide +kernel

theorem witness_QueuesBindPushAndPop_moves :
    let push := tileState (queue3 (fun q => { q with prod := .stream (stream 0 2 17) 16 0 0 }))
    let pop := tileState (queue3 (fun q => { q with cons := .stream (stream 0 2 17) 0 0 0, entries := [⟨List.replicate 64 1, false, []⟩] }))
    let full := tileState (queue3 (fun q => { q with entries := List.replicate 64 ⟨[], false, []⟩ }))
    let x := push.mod.tile 0 0
    push.mod.tileLive 0 0 = true ∧ (x.queue 3).prod = .stream (stream 0 2 17) 16 0 0 ∧ (x.queue 3).entries = [] ∧
    16 < descElems (stream 0 2 17) ∧ x.awaits 0 = false ∧ x.accessFree 0 = true ∧ x.pad.elemsBad (stream 0 2 17) 16 1 = [] ∧
    ((pop.mod.tile 0 0).queue 3).cons = .stream (stream 0 2 17) 0 0 0 ∧
    ((pop.mod.tile 0 0).queue 3).entries = [⟨List.replicate 64 1, false, []⟩] ∧
    (⟨List.replicate 64 1, false, []⟩ : QEntry).poisoned = false ∧ (⟨List.replicate 64 1, false, [(9, 0)]⟩ : QEntry).poisoned = true ∧ ((full.mod.tile 0 0).queue 3).entries.length = 64 := by
  decide +kernel

/-- A transfer, number 0, of 16 bytes at the scratchpad's start. -/
def xfer (inbound : Bool) (via : Option Nat) (moved : Nat) : Dma :=
  { id := 0, pos := 0, bundle := 0, inbound := inbound, viaQueue := via, desc := stream 0 2 4, region := 0, offset := 0, len := 16,
    moved := moved, ctr := 0, prior := .unbound }

theorem witness_TransfersMoveTheirBytes :
    let i := qop 0x08 (stream 0 2 4)
    let o := qop 0x09 (stream 0 2 4)
    let busy := fun (x : Tile) => { x with dmas := List.replicate 16 (xfer true none 0) }
    let s := withEntry 1 (qState i id)
    s.mod.qHead 0 0 0x08 = some i ∧ s.mod.dmaEntry 0 0 i true 16 = some ⟨9, 1, 0, 4096⟩ ∧ descBytes i.desc = 16 ∧
    (s.mod.tile 0 0).dmas.length < 16 ∧ (withEntry 1 (qState o id)).mod.qHead 0 0 0x09 = some o ∧
    s.mod.dmaEntry 0 0 o false 16 = some ⟨9, 1, 0, 4096⟩ ∧ (qState i id).mod.dmaEntry 0 0 i true 16 = none ∧
    16 ≤ ((withEntry 1 (qState i busy)).mod.tile 0 0).dmas.length := by decide +kernel

theorem witness_TransfersMoveTheirBytes_queues :
    let s := withEntry 1 (qState (qop 0x0A 0) id)
    let busy := queue3 (fun q => { q with prod := .stream (stream 0 2 4) 3 0 0 })
    let w := withEntry 1 (qState (qop 0x0A 0) busy)
    s.mod.qHead 0 0 0x0A = some (qop 0x0A 0) ∧ (qop 0x0A 0).q < 16 ∧ s.mod.dmaEntry 0 0 (qop 0x0A 0) true 64 = some ⟨9, 1, 0, 4096⟩ ∧
    (s.mod.tile 0 0).drained (((s.mod.tile 0 0).queue 3).bound false) = true ∧
    (withEntry 1 (qState (qop 0x0B 0) id)).mod.qHead 0 0 0x0B = some (qop 0x0B 0) ∧
    (w.mod.tile 0 0).drained (((w.mod.tile 0 0).queue 3).bound false) = false := by decide +kernel

theorem witness_TransfersMoveTheirBytes_completed :
    let s := fun k => withEntry 1 (tileState (fun x => { x with dmas := [k] }))
    let k := xfer true none 0
    let x := (s k).mod.tile 0 0
    x.dmas.find? (fun y => y.id == 0) = some k ∧ (s k).mod.tileLive 0 0 = true ∧ x.accessFree k.pos = true ∧ (s k).mod.lineFree 0 0 k = true ∧
    (s (xfer false none 0)).mod.lineFree 0 0 (xfer false none 0) = true ∧ (s k).mod.entBad ((s k).mod.xferEntry 0 0 k) k.offset k.len = [] ∧ (s k).mod.entLost ((s k).mod.xferEntry 0 0 k) k.offset k.len = none ∧
    descElems k.desc = 4 ∧ (xfer false none 0).inbound = false ∧ x.awaits k.pos = false ∧ x.pad.elemsBad k.desc 0 4 = [] ∧
    (xfer true (some 3) 16).len ≤ (xfer true (some 3) 16).moved ∧ (xfer true (some 3) 15).moved < (xfer true (some 3) 15).len ∧
    ((s (xfer true (some 3) 16)).mod.tile 0 0).dmas.find? (fun y => y.id == 0) = some (xfer true (some 3) 16) := by decide +kernel

/-! Tasks, nodes and slots. -/

/-- A module with a graph of one node in a run state, and the node's reel in the store. -/
def node1 (x : Node) (r : NRun) : State := withReel (withGraph (graph x r))

def released : NRun := { NRun.fresh with phase := .released }

/-- A task that has started on C0 and awaits its take. -/
def between : NRun := { running with taken := [] }

theorem witness_TasksStartOnFreeTiles :
    let s := node1 tileNode released
    let t := { s with mod := s.mod.updTile 0 0 (fun x => { x with reelId := some 7 }) }
    let gr := graph tileNode released
    let x := gr.node 0
    Tbl.find s.mod.graphs 1 = some gr ∧ s.mod.reserved gr 0 = true ∧ s.mod.mayStart gr 0 = true ∧ x.dies = [0] ∧
    s.mod.mayStartOn s.env gr 1 0 0 = false ∧ t.mod.mayStartOn t.env gr 1 0 0 = true ∧
    x.dies.find? (fun k => t.mod.mayStartOn t.env gr 1 0 k) = some 0 ∧ (gr.runOf 0).phase = .released ∧
    (graph { tileNode with ty := tyBarrier } released |> fun g => s.mod.mayStart g 0) = false ∧
    (graph (Node.blank |> fun n => { n with ty := tyUpdate, udie := 0 }) released |> fun g => s.mod.mayStart g 0 && (g.node 0).dies.isEmpty) = true := by
  decide +kernel

theorem witness_TasksStartOnFreeTiles_take :
    let s := node1 tileNode released
    let b := node1 tileNode between
    let c := { b with mod := b.mod.updTile 0 0 (fun x => { x with reelId := some 7, owner := some (1, 0) }) }
    Tbl.find s.mod.mem.reels tileNode.reel.toNat = some ⟨0, reelImage, [], false⟩ ∧ tileNode.ty = tyTile ∧
    s.mod.copyDies 1 0 tileNode released = [0] ∧ c.mod.takeDies tileNode between = [0] ∧ released.isRunning = false ∧
    running.phase = .running ∧ reelVpin reelImage = false := by decide +kernel

theorem witness_TasksStartOnFreeTiles_cues :
    let armed := fun (d : Die) => { d with cues := [(0, [(1, 0)]), (5, [(1, 0)])] }
    let s := { withGraph (graph tileNode released) with mod := (withGraph (graph tileNode released)).mod.updDie 0 armed }
    s.mod.unitUp 0 = true ∧ (0, [(1, 0)]) ∈ ((s.mod.dies[(0 : Fin 12).val]).cues.take 64).filter (fun c => decide (c.1 ≤ s.env.dieNow 0)) ∧
    0 < (graph tileNode released).run.length ∧ (atStage 2).mod.unitUp 1 = false := by decide +kernel

theorem witness_NodesAndTakesComplete :
    let fires := fun ty => up.mod.mayFire (graph { Node.blank with ty := ty } released) 0 ty
    let ends := fun st => { running with outcome := some st }
    Tbl.wf (node1 tileNode running).mod.graphs = true ∧ fires tyCue = true ∧ fires tyBarrier = true ∧ fires tyHostNote = true ∧
    up.mod.mayFire (graph tileNode released) 0 tyCue = false ∧ up.mod.takeEnd tileNode { running with parts := [] } = none ∧
    up.mod.takeEnd tileNode (ends .ok) = some .ok ∧ Status.ok.success = true ∧ up.mod.takeEnd tileNode (ends .badStream) = some .badStream ∧
    Status.badStream.counted = false ∧ Status.arrayResidue.covered = true ∧ running.grace = false ∧ Status.arrayResidue.counted = true ∧
    running.counted + 1 < tileNode.limit ∧ tileNode.limit ≤ ({ running with counted := 2 } : NRun).counted + 1 := by decide +kernel

theorem witness_SlotsAreSavedAndRestored :
    let o := { mop 2 1 1 (.desc (stream 0 0 256)) .none .none with acc := true }
    let sl := { slot with saved := false }
    let s := withSlot sl (arrayState o id)
    let out := { slot with resident := false }
    let r := { running with outcome := some .badStream }
    s.mod.slotOf 0 0 0 = some (0, sl) ∧ s.mod.tileLive 0 0 = true ∧ sl.resident = true ∧ sl.saved = false ∧
    (s.mod.tile 0 0).arrayQ.find? (fun o => o.acc && o.gbs.contains 0) = some o ∧ (s.mod.tile 0 0).awaits o.pos = false ∧
    up.mod.flash.site 0 0 = 0 ∧ (withSlot slot up).mod.slots[0]? = some slot ∧ slot.graph ≠ 0 ∧
    slot.touched = false ∧ (withSlot slot up).mod.unitRuns slot.d = true ∧
    (withSlot out up).mod.entLost out.grad (out.image * 49280) 24640 = none ∧ (withGraph (graph tileNode r)).mod.lostSaves 1 0 tileNode = [] ∧
    (let h := up.mod.updUnit 0 (fun u => { u with held := true }); h.unitRuns slot.d = false) ∧ (withSlot out up).mod.slots[0]? = some out ∧ (withSlot out up).mod.residents 0 0 < 42 ∧
    Tbl.find (withGraph (graph tileNode r)).mod.graphs 1 = some (graph tileNode r) ∧ r.phase = .running ∧ Status.badStream.success = false := by
  decide +kernel

/-! Engines. -/

/-- A node of a type on C0, with region entry 0 as IN and 1 as OUT. -/
def engineNode (ty : Nat) (param : List Byte) : Node :=
  { Node.blank with ty := ty, dieMask := 1, param := padTo 96 param, regs := [⟨9, 0, 0, 16⟩, ⟨9, 1, 64, 16⟩] }

def engineState (x : Node) : State := withRegion region (withGraph (graph x running))

theorem witness_EnginePartsDoTheirWork :
    (∀ row ∈ engineRows up.env 1 0 0, ((engineState (engineNode row.ty [])).mod.partReady row.ty 1 0 row.part).isSome = true ∧
      up.mod.partReady row.ty 1 0 row.part = none) ∧ (engineRows up.env 1 0 0).length = 7 := by decide +kernel

theorem witness_EnginePartsDoTheirWork_copy :
    let x := engineNode tyCopy ([0, 1] ++ List.replicate 6 0 ++ natLe 8 16)
    let s := engineState x
    s.mod.partReady tyCopy 1 0 0 = some (graph x running, x, running) ∧ s.mod.poisonedRead (copyReads 0 0 s.mod (graph x running) x) = none ∧
    s.mod.region (x.parEnt 1).handle = some region ∧ Mem.wf region.bytes = true ∧ x.par 8 8 = 16 ∧ running.parts[0]? = some ⟨false, 0, false, 0⟩ := by
  decide +kernel

/-- An UPDATE node of one element on U0 whose freeze map is region entry 0. -/
def frozenNode : Node :=
  { engineNode tyUpdate (List.replicate 8 0 ++ natLe 4 1 ++ natLe 4 1 ++ List.replicate 5 0 ++ [0xFF, 0xFF, 0xFF, 0, 0xFF, 0xFF, 0xFF]) with
    dieMask := 0, udie := 0 }

/-- A factor set of one FP64 LU matrix of two rows. -/
def factorRegion : Region := { region with bytes := Mem.writeN [] 0 [0x46, 0x41, 0x43, 0x54, 2, 0, 0, 0, 1] }

/-- An ITER_SOLVE of no rows with CAP_OK, a SOLVE of that factor set, and an embedding UPDATE with an empty list. -/
def iterNode : Node := { engineNode tyIter (List.replicate 14 0 ++ [4]) with regs := [⟨9, 0, 2048, 16⟩, ⟨9, 1, 64, 16⟩] }
def solveNode : Node :=
  { engineNode tySolve [1, 0, 0, 0, 0, 0, 1, 2, 0xFF, 0xFF] with regs := [⟨9, 0, 0, 512⟩, ⟨9, 0, 512, 32⟩, ⟨9, 1, 1024, 32⟩] }
def embedNode : Node :=
  { engineNode tyUpdate (List.replicate 8 0 ++ natLe 4 1 ++ natLe 4 1 ++ [0, 1, 1, 0, 0, 0xFF, 1, 1, 0xFF, 0xFF, 0xFF, 0xFF]) with dieMask := 0, udie := 0 }

def partNodes : List Node :=
  [engineNode tyConvert [], engineNode tyCopy [], engineNode tyAssemble [], engineNode tyFactor [], solveNode, iterNode, embedNode]

def partState (x : Node) : State := withRegion factorRegion (withGraph (graph x running))

/-- For each row of the engines a part that may run, whose reads meet no error and whose work meets no fault of its own. -/
theorem witness_EnginePartsDoTheirWork_normal :
    (∀ y ∈ (engineRows up.env 1 0 0).zip partNodes,
      (partState y.2).mod.partReady y.1.ty 1 0 y.1.part = some (graph y.2 running, y.2, running) ∧
      (partState y.2).mod.lostRead (y.1.reads (partState y.2).mod (graph y.2 running) y.2) = none ∧
      (partState y.2).mod.poisonedRead (y.1.reads (partState y.2).mod (graph y.2 running) y.2) = none ∧
      (y.1.ty = tyUpdate → (partState y.2).mod.updWaits y.2 = false)) ∧
    embedNode.upd.embed = true ∧ frozenNode.upd.embed = false ∧ partNodes.length = 7 ∧
    ∀ x ∈ frozenNode :: partNodes, partNormal (partState x).mod (graph x running) x := by
  unfold partNormal; decide +kernel

/-- The freeze map of one block with bit 0 of its first word set. -/
def freezeMap : Region := { region with bytes := [(0x8, 1#8), (0xA, 1#8), (0x10, 1#8)] }

theorem witness_FrozenUpdatesAndRoots :
    let s := withRegion freezeMap (withGraph (graph frozenNode running))
    s.mod.partReady tyUpdate 1 0 0 = some (graph frozenNode running, frozenNode, running) ∧ s.mod.updWaits frozenNode = false ∧
    frozenNode.upd.embed = false ∧ ((s.mod.frozenMap frozenNode frozenNode.upd).filter id).length = frozenNode.upd.elems ∧
    frozenNode.upd.elems = 1 ∧ s.mod.lostRead (jointReads 0 0 updateReads s.mod (graph frozenNode running) frozenNode) = none ∧ s.mod.poisonedRead (jointReads 0 0 updateReads s.mod (graph frozenNode running) frozenNode) = none := by decide +kernel

theorem witness_FrozenUpdatesAndRoots_jobs :
    let j : RootJob := { handle := 9, off := 0, proot := 2, eps := 0, tol := 0x35800000, iters := 1, sides := [1], task := (1, 0, 1), stats := [[0x3F800000]], roots := none }
    let s := { up with mod := { up.mod with udies := up.mod.udies.set 1 { inReset := false, jobs := [j] } } }
    s.mod.unitRuns (12 + (1 : Fin 2).val) = true ∧ (s.mod.udies[(1 : Fin 2).val]).jobs.find? (fun y => y.roots.isNone) = some j ∧
    s.mod.rootWaiters 1 = [] ∧ (∀ k ∈ (up.mod.udies[(1 : Fin 2).val]).jobs, k.roots.isSome = true) := by decide +kernel

/-! Collectives. -/

/-- An ALL_REDUCE of FP32 values on the fabric: group 1, CID 2, two ranks, rank 0, a wait of 5 ms. -/
def reduceNode (bucket : Nat) : Node :=
  let p := [0, 0, 1, 1, 1, 1, 0, 0] ++ natLe 2 2 ++ natLe 2 2 ++ natLe 2 0 ++ natLe 2 0 ++ natLe 4 bucket ++ natLe 4 5 ++ [0, 1, 0xFF, 0xFF]
  { engineNode tyCollective p with dieMask := 0 }

/-- The module on its plane with a collective node. -/
def reducing (x : Node) (r : NRun) : State :=
  { onPlane with mod := { onPlane.mod with graphs := [(1, graph x r)], mem := { onPlane.mod.mem with regions := [(9, region)] } } }

theorem witness_CollectivesIssueAndReduce :
    let x := reduceNode 4096
    let gr := graph x running
    let s := reducing x running
    let issued := { running with issued := [0], contrib := [(0, List.replicate 16 0)] }
    Tbl.find s.mod.graphs 1 = some gr ∧ (gr.node 0).ty = tyCollective ∧ (gr.runOf 0).phase = .running ∧ (gr.runOf 0).outcome = none ∧
    s.mod.bucketReady gr 0 x x.coll 0 = true ∧ s.mod.bucketReady gr 0 x x.coll 1 = false ∧ x.coll.thin = false ∧ x.coll.op = 0 ∧
    x.coll.fabric = true ∧ s.mod.buckets x x.coll = 1 ∧ (0 : Nat) ∉ running.issued ∧
    (∀ k ∈ s.mod.bucketSrc x x.coll 0, s.mod.entPoisoned (x.parEnt 0x18) k.1 k.2 = false) ∧ 0 ∈ issued.issued ∧ 0 ∉ issued.completed ∧
    issued.parts.length = 1 ∧ x.coll.waitMs ≠ 0 ∧ s.mod.perturbed = false ∧ (1 : Nat) ≠ x.coll.rank := by decide +kernel

theorem witness_CollectivesIssueAndReduce_whole :
    let x := reduceNode 0
    let s := reducing x running
    x.coll.bucket = 0 ∧ 8 ≤ fmtBits x.coll.rfmt ∧ 0 < s.mod.partLen x x.coll x.coll.rank / (fmtBits x.coll.sfmt / 8) ∧
    s.mod.buckets x x.coll = 1 ∧ (∀ k : Fin 2, slice (([List.replicate 16 0#8, List.replicate 16 0#8] : List (List Byte)).getD k.val [])
      (x.coll.sent (s.mod.bucketRange x x.coll 0 x.coll.rank).1) (x.coll.sent (s.mod.bucketRange x x.coll 0 x.coll.rank).2) =
      ([List.replicate 16 0#8, List.replicate 16 0#8] : List (List Byte)).getD k.val []) := by decide +kernel

/-! The stash. -/

/-- A stage of one block with a stump of 64 bytes and a quota. -/
def stage (quota policy : Nat) : StageEnt :=
  { quota := quota, stumps := 9, acts := 9, replay := 9, offload := 0xFFFFFFFF#32, replayLen := 0, offloadLen := 0,
    blocks := [⟨BitVec.ofNat 32 policy, 64, 64⟩] }

def forward : Node := { tileNode with phase := 0, stage := 0, block := 0, mb := 0 }

def stashGraph (quota : Nat) (st : StashSt) : Graph := { graph forward released with stages := [stage quota 0], stash := [st] }

def noStash : StashSt := ⟨[], [], [], [], []⟩

theorem witness_StashReservesAndReplays :
    let wide := stashGraph 128 noStash
    let tight := { wide with stages := [stage 127 0] }
    let off := { wide with stages := [{ stage 128 2 with offload := 9, offloadLen := 64 }] }
    let held : StashSt := { noStash with resv := [⟨0, 0, 64, 64, none, [], [], []⟩] }
    Tbl.find (withGraph wide).mod.graphs 1 = some wide ∧ (0 : Nat) < wide.stash.length ∧ (withGraph wide).mod.nextResv wide 0 = some (0, 0) ∧
    wide.policyOf 0 0 0 = 0 ∧ (wide.stage 0).fits (wide.stashOf 0) 128 = true ∧ (withGraph tight).mod.nextResv tight 0 = some (0, 0) ∧
    (tight.stage 0).fits (tight.stashOf 0) 128 = false ∧ off.policyOf 0 0 0 = 2 ∧ (withGraph off).mod.nextResv off 0 = some (0, 0) ∧
    (off.stage 0).offPlace (off.stashOf 0) 64 = some 0 ∧ (withGraph (stashGraph 128 held)).mod.nextResv (stashGraph 128 held) 0 = none := by
  decide +kernel

/-- A graph whose forward node has completed and whose backward node of the same block is released, with a replay area of 128 bytes. -/
def backGraph (r : RegEnt) : Graph :=
  { graph forward released with
      nodes := [{ forward with regs := [r] }, { tileNode with phase := 1, stage := 0, block := 0, mb := 0 }],
      run := [{ NRun.fresh with phase := .done .ok }, released], stages := [{ stage 128 1 with replay := 10, replayLen := 128 }],
      stash := [{ noStash with resv := [⟨0, 0, 64, 0, none, [], [], [(0, 0, List.replicate 16 0 ++ [0xA5#8] ++ List.replicate 47 0)]⟩] }] }

/-- The module with that graph, its ACT region 9 with a line in error, and the region of the replay area. -/
def replaying (failed : List (Nat × Nat)) : State :=
  let s := withGraph (backGraph ⟨9, 1#8, 0, 64⟩)
  let act := { region with cls := .act, poison := [0] }
  { s with mod := { s.mod with mem := { s.mod.mem with regions := [(9, act), (10, { act with poison := [], bytes := [], pages := [⟨1, 0, 0, 0⟩] })], failedCh := failed } } }

theorem witness_StashReservesAndReplays_replay :
    let gr := backGraph ⟨9, 1#8, 0, 64⟩
    Tbl.find (replaying []).mod.graphs 1 = some gr ∧ (0 : Nat) < gr.stash.length ∧ gr.nextReplay 0 = some (0, 0) ∧
    gr.nextReplay 0 ≠ some (0, 1) ∧ (replaying []).mod.gatherWaits 1 gr = [] ∧ (replaying []).mod.mayReplay gr (0, 0, 0) 2 = true ∧
    (replaying []).mod.stumpFault up.env gr (0, 0, 0) .none = none ∧ gr.replayPlace 0 0 0 = some ([], 0) ∧ gr.replayNodes 0 0 0 2 = [0] ∧
    gr.replayRoom 0 0 128 [] = some ([], 0) ∧ gr.replayRoom 0 0 129 [] = none ∧
    (gr.blockNodes phFwd 0 0 0).filter (fun i => (gr.runOf i).isDone) = [0] ∧ (gr.node 0).outs = [⟨9, 1#8, 0, 64⟩] ∧
    ((replaying []).mod.region 10).map (fun rg => (Mem.wf rg.bytes, rg.len)) = some (true, 4096) := by decide +kernel

/-- The graph of `backGraph` whose backward node reads the block's output, with a replay area of `len` bytes, and the module while a VGATHM of
that node waits for its line in error (R161). -/
def gatherGraph (len : Nat) : Graph :=
  { backGraph ⟨9, 1#8, 0, 64⟩ with
      stages := [{ stage 128 1 with replay := 10, replayLen := len }],
      nodes := [{ forward with regs := [⟨9, 1#8, 0, 64⟩] }, { tileNode with phase := 1, regs := [⟨9, 0, 0, 64⟩] }],
      run := [{ NRun.fresh with phase := .done .ok }, running] }

def gathering (len : Nat) : State :=
  let o := { vop 0x06 1 1 .none with idx := some 0, started := true }
  { replaying [] with mod := { (replaying []).mod with graphs := [(1, gatherGraph len)] }.updTile 0 0 (fun x =>
      { x with owner := some (1, 1), suspended := true, finished := false, gateOn := true, vecQ := [o] }) }

theorem witness_StashReservesAndReplays_gathers :
    (gathering 128).mod.gatherWaits 1 (gatherGraph 128) = [(1, 9, 0)] ∧ (gatherGraph 128).poisonKey 1 (9, 0) = (0, 0, 0) ∧
    (gatherGraph 128).nextReplay 0 ≠ some (0, 0) ∧ (gatherGraph 128).upto 1 [(9, 0)] (0, 0, 0) = 2 ∧
    (gathering 128).mod.mayReplay (gatherGraph 128) (0, 0, 0) 2 = true ∧ (gathering 0).mod.mayReplay (gatherGraph 0) (0, 0, 0) 2 = false ∧
    ((gatherGraph 128).runOf 1).outcome = none := by decide +kernel

/-- R161, R220: the replay makes the line good, and the gather may go on. -/
theorem test_replay_for_a_gather : gives (.replay 1 0 0 0 .none) (gathering 128)
    (fun t => decide (t.mod.gatherWaits 1 (gatherGraph 128) = []) && (t.mod.region 9).map (fun r => r.replayed) == some [0]) = true := by decide +kernel

/-- R212, R220: after a replay the output of a completed forward node reads without error, poisoned or in a failed channel, while
the host's window still sees the line in error; the replay area holds its bytes after the stump's 64. -/
theorem test_replay_makes_good :
    let r : RegEnt := ⟨9, 1#8, 0, 64⟩
    let act := { region with cls := .act, poison := [0] }
    ((replaying []).mod.entPoisoned r 0 64 && (replaying [(0, 0)]).mod.entPoisoned r 0 64 &&
      gives (.replay 1 0 0 0 .none) (replaying []) (fun t => !t.mod.entPoisoned r 0 64 && t.mod.regPoisoned act 0 64 &&
        (t.mod.region 10).map (fun rg => rg.read 80) == some 0xA5#8) &&
      gives (.replay 1 0 0 0 .none) (replaying [(0, 0)]) (fun t => !t.mod.entPoisoned r 0 64)) = true := by decide +kernel

/-! Memory errors and tests. -/

/-- A module whose pair (0, 0) is marked for migration. -/
def marked (r : Tbl Region) (out : List (Nat × Nat)) : State :=
  { up with mod := { up.mod with mem := { up.mod.mem with marked := [(0, 0)], regions := r }, flash := { up.mod.flash with mappedOut := out } } }

theorem witness_MemoryErrorsLeadToTests :
    let s := withRegion region up
    let sel := fun (p : PageLoc) (_ : List Nat) => p.stack == 0 && p.pair == 0
    let all := (List.range 2).flatMap (fun st => (List.range 16).map (fun k => (st, k)))
    let two := { region with len := 8192, pages := [⟨0, 0, 0, 0⟩, ⟨0, 0, 0, 1⟩] }
    up.mod.unitUp 0 = true ∧ up.mod.unitUp 13 = true ∧ s.mod.region 9 = some region ∧ 63 * 64 < region.len ∧
    (region.lineAddr 63).isSome = true ∧ region.cls ≠ .slow ∧ (0, 0) ∉ up.mod.mem.failedCh ∧ (0, 0) ∉ up.mod.flash.mappedOut ∧
    up.mod.hbmAlive = true ∧ (s.mod.findPage (ofPair 0 0)).isSome = true ∧ up.mod.findPage (ofPair 23 15) = none ∧ up.mod.mem.pendingRetire = [] ∧
    (marked [] []).mod.isMarked 0 0 = true ∧ up.mod.isMarked 0 0 = false ∧ (marked [] []).mod.mem.stalled = [] ∧
    up.mod.unitUp (hostDie 0) = true ∧ ((0, 1) : Nat × Nat) ∉ ([] : List (Nat × Nat)) ∧ (0, 0) ∈ (marked [] []).mod.mem.marked ∧ (marked [] []).mod.findPage sel = none ∧ (marked [] []).mod.mem.pendingRetire = [] ∧
    (marked [(9, region)] all).mod.findPage sel = some (false, 9, 0) ∧
    (marked [(9, region)] all).mod.moveOne .f (false, 9, 0) false = none ∧
    ((marked [(9, two)] [(0, 0)]).mod.moveOne .f (false, 9, 0) false).map (fun m => (m.findPage sel).isSome) = some true := by decide +kernel

theorem witness_MemoryErrorsLeadToTests_selfTest :
    let r := TestRes.padRow 0 65 15 4095
    let s := { up with mod := { up.mod with flt := { up.mod.flt with pendingTests := [r] } } }
    s.fuses.grade.hasRes r = true ∧ s.mod.testable r = true ∧ r ∈ s.mod.flt.pendingTests ∧ s.mod.recentErrors s.env r < 8 ∧ testClass r ≠ 2 ∧
    (s.mod.flash.padRows.filter (fun y => y.d == 0 && y.site == 65 && y.bank == 15)).length < 8 := by decide +kernel

theorem witness_MergedInterruptsGoOutOnce : up.mod.msix.merged.getLsbD 127 = false ∧
    ({ up.mod.msix with merged := 1#128 <<< 127 } : Msix).merged.getLsbD 127 = true := by decide +kernel

theorem witness_StepsKeepTablesCanonical : canonical up ∧ ∃ t, step up = .next t := by
  refine ⟨⟨by decide +kernel, by decide +kernel, by decide +kernel, by decide +kernel, ?_, ?_⟩, _, rfl⟩
  · intro g gr e
    simp [up, State.reset, Mod.cold, Tbl.find] at e
  intro h r e
  simp [Mod.region, up, State.reset, Mod.cold, MemSys.cold, Tbl.find] at e

/-! Witnesses of further clauses, at the boundaries of their ranges. -/

theorem witness_TallyHeldWritesTakeTheirTurn_through :
    let s := match runAll [.tlyStatusClear 1, .tlyData8 0x32] fed with | .next t => t | _ => up
    (s.channel 0).busy = true ∧ (s.channel 0).waiting = [.status 1, .data 1 0x32] ∧ (up.channel 13).busy = false ∧
    (({ s.channel 0 with busy := false, waiting := [] } : TallyCh).apply (.status 1)).busy = false ∧ (fed.channel 0).waiting = [] := by
  decide +kernel

theorem witness_DoorbellsMoveTheRings_idle :
    let s := { up with mod := { up.mod with mbx := { up.mod.mbx with queues := vmodN (Vector.replicate 64 none) 0 (fun _ => some ring) } } }
    s.mod.portUp = true ∧ s.mod.queue 0 = some ring ∧ ring.rung = [] ∧ ring.held = [] ∧ ring.full = false ∧ s.mod.mbx.inService = none ∧
    ((1#64).extractLsb' 0 16).toNat = (ring.sqTail + 1) % 2 ^ ring.log2Sq ∧ ring.sqTail < 2 ^ ring.log2Sq ∧
    s.mod.checkEntry ring (sealEntry (entry 0x52 0)) = (true, none) ∧ s.mod.checkEntry ring (entry 0x52 0) = (false, some .cmdCrcFailed) := by
  decide +kernel

theorem witness_QueuesComeAndGo_deleted : ((serving (entry 0x4 0) up).mod.queue (entArg (entry 0x4 0) 8 1)).isSome = true ∧
    up.mod.graphs.any (fun g => g.2.queue == 0) = false ∧
    (serving (entry 0x4 0) (withGraph (graph tileNode running))).mod.graphs.any (fun g => g.2.queue == 0) = true := by decide +kernel

theorem witness_GraphsAreSubmittedAndAborted_counted : ∀ k : Nat, ¬(((graph tileNode running).runOf k).isRunning = true ∧
    ((graph tileNode running).node k).ty = tyUpdate ∧ ((graph tileNode running).runOf k).committed = true ∧
    ((graph tileNode running).runOf k).outcome = some .ok) := by
  intro k
  cases k with
  | zero => decide
  | succ k => intro h; simp [Graph.runOf, graph, NRun.fresh, NRun.isRunning] at h

theorem witness_WindowReachesTheMappedRegion_poisoned :
    let act := { region with cls := .act, poison := [0] }
    (windowed act).mod.regPoisoned act 0 1 = true ∧ act.cls = .act ∧
    (let lost := { region with poison := [0] }; (windowed lost).mod.regPoisoned lost 0 1 = true ∧ lost.cls = .persist) := by decide +kernel

theorem witness_RegisterWritesKeepTheirFields_behind :
    let s := { up with mod := { up.mod with recs := { up.mod.recs with write := 196608, read := 1 } } }
    s.mod.recs.write - s.mod.recs.read.toNat < 196608 ∧ 196608 ≤ s.mod.recs.write - (0#64).toNat ∧
    ¬(196608 ≤ s.mod.recs.write - (1#64).toNat) := by decide +kernel

theorem witness_DieResetsAreConfined_rejoins : (up.mod.dies[(11 : Fin 12).val]).inReset = false ∧
    ((up.mod.updDie 11 (fun d => { d with inReset := true })).dies[(11 : Fin 12).val]).inReset = true := by decide +kernel

theorem witness_SmbusReadsChangeNothing_addresses : (0x59#7) ≠ 0x58#7 + up.fuses.slotId.setWidth 7 ∧ dark.mod.life.powered = false ∧
    up.mod.life.pstate ≠ .deepPark ∧ (0x00#8) ≠ smbPec [smbAddrByte 0x58 false, 0x10] ∧ up.mod.diesOn = true ∧ parked.mod.diesOn = false := by
  decide +kernel

/-- A segment for the ring 9 of stream 0 without payload. -/
def segFor (seq : Nat) (lost : Bool) : Seg :=
  let h := natLe 4 9 ++ natLe 4 0 ++ natLe 8 seq ++ natLe 8 0x11 ++ natLe 4 0
  ⟨0, 7, h ++ natLe 4 (crc32c h), lost⟩

/-- A ring of one slot with header fields (offset, bytes, value), what the agent last read of it, and a waiting segment. -/
def ringState (l : List (Nat × Nat × Nat)) (known : Tbl Nat) (sg : Seg) : State :=
  let r := { ringRegion with bytes := l.foldl (fun m (f : Nat × Nat × Nat) => Mem.writeN m f.1 (natLe f.2.1 f.2.2)) ringRegion.bytes }
  { withRegion r onPlane with mod := { (withRegion r onPlane).mod with ing := { onPlane.mod.ing with buf := [sg], consumed := known } } }

/-- The state's ring, in the form that the clauses name, with its header sound and open. -/
def ringSound (s : State) (sg : Seg) : Bool :=
  match Tbl.find s.mod.mem.regions (segHandle sg.bytes) with
  | none => false
  | some r => s.mod.agentUp && s.mod.ing.buf == [sg] && r.ringForm && Mem.wf r.bytes && r.ring 0x48 4 % 2 == 1 &&
      r.ring 4 4 == segStream sg.bytes && segOk sg.bytes && decide (segLength sg.bytes + 64 ≤ r.slotBytes)

theorem witness_SegmentsAreBufferedAndChecked_orders :
    (∀ y ∈ ([([], [(9, 5)], 4), ([(0x40, 8, 2)], [(9, 0)], 1), ([], [], 0), ([(0x40, 8, 1)], [(9, 0)], 1), ([], [(9, 0)], 1)] :
        List (List (Nat × Nat × Nat) × Tbl Nat × Nat)),
      ringSound (ringState y.1 y.2.1 (segFor y.2.2 false)) (segFor y.2.2 false) = true ∧ segSeq (segFor y.2.2 false).bytes = y.2.2) ∧
    (segFor 1 false).lostHere = false ∧ (segFor 1 true).lostHere = true ∧ ringSound (ringState [] [] (segFor 1 true)) (segFor 1 true) = true := by
  decide +kernel

/-- Which clause each of those states falls under: LATE as last read, LATE as read anew, DUP, landing, and a full ring. -/
theorem witness_SegmentsAreBufferedAndChecked_ranges :
    let at_ := fun (l : List (Nat × Nat × Nat)) => { ringRegion with bytes := l.foldl (fun m (f : Nat × Nat × Nat) => Mem.writeN m f.1 (natLe f.2.1 f.2.2)) ringRegion.bytes }
    (at_ []).nslots = 1 ∧ (at_ []).ring 0x1000 8 = 0 ∧ (at_ []).ring 0x40 8 = 0 ∧ (at_ [(0x40, 8, 1)]).ring 0x40 8 = 1 ∧
    (at_ [(0x40, 8, 2)]).ring 0x40 8 = 2 ∧ (at_ []).ring 0x34 4 = 0 ∧
    (let g := at_ [(0x34, 4, 1), (0x88, 8, 0), (0x98, 1, 1)]; g.ring 0x34 4 = 1 ∧ g.ring 0x88 8 + 1 = 1 ∧ g.ring 0x98 1 = 1) := by decide +kernel

theorem witness_SegmentsAreBufferedAndChecked_unrouted :
    let s := { onPlane with mod := { onPlane.mod with ing := { onPlane.mod.ing with buf := [segFor 1 false] } } }
    let t := { s with mod := { s.mod with ing := { s.mod.ing with unrouted := [(9, s.env.now)] } } }
    let late := { t with mod := { t.mod with ing := { t.mod.ing with unrouted := [(9, 0)] } }, time := { t.time with keeper := t.time.keeper.set 0 { t.time.keeper[0] with fs := 10 ^ 15 } } }
    s.mod.agentUp = true ∧ s.mod.ringOf 9 = none ∧ s.mod.ringShaped 9 = none ∧ segOk (segFor 1 false).bytes = true ∧
    s.mod.ing.unrouted = [] ∧ t.env.now < t.env.now + 1000000000 ∧ 0 + 1000000000 ≤ late.env.now := by decide +kernel

theorem witness_CapLoopsMoveCapPoints_slow :
    let duty := fun k (p : Power) => { p with duty := k, units := Vector.replicate 14 { PUnit.cold with capPoint := 0 } }
    let s := { up with mod := { up.mod with pwr := duty 2 up.mod.pwr } }
    let n := { up with mod := { up.mod with pwr := { duty 1 up.mod.pwr with unreachable := true } } }
    let b := { up with mod := { up.mod with pwr := { up.mod.pwr with below := 4 } } }
    up.mod.allCapped = false ∧ s.mod.allCapped = true ∧ 1 < s.mod.pwr.duty ∧ s.mod.pwr.duty < 8 ∧ n.mod.pwr.unreachable = true ∧ n.mod.pwr.duty = 1 ∧
    up.mod.pwr.duty = 8 ∧ up.mod.pwr.below + 1 < 5 ∧ 5 ≤ b.mod.pwr.below + 1 ∧ 100 * 7371 < 97 * up.mod.pwr.cap.toNat ∧
    97 * up.mod.pwr.cap.toNat ≤ 100 * 7372 ∧ parked.mod.metering = true ∧ dark.mod.life.powered = false ∧
    (atStage 0).mod.life.powered = true ∧ (atStage 0).mod.metering = false := by
  decide +kernel

theorem witness_PaceIsAnnouncedAndFollowed_follows :
    let ctrl := fun (w : Word) => { onPlane with mod := { onPlane.mod with pwr := { onPlane.mod.pwr with ctrl := w, group := 1, units := Vector.replicate 14 { PUnit.cold with pref := 0x3FFFF#18 } } } }
    let s := ctrl 0x000183F000140FA0#64
    s.mod.hearsPace = true ∧ s.mod.lockstep = true ∧ (ctrl 0x000103F000140FA0#64).mod.lockstep = false ∧ s.mod.pwr.announced = [] ∧
    s.mod.fab.number ≠ some (pace 1).member ∧ (pace 1).cause ≠ 0 ∧ (∀ j : Fin 12, (pace 1).op.val < s.mod.ownOp j.val) ∧
    s.mod.ownOp 0 ≤ ({ pace 1 with op := 7 } : PaceMsg).op.val ∧ ({ pace 1 with op := 7 } : PaceMsg).op ≠ 0 := by decide +kernel

theorem witness_TemperaturesAndCeilings_powered : (atStage 1).mod.unitUp 13 = false ∧ (atStage 1).mod.diesOn = true ∧
    parked.mod.unitUp 13 = false ∧ parked.mod.diesOn = false ∧ (up.mod.updUnit 13 (fun u => { u with hot := true })).unitUp 13 = true := by
  decide +kernel

theorem witness_TileCommandsStayOnTheirTile_memory :
    let pop := withEntry 1 (tileState (fun x =>
      queue3 (fun q => { q with cons := .dma 0, entries := [⟨List.replicate 64 1, false, []⟩] }) { x with dmas := [xfer false (some 3) 0] }))
    (∃ t, exec (.queuePop 0 0 3) pop = .next t) ∧ ((pop.mod.tile 0 0).queue 3).cons = .dma 0 ∧
    (pop.mod.tile 0 0).dmas.find? (fun z => z.id == 0) = some (xfer false (some 3) 0) ∧ pop.mod.region 9 = some region ∧
    ((up.mod.tile 0 0).queue 3).cons = .unbound ∧ (∃ t, exec (.queuePop 0 0 3) up = .next t) ∧
    (∃ t, exec (.gatherReply 0 0 127 (.hbm 0 0 .both)) up = .next t) ∧ writesMemory (.gatherReply 0 0 127 .none) = false :=
  ⟨⟨_, rfl⟩, by decide +kernel, by decide +kernel, by decide +kernel, by decide +kernel, ⟨_, rfl⟩, ⟨_, rfl⟩, rfl⟩

theorem witness_BundlesIssueInOrder_loops :
    let looping := fun (n : Nat) (last : Nat) => tileState (fun x => { x with imem := bundle1 5 0x04448000, lrc := x.lrc.set 1 (BitVec.ofNat 32 n), loops := [⟨1, 0, last⟩] })
    let nested := tileState (fun x => { x with imem := bundle1 5 0x04448000, loops := [⟨1, 0, 0⟩, ⟨0, 0, 9⟩], lrc := x.lrc.set 1 1#32 })
    let vl := issuing (bundle2 2 0x0100000000000000)
    (∀ y ∈ ([looping 2 0, looping 1 0, looping 2 9, nested] : List State), mayIssue y = true ∧ (y.mod.tile 0 0).accepts (bundleAt (bundle1 5 0x04448000) 0) = true ∧
      (y.mod.tile 0 0).doneSeen = false) ∧ vget ((looping 2 0).mod.tile 0 0).lrc 1 0 - 1 ≠ 0 ∧ vget ((looping 1 0).mod.tile 0 0).lrc 1 0 - 1 = 0 ∧
    (bundleAt (bundle1 0 0x04400003) 0).c = some 0x04400003 ∧ slotOp 0x04400003 = 0x01 ∧
    vget ((issuing []).mod.tile 0 0).lc (cN 0x04400003) 0 = 0 ∧ mayIssue vl = true ∧
    (bundleAt (bundle2 2 0x0100000000000000) 0).v = some 0x0100000000000000 ∧ vOp 0x0100000000000000 = 1 := by decide +kernel

/-- R110, R113: the last bundle of a loop's body goes back to its first while iterations are left, and on after the last. -/
theorem test_loop_end :
    let looping := fun (n : Nat) => tileState (fun x => { x with imem := bundle1 5 0x04448000 ++ bundle1 5 0x04448000, pc := 3, lrc := x.lrc.set 1 (BitVec.ofNat 32 n), loops := [⟨1, 0, 3⟩] })
    gives (.bundleIssue 0 0 .none) (looping 2) (fun t => decide ((t.mod.tile 0 0).pc = 0)) = true ∧
    gives (.bundleIssue 0 0 .none) (looping 1) (fun t => decide ((t.mod.tile 0 0).pc = 6 ∧ (t.mod.tile 0 0).loops = [])) = true := by decide +kernel

theorem witness_ProductsAreFormed_blocked :
    let zero := { mop 2 1 0 (.desc (stream 0 0 256)) .none .none with pos := 5 }
    let s := arrayState zero (fun x => { x with accesses := [⟨0, [(0, 4)], true, false⟩] })
    s.mod.arrayHead 0 0 2 = some zero ∧ zero.count = 0 ∧ (s.mod.tile 0 0).awaits 5 = false ∧ zero.halt = false := by decide +kernel

theorem witness_TransfersMoveTheirBytes_after :
    let busy := fun (x : Tile) => queue3 (fun q => { q with prod := .dma 0 }) { x with dmas := [xfer true (some 3) 16] }
    let w := withEntry 1 (qState (qop 0x0A 0) busy)
    w.mod.qHead 0 0 0x0A = some (qop 0x0A 0) ∧ (w.mod.tile 0 0).drained (((w.mod.tile 0 0).queue 3).bound false) = true ∧
    ((w.mod.tile 0 0).queue 3).bound false = .dma 0 ∧ (w.mod.tile 0 0).dmas.find? (fun y => y.id == 0) = some (xfer true (some 3) 16) := by
  decide +kernel

/-- A module whose reel cannot be read, and one whose slot table cannot. -/
def withLostReel (s : State) : State := { s with mod := { s.mod with mem := { s.mod.mem with reels := [(7, ⟨0, reelImage, [], true⟩)] } } }
def slotTableNode : Node := { tileNode with regs := [⟨9, 4, 0, 64⟩] }

theorem witness_TasksStartOnFreeTiles_lost :
    let s := withLostReel (withGraph (graph tileNode between))
    let t := s.mod.updTile 0 0 (fun x => { x with owner := some (1, 0) })
    let b0 := node1 slotTableNode between
    let b := { b0 with mod := { (b0.mod.updTile 0 0 (fun x => { x with reelId := some 7, owner := some (1, 0) })) with
      mem := { b0.mod.mem with regions := [(9, { region with poison := [0] })] } } }
    t.copyDies 1 0 tileNode between = [0] ∧ t.reelLost ⟨0, reelImage, [], true⟩ = true ∧ between.isRunning = true ∧ between.outcome = none ∧
    b.mod.takeDies slotTableNode between = [0] ∧ b.mod.slotsLost slotTableNode = some (9, 0) ∧
    (withReel up).mod.reelLost ⟨0, reelImage, [], false⟩ = false ∧ up.mod.slotsLost tileNode = none := by decide +kernel

/-- A failed take of the TILE node with a touched slot, on a die that runs or is held, whose save image can or cannot be read. -/
def failedTake (st : Status) (rail : Bool) (bad : List Nat) : State :=
  let s := withRegion { region with len := 49280, poison := bad } (withGraph (graph tileNode { running with outcome := some st }))
  { s with mod := { (s.mod.updTile 0 0 (fun x => { x with owner := some (1, 0), slotBind := [(0, 0)] })).updUnit 0 (fun u => { u with held := rail }) with
    slots := [{ slot with touched := true, grad := ⟨9, 3, 0, 49280⟩ }] } }

theorem witness_NodesAndTakesComplete_restores :
    let n := tileNode
    (failedTake .badStream true []).mod.restoreHeld 1 0 n = true ∧ (failedTake .badStream false []).mod.restoreHeld 1 0 n = false ∧
    (failedTake .badStream false []).mod.lostSaves 1 0 n = [] ∧ (failedTake .badStream false [385]).mod.lostSaves 1 0 n ≠ [] ∧
    0 ∈ (failedTake .badStream false []).mod.boundSlots 1 0 n ∧
    (failedTake .badStream true []).mod.takeEnd n { running with outcome := some .badStream } = some .badStream ∧
    (failedTake .arrayResidue false []).mod.takeEnd n { running with outcome := some .arrayResidue } = some .arrayResidue ∧
    up.mod.reserved (graph { Node.blank with ty := tyBarrier } released) 0 = true ∧
    up.mod.mayFire (graph { Node.blank with ty := tyBarrier } NRun.fresh) 0 tyBarrier = false := by decide +kernel

/-- A KRON UPDATE of one element on U0, whose region says that roots are pending. -/
def kronNode : Node :=
  { engineNode tyUpdate (List.replicate 8 0 ++ natLe 4 1 ++ natLe 4 1 ++ [3, 1, 0, 0, 0, 0, 0, 1, 0xFF, 0xFF, 0xFF, 0xFF]) with
    dieMask := 0, udie := 0 }

/-- It must adopt roots that the root unit still computes. -/
theorem witness_EnginePartsDoTheirWork_waits :
    let j : RootJob := { handle := 9, off := 0, proot := 2, eps := 0, tol := 0x35800000, iters := 1, sides := [1], task := (1, 0, 1), stats := [[0]], roots := none }
    let s0 := withRegion { region with bytes := [] } (withGraph (graph kronNode running))
    let s := { s0 with mod := { s0.mod with udies := up.mod.udies.set 0 { inReset := false, jobs := [j] } } }
    s.mod.partReady tyUpdate 1 0 0 = some (graph kronNode running, kronNode, running) ∧ s.mod.updWaits kronNode = true ∧
    kronNode.upd.embed = false ∧ s.mod.updFault kronNode kronNode.upd = false ∧
    s.mod.lostRead (jointReads 0 0 updateReads s.mod (graph kronNode running) kronNode) = none ∧
    s.mod.poisonedRead (jointReads 0 0 updateReads s.mod (graph kronNode running) kronNode) = none := by decide +kernel

theorem witness_EnginePartsDoTheirWork_faults :
    NRun.divided { running with parts := [⟨false, 2, false, 0⟩] } (engineNode tyUpdate []) = false ∧
    NRun.divided { running with parts := [⟨false, 2, false, 0⟩] } (engineNode tyCopy []) = true ∧
    NRun.divided { running with parts := [⟨false, 2, false, 0⟩, ⟨false, 0, false, 1⟩] } (engineNode tyConvert []) = true ∧
    (engineNode tyCopy []).limit ≤ 2 + 1 ∧ ¬((engineNode tyCopy []).limit ≤ 1 + 1) := by decide +kernel

theorem witness_CollectivesIssueAndReduce_readable :
    let x := reduceNode 4096
    let s := reducing x running
    s.mod.lostRead (s.mod.bucketReads x x.coll 0) = none ∧ s.mod.poisonedRead (s.mod.bucketReads x x.coll 0) = none ∧
    (∀ d ∈ x.dies, d ∈ running.on) ∧ s.mod.buckets x x.coll = 1 ∧ (0 : Nat) ∉ running.completed ∧ s.mod.bucketReady (graph x running) 0 x x.coll 0 = true := by
  decide +kernel

/-- The graph of `backGraph` whose block's stump stands in the offload area, and whose backward node runs. -/
def offGraph : Graph :=
  { backGraph ⟨9, 1#8, 0, 64⟩ with
      nodes := (backGraph ⟨9, 1#8, 0, 64⟩).nodes ++ [{ tileNode with phase := 1, stage := 0, block := 0, mb := 0 }],
      run := [{ NRun.fresh with phase := .done .ok }, running, released],
      stash := [{ noStash with resv := [⟨0, 0, 64, 0, some 0, [], [], []⟩] }] }

theorem witness_StashReservesAndReplays_stump :
    let gr := backGraph ⟨9, 1#8, 0, 64⟩
    ((replaying []).mod.fetchStump gr 0 0 0).isSome = true ∧ (replaying []).mod.fetchStump gr 0 1 0 = none ∧
    (gr.blockNodes phFwd 0 0 0).filter (fun i => !(gr.node i).bare && (gr.runOf i).isDone && decide (i ≤ gr.nodes.length)) = [0] ∧
    offGraph.nextReplay 0 = some (0, 0) ∧ (offGraph.stashOf 0).offOf 0 0 = some 0 ∧ offGraph.replayFor 0 0 0 = some 1 ∧
    (withGraph offGraph).mod.mayReplay offGraph (0, 0, 0) 3 = true ∧
    (withGraph offGraph).mod.stumpFault up.env offGraph (0, 0, 0) (.slow 0 0 false) = some (.slowUncorrectable, []) ∧
    (offGraph.runOf 1).isRunning = true := by decide +kernel

theorem witness_CapLoopsMoveCapPoints_dark : dark.mod.life.powered = false ∧ (atStage 0).mod.life.powered = true ∧
    (atStage 0).mod.metering = false ∧ (65535 : Nat) < 65536 := by decide +kernel

theorem witness_TestModeAndPerturbation_supply : testing.mod.unitUp 0 = true ∧ testing.mod.unitUp 13 = true ∧ (499 : Nat) < 500 ∧
    testing.mod.life.powered = true ∧ testing.mod.life.trip = false ∧ tripAt (.stack 23) ≤ 105 ∧ tripAt (.io 7) ≤ 115 ∧
    (23 : Nat) < testing.fuses.grade.hbmStacks ∧ testing.fuses.grade.hasIo 7 = true := by decide +kernel

theorem witness_StagesComeInOrder_held :
    let s := { atStage 2 with mod := (atStage 2).mod.updUnit 11 (fun u => { u with held := true }) }
    let g := { withGraph (graph tileNode running) with mod := { (withGraph (graph tileNode running)).mod with
      life := { up.mod.life with stage := 2 } } }
    (s.mod.pwr.units[11]).held = true ∧ (s.mod.pwr.units[0]).held = false ∧ (s.mod.dies[(0 : Fin 12).val]).inReset = false ∧ s.mod.life.stage = 2 ∧
    g.mod.life.stage = 2 ∧ g.mod.life.startFailed = [] ∧ g.mod.graphs ≠ [] := by decide +kernel

theorem witness_DieResetsAreConfined_releases :
    let gr := graph tileNode { released with cuedIn := [11] }
    let m := (withGraph gr).mod.updUnit 11 (fun u => { u with held := true })
    m.unitUp 11 = true ∧ (m.dies[(11 : Fin 12).val]).inReset = false ∧ m.flt.pendingMeas = [] ∧ Tbl.find m.graphs 1 = some gr ∧
    (m.updDie 11 (fun d => { d with inReset := true })).unitRuns 11 = false := by decide +kernel

theorem witness_PlanesComeAndGo_lanes :
    let r := TestRes.bridgeLane 3 0 5
    let s := fun k => { onPlane with mod := { onPlane.mod with flt := { onPlane.mod.flt with lanes := List.replicate k (r, onPlane.env.now, 1) } } }
    let total := fun (s : State) => ((s.mod.flt.lanes.filter (fun x => decide (s.env.now < x.2.1 + 1000000000))).filter
      (fun x => x.1 == r)).foldl (fun acc x => acc + x.2.2) 1
    total (s 15) ≤ 16 ∧ 16 < total (s 16) := by decide +kernel

theorem witness_PlanesComeAndGo_resends :
    let s := { onPlane with mod := { onPlane.mod with fab := { onPlane.mod.fab with sent := [(some (7, 3), packet 4), (some (0, 0), packet 5)] } } }
    s.mod.fab.sent[0]? = some (some (7, 3), packet 4) ∧ s.mod.fab.sent[1]? = some (some (0, 0), packet 5) ∧
    (s.mod.plane 6).inService = true ∧ (s.mod.port 6 2).up = true ∧ (∀ x ∈ s.mod.fab.sent, x.1 ≠ some (5, 1)) := by decide +kernel

theorem witness_TasksStartOnFreeTiles_launch :
    let x := { Node.blank with ty := tyUpdate, udie := 0, cueT := 7 }
    let gr := graph x { released with cued := [0], cuedIn := [0] }
    let s := (withGraph gr).mod
    s.reserved gr 0 = true ∧ gr.cueHeld 0 = true ∧ (gr.runOf 0).phase = .released ∧
    (s.updUnit 0 (fun u => { u with held := true })).unitRuns 0 = false ∧ s.unitUp 0 = true := by decide +kernel

/-- A forward node of a block whose stump is kept in the offload area of U1, in reset; and the retries at a limit. -/
theorem witness_NodesAndTakesComplete_held :
    let st := { stage 128 2 with offload := 9, offloadLen := 64 }
    let conv := { forward with ty := tyConvert }
    let gr := { graph conv { running with outcome := some .ok } with
      stages := [st], stash := [{ noStash with resv := [⟨0, 0, 64, 0, some 0, [], [], []⟩] }] }
    let s := withRegion { region with cls := .slow, die := 1 } (withGraph gr)
    let held := { s.mod with udies := s.mod.udies.set 1 { inReset := true, jobs := [] } }
    held.storeHeld gr 0 = true ∧ s.mod.storeHeld gr 0 = false ∧ held.takeEnd conv (gr.runOf 0) = some .ok ∧
    (let p := { running with outcome := some .actPoison, blame := [(9, 0)] }
     let rd := { tileNode with phase := 1, regs := [⟨9, 0, 0, 64⟩] }
     let g := { backGraph ⟨9, 1#8, 0, 64⟩ with nodes := [{ forward with regs := [⟨9, 1#8, 0, 64⟩] }, rd], run := [{ NRun.fresh with phase := .done .ok }, p] }
     let m := { (replaying []).mod with graphs := [(1, g)] }
     m.recomputeHeld 1 1 p.blame = false ∧ (m.updUnit 0 (fun u => { u with held := true })).recomputeHeld 1 1 p.blame = true ∧
     m.takeEnd rd p = some .actPoison) ∧
    running.divided tileNode = false ∧ running.divided (engineNode tyCopy []) = true := by decide +kernel

theorem witness_CollectivesIssueAndReduce_held :
    let x := reduceNode 4096
    let s := reducing x NRun.fresh
    (graph x NRun.fresh).run.length = 1 ∧ ((graph x NRun.fresh).runOf 0).phase = .held ∧ ((graph x released).runOf 0).phase = .released ∧
    ((graph x NRun.fresh).runOf 0).outcome = none ∧ x.coll.fabric = true ∧ s.mod.buckets x x.coll = 1 ∧ (0 : Nat) ∉ NRun.fresh.completed := by
  decide +kernel

/-- R374, R377: the other end of a SEND and RECV of one module shares its rank. -/
theorem witness_CollectivesIssueAndReduce_peer :
    let c := { (reduceNode 0).coll with op := 6, peer := (reduceNode 0).coll.rank }
    c.fabric = true ∧ (c.op = 5 ∨ c.op = 6) ∧ c.peer = c.rank := by decide +kernel

/-- The module once commands have run one after the other. -/
def after (cs : List Instr) (s : State) : State := match runAll cs s with | .next t => t | _ => s

/-! Witnesses of the clauses on the dailies, NaN records, lateness, and operands and transfers through queues. -/

/-- A snapshot of the dailies of a training step. -/
def daily (step : BitVec 32) : Dailies :=
  { step := step, opened := 3, closed := 0, energy := 5, maxP := 0, minCap := 0, belowDuty := 0, paceSent := 0, paceFollow := 0,
    dies := Vector.replicate 12 ⟨Vector.replicate 8 0, 0, 0, 0, 7⟩, stages := Vector.replicate 8 (0, 0, 0, 0) }

/-- R402: page 2 holds the last closed snapshot; a graph of another step closes the open one. -/
theorem witness_HostReadsPagesAndRecords_dailies :
    let ask := fields [(0, 2, 2), (0x10, 2, 2), (0x14, 4, 960)]
    let s := serving ask { up with mod.pwr.lastDaily := some (daily 8) }
    let g := serving submitEntry { submission with mod.pwr.daily := some (daily 8) }
    entArg ask 0x10 2 = 2 ∧ 960 ≤ entArg ask 0x14 4 ∧ s.mod.pwr.lastDaily = some (daily 8) ∧ up.mod.pwr.lastDaily = none ∧
    fieldAt (queryPage s.env s.mod 2) 0x18 8 = 5 ∧ g.mod.checkSubmit .f 0 (g.mod.imageAt 0 9 0) = none ∧
    gives .submitGraph g (fun t => t.mod.pwr.lastDaily == some { daily 8 with closed := 0 } && (t.mod.pwr.daily.map (fun y => y.step)) == some 0#32) = true := by
  decide +kernel

/-- A VADD whose element 2 is a NaN, on a die with a NaN record. -/
def nanState (armed halt : Bool) : State :=
  let s := vecState (vop 0x10 1 4 .none) (fun x => { x with v := vmodN x.v 1 (fun v => vSetElem v 32 2 0x7FC00000) })
  { s with mod.dies := vmodN s.mod.dies 0 (fun d => { d with nan := { armed := armed, halt := halt, count := 0xFFFFFFFF, filled := none } }) }

/-- R197 to R199: an armed record is filled and disarmed, its count stays at its limit; under HALT the task stops. -/
theorem witness_NanRecordIsArmed_fills :
    vecReady (nanState true true) (vop 0x10 1 4 .none) = true ∧ ((nanState true true).mod.ownerOf 0 0).isSome = true ∧
    ((nanState true true).mod.dies[0]).nan.armed = true ∧ ((nanState false false).mod.dies[0]).nan.armed = false ∧
    gives (.vadd 0 0) (nanState true true) (fun t => let k := (t.mod.dies[0]).nan
      !k.armed && k.count == 0xFFFFFFFF && (k.filled.map (fun b => fieldAt b 0x20 4)) == some 2 && (t.mod.tile 0 0).outcome == some .nanFirst) = true ∧
    gives (.vadd 0 0) (nanState false false) (fun t => (t.mod.dies[0]).nan.filled.isNone && (t.mod.tile 0 0).outcome.isNone) = true := by
  decide +kernel

/-- R400: VGATE_US 0 turns on the vector engines. -/
theorem witness_RegisterWritesKeepTheirFields_gates : (0#64).extractLsb' 16 16 = 0#16 ∧ (0x10000#64).extractLsb' 16 16 ≠ 0#16 ∧
    (up.mod.tile 0 5).gateOn = false ∧ gives (.pwrCtrlWrite .whole 0) up (fun t => (t.mod.tile 0 5).gateOn && (t.mod.tile 11 63).gateOn) = true ∧
    gives (.mbxQ0CfgDelete 0x040400#64) up (fun t => decide (t.mod.mbx.q0Cfg = 0x040400#64)) = true := by decide +kernel

/-- R353: packets of VC0 that arrive in the order 2, 1, 0 wait, and go out in the order 0, 1, 2. -/
theorem witness_PacketsAreDeliveredOnce_turns :
    let p := fun (k : Nat) => { packet 0 with seq := k }
    let s := after [.packetReceived 0 0 (p 2), .packetReceived 0 0 (p 1)] onPlane
    s.mod.fab.reorder = [p 2, p 1] ∧ s.mod.fab.delivered = [] ∧ (0, (p 0).src, (p 0).dst, 0) ∉ s.mod.fab.seen ∧
    gives (.packetReceived 0 0 (p 0)) s (fun t => decide (t.mod.fab.reorder = [] ∧ t.mod.fab.delivered = [p 0, p 1, p 2])) = true := by
  decide +kernel

/-- The first bundle of a task whose cue launched it at 100 ns, `ns` nanoseconds from reset. -/
def launched (ns take : Nat) : State :=
  let s := issuing (bundle1 5 0x04448000)
  { s with mod.graphs := [(1, graph { tileNode with cueT := 100 } { running with take := take })],
           time.replica := Vector.replicate 12 ⟨ns * 1000000, 0, 0⟩ }

/-- R60, R61, R64: a start 49 ns after its launch time is late, and TIM_LATE counts it; 48 ns are not, nor is a later take. -/
theorem witness_BundlesIssueInOrder_late :
    let late := fun (ns take : Nat) => gives (.bundleIssue 0 0 .none) (launched ns take) (fun t =>
      (Tbl.find t.mod.graphs 1).map (fun g => (g.runOf 0).late) == some (some (ns - 100)) && t.mod.lateCount == 1 && t.mod.lateMax.toNat == ns - 100)
    mayIssue (launched 149 1) = true ∧ ((launched 149 1).env.dieNow 0) = 149 ∧ late 149 1 = true ∧ late 148 1 = false ∧ late 149 2 = false ∧
    (graph { tileNode with cueT := 100 } running).cueTime 0 = some 100 ∧ (graph tileNode running).cueTime 0 = none ∧
    (up.mod.ptb.regs[0]).getLsbD 4 = false := by decide +kernel

/-- R98, R102, R146: a bundle of A and V slots: SETVL into A5 beside an ADDI into A6. -/
theorem witness_BundlesIssueInOrder_setvl :
    let code := natLe 2 (2 ^ 15 + 2 ^ 12 + 7 * 32) ++ natLe 4 (0x03 * 2 ^ 26 + 6 * 2 ^ 22 + 9) ++ natLe 8 (0x01 * 2 ^ 56 + 1 * 2 ^ 52 + 5 * 2 ^ 22)
    let b := bundleAt code 0
    let s := tileState (fun x => { x with imem := code, gateOn := true, a := x.a.set 5 7 })
    (b.v.map vOp = some 1) ∧ mayIssue s = true ∧ (s.mod.tile 0 0).accepts b = true ∧ (b.a.map slotOp) = some 3 ∧
    gives (.bundleIssue 0 0 .none) s (fun t => let x := t.mod.tile 0 0
      decide (x.vl = 4 ∧ x.a[5] = 4#48 ∧ x.a[6] = 9#48)) = true := by decide +kernel

/-- Queue entries of 64 bytes, the one at `last` with END. -/
def ents (n last : Nat) : List QEntry := (List.range n).map (fun i => ⟨List.replicate 64 (BitVec.ofNat 8 (i + 1)), i == last, []⟩)

/-- A queue of a tile with entries, its consumer or producer end bound. -/
def fedBy (q : Nat) (cons prod : Binding) (es : List QEntry) (x : Tile) : Tile :=
  x.updQueue q (fun k => { k with cons := cons, prod := prod, entries := es })

/-- R130: an MGRAD to a queue pushes as far as there is room, and keeps the rest of its bytes. -/
theorem witness_BlocksMasksAndSlotsMove_queues :
    let o := { mop 3 0 0 .none .none (.queue 3) with started := true, out := List.replicate 70 1 }
    let s := fun n => withSlot slot (arrayState o (fedBy 3 .unbound (.port 0) (ents n 0)))
    (s 62).mod.arrayHead 0 0 3 = some o ∧ ((s 62).mod.tile 0 0).operandFault arrayPorts o.dst true 16384 = none ∧
    (s 62).mod.slotOf 0 0 o.gb = some (0, slot) ∧ ((s 62).mod.tile 0 0).accessFree o.pos = true ∧
    gives (.mgrad 0 0 .none) (s 62) (fun t => let x := t.mod.tile 0 0
      x.arrayQ.isEmpty && (x.queue 3).entries == ents 62 0 ++ entriesOf o.out) = true ∧
    gives (.mgrad 0 0 .none) (s 63) (fun t => (t.mod.tile 0 0).arrayQ.map (fun k => k.out.length) == [6]) = true := by decide +kernel

/-- R124, R136: an MMUL whose vector stands in a queue, and one of two vectors. -/
theorem witness_ProductsAreFormed_queues :
    let o := mop 2 1 1 (.queue 3) .none (.queue 5)
    let s := arrayState o (fun x => { fedBy 3 (.port 0) .unbound (ents 5 9) (fedBy 5 .unbound (.port 0) (ents 60 0) x) with shadow := some block })
    let two := mop 2 1 2 (.desc (stream 0 2 128)) .none (.desc (stream 4096 2 128))
    let r := arrayState two (fun x => { x with shadow := some block })
    s.mod.arrayHead 0 0 2 = some o ∧ s.mod.mmulFault 0 0 o = none ∧ (s.mod.tile 0 0).blockFor = some block ∧
    (match (s.mod.tile 0 0).fetch 0 o.src 0 (vecBytes 1 false) [] with
      | .bytes b y => b.length == 256 && (y.queue 3).entries == (ents 5 9).drop 4
      | _ => false) = true ∧ ((s.mod.tile 0 0).queue 5).entries.length + ceilDiv 256 64 ≤ 64 ∧
    r.mod.arrayHead 0 0 2 = some two ∧ r.mod.mmulFault 0 0 two = none ∧
    (∀ v : Fin 2, (match (r.mod.tile 0 0).fetch 0 two.src (v.val * vecBytes 1 false) (vecBytes 1 false) [] with
      | .bytes b y => b.length == 256 && y == r.mod.tile 0 0
      | _ => false) = true) := by decide +kernel

/-- R79, R141: an MVEC whose vector is a group of two entries, whose row is two more, and whose result goes to a queue. -/
theorem witness_ProductsAreFormed_mvec :
    let o := mop 5 1 1 (.queue 4) (.queue 3) (.queue 5)
    let s := tileState (fun x => { fedBy 3 (.port 4) .unbound (ents 3 1) (fedBy 4 (.port 3) .unbound (ents 3 9)
      (fedBy 5 .unbound (.port 5) (ents 63 9) x)) with mvQ := [o] })
    let x := s.mod.tile 0 0
    x.mvecFault o o.descLen = none ∧ x.rowsFault o 32 = none ∧ x.awaits o.pos = false ∧ x.accessFree o.pos = true ∧
    (x.queue 3).entries = (ents 3 1).take 1 ++ [⟨List.replicate 64 2, true, []⟩] ++ (ents 3 1).drop 2 ∧
    gives (.mvec 0 0 .none) s (fun t => let y := t.mod.tile 0 0
      y.mvQ.isEmpty && (y.queue 3).entries == (ents 3 1).drop 2 && (y.queue 4).entries == (ents 3 9).drop 2 && (y.queue 5).entries.length == 64) = true := by
  decide +kernel

/-- R155: VLD and VST move entries while there are any, or while there is room; what is left waits. -/
theorem witness_VectorMemoryMovesElements_queues :
    let o := fun (op vri : Nat) => { vop op 1 20 (.queue 3) with vri := vri }
    let s := fun (o : VOp) (b : Binding) (es : List QEntry) => vecState o (fun x => fedBy 3 b b es { x with long := true })
    let ld := s (o 2 3) (.port 7) (ents 1 9)
    let st := s (o 3 0) .program (ents 63 9)
    vecReady ld (o 2 3) = true ∧ (ld.mod.tile 0 0).vmemFault (o 2 3) false = none ∧ vecReady st (o 3 0) = true ∧
    (st.mod.tile 0 0).vmemFault (o 3 0) true = none ∧
    gives (.vld 0 0 .none) ld (fun t => let x := t.mod.tile 0 0
      x.vecQ == [o 2 19] && (x.queue 3).entries.isEmpty && vElem (x.vreg 0) 32 18 == 0x01010101 && vElem (x.vreg 0) 32 19 == 0) = true ∧
    gives (.vst 0 0) st (fun t => (t.mod.tile 0 0).vecQ == [o 3 16] && ((t.mod.tile 0 0).queue 3).entries.length == 64) = true := by decide +kernel

/-- R83: the entry that an inbound transfer pushes holds module memory's next bytes; an outbound one writes an entry's bytes there. -/
theorem witness_QueuesBindPushAndPop_transfers :
    let k := fun (inb : Bool) (moved : Nat) => { xfer inb (some 3) moved with len := 100, offset := 8 }
    let s := fun (inb : Bool) (moved : Nat) (es : List QEntry) => withEntry 1 (tileState (fun x => fedBy 3 (.dma 0) (.dma 0) es { x with dmas := [k inb moved] }))
    let bad : List QEntry := [⟨List.replicate 64 1, false, [(9, 0)]⟩]
    (s true 0 []).mod.tileLive 0 0 = true ∧ (s true 0 []).mod.lineFree 0 0 (k true 0) = true ∧
    (s true 0 []).mod.entLost ((s true 0 []).mod.xferEntry 0 0 (k true 0)) 8 64 = none ∧
    gives (.queuePush 0 0 3 .none .none) (s true 0 []) (fun t => let x := t.mod.tile 0 0
      (x.queue 3).entries == [⟨lmod (List.replicate 64 0#8) 8 (fun _ => 0xA5), false, []⟩] && x.dmas == [k true 64]) = true ∧
    gives (.queuePush 0 0 3 .none .none) (s true 64 []) (fun t => ((t.mod.tile 0 0).queue 3).entries == [⟨List.replicate 64 0, true, []⟩]) = true ∧
    gives (.queuePop 0 0 3) (s false 64 (ents 1 9)) (fun t => (t.mod.tile 0 0).dmas == [k false 100] &&
      (t.mod.region 9).map (fun r => r.readN 71 38) == some (0 :: List.replicate 36 1 ++ [0])) = true ∧
    gives (.queuePop 0 0 3) (s false 0 bad) (fun t => (t.mod.tile 0 0).outcome == some .actPoison) = true := by decide +kernel

/-- R61, R62: a late task that fails shows its fault, one that succeeds LATE_CUE. -/
theorem witness_NodesAndTakesComplete_late :
    let r := fun st => { running with outcome := some st, late := some 49 }
    gives (.takeComplete 1 0 .none) (node1 tileNode (r .ok)) (fun t => t.mod.recs.units.any (fun u => fieldAt u.bytes 8 2 == 0x0203 && fieldAt u.bytes 0x15 8 == 49)) = true ∧
    (r .ok).late ≠ none := by decide +kernel

/-- R226, R301: an ACT node divided over stacks has a part for each, and the shares of a COPY make its LENGTH. -/
theorem witness_EnginePartsDoTheirWork_shares :
    let wide := { region with spread := true, len := 3 * 4096, pages := [⟨0, 0, 0, 0⟩, ⟨1, 0, 0, 0⟩, ⟨2, 0, 0, 0⟩] }
    let x := { engineNode tyCopy ([0, 1] ++ List.replicate 6 0 ++ natLe 8 (2 * 4096 + 16)) with regs := [⟨9, 0, 0, 12288⟩, ⟨10, 1, 0, 12288⟩] }
    let s := { up with mod.mem.regions := [(9, wide), (10, wide)] }
    ((s.mod.newParts .f x).length = 3) ∧ (List.range 3).map (copyShare x 3) = [(0, 4096), (4096, 8192), (8192, 8208)] ∧
    (⟨false, 2, true, 0⟩ : Part).counted = 2 ∧ Status.siteFailed.covered = true ∧ Status.engineFault.covered = false ∧
    ({ running with parts := [⟨true, 0, false, 0⟩, ⟨false, 0, false, 0⟩] } : NRun).lastPart 1 = true ∧
    ({ running with parts := [⟨true, 0, false, 0⟩, ⟨false, 0, false, 0⟩] } : NRun).lastPart 0 = false := by decide +kernel

/-- R426: no row of a tile's site is tested while an engine node works on the tile. -/
theorem witness_MemoryErrorsLeadToTests_barred :
    let r := TestRes.padRow 0 0 15 4095
    let busy := (withGraph (graph { engineNode tyConvert [] with tileMask := 1 } { running with taken := [] })).mod.updTile 0 0 (fun x => { x with owner := some (1, 0) })
    (up.mod.testable r = true ∧ busy.testable r = false) ∧ (up.mod.stacksIn up.fuses.grade).contains (addrStack (pageAddr 31 0 0)) = false ∧
    (withRegion region up).mod.pageAt (pageAddr 0 0 0) = some (9, 0) ∧ up.mod.pageAt (pageAddr 0 0 0) = none ∧
    (up.mod.stacksIn up.fuses.grade).contains (addrStack (pageAddr 0 0 0)) = true ∧
    (∀ st ∈ ([TestRes.padRow 0 65 15 4095] : List TestRes), up.mod.testable st = true) := by decide +kernel

/-- The graph of `gatherGraph` whose reader stands in no stage and reads a line of the stage's ACTS that no node wrote. -/
def orphanGraph : Graph :=
  { gatherGraph 128 with nodes := [forward, { tileNode with phase := 1, stage := 0xFF, regs := [⟨9, 0, 0, 64⟩] }] }

/-- R220: that line is good at the next REPLAY, and the gather may go on. -/
theorem witness_StashReservesAndReplays_orphans :
    let s := { gathering 128 with mod.graphs := [(1, orphanGraph)] }
    s.mod.gatherWaits 1 orphanGraph = [(1, 9, 0)] ∧ orphanGraph.stages.length ≤ (orphanGraph.poisonKey 1 (9, 0)).1 ∧ s.mod.mayResume 0 0 = false ∧
    gives (.replay 1 0 0 0 .none) s (fun t => t.mod.mayResume 0 0) = true := by decide +kernel

/-- R212: a BARRIER of a backward block that keeps no activations waits for the block's replay. -/
theorem test_barrier_waits_for_replay :
    let g := { backGraph ⟨9, 1#8, 0, 64⟩ with nodes := [{ forward with regs := [⟨9, 1#8, 0, 64⟩] }, { Node.blank with ty := tyBarrier, phase := 1, stage := 0, block := 0, mb := 0 }] }
    let done := { g with stash := (g.stash.map (fun s => { s with replayed := [⟨0, 0, 0, 64, true⟩] })) }
    (withGraph g).mod.mayFire g 1 tyBarrier = false ∧ (withGraph done).mod.mayFire done 1 tyBarrier = true := by decide +kernel

/-- R394, R400: below the response above 100 °C room tone may run though the junction limit still holds. -/
theorem test_tone_below_response :
    (up.mod.updUnit 3 (fun u => { u with hot := true, junction := 5, above := false })).toneBarred 3 = false := by decide +kernel

/-- R316: an ALLOC_REGION of slow memory takes no notice of PLACE; one of PERSIST memory refuses PLACE 2. -/
theorem test_allocRegion_place :
    let e := fun cls => fields [(0, 2, 0x11), (8, 8, 1), (0x10, 1, cls), (0x11, 1, 2)]
    argsOk 0x11 (e 2) = true ∧ argsOk 0x11 (e 0) = false := by decide +kernel

/-- R300, R430: the part of a CONVERT at work on a site that fails is tried again, the first time without a count, and a record tells of it. -/
theorem test_site_failed_part :
    let s := (withGraph (graph { engineNode tyConvert [] with tileMask := 1 } { running with taken := [] })).mod.updTile 0 0 (fun x => { x with owner := some (1, 0) })
    let m := s.leaveSite up.env 0 0
    (Tbl.find m.graphs 1).map (fun g => (g.runOf 0).parts) = some [⟨false, 0, true, 0⟩] ∧ m.recs.write = s.recs.write + 1 := by decide +kernel

/-! Values from the spec's worked examples and tables. -/

/-- R420: the check values of "123456789". -/
theorem test_check_values : crcOf false [0x31, 0x32, 0x33, 0x34, 0x35, 0x36, 0x37, 0x38, 0x39] = 0xE3069283 ∧
    crcOf true [0x31, 0x32, 0x33, 0x34, 0x35, 0x36, 0x37, 0x38, 0x39] = 0x995DC9BBDF1939FA := by decide +kernel

/-- 19_tally_unit, worked example: the first run, TLY_ALIVE from 0x07 to 0x08. -/
theorem test_tally_example :
    let s := { up with tally := { TallyCh.cold with expected := 7 } }
    let t := after [.tlyStart 0x07000001, .tlyData32 0x34333231, .tlyWriteAbsorbed 0, .tlyData32 0x38373635, .tlyWriteAbsorbed 0, .tlyData8 0x39] s
    t.readReg 0x200020 = 0x00000000E3069283#64 ∧ t.readReg 0x200010 = 0x08#64 := by decide +kernel

/-- The same example: a refused TLY_CTRL sets ALIVE_STALE, clears ACTIVE and leaves TLY_VALUE and TLY_ALIVE. -/
theorem test_tally_refused :
    let s := { up with tally := { TallyCh.cold with expected := 9, active := true, value := 5 } }
    gives (.tlyResume 0x08000002) s (fun t => t.tally.stale && !t.tally.active && t.tally.value == 5 &&
      t.tally.expected == 9) = true := by decide +kernel

/-- 01_panel_and_grades, worked example: MBX_GRADE of a stepping-1 module of each grade. -/
theorem test_grade_registers : (⟨.m, 1, [], 0⟩ : Fuses).gradeReg = 0x000040200107334D#64 ∧ (⟨.f, 1, [], 0⟩ : Fuses).gradeReg = 0x000080180107FF46#64 ∧
    (⟨.l, 1, [], 0⟩ : Fuses).gradeReg = 0x000080180100FF4C#64 := by decide

/-- 05_reels_and_bundles, worked example: the bundle of 22 bytes and its slots. -/
theorem test_bundle_example :
    let b := bundleAt [0x60, 0xE5, 0x40, 0x00, 0xCC, 0x0C, 0x00, 0xC0, 0x40, 0x60, 0x00, 0x80, 0x80, 0x67, 0x54, 0x08, 0x41, 0x09, 0x03, 0x00,
      0x00, 0x11] 0
    b.len = 11 ∧ b.fence = false ∧ b.a = some 0x0CCC0040 ∧ b.b = some 0x6040C000 ∧ b.m = some 0x0941085467808000 ∧ b.c = some 0x11000003 ∧
    b.v = none ∧ b.q = none := by decide +kernel

/-- The fields of that bundle: ADDI A3, A3, 64; MMUL in format 5 from Q1, Q2 to Q5, count A4, TSX A6, TSW A7, AXIS, TS; WAITC 1, 3. -/
theorem test_slot_fields :
    let w := 0x0941085467808000
    slotOp 0x0CCC0040 = 3 ∧ abD 0x0CCC0040 = 3 ∧ abS1 0x0CCC0040 = 3 ∧ abImm18 0x0CCC0040 = 64 ∧ mOp w = 2 ∧ mFmt w = 5 ∧ opSpec (mSrc w) = .queue 1 ∧
    opSpec (mSrc2 w) = .queue 2 ∧ opSpec (mDst w) = .queue 5 ∧ mAreg w = 4 ∧ mTsx w = 6 ∧ mTsw w = 7 ∧ mAxis w = true ∧ mTs w = true ∧
    slotOp 0x11000003 = 4 ∧ cN 0x11000003 = 1 ∧ cCount 0x11000003 = 3 := by decide

/-- 04_tile_scratchpad_and_queues, worked example: the descriptor, its elements and its footprint. -/
theorem test_descriptor_example :
    let d := 0x05000028000100080020001800880000#128
    descOk d = true ∧ descElems d = 6144 ∧ descBytes d = 24576 ∧ descFoot d = (0x80000, 0x89FBF) ∧ elemAddr d 24 = 0x80000 + 160 := by decide +kernel

/-- 08_numerics, worked example CS-CVT-E2M1-0031: codes, scale and counts of a block. -/
theorem test_convert_block :
    let v := fun (n : Nat) => FVal.ofNat n
    let r := cvtGroup 8 FVal.one [(0, v 112), (1, v 3), (2, v 4), (3, v 5), (4, .fin true 24 0), (5, .fin true 0 0), (6, v 90), (7, v 88)] CvtCount.zero
    r.1.map (fun x => x.2) = [0x7, 0x0, 0x0, 0x1, 0xB, 0x0, 0x7, 0x7] ∧ r.2.1 = 0x83 ∧ r.2.2.flush = 2 ∧ r.2.2.sat = 1 := by decide +kernel

/-- 08_numerics, worked example CS-CVT-BF16-0118: CONVERT to BF16, then VCVT. -/
theorem test_convert_bf16 :
    let c := fun x => (cvtElem 2 FVal.one 0 0 (fp32.decode x) CvtCount.zero).1
    let v := fun x => bf16.noNegZero (vConvert 1 2 x).bits
    [0x3F808000, 0x3F818000, 0x7F7FFFFF, 0x80000000, 1].map c = [0x3F80, 0x3F82, 0x7F7F, 0, 0] ∧
    [0x3F808000, 0x3F818000, 0x7F7FFFFF, 0x80000000, 1].map v = [0x3F80, 0x3F82, 0x7F80, 0, 0] := by decide +kernel

/-- 08_numerics, worked example CS-SCL-FP16-0007: 3,900,000 under a tensor scale of 128 is 0x7770, and the limit is 8,384,512. -/
theorem test_convert_fp16 :
    let c := fun n => cvtElem 3 (FVal.ofNat 128) 0 0 (FVal.ofNat n) CvtCount.zero
    (c 3900000).1 = 0x7770 ∧ (c 8384512).2.sat = 0 ∧ (c 9000000).1 = 0x7BFF ∧ (c 9000000).2.sat = 1 := by decide +kernel

/-- R149: an exponential of 0 is 1, of −∞ is 0, and the sum of FP32 1 and 2 is 3. -/
theorem test_vector_values : (vArith 0x1E 1 0 0 0).bits = 0x3F800000 ∧ (vArith 0x1E 1 0xFF800000 0 0).bits = 0 ∧
    (vArith 0x10 1 0x3F800000 0x40000000 0).bits = 0x40400000 ∧ (vArith 0x11 9 0 1 0).bits = 0xFFFFFFFF := by decide +kernel

/-! Single commands. -/

/-- The completion's status code and first result bytes in the ring of queue 0 (R314). -/
def answered (t : State) (st : Status) (result : List Byte) : Bool :=
  decide (Mem.readN t.mod.host.mem 0x2008 2 = natLe 2 st.code) && decide (Mem.readN t.mod.host.mem 0x2014 result.length = result)

/-- 17_power_pacing_thermal, worked example: a cap of 1,800 W is clamped to 2,400 W with CAP_CLAMPED. -/
theorem test_setCap_clamps : gives .setCap (serving (fields [(0, 2, 0x30), (8, 4, 1800)]) up)
    (fun t => decide (t.mod.pwr.cap = 2400#16) && answered t .capClamped (natLe 4 2400)) = true := by decide +kernel

/-- R320: the IDENTIFY page begins with the grade register, and its stage byte is 4. -/
theorem test_identifyPage : fieldAt (identifyPage up.env up.mod) 0 8 = 0x000080180107FF46 ∧ fieldAt (identifyPage up.env up.mod) 0x28 1 = 4 := by
  decide +kernel

/-- R316: a queue with rings of 16 entries. -/
theorem test_createQueue : gives .createQueue (serving (fields [(0, 2, 3), (8, 1, 5), (9, 1, 4), (0xA, 1, 4), (0x10, 8, 0x7000)]) up)
    (fun t => (t.mod.queue 5).map (fun q => (q.sqBase, q.log2Sq)) == some (0x7000#64, 4) && answered t .ok []) = true := by decide +kernel

/-- R91: LOAD_REEL answers the REEL_ID. -/
theorem test_loadReel : gives (.loadReel reelImage) (serving loadEntry up)
    (fun t => (Tbl.find t.mod.mem.reels 7).isSome && answered t .ok (natLe 4 7)) = true := by decide +kernel

/-- R316: ALLOC_REGION of 1 byte of SLOW memory takes a page, handle 1. -/
theorem test_allocRegion : gives .allocRegion (serving (fields [(0, 2, 0x11), (8, 8, 1), (0x10, 1, 2)]) up)
    (fun t => (Tbl.find t.mod.mem.regions 1).map (fun r => r.len) == some 4096 && answered t .ok (natLe 4 1 ++ natLe 8 4096)) = true := by
  decide +kernel

/-- R292: the first graph handle is 1, and a BARRIER without predecessors may complete. -/
theorem test_submitGraph : gives .submitGraph (serving submitEntry submission)
    (fun t => answered t .ok (natLe 4 1) && gives (.barrier 1 0) t (fun u => u.mod.graphs.isEmpty)) = true := by decide +kernel

/-- R303: ABORT_GRAPH of an unknown graph. -/
theorem test_abortGraph : gives .abortGraph (serving abortEntry up) (fun t => answered t .graphUnknown []) = true := by decide +kernel

/-- R389: the preference of phase 5 of every die becomes OP7. -/
theorem test_setPhaseOp : gives .setPhaseOp (serving phaseEntry up) (fun t => decide (t.mod.pwr.units[11].prefOf 5 = 7) &&
    decide (t.mod.pwr.units[12].prefOf 5 = up.mod.pwr.units[12].prefOf 5)) = true := by decide +kernel

/-- R54: TIME_SET on a module that is not the source. -/
theorem test_timeSet_refused : gives .timeSet (serving (entry 0x41 1) up) (fun t => answered t .timeSetRefused []) = true := by decide +kernel

/-- R415: PARK with no graph is entered, and completes when the state is reached. -/
theorem test_park : gives .park (serving (entry 0x50 1) up) (fun t => gives .parkStateReached t
    (fun u => decide (u.mod.life.pstate = .park) && answered u .ok [])) = true := by decide +kernel

/-- R308: a read of the window gives the byte at 16. -/
theorem test_window : gives (.winMemRead 15 3) (windowed region) (fun t => decide (t.mod.host.tlp = some (.data [0, 0xA5, 0]))) = true ∧
    gives (.winMemWrite 4095 [1, 2]) (windowed region) (fun t => (t.mod.region 9).map (fun r => r.readN 4095 2) == some [1, 0]) = true := by
  decide +kernel

/-- R439: MISS_RATE takes its limit of 10,000. -/
theorem test_ptbWrite : gives (.ptbWrite 1 .whole 0x3FFF) testing (fun t => decide ((t.mod.ptb.regs[1]).extractLsb' 0 14 = 10000#14)) = true := by
  decide +kernel

/-- R446: READ_TEMP of 48 bytes; READ_POWER ends with the cap. -/
theorem test_smbus : gives (.readTemp 0x58 false) up (fun t => (t.mod.host.smbus.map List.length) == some 48) = true ∧
    gives (.readPower 0x58 false) up (fun t => (t.mod.host.smbus.map (fun b => slice b 6 2)) == some [0xB0, 0x1D]) = true := by decide +kernel

/-- R445, R446: at another SMBus address, and without power, nothing is acknowledged; the packet error code of READ_STAGE follows the stage. -/
theorem test_smbus_address : gives (.readStage 0x59 false) up (fun t => t.mod.host.smbus.isNone) = true ∧
    gives (.readStage 0x58 false) dark (fun t => t.mod.host.smbus.isNone) = true ∧
    gives (.readStage 0x58 true) up (fun t => (t.mod.host.smbus.map List.length) == some 2) = true := by decide +kernel

/-- R418: a write of flash-held data that power loss interrupts leaves the copy before it. -/
theorem test_flash_copies : let s := { up with mod := up.mod.writeFlash (fun f => { f with lost := [(0, 0)] }) }
    gives (.powerGoodLost true true) s (fun t => t.mod.flash.lost == []) = true ∧
    gives (.powerGoodLost true false) s (fun t => t.mod.flash.lost == [(0, 0)]) = true := by decide +kernel

/-- R316: a DELETE_QUEUE that names the queue it came through posts its completion there. -/
theorem test_deleteQueue : gives .deleteQueue (serving (fields [(0, 2, 4)]) up)
    (fun t => (t.mod.queue 0).isNone && answered t .ok []) = true := by decide +kernel

/-- R43: a die reset records DIE_RESET, and the die rejoins. -/
theorem test_dieReset : gives (.dieReset 3) up (fun t => (t.mod.dies[3]).inReset && decide (t.mod.recs.write = 1) &&
    gives (.dieRejoin 3) t (fun u => !(u.mod.dies[3]).inReset)) = true := by decide +kernel

/-- R49: the first exchange locks time; a later one steers by minus the offset. -/
theorem test_timeExchange : gives (.timeExchange 0 5 0 false) { onPlane with time := up.time } (fun t => t.time.locked) = true ∧
    gives (.timeExchange 0 5 0 false) onPlane (fun t => decide ((t.time.keeper[0]).corr = -5000000)) = true := by decide +kernel

/-- R353: a packet on VC4 is delivered once. -/
theorem test_packet : gives (.packetReceived 0 0 (packet 4)) onPlane (fun t => gives (.packetReceived 1 0 (packet 4)) t
    (fun u => decide (u.mod.fab.delivered = [packet 4]))) = true := by decide +kernel

/-- R391: above 1.1 times the cap every cap point falls by one; 48 V and 175 A are above 8,360 W. -/
theorem test_fastLoop : gives (.capFastLoop 175 48000) up (fun t => decide (t.mod.pwr.units[13].capPoint = 6)) = true ∧
    gives (.capFastLoop 174 48000) up (fun t => decide (t.mod.pwr.units[13].capPoint = 7)) = true := by decide +kernel

/-- 17_power_pacing_thermal, worked example: C9 at OP6 reads more than 100 °C, and its junction limit is OP5. -/
theorem test_junctionRead : gives (.junctionRead 9 101) { up with mod := up.mod.updUnit 9 (fun u => { u with pref := 0x36DB6#18 }) }
    (fun t => decide (t.mod.pwr.units[9].junction = 5)) = true := by decide +kernel

/-- R102: ADD of A2 and A2 into A1 wraps at 48 bits, and the next bundle is three parcels on. -/
theorem test_bundle_add : gives (.bundleIssue 0 0 .none) (tileState (fun x =>
      { x with imem := bundle1 5 (0x01 * 2 ^ 26 + 1 * 2 ^ 22 + 2 * 2 ^ 18 + 2 * 2 ^ 14), a := x.a.set 2 0x800000000001#48 }))
    (fun t => decide ((t.mod.tile 0 0).a[1] = 2#48) && decide ((t.mod.tile 0 0).pc = 3)) = true := by decide +kernel

/-- R107: DONE is seen, and the tile finishes. -/
theorem test_bundle_done : gives (.bundleIssue 0 0 .none) (issuing (bundle1 0 0xFC000000)) (fun t => gives (.done 0 0) t
    (fun u => (u.mod.tile 0 0).finished)) = true := by decide +kernel

/-- R143: one row of MVEC in FP32: 1·3 + 2·4 = 11. -/
theorem test_mvec :
    let o := mop 5 1 1 (.desc (stream 0 2 2)) (.desc (stream 64 2 2)) (.desc (stream 128 2 1))
    let bytes := Mem.writeN (Mem.writeN [] 0 (natLe 4 0x3F800000 ++ natLe 4 0x40000000)) 64 (natLe 4 0x40400000 ++ natLe 4 0x40800000)
    gives (.mvec 0 0 .none) (tileState (fun x => { x with mvQ := [o], pad := ⟨bytes, [0, 1], []⟩ }))
      (fun t => decide ((t.mod.tile 0 0).pad.readN 128 4 = natLe 4 0x41300000)) = true := by decide +kernel

/-- R155: a VLD of four FP32 elements; a double-bit error at element 2 suspends the tile (R70). -/
theorem test_vld :
    let o := vop 0x02 1 4 (.desc (stream 0 2 4))
    let s := vecState o (fun x => { x with pad := ⟨[(8, 0x77#8)], [0], []⟩ })
    gives (.vld 0 0 .none) s (fun t => decide (vElem ((t.mod.tile 0 0).vreg 0) 32 2 = 0x77)) = true ∧
    gives (.vld 0 0 (.double 2 8)) s (fun t => (t.mod.tile 0 0).suspended && decide ((t.mod.tile 0 0).reread = [(0, 2, 8)])) = true := by
  decide +kernel

/-- R149: INT32 subtraction wraps; the element past VL is kept. -/
theorem test_vsub : gives (.vsub 0 0) (vecState (vop 0x11 9 1 .none) (fun x => { x with v := (x.v.set 2 1).set 0 (9 <<< 32) }))
    (fun t => decide (vElem ((t.mod.tile 0 0).vreg 0) 32 0 = 0xFFFFFFFF) && decide (vElem ((t.mod.tile 0 0).vreg 0) 32 1 = 9)) = true := by
  decide +kernel

/-- R152: DOT.D of 1.0·1.0 and KEEP leaves 1 in the long accumulator. -/
theorem test_dotD : gives (.dotD 0 0) (vecState { vop 0x1A 0 1 .none with stype := 2 }
      (fun x => { x with v := (x.v.set 1 0x3FF0000000000000).set 2 0x3FF0000000000000 }))
    (fun t => decide ((t.mod.tile 0 0).acc.sum = 2 ^ 2148)) = true := by decide +kernel

/-- R79: the last entry of a stream of 17 FP32 elements is zero-filled and carries END. -/
theorem test_queuePush : gives (.queuePush 0 0 3 .none .none) (tileState (queue3 (fun q => { q with prod := .stream (stream 0 2 17) 16 0 0 })))
    (fun t => decide (((t.mod.tile 0 0).queue 3).entries = [⟨List.replicate 64 0, true, []⟩])) = true := by decide +kernel

/-- R84: a completed DMAIN has written the scratchpad and raised its counter. -/
theorem test_dma : gives (.dmaCompletion 0 0 0 .none .none) (withEntry 0 (tileState (fun x =>
      { x with dmas := [{ xfer true none 0 with offset := 16, len := 16 }] })))
    (fun t => decide ((t.mod.tile 0 0).pad.readN 0 1 = [0xA5]) && decide ((t.mod.tile 0 0).ctr[0] = 1)) = true := by decide +kernel

/-- R452: COPY moves 16 bytes. -/
theorem test_copy : gives (.copy 1 0 0 .none)
      (engineState { engineNode tyCopy ([0, 1] ++ List.replicate 6 0 ++ natLe 8 16) with regs := [⟨9, 0, 16, 16⟩, ⟨9, 1, 64, 16⟩] })
    (fun t => (t.mod.region 9).map (fun r => r.read 64) == some 0xA5#8) = true := by decide +kernel

/-- R335: a scrub that finds an ACT line in error poisons it and schedules the row's test. -/
theorem test_scrub : gives (.hbmScrub [(pageAddr 0 0 0, 3, .bytes 1)]) (withRegion { region with cls := .act } up)
    (fun t => (t.mod.region 9).map (fun r => r.poison) == some [3] && t.mod.flt.pendingTests.length == 1) = true := by decide +kernel

/-- R92, R335, R336: a scrub that finds a line of the reel store past restoring leaves the reel lost and schedules the row's test; a line of a
stack out of service is not looked at. -/
theorem test_scrub_reels : gives (.hbmScrub [(pageAddr 0 0 0, 3, .both), (pageAddr 31 0 0, 3, .both)])
      { up with mod.mem.reels := [(7, ⟨0, reelImage, [⟨0, 0, 0, 0⟩], false⟩)] } (fun t => t.mod.mem.reels.map (fun y => y.2.lost) == [true] && t.mod.flt.pendingTests.length == 1) = true := by decide +kernel

/-- R28, R341: a failed channel marks its pair; a pair that holds no page is mapped out at once. -/
theorem test_channelFailed : gives (.channelFailed 9 13) up (fun t => decide ((9, 6) ∈ t.mod.flash.mappedOut)) = true ∧
    gives (.channelFailed 0 1) (withRegion region up) (fun t => decide ((0, 0) ∈ t.mod.mem.marked ∧ (0, 0) ∉ t.mod.flash.mappedOut)) = true ∧
    exec (.channelFailed 24 0) up = .fault .absentUnit := ⟨by decide +kernel, by decide +kernel, rfl⟩

end Sys2Proof.Tests
end

section
/-! SUPPORT. The element-wise vector operations write elements 0 to VL − 1 of VD and nothing else (R149 to R151). -/

namespace Sys2Proof.Machine

/-! Elements of a register (R145). -/

/-- Bit `j` of element `i` is bit `i·w + j` of the register. -/
theorem testBit_vElem (v : BitVec 4096) (w i j : Nat) :
    (vElem v w i).testBit j = (decide (j < w) && v.getLsbD (i * w + j)) := by
  simp [vElem, BitVec.getLsbD, Nat.testBit_mod_two_pow, Nat.testBit_div_two_pow, Nat.add_comm]

/-- Setting an element changes the bits of its own place and no other. -/
theorem getLsbD_vSetElem (v : BitVec 4096) (w i x k : Nat) :
    (vSetElem v w i x).getLsbD k =
      if i * w ≤ k ∧ k < i * w + w then decide (k < 4096) && x.testBit (k - i * w) else v.getLsbD k := by
  simp only [vSetElem, BitVec.getLsbD_or, BitVec.getLsbD_and, BitVec.getLsbD_not, BitVec.getLsbD_ofNat,
    Nat.testBit_mul_two_pow, Nat.testBit_two_pow_sub_one, Nat.testBit_mod_two_pow]
  by_cases hin : i * w ≤ k ∧ k < i * w + w
  · have hw : k - i * w < w := by omega
    by_cases hk : k < 4096
    · simp [hin, hw, hk]
    · simp [hin, hk, BitVec.getLsbD_of_ge v k (by omega)]
  · have hout : (decide (i * w ≤ k) && decide (k - i * w < w)) = false := by
      rw [← Bool.decide_and, decide_eq_false_iff_not]; omega
    by_cases hk : k < 4096
    · simp [hin, hk, hout, ← Bool.and_assoc]
    · simp [hin, hk, BitVec.getLsbD_of_ge v k (by omega)]

theorem vElem_vSetElem_same (v : BitVec 4096) (w i x : Nat) (h : (i + 1) * w ≤ 4096) :
    vElem (vSetElem v w i x) w i = x % 2 ^ w := by
  refine Nat.eq_of_testBit_eq fun j => ?_
  rw [Nat.succ_mul] at h
  rw [testBit_vElem, getLsbD_vSetElem, Nat.testBit_mod_two_pow]
  by_cases hj : j < w
  · have hk : i * w + j < 4096 := by omega
    simp [hj, hk]
  · simp [hj]

theorem vElem_vSetElem_other (v : BitVec 4096) (w i j x : Nat) (h : j ≠ i) :
    vElem (vSetElem v w i x) w j = vElem v w j := by
  refine Nat.eq_of_testBit_eq fun b => ?_
  rw [testBit_vElem, testBit_vElem]
  by_cases hb : b < w
  · have hout : ¬ (i * w ≤ j * w + b ∧ j * w + b < i * w + w) := by
      rcases Nat.lt_or_gt_of_ne h with hlt | hgt
      · have := Nat.mul_le_mul_right w (show j + 1 ≤ i from hlt)
        rw [Nat.succ_mul] at this; omega
      · have := Nat.mul_le_mul_right w (show i + 1 ≤ j from hgt)
        rw [Nat.succ_mul] at this; omega
    rw [getLsbD_vSetElem, if_neg hout]
  · simp [hb]

/-- Elements outside the run that is set keep what they held. -/
theorem vElem_vSetElems_outside (v : BitVec 4096) (w i j : Nat) (xs : List Nat) (h : j < i ∨ i + xs.length ≤ j) :
    vElem (vSetElems v w i xs) w j = vElem v w j := by
  induction xs generalizing v i with
  | nil => rfl
  | cons x xs ih =>
    rw [List.length_cons] at h
    rw [vSetElems, ih _ _ (by omega), vElem_vSetElem_other _ _ _ _ _ (by omega)]

/-- Element `i + k` of a run set from element `i` is code `k` of the run. -/
theorem vElem_vSetElems_inside (v : BitVec 4096) (w i k : Nat) (xs : List Nat) (hk : k < xs.length)
    (hfit : (i + xs.length) * w ≤ 4096) : vElem (vSetElems v w i xs) w (i + k) = xs[k] % 2 ^ w := by
  induction xs generalizing v i k with
  | nil => exact absurd hk (Nat.not_lt_zero k)
  | cons x xs ih =>
    rw [List.length_cons] at hk hfit
    rw [vSetElems]
    cases k with
    | zero =>
      have hi : (i + 1) * w ≤ 4096 := (Nat.mul_le_mul_right w (by omega)).trans hfit
      rw [vElem_vSetElems_outside _ _ _ _ _ (by omega), Nat.add_zero, vElem_vSetElem_same _ _ _ _ hi]
      rfl
    | succ k =>
      rw [show i + (k + 1) = i + 1 + k by omega, ih _ _ _ (by omega) (by rwa [show i + 1 + xs.length = i + (xs.length + 1) by omega])]
      rfl

theorem vElem_lt (v : BitVec 4096) (w i : Nat) : vElem v w i < 2 ^ w := Nat.mod_lt _ (Nat.two_pow_pos w)

theorem vreg_setV_same (x : Tile) (r w i : Nat) (xs : List Nat) (h : r < 32) :
    (x.setV r w i xs).vreg r = vSetElems (x.vreg r) w i xs :=
  vget_vmodN_same _ _ _ _ h

theorem vreg_setV_other (x : Tile) (r k w i : Nat) (xs : List Nat) (h : k ≠ r) : (x.setV r w i xs).vreg k = x.vreg k :=
  vget_vmodN_other _ _ _ _ _ h

/-- An operation that is not too long has its destination elements inside the register (R145, R148). -/
theorem vl_mul_fmtBits_le (long : Bool) (o : VOp) (h : o.tooLong long = false) : o.vl * fmtBits o.ty ≤ 4096 := by
  have hle : o.vl ≤ vlMax long o.ty := by
    simp only [VOp.tooLong, List.any_eq_false, decide_eq_true_eq, Nat.not_lt] at h
    exact h o.ty (by simp [VOp.formats])
  calc o.vl * fmtBits o.ty ≤ vlMax long o.ty * fmtBits o.ty := Nat.mul_le_mul_right _ hle
    _ ≤ if long then 4096 else 128 := Nat.div_mul_le_self _ _
    _ ≤ 4096 := by split <;> omega

/-! What the accounting of overflows and NaNs leaves alone (R183, R195 to R198). -/

/-- Two modules with the same module memory and slots, in which one tile is the same but for how its take ends. -/
structure Mod.SameButOutcome (m m' : Mod) (d : Fin 12) (t : Fin 64) : Prop where
  mem : m'.mem = m.mem
  slots : m'.slots = m.slots
  tile : ∃ oc detail, m'.tile d t = { m.tile d t with outcome := oc, fault := detail }

theorem Mod.SameButOutcome.of_tile_eq {m m' : Mod} {d : Fin 12} {t : Fin 64} (hm : m'.mem = m.mem) (hs : m'.slots = m.slots)
    (ht : m'.tile d t = m.tile d t) : m.SameButOutcome m' d t :=
  ⟨hm, hs, _, _, ht⟩

theorem Mod.SameButOutcome.refl (m : Mod) (d : Fin 12) (t : Fin 64) : m.SameButOutcome m d t := .of_tile_eq rfl rfl rfl

theorem Mod.SameButOutcome.trans {m₁ m₂ m₃ : Mod} {d : Fin 12} {t : Fin 64} (h : m₁.SameButOutcome m₂ d t)
    (h' : m₂.SameButOutcome m₃ d t) : m₁.SameButOutcome m₃ d t := by
  obtain ⟨hm, hs, oc, f, ht⟩ := h
  obtain ⟨hm', hs', oc', f', ht'⟩ := h'
  exact ⟨hm'.trans hm, hs'.trans hs, oc', f', by rw [ht', ht]⟩

theorem noteOverflow_same (m : Mod) (d : Fin 12) (t : Fin 64) (k : Nat) : m.SameButOutcome (m.noteOverflow d t k) d t := by
  unfold Mod.noteOverflow
  split
  · exact .refl m d t
  · split
    · exact .refl m d t
    · exact .of_tile_eq rfl rfl rfl

/-- A change of a die that keeps its tiles changes no tile. -/
theorem tile_updDie_of_tiles (m : Mod) (d k : Fin 12) (t : Fin 64) (f : Die → Die)
    (h : ∀ y : Die, (f y).tiles = y.tiles) : (m.updDie d f).tile k t = m.tile k t := by
  unfold Mod.tile Mod.updDie
  by_cases hk : k = d
  · subst hk
    simp [vmod_same, h]
  · simp [vmod_other _ _ _ _ hk]

theorem produceNan_same (e : Env) (m : Mod) (d k : Fin 12) (t : Fin 64) (g n take c : Nat) (x : NanSite) :
    m.SameButOutcome (m.produceNan e d g n take c x) k t := by
  unfold Mod.produceNan
  split
  · exact .refl m k t
  · dsimp only
    split
    · refine .of_tile_eq (by simp) (by simp) ?_
      rw [Mod.tile, raise_dies, recVectors_dies]
      exact tile_updDie_of_tiles m d k t _ fun _ => rfl
    · exact .of_tile_eq rfl rfl (tile_updDie_of_tiles m d k t _ fun _ => rfl)

theorem tileNan_same (e : Env) (m : Mod) (d : Fin 12) (t : Fin 64) (k : Nat) (x : NanSite) :
    m.SameButOutcome (m.tileNan e d t k x) d t := by
  unfold Mod.tileNan
  split
  · exact .refl m d t
  · exact produceNan_same ..

theorem failTile_same (m : Mod) (d : Fin 12) (t : Fin 64) (st : Status) (detail : List Byte) :
    m.SameButOutcome (m.failTile d t st detail) d t := by
  unfold Mod.failTile
  split
  · exact .refl m d t
  · exact ⟨rfl, rfl, _, _, tile_updTile_same ..⟩

theorem haltTile_same (m : Mod) (d : Fin 12) (t : Fin 64) (halt : Bool) : m.SameButOutcome (m.haltTile d t halt) d t := by
  unfold Mod.haltTile
  split
  · exact failTile_same ..
  · exact .refl m d t

/-- Beside the registers and the queue of its tile, a vector operation's results change only how the tile's take ends. -/
theorem vecWrite_same (e : Env) (m : Mod) (d : Fin 12) (t : Fin 64) (o : VOp) (rs : List Res) (one : Bool)
    (site : Option (Nat × Nat)) :
    (m.updTile d t (fun x => (x.setV o.vd (fmtBits o.ty) 0 (rs.map (fun r => r.bits))).endVec o)).SameButOutcome
      (m.vecWrite e d t o rs one site) d t := by
  unfold Mod.vecWrite
  dsimp only
  split
  · exact noteOverflow_same ..
  · exact ((noteOverflow_same ..).trans (tileNan_same ..)).trans (haltTile_same ..)

/-! The head of the queue, and what an element-wise operation writes. -/

theorem runVec_of_head {m : Mod} {d : Fin 12} {t : Fin 64} {op : Nat} {o : VOp} (f : VOp → Mod) (hh : m.vecHead d t op = some o)
    (hl : o.tooLong (m.tile d t).long = false) : m.runVec d t op f = f o := by
  simp [Mod.runVec, hh, hl]

theorem runVec_of_tooLong {m : Mod} {d : Fin 12} {t : Fin 64} {op : Nat} {o : VOp} (f : VOp → Mod)
    (hh : m.vecHead d t op = some o) (hl : o.tooLong (m.tile d t).long = true) :
    m.runVec d t op f = m.failVec d t o .badOperation := by
  simp [Mod.runVec, hh, hl]

theorem tileLive_of_vecHead {m : Mod} {d : Fin 12} {t : Fin 64} {op : Nat} {o : VOp} (h : m.vecHead d t op = some o) :
    m.tileLive d t = true := by
  unfold Mod.vecHead at h
  dsimp only at h
  split at h
  · cases h
  · split at h
    · rename_i hc
      simp only [Bool.and_eq_true] at hc
      obtain ⟨⟨-, hlive⟩, -⟩ := hc
      exact hlive
    · cases h

/-- The operation's module after elements 0 to VL − 1 of VD have taken the values `val`, and nothing else of what a vector
operation works on has changed. -/
def VecWritten (m : Mod) (d : Fin 12) (t : Fin 64) (o : VOp) (val : Nat → Nat) (m' : Mod) : Prop :=
  let x := m.tile d t
  let y := m'.tile d t
  let w := fmtBits o.ty
  y.vecQ = x.vecQ.tail ∧ y.pad = x.pad ∧ y.queues = x.queues ∧ y.a = x.a ∧ y.acc = x.acc ∧ m'.mem = m.mem ∧ m'.slots = m.slots ∧
    (∀ r : Nat, r ≠ o.vd → y.vreg r = x.vreg r) ∧
    (∀ i : Nat, i < o.vl → vElem (y.vreg o.vd) w i = val i % 2 ^ w) ∧
    (∀ i : Nat, o.vl ≤ i → (i + 1) * w ≤ 4096 → vElem (y.vreg o.vd) w i = vElem (x.vreg o.vd) w i)

/-- The values count up to the width of the element. -/
theorem VecWritten.congr {m m' : Mod} {d : Fin 12} {t : Fin 64} {o : VOp} {val val' : Nat → Nat} (h : VecWritten m d t o val m')
    (hv : ∀ i, val i % 2 ^ fmtBits o.ty = val' i % 2 ^ fmtBits o.ty) : VecWritten m d t o val' m' := by
  obtain ⟨hq, hp, hqs, ha, hacc, hm, hs, hr, hin, hout⟩ := h
  exact ⟨hq, hp, hqs, ha, hacc, hm, hs, hr, fun i hi => (hin i hi).trans (hv i), hout⟩

/-- Writing one result for each of the elements 0 to VL − 1 writes those elements and nothing else. -/
theorem vecWrite_written (e : Env) (m : Mod) (d : Fin 12) (t : Fin 64) (o : VOp) (res : Nat → Res) (hd : o.vd < 32)
    (hl : o.tooLong (m.tile d t).long = false) :
    VecWritten m d t o (fun i => (res i).bits) (m.vecWrite e d t o ((List.range o.vl).map res) false none) := by
  obtain ⟨hm, hs, oc, detail, ht⟩ := vecWrite_same e m d t o ((List.range o.vl).map res) false none
  rw [tile_updTile_same] at ht
  set codes := ((List.range o.vl).map res).map (fun r => r.bits) with hcodes
  have hlen : codes.length = o.vl := by simp [hcodes]
  have hvd := vreg_setV_same (m.tile d t) o.vd (fmtBits o.ty) 0 codes hd
  unfold VecWritten
  rw [ht]
  refine ⟨rfl, rfl, rfl, rfl, rfl, hm, hs, fun r hr => vreg_setV_other _ _ _ _ _ _ hr, fun i hi => ?_, fun i hi _ => ?_⟩
  · have hin := vElem_vSetElems_inside ((m.tile d t).vreg o.vd) (fmtBits o.ty) 0 i codes (by rwa [hlen])
      (by rw [hlen, Nat.zero_add]; exact vl_mul_fmtBits_le _ o hl)
    refine (congrArg (vElem · (fmtBits o.ty) i) hvd).trans ?_
    simpa [hcodes] using hin
  · exact (congrArg (vElem · (fmtBits o.ty) i) hvd).trans (vElem_vSetElems_outside _ _ _ _ _ (.inr (by rwa [hlen, Nat.zero_add])))

/-- A command that runs the head of the vector queue, and writes one result for each element, does that and nothing else. -/
theorem onModule_vecWritten {k : Instr} {s : State} {d : Fin 12} {t : Fin 64} {op : Nat} {o : VOp} {rs : Mod → VOp → List Res}
    {res : Nat → Res}
    (hk : exec k s = runMod (fun e m => m.runVec d t op (fun o => m.vecWrite e d t o (rs m o) false none)) s)
    (hd : o.vd < 32) (hh : s.mod.vecHead d t op = some o) (hl : o.tooLong (s.mod.tile d t).long = false)
    (hrs : rs s.mod o = (List.range o.vl).map res) :
    OnModule k s (VecWritten s.mod d t o (fun i => (res i).bits)) := by
  refine ⟨_, hk, ?_⟩
  dsimp only
  rw [runVec_of_head _ hh hl, hrs]
  exact vecWrite_written _ _ d t o res hd hl

/-- A vector operation that is too long for its formats ends the take with BAD_OPERATION and writes no register (R148). -/
theorem onModule_tooLong {k : Instr} {s : State} {d : Fin 12} {t : Fin 64} {op : Nat} {o : VOp} {g : Env → Mod → Mod}
    (hk : exec k s = runMod g s) (hg : ∀ e m, ∃ f, g e m = m.runVec d t op f) (hh : s.mod.vecHead d t op = some o)
    (hl : o.tooLong (s.mod.tile d t).long = true) :
    OnModule k s (fun m => (m.tile d t).outcome = some .badOperation ∧ (m.tile d t).v = (s.mod.tile d t).v) := by
  refine ⟨_, hk, ?_⟩
  obtain ⟨f, hf⟩ := hg ⟨s.fuses, s.time⟩ s.mod
  rw [hf, runVec_of_tooLong _ hh hl]
  obtain ⟨gr, g, n, -, -, hfail, -⟩ := failTile_live s.mod d t .badOperation
    (faultDetail 0x03 o.op slotV false (s.mod.tileReel d t) o.bundle noVri 0 0) (tileLive_of_vecHead hh)
  have ht : (s.mod.failVec d t o .badOperation).tile d t = _ :=
    (congrArg (fun m => m.tile d t) hfail).trans (tile_updTile_same ..)
  rw [ht]
  exact ⟨rfl, rfl⟩

/-! Integer results wrap (R149). -/

theorem signed_modEq (w x : Nat) : signed w x ≡ x [ZMOD 2 ^ w] := by
  have hx : ((x : Int) % 2 ^ w) ≡ x [ZMOD 2 ^ w] := Int.mod_modEq _ _
  unfold signed
  split
  · have hsub : (x : Int) % 2 ^ w - 2 ^ w ≡ x % 2 ^ w [ZMOD 2 ^ w] := by simp [Int.ModEq]
    exact hsub.trans hx
  · exact hx

theorem wrapInt_of_modEq {w n : Nat} {z : Int} (h : z ≡ n [ZMOD 2 ^ w]) : wrapInt w z = n % 2 ^ w := by
  unfold wrapInt
  rw [h]
  norm_cast

theorem vArith_int32_add (a b c : Nat) : (vArith 0x10 9 a b c).bits = (a + b) % 2 ^ 32 :=
  wrapInt_of_modEq (by push_cast; exact (signed_modEq 32 a).add (signed_modEq 32 b))

theorem vArith_int32_sub (a b c : Nat) (hb : b < 2 ^ 32) : (vArith 0x11 9 a b c).bits = (a + 2 ^ 32 - b) % 2 ^ 32 := by
  have hcast : ((a + 2 ^ 32 - b : Nat) : Int) = (a : Int) - b + 2 ^ 32 := by omega
  have hsub : signed 32 a - signed 32 b ≡ (a : Int) - b [ZMOD 2 ^ 32] := (signed_modEq 32 a).sub (signed_modEq 32 b)
  refine wrapInt_of_modEq ?_
  rw [hcast]
  exact hsub.trans (by simp [Int.ModEq])

theorem vArith_int32_mul (a b c : Nat) : (vArith 0x12 9 a b c).bits = a * b % 2 ^ 32 :=
  wrapInt_of_modEq (by push_cast; exact (signed_modEq 32 a).mul (signed_modEq 32 b))

/-! The element-wise commands. -/

/-- The commands that apply one operation to the elements of VS1, VS2 and VS3 (R149), each with its operation code. -/
def elementwise (d : Fin 12) (t : Fin 64) : List (Instr × Nat) :=
  [(.vadd d t, 0x10), (.vsub d t, 0x11), (.vmul d t, 0x12), (.vfma d t, 0x13), (.vmax d t, 0x14), (.vmin d t, 0x15), (.vdiv d t, 0x16),
    (.vsqrt d t, 0x17), (.vexp d t, 0x1E)]

theorem exec_elementwise {d : Fin 12} {t : Fin 64} {k : Instr} {op : Nat} (s : State) (h : (k, op) ∈ elementwise d t) :
    exec k s = runMod (vecMap op d t) s := by
  simp only [elementwise, List.mem_cons, Prod.mk.injEq, List.not_mem_nil, or_false] at h
  rcases h with ⟨rfl, rfl⟩ | ⟨rfl, rfl⟩ | ⟨rfl, rfl⟩ | ⟨rfl, rfl⟩ | ⟨rfl, rfl⟩ | ⟨rfl, rfl⟩ | ⟨rfl, rfl⟩ | ⟨rfl, rfl⟩ | ⟨rfl, rfl⟩ <;>
    rfl

/-- The value of an element-wise operation's element, from the sources as they stand. -/
def Tile.arith (x : Tile) (op : Nat) (o : VOp) (i : Nat) : Res :=
  vArith op o.ty (vElem (x.vreg o.vs1) (fmtBits o.ty) i) (vElem (x.vreg o.vs2) (fmtBits o.ty) i)
    (vElem (x.vreg o.vs3) (fmtBits o.ty) i)

section
variable {d : Fin 12} {t : Fin 64} {o : VOp} {s : State} (hd : o.vd < 32)
include hd

theorem elementwise_writes {k : Instr} {op : Nat} (hk : (k, op) ∈ elementwise d t) (hh : s.mod.vecHead d t op = some o)
    (hl : o.tooLong (s.mod.tile d t).long = false) :
    OnModule k s (VecWritten s.mod d t o (fun i => ((s.mod.tile d t).arith op o i).bits)) :=
  onModule_vecWritten (rs := fun m o => (List.range o.vl).map ((m.tile d t).arith op o)) (exec_elementwise s hk) hd hh hl rfl

theorem vcvt_writes (hh : s.mod.vecHead d t 0x20 = some o) (hl : o.tooLong (s.mod.tile d t).long = false) :
    OnModule (.vcvt d t) s (VecWritten s.mod d t o
      (fun i => (vConvert o.stype o.ty (vElem ((s.mod.tile d t).vreg o.vs1) (fmtBits o.stype) i)).bits)) :=
  onModule_vecWritten (rs := fun m o => ((m.tile d t).vcodes o.vs1 (fmtBits o.stype) o.vl).map (vConvert o.stype o.ty)) rfl hd hh hl
    List.map_map

theorem vwmul_writes (hh : s.mod.vecHead d t 0x18 = some o) (hl : o.tooLong (s.mod.tile d t).long = false) :
    OnModule (.vwmul d t) s (VecWritten s.mod d t o
      (fun i => ((fmtSpec o.ty).ofVal ((s.mod.tile d t).product o o.stype i)).bits)) :=
  onModule_vecWritten (rs := fun m o => (List.range o.vl).map (fun i => (fmtSpec o.ty).ofVal ((m.tile d t).product o o.stype i))) rfl
    hd hh hl rfl

/-- The sum that DOTW rounds for an element: the addend and two products (R151). -/
def Tile.dotwSum (x : Tile) (o : VOp) (i : Nat) : FVal :=
  xsum [(fmtSpec o.ty).decode (vElem (x.vreg o.vs3) (fmtBits o.ty) i), x.product o o.stype (2 * i), x.product o o.stype (2 * i + 1)]

theorem dotw_writes (hh : s.mod.vecHead d t 0x19 = some o) (hl : o.tooLong (s.mod.tile d t).long = false) :
    OnModule (.dotw d t) s (VecWritten s.mod d t o (fun i => ((fmtSpec o.ty).ofVal ((s.mod.tile d t).dotwSum o i)).bits)) :=
  onModule_vecWritten (rs := fun m o => (List.range o.vl).map (fun i => (fmtSpec o.ty).ofVal ((m.tile d t).dotwSum o i))) rfl
    hd hh hl rfl

/-- An element-wise operation that computes `f` in 32 bits on INT32 writes `f` of the sources' elements. -/
theorem int32_writes {k : Instr} {op : Nat} (f : Nat → Nat → Nat)
    (hf : ∀ a b c, b < 2 ^ 32 → (vArith op 9 a b c).bits = f a b % 2 ^ 32) (hk : (k, op) ∈ elementwise d t) (hty : o.ty = 9)
    (hh : s.mod.vecHead d t op = some o) (hl : o.tooLong (s.mod.tile d t).long = false) :
    OnModule k s (VecWritten s.mod d t o (fun i => f (vElem ((s.mod.tile d t).vreg o.vs1) (fmtBits o.ty) i)
      (vElem ((s.mod.tile d t).vreg o.vs2) (fmtBits o.ty) i))) := by
  obtain ⟨m, hm, hw⟩ := elementwise_writes hd hk hh hl
  refine ⟨m, hm, hw.congr fun i => ?_⟩
  rw [Tile.arith, hty, show fmtBits 9 = 32 from rfl, hf _ _ _ (vElem_lt _ _ _)]
  exact Nat.mod_mod _ _

end

/-- Each of these commands runs the head of the vector queue, so that the test of R148 stands before all it does. -/
theorem exec_runVec {d : Fin 12} {t : Fin 64} {k : Instr} {op : Nat} (s : State)
    (h : (k, op) ∈ [(Instr.vadd d t, 0x10), (.vsub d t, 0x11), (.vmul d t, 0x12), (.vcvt d t, 0x20), (.vwmul d t, 0x18),
      (.dotw d t, 0x19)]) :
    ∃ g, exec k s = runMod g s ∧ ∀ e m, ∃ f, g e m = m.runVec d t op f := by
  simp only [List.mem_cons, Prod.mk.injEq, List.not_mem_nil, or_false] at h
  rcases h with ⟨rfl, rfl⟩ | ⟨rfl, rfl⟩ | ⟨rfl, rfl⟩ | ⟨rfl, rfl⟩ | ⟨rfl, rfl⟩ | ⟨rfl, rfl⟩
  · exact ⟨vecMap 0x10 d t, rfl, fun _ _ => ⟨_, rfl⟩⟩
  · exact ⟨vecMap 0x11 d t, rfl, fun _ _ => ⟨_, rfl⟩⟩
  · exact ⟨vecMap 0x12 d t, rfl, fun _ _ => ⟨_, rfl⟩⟩
  · exact ⟨vcvt d t, rfl, fun _ _ => ⟨_, rfl⟩⟩
  · exact ⟨vwmul d t, rfl, fun _ _ => ⟨_, rfl⟩⟩
  · exact ⟨dotw d t, rfl, fun _ _ => ⟨_, rfl⟩⟩

/-- Settles O45: each command writes one result for each element through `vecWrite`, whose accounting leaves registers and memory
alone; INT32 results agree with the plain sums, differences and products in 32 bits. -/
theorem vectorArithmeticIsElementwise : Obligations.VectorArithmeticIsElementwise := by
  intro d t o s hd x w f ready a b c gives
  refine ⟨fun k op hk ⟨hh, hl⟩ => elementwise_writes hd hk hh hl, fun ⟨hh, hl⟩ => vcvt_writes hd hh hl,
    fun ⟨hh, hl⟩ => vwmul_writes hd hh hl, fun ⟨hh, hl⟩ => dotw_writes hd hh hl, fun hty ⟨hh, hl⟩ => ?_, fun hty ⟨hh, hl⟩ => ?_,
    fun hty ⟨hh, hl⟩ => ?_, fun k op hk hh hl => ?_⟩
  · exact int32_writes hd (· + ·) (fun a b c _ => vArith_int32_add a b c) (by simp [elementwise]) hty hh hl
  · exact int32_writes hd (· + 2 ^ 32 - ·) vArith_int32_sub (by simp [elementwise]) hty hh hl
  · exact int32_writes hd (· * ·) (fun a b c _ => vArith_int32_mul a b c) (by simp [elementwise]) hty hh hl
  · obtain ⟨g, hg, hrun⟩ := exec_runVec s hk
    exact onModule_tooLong hg hrun hh hl

end Sys2Proof.Machine
end

section
/-! SUPPORT. The mailbox fetches a rung entry and checks it in the order of R313. -/

namespace Sys2Proof.Machine

/-! The check value of an entry (R419, R420). -/

theorem crcBits_lt (w p k v : Nat) (hp : p < 2 ^ w) (hv : v < 2 ^ w) : crcBits p k v < 2 ^ w := by
  induction k generalizing v with
  | zero => exact hv
  | succ k ih =>
    have hhalf : v / 2 < 2 ^ w := (Nat.div_le_self v 2).trans_lt hv
    refine ih _ ?_
    split
    · exact Nat.xor_lt_two_pow hhalf hp
    · exact hhalf

/-- Bytes fed to a running value of at least 8 bits leave it within the width of its polynomial. -/
theorem crcFeed_lt (poly : Bool) (w v : Nat) (bs : List Byte) (hw : 8 ≤ w) (hp : crcPoly poly < 2 ^ w) (hv : v < 2 ^ w) :
    crcFeed poly v bs < 2 ^ w := by
  induction bs generalizing v with
  | nil => exact hv
  | cons b bs ih =>
    have hb : b.toNat < 2 ^ w := b.isLt.trans_le (Nat.pow_le_pow_right (by decide) hw)
    exact ih _ (crcBits_lt w _ _ _ hp (Nat.xor_lt_two_pow hv hb))

/-- After a check of the CRC-32C, TLY_FINAL is the check value (R420). -/
theorem final_check (c : TallyCh) (bs : List Byte) : (c.check false bs).final.toNat = crcOf false bs := by
  have hlt : crcFeed false (crcOnes false) bs < 2 ^ 32 := crcFeed_lt false 32 _ bs (by decide) (by decide) (by decide)
  have hshown : (c.check false bs).shown.toNat = crcFeed false (crcOnes false) bs := by
    simp only [TallyCh.shown, TallyCh.check, Bool.false_eq_true, if_false, BitVec.toNat_and, BitVec.toNat_ofNat]
    rw [show 0xFFFFFFFF % 2 ^ 64 = 2 ^ 32 - 1 from rfl, Nat.and_two_pow_sub_one_eq_mod, Nat.mod_eq_of_lt (a := _ % _) (by omega),
      Nat.mod_eq_of_lt (by omega)]
  rw [TallyCh.final, BitVec.toNat_xor, hshown]
  rfl

/-! The order of the checks (R313). -/

/-- An entry that passes the first three checks and whose opcode exists is checked for its context's rights, its form and the stage. -/
theorem checkEntry_of_row (m : Mod) (q : HQueue) (e : List Byte) {stage : Nat} {zeroOnly : Bool} {used : List (Nat × Nat)}
    (hc : entCrcOk e = true) (ha : entAlive e = q.alive) (hx : entContext e = q.context)
    (hr : opcodeRow (entOpcode e) = some (stage, zeroOnly, used)) :
    m.checkEntry q e =
      if (zeroOnly = true ∧ q.context ≠ 0) ∨ m.objectAllowed q.context (entOpcode e) e = false then (true, some .contextDenied)
      else if 1 < entFlags e ∨ entZero e used = false ∨ argsOk (entOpcode e) e = false then (true, some .badCommand)
      else if m.life.stage < stage ∨ (m.life.pstate = .park ∧ servedInPark (entOpcode e) = false) then (true, some .notReady)
      else (true, none) := by
  simp [Mod.checkEntry, hc, ha, hx, hr, or_assoc]

/-- The checks do not look at the tally channels. -/
theorem checkEntry_tally (m : Mod) (v : Vector TallyCh 13) (q : HQueue) (e : List Byte) :
    ({ m with tally := v } : Mod).checkEntry q e = m.checkEntry q e := rfl

/-! The fetch of the only entry rung (R311). -/

theorem queue_eq_getElem (m : Mod) (n : Fin 64) : m.queue n.val = m.mbx.queues[n.val] := by
  simp [Mod.queue, vget]

@[simp] theorem queue_fetched_same (m : Mod) (n : Fin 64) (q : HQueue) (e : List Byte) (adv : Bool) :
    (m.fetched n q e adv).queue n.val =
      some { q with sqHead := (q.sqHead + 1) % 2 ^ q.log2Sq, alive := if adv then q.alive + 1 else q.alive } := by
  simp [queue_eq_getElem, Mod.fetched]

theorem queue_fetched_other (m : Mod) (n : Fin 64) (q : HQueue) (e : List Byte) (adv : Bool) (k : Nat) (hk : k ≠ n.val) :
    (m.fetched n q e adv).queue k = m.queue k := by
  simp only [Mod.queue, vget, Mod.fetched]
  split
  · exact Vector.getElem_set_ne _ _ hk.symm
  · rfl

theorem vmodN_of_queue {m : Mod} {n : Fin 64} {q : HQueue} (h : m.queue n.val = some q) (f : Option HQueue → Option HQueue) :
    vmodN m.mbx.queues n.val f = m.mbx.queues.set n.val (f (some q)) := by
  rw [queue_eq_getElem] at h
  simp [vmodN, h]

/-- The firmware's tally channel holds the entry's check value (R419). -/
theorem final_fetched (m : Mod) (n : Fin 64) (q : HQueue) (e : List Byte) (adv : Bool) :
    ((m.fetched n q e adv).tally[0]).final.toNat = crcOf false (slice e 0 0x3C) := by
  rw [← final_check m.tally[0]]
  simp [Mod.fetched, vmodN]

/-- The mailbox is idle, and `e`, which queue `n` holds, is the only entry rung, and may be fetched. -/
structure Mod.OnlyRung (m : Mod) (n : Fin 64) (q : HQueue) (e : List Byte) : Prop where
  port : m.portUp = true
  idle : m.mbx.inService = none
  queue : m.queue n.val = some q
  rung : q.rung = [e]
  held : q.held = []
  room : q.full = false
  others : ∀ (k : Nat) (q' : HQueue), k ≠ n.val → m.queue k = some q' → q'.rung = []

namespace Mod.OnlyRung
variable {m : Mod} {n : Fin 64} {q : HQueue} {e : List Byte}

/-- A queue from which an entry may be fetched is queue `n`. -/
theorem eq_of_ready (h : m.OnlyRung n q e) {k : Nat} {q' : HQueue} (hq : m.queue k = some q') (hr : q'.ready = true) :
    (k, q') = (n.val, q) := by
  by_cases hk : k = n.val
  · rw [hk, h.queue, Option.some.injEq] at hq
    rw [hk, hq]
  · simp [HQueue.ready, h.others k q' hk hq] at hr

theorem nextQueue_eq (h : m.OnlyRung n q e) : m.nextQueue = some (n.val, q) := by
  unfold Mod.nextQueue
  extract_lets order ready
  have hready : q.ready = true := by simp [HQueue.ready, h.rung, h.held, h.room]
  have hsound : ∀ x ∈ ready, x = (n.val, q) := by
    intro x hx
    obtain ⟨k, -, hk⟩ := List.mem_filterMap.1 hx
    split at hk
    next q' hq =>
      split at hk
      next hr =>
        rw [← Option.some.inj hk]
        exact h.eq_of_ready hq hr
      next => cases hk
    next => cases hk
  have hturn : n.val ∈ order :=
    List.mem_map.2 ⟨(n.val + 63 - m.mbx.turn % 64) % 64, List.mem_range.2 (by omega), by omega⟩
  have hmem : (n.val, q) ∈ ready := List.mem_filterMap.2 ⟨n.val, hturn, by simp [h.queue, hready]⟩
  split
  next x hx => rw [hsound x (List.mem_of_find?_eq_some hx)]
  next =>
    obtain ⟨x, hx⟩ := Option.isSome_iff_exists.1 (List.isSome_head?.2 (List.ne_nil_of_mem hmem))
    rw [hx, hsound x (List.mem_of_mem_head? hx)]

/-- Nothing is left to fetch once the entry is. -/
theorem fetched_quiet (h : m.OnlyRung n q e) (adv : Bool) : (m.fetched n { q with rung := [] } e adv).quiet := by
  intro k q' hq
  by_cases hk : k = n.val
  · rw [hk, queue_fetched_same, Option.some.injEq] at hq
    rw [← hq]
  · exact h.others k q' hk ((queue_fetched_other _ _ _ _ _ _ hk).symm.trans hq)

/-- One turn of service fetches and checks the entry: it is in service, or it is answered with the status of the check it fails and
service goes on. -/
theorem serve_succ (h : m.OnlyRung n q e) (env : Env) (fuel : Nat) {adv : Bool} {failed : Option Status}
    (hc : m.checkEntry q e = (adv, failed)) :
    let a := m.fetched n { q with rung := [] } e adv
    m.serve (fuel + 1) env = failed.elim { a with mbx.inService := some (n.val, e) }
      (fun st => (a.postEntry env n.val e st 0 (if st = .aliveStale then [q.alive] else [])).serve fuel env) := by
  cases failed <;>
    simp [Mod.serve, h.idle, h.port, h.nextQueue_eq, h.rung, checkEntry_tally, hc, Mod.updQueue, vmodN_of_queue h.queue, Mod.fetched,
      ringSize]

/-- An entry that passes every check is in service. -/
theorem serveAll_of_passed (h : m.OnlyRung n q e) (env : Env) {adv : Bool} (hc : m.checkEntry q e = (adv, none)) :
    m.serveAll env = { m.fetched n { q with rung := [] } e adv with mbx.inService := some (n.val, e) } :=
  h.serve_succ env m.rungCount hc

/-- An entry that fails a check is answered, and nothing else is fetched. -/
theorem serveAll_of_failed (h : m.OnlyRung n q e) (env : Env) {adv : Bool} {st : Status} (hc : m.checkEntry q e = (adv, some st)) :
    m.serveAll env =
      (m.fetched n { q with rung := [] } e adv).postEntry env n.val e st 0 (if st = .aliveStale then [q.alive] else []) :=
  (h.serve_succ env m.rungCount hc).trans (serve_quiet _ env (postEntry_quiet env n.val e st 0 _ (h.fetched_quiet adv)))

end Mod.OnlyRung

/-! New queues (R306, R316). -/

/-- Posting a completion moves a queue's rings; its expected counter stays. -/
theorem post_alive (m : Mod) (n k : Nat) (entry : List Byte) (irq : Bool) :
    ((m.post n entry irq).queue k).map HQueue.alive = (m.queue k).map HQueue.alive := by
  have hset : ∀ {q : HQueue} (q' : HQueue) {x : Mod}, vget m.mbx.queues n none = some q → q'.alive = q.alive →
      x.mbx.queues = vmodN m.mbx.queues n (fun _ => some q') → (x.queue k).map HQueue.alive = (m.queue k).map HQueue.alive := by
    intro q q' x hq ha hx
    rw [Mod.queue, Mod.queue, hx]
    by_cases hk : k = n
    · subst hk
      have hlt : k < 64 := by
        by_contra hge
        simp [vget, hge] at hq
      rw [vget_vmodN_same _ _ _ _ hlt, hq, Option.map_some, Option.map_some, ha]
    · rw [vget_vmodN_other _ _ _ _ _ hk]
  unfold Mod.post
  split
  next => rfl
  next q hq =>
    split
    · exact hset { q with held := q.held ++ [(irq, entry)] } hq rfl rfl
    · split
      · exact hset (q.write m.host.mem entry).1 hq rfl (congrArg Mailbox.queues (raiseQueue_mbx _ _))
      · exact hset (q.write m.host.mem entry).1 hq rfl rfl

theorem postEntry_alive (e : Env) (m : Mod) (n k : Nat) (ent : List Byte) (st : Status) (fl : Nat) (r : List Byte) :
    ((m.postEntry e n ent st fl r).queue k).map HQueue.alive = (m.queue k).map HQueue.alive := by
  unfold Mod.postEntry
  split
  · rfl
  · exact post_alive ..

theorem queue_vmodN_same (m : Mod) (k : Nat) (f : Option HQueue → Option HQueue) (hk : k < 64) :
    ({ m with mbx.queues := vmodN m.mbx.queues k f } : Mod).queue k = f (m.queue k) :=
  vget_vmodN_same _ _ _ _ hk

/-- A new queue with nothing rung keeps the mailbox quiet. -/
theorem quiet_newQueue {m : Mod} (h : m.quiet) (k : Nat) (q : HQueue) (hr : q.rung = []) :
    ({ m with mbx.queues := vmodN m.mbx.queues k (fun _ => some q) } : Mod).quiet :=
  quiet_vmodN h k (fun _ => some q) rfl fun _ hnew => Option.some.inj hnew ▸ hr

/-- A queue whose counter is known is there. -/
theorem exists_queue_of_alive {m : Mod} {k : Nat} {a : BitVec 8} (h : (m.queue k).map HQueue.alive = some a) :
    ∃ q, m.queue k = some q ∧ q.alive = a := Option.map_eq_some_iff.1 h

/-- The fields of MBX_Q0_CFG that the mask of R306 keeps whole. -/
theorem bits_and_q0Mask (v : Word) :
    (v &&& q0Mask).getLsbD 0 = v.getLsbD 0 ∧ bits (v &&& q0Mask).toNat 12 8 = (v.extractLsb' 8 5).toNat ∧
      bits (v &&& q0Mask).toNat 20 16 = (v.extractLsb' 16 5).toNat := by
  have hfield : ∀ lo : Nat, q0Mask.extractLsb' lo 5 = BitVec.allOnes 5 →
      bits (v &&& q0Mask).toNat (lo + 4) lo = (v.extractLsb' lo 5).toNat := by
    intro lo hlo
    have hand : (v &&& q0Mask).extractLsb' lo 5 = v.extractLsb' lo 5 := by
      rw [BitVec.extractLsb'_and, hlo, BitVec.and_allOnes]
    rw [← hand, BitVec.extractLsb'_toNat, bits, Nat.shiftRight_eq_div_pow, show lo + 4 + 1 - lo = 5 by omega]
  exact ⟨by simp [q0Mask], hfield 8 (by decide), hfield 16 (by decide)⟩

/-- A write to MBX_Q0_CFG that creates queue 0 (R306) makes it with expected counter 0. -/
theorem mbxQ0CfgCreate_expects_zero (s : State) (v : Word) (hp : s.mod.portUp = true) (hq : s.mod.queue 0 = none)
    (hv : v.getLsbD 0 = true) (hs : 4 ≤ (v.extractLsb' 8 5).toNat ∧ (v.extractLsb' 8 5).toNat ≤ 16)
    (hc : 4 ≤ (v.extractLsb' 16 5).toNat ∧ (v.extractLsb' 16 5).toNat ≤ 16) :
    OnModule (.mbxQ0CfgCreate v) s (fun k => ∃ q', k.queue 0 = some q' ∧ q'.alive = 0) := by
  obtain ⟨hbit, hsq, hcq⟩ := bits_and_q0Mask v
  refine ⟨writeQ0Cfg v s.env s.mod, rfl, ?_⟩
  simp only [writeQ0Cfg, hp, hq, hbit, hsq, hcq, hv, hs, hc, decide_true, Bool.and_self, Bool.not_true, Bool.false_eq_true,
    if_false, if_true]
  exact ⟨_, vget_vmodN_same _ _ _ _ (by decide), rfl⟩

/-- CREATE_QUEUE (R316) makes a queue with expected counter 0. -/
theorem createQueue_expects_zero (s : State) (n : Nat) (ent : List Byte) (hserves : s.mod.serves 0x0003 n ent)
    (hk : entArg ent 8 1 < 64) (hq : s.mod.queue (entArg ent 8 1) = none) :
    OnModule .createQueue s (fun k => ∃ q', k.queue (entArg ent 8 1) = some q' ∧ q'.alive = 0) := by
  have ⟨_, _, hquiet⟩ := hserves
  refine ⟨createQueue s.env s.mod, rfl, exists_queue_of_alive ?_⟩
  rw [createQueue, command_of_serves hserves _ _ rfl]
  simp only [hq]
  rw [complete_quiet, Mod.answer, postEntry_alive]
  · exact congrArg _ (queue_vmodN_same s.mod _ _ hk)
  · exact quiet_newQueue hquiet _ _ rfl

/-- Settles O13: the checks fall through in the order of R313, and service of the only entry rung is its fetch, its check and then
either its service or the completion with the status of the first failure. -/
theorem entriesAreCheckedInOrder : Obligations.EntriesAreCheckedInOrder := by
  intro m q e
  refine ⟨fun hc => ?_, fun hc ha => ?_, fun hc ha hx => ?_, fun hc ha hx hr => ?_, fun hc ha hx stage zeroOnly used hr => ?_,
    fun env n adv st hp hi hq hr hh hf ho hc => ?_, fun s v hp hq hv hs hs' hc hc' => ?_, fun s n ent hserves hk hq => ?_,
    fun env n hp hi hq hr hh hf ho hc => ?_, fun n adv => ?_⟩
  · simp [Mod.checkEntry, hc]
  · simp [Mod.checkEntry, hc, ha]
  · simp [Mod.checkEntry, hc, ha, hx]
  · simp [Mod.checkEntry, hc, ha, hx, hr]
  · intro denied bad early
    rw [checkEntry_of_row m q e hc ha hx hr]
    exact ⟨fun hd => if_pos hd, fun hd hb => (if_neg hd).trans (if_pos hb),
      fun hd hb hl => (if_neg hd).trans ((if_neg hb).trans (if_pos hl)),
      fun hd hb hl => (if_neg hd).trans ((if_neg hb).trans (if_neg hl))⟩
  · exact Mod.OnlyRung.serveAll_of_failed ⟨hp, hi, hq, hr, hh, hf, ho⟩ env hc
  · exact mbxQ0CfgCreate_expects_zero s v hp hq hv ⟨hs, hs'⟩ ⟨hc, hc'⟩
  · exact createQueue_expects_zero s n ent hserves hk hq
  · intro a
    have ha := Mod.OnlyRung.serveAll_of_passed ⟨hp, hi, hq, hr, hh, hf, ho⟩ env hc
    subst a
    rw [ha]
    refine ⟨rfl, ?_, rfl⟩
    exact queue_fetched_same m n { q with rung := [] } e true
  · exact ⟨queue_fetched_same m n q e adv, final_fetched m n q e adv, rfl, rfl, rfl⟩

end Sys2Proof.Machine
end

section
/-! SUPPORT. SET_CAP and SET_PHASE_OP set the cap and the preferences (R389, R390), and what keeps the cap through resets and park
states (R417). -/

namespace Sys2Proof.Machine

/-! The cap through the operations that run in a reset or a park state. -/

@[simp] theorem daily_cap (m : Mod) (f : Dailies → Dailies) : (m.daily f).pwr.cap = m.pwr.cap := rfl
@[simp] theorem dailyDie_cap (m : Mod) (d : Nat) (f : DailyDie → DailyDie) : (m.dailyDie d f).pwr.cap = m.pwr.cap := rfl
@[simp] theorem clearTest_cap (m : Mod) : m.clearTest.pwr.cap = m.pwr.cap := rfl
@[simp] theorem afterOff_cap (m : Mod) : m.afterOff.pwr.cap = m.pwr.cap := rfl
@[simp] theorem wake_cap (m : Mod) : m.wake.pwr.cap = m.pwr.cap := rfl
@[simp] theorem enterDeep_cap (m : Mod) : m.enterDeep.pwr.cap = m.pwr.cap := rfl
@[simp] theorem enterPark_cap (m : Mod) : m.enterPark.pwr.cap = m.pwr.cap := by simp [Mod.enterPark]
@[simp] theorem openGap_cap (e : Env) (m : Mod) (h first last slate cause count : Nat) :
    (m.openGap e h first last slate cause count).pwr.cap = m.pwr.cap := by simp [Mod.openGap, Mod.ringHead]

@[simp] theorem keepEngines_cap (m : Mod) (d : Fin 12) : (m.keepEngines d).pwr.cap = m.pwr.cap := by
  unfold Mod.keepEngines
  split
  · rfl
  · simp

@[simp] theorem gapDie_cap (m : Mod) (d : Fin 12) : (m.gapDie d).pwr.cap = m.pwr.cap := by
  unfold Mod.gapDie
  dsimp only
  split <;> simp

@[simp] theorem ingestWake_cap (e : Env) (m : Mod) : (m.ingestWake e).pwr.cap = m.pwr.cap := by
  refine List.foldlRecOn (motive := fun x : Mod => x.pwr.cap = m.pwr.cap) _ _ rfl fun x hx ring _ => ?_
  split
  · exact hx
  · rwa [openGap_cap]

theorem command_cap {m : Mod} (op : Nat) (ok : List Byte → Bool) (f : Nat → List Byte → Mod)
    (hf : ∀ n ent, (f n ent).pwr.cap = m.pwr.cap) : (m.command op ok f).pwr.cap = m.pwr.cap := by
  unfold Mod.command
  split
  · rfl
  · split
    · exact hf _ _
    · rfl

/-! The commands of resets and park states. -/

theorem moduleReset_cap (s : State) (cause : Nat) : (s.moduleReset cause).mod.pwr.cap = s.mod.pwr.cap := by
  simp [State.moduleReset]

theorem resetPin_cap (s : State) (cause : Nat) : (s.resetPin cause).mod.pwr.cap = s.mod.pwr.cap := by
  unfold State.resetPin
  split
  · rfl
  · split
    · exact wake_cap _
    · split
      · rfl
      · exact moduleReset_cap s cause

theorem askPark_cap (e : Env) (m : Mod) (code : Nat) (p : PState) : (m.askPark e code p).pwr.cap = m.pwr.cap := by
  refine command_cap _ _ _ fun n ent => ?_
  split <;> simp

theorem parkRun_cap (e : Env) (m : Mod) : (parkRun e m).pwr.cap = m.pwr.cap := by
  refine command_cap _ _ _ fun n ent => ?_
  split
  · rw [complete_pwr, ingestWake_cap]
    refine List.foldlRecOn (motive := fun x : Mod => x.pwr.cap = m.pwr.cap) _ _ (by simp) fun x hx d _ => ?_
    split
    · rwa [gapDie_cap]
    · exact hx
  · simp

theorem holdOver_cap (s : State) : s.holdOver.mod.pwr.cap = s.mod.pwr.cap := by
  unfold State.holdOver
  split <;> simp

theorem parkReached_cap (s : State) : s.parkReached.mod.pwr.cap = s.mod.pwr.cap := by
  unfold State.parkReached
  extract_lets e
  split
  · simp
  · simp [holdOver_cap]
  · rfl

theorem smbSend_cap (code : Byte) (addr : BitVec 7) (pec : Option Byte) (e : Env) (m : Mod) :
    (smbSend code addr pec e m).pwr.cap = m.pwr.cap := by
  unfold smbSend
  split
  · dsimp only
    split
    · exact wake_cap _
    · rfl
  · rfl

/-- The commands of resets and park states, SMBus wakes among them. -/
def ResetsOrParks (c : Instr) : Prop :=
  c ∈ [Instr.modResetN, .perst, .resetModule, .park, .deepPark, .parkStateReached, .parkRun] ∨ ∃ addr pec, c = .wake addr pec

theorem ResetsOrParks.keeps_cap {c : Instr} (hc : ResetsOrParks c) (s : State) :
    Completes c s (fun t => t.mod.pwr.cap = s.mod.pwr.cap) := by
  obtain hc | ⟨addr, pec, rfl⟩ := hc
  · simp only [List.mem_cons, List.not_mem_nil, or_false] at hc
    obtain rfl | rfl | rfl | rfl | rfl | rfl | rfl := hc
    · exact ⟨_, rfl, resetPin_cap s 1⟩
    · exact ⟨_, rfl, resetPin_cap s 2⟩
    · refine ⟨_, rfl, ?_⟩
      split
      · exact moduleReset_cap s 3
      · rfl
    · exact ⟨_, rfl, askPark_cap _ _ 1 .park⟩
    · exact ⟨_, rfl, askPark_cap _ _ 2 .deepPark⟩
    · exact ⟨_, rfl, parkReached_cap s⟩
    · exact ⟨_, rfl, parkRun_cap _ _⟩
  · exact ⟨_, rfl, smbSend_cap _ addr pec _ _⟩

/-- A cold start takes the cap from flash (R390, R417). -/
theorem powerGood_cap (s : State) (h : s.mod.life.powered = false) :
    Completes .powerGood s (fun t => t.mod.pwr.cap = s.mod.flash.defaultCap) := by
  refine ⟨s.off true true false, ?_, ?_⟩
  · change execPowerGood s = _
    simp [execPowerGood, h]
  · have hflash : (s.mod.flashLoss false).flash = s.mod.flash := by
      unfold Mod.flashLoss
      split <;> rfl
    exact congrArg Flash.defaultCap hflash

/-! SET_CAP (R390). -/

theorem toNat_clampCap (w : Nat) : (BitVec.ofNat 16 (clampCap w)).toNat = clampCap w :=
  Nat.mod_eq_of_lt (by unfold clampCap; omega)

/-- The power settings once a cap of `w` watts is asked for: the cap clamped, and a raised cap without the floor and the hold of the
cap before it (R390, R393). -/
def Power.withCap (p : Power) (w : Nat) : Power :=
  let raised := decide (p.cap.toNat < clampCap w)
  { p with cap := BitVec.ofNat 16 (clampCap w), unreachable := p.unreachable && !raised, floor := if raised then 0 else p.floor,
           daily := p.daily.map (fun x => { x with minCap := min x.minCap (clampCap w) }) }

theorem setCap_eq (e : Env) (m : Mod) :
    setCap e m = m.command 0x0030 (fun _ => true) fun n ent =>
      ({ m with pwr := m.pwr.withCap (entArg ent 8 4) } : Mod).complete e n ent
        (if clampCap (entArg ent 8 4) = entArg ent 8 4 then .ok else .capClamped) (natLe 4 (clampCap (entArg ent 8 4))) := by
  simp only [setCap, Mod.daily, Power.withCap]

theorem exec_setCap {s : State} {n : Nat} {ent : List Byte} (h : s.mod.serves 0x0030 n ent) :
    let w := entArg ent 8 4
    let m := { s.mod with pwr := s.mod.pwr.withCap w }
    exec .setCap s =
      .next { s with mod := m.answer s.env n ent (if clampCap w = w then .ok else .capClamped) (natLe 4 (clampCap w)) } := by
  intro w m
  have ⟨_, _, hserved⟩ := h
  have hquiet : m.quiet := quiet_of_queues hserved rfl
  change runMod setCap s = _
  rw [← complete_quiet _ _ _ _ _ hquiet, runMod, setCap_eq, command_of_serves h _ _ rfl]
  rfl

/-! SET_PHASE_OP (R389, R401). -/

/-- The bits of a phase's field of the preferences. -/
theorem getLsbD_setPref (u : PUnit) {p op q i : Nat} (hp : p ≤ 5) (hop : op ≤ 7) (hq : q < 6) (hi : i < 3) :
    (u.setPref p op).pref.getLsbD (3 * q + i) = if q = p then op.testBit i else u.pref.getLsbD (3 * q + i) := by
  have hlt : 3 * q + i < 18 := by omega
  simp only [PUnit.setPref, BitVec.getLsbD_or, BitVec.getLsbD_and, BitVec.getLsbD_not, BitVec.getLsbD_shiftLeft, BitVec.getLsbD_ofNat, hlt]
  obtain hqp | rfl | hpq := Nat.lt_trichotomy q p
  · have hbelow : 3 * q + i < 3 * p := by omega
    simp [hbelow, hqp.ne]
  · have hseven : Nat.testBit 7 i = true := by interval_cases i <;> rfl
    simp [hseven, show i < 18 by omega]
  · have habove : ∀ x ≤ 7, x.testBit (3 * q + i - 3 * p) = false := fun x hx =>
      Nat.testBit_lt_two_pow (calc
        x < 2 ^ 3 := by omega
        _ ≤ 2 ^ (3 * q + i - 3 * p) := Nat.pow_le_pow_right (by decide) (by omega))
    simp [habove 7 le_rfl, habove op hop, hpq.ne']

/-- A phase's preference is the field of three bits at 3q. -/
theorem prefOf_eq_extractLsb' (u : PUnit) (q : Nat) : u.prefOf q = (u.pref.extractLsb' (3 * q) 3).toNat := by
  rw [BitVec.extractLsb'_toNat, PUnit.prefOf, bits, Nat.shiftRight_eq_div_pow, show 3 * q + 2 + 1 - 3 * q = 3 by omega]

theorem prefOf_setPref (u : PUnit) {p op q : Nat} (hp : p ≤ 5) (hop : op ≤ 7) (hq : q < 6) :
    (u.setPref p op).prefOf q = if q = p then op else u.prefOf q := by
  have hfield : (u.setPref p op).pref.extractLsb' (3 * q) 3 = if q = p then BitVec.ofNat 3 op else u.pref.extractLsb' (3 * q) 3 := by
    refine BitVec.eq_of_getLsbD_eq fun i hi => ?_
    rw [BitVec.getLsbD_extractLsb', getLsbD_setPref u hp hop hq hi]
    split <;> simp only [BitVec.getLsbD_ofNat, BitVec.getLsbD_extractLsb', hi, decide_true, Bool.true_and]
  rw [prefOf_eq_extractLsb', hfield]
  split
  · exact Nat.mod_eq_of_lt (by omega)
  · exact (prefOf_eq_extractLsb' u q).symm

/-- A SET_PHASE_OP changes the units of its DIEMASK; with 0, every unit (R389). -/
theorem setPrefs_unit (m : Mod) (p op : Nat) {mask : Nat} (hmask : mask < 4096) (k : Fin 14) :
    (m.setPrefs p op (BitVec.ofNat 16 mask)).pwr.units[k.val] =
      if mask = 0 ∨ (k.val < 12 ∧ mask.testBit k.val = true) then (m.pwr.units[k.val]).setPref p op else m.pwr.units[k.val] := by
  have hzero : BitVec.ofNat 16 mask = 0#16 ↔ mask = 0 := by
    rw [← BitVec.toNat_inj, BitVec.toNat_ofNat, Nat.mod_eq_of_lt (by omega)]
    rfl
  have hbit : (BitVec.ofNat 16 mask).getLsbD k.val = mask.testBit k.val := by
    rw [BitVec.getLsbD_ofNat, decide_eq_true (show k.val < 16 by omega), Bool.true_and]
  simp [Mod.setPrefs, hzero, hbit]

/-! What the answer of pace and room tone to new preferences leaves alone (R397, R398, R400). -/

/-- The mailbox, memory, graphs, cap and units stand as they were, and the dies too but for room tone. -/
structure Mod.SameSettings (m m' : Mod) : Prop where
  mbx : m'.mbx = m.mbx
  mem : m'.mem = m.mem
  graphs : m'.graphs = m.graphs
  cap : m'.pwr.cap = m.pwr.cap
  units : m'.pwr.units = m.pwr.units
  dies : m'.sameDies m

theorem Mod.SameSettings.refl (m : Mod) : m.SameSettings m := ⟨rfl, rfl, rfl, rfl, rfl, rfl⟩

theorem Mod.SameSettings.trans {m₁ m₂ m₃ : Mod} (h : m₁.SameSettings m₂) (h' : m₂.SameSettings m₃) : m₁.SameSettings m₃ :=
  ⟨h'.mbx.trans h.mbx, h'.mem.trans h.mem, h'.graphs.trans h.graphs, h'.cap.trans h.cap, h'.units.trans h.units, h'.dies.trans h.dies⟩

theorem daily_same (m : Mod) (f : Dailies → Dailies) : m.SameSettings (m.daily f) := ⟨rfl, rfl, rfl, rfl, rfl, rfl⟩

theorem noteOps_same (m : Mod) : m.SameSettings m.noteOps := by
  refine List.foldlRecOn (motive := m.SameSettings) _ _ (.refl m) fun x hx d _ => ?_
  split
  · exact hx.trans (daily_same x _)
  · exact hx

theorem paceFollow_same (e : Env) (m : Mod) : m.SameSettings (m.paceFollow e) := by
  unfold Mod.paceFollow
  split
  · exact .refl m
  · exact .trans ⟨by simp, by simp, by simp, by simp, by simp, by simp [Mod.sameDies]⟩ (daily_same _ _)

theorem syncPace_same (e : Env) (m : Mod) : m.SameSettings (m.syncPace e) := by
  have hforget : m.SameSettings { m with pwr.lastPace := none } := ⟨rfl, rfl, rfl, rfl, rfl, rfl⟩
  have hsent : ∀ (last : Option PaceMsg) (p : PaceMsg), m.SameSettings (({ m with pwr.lastPace := last } : Mod).sendPace p) :=
    fun _ _ => ⟨rfl, rfl, rfl, rfl, rfl, rfl⟩
  unfold Mod.syncPace
  split
  · exact .refl m
  · exact hsent _ _
  · split
    · exact .refl m
    · exact hsent _ _
  · dsimp only
    split
    · exact hforget
    · split
      · exact hsent _ _
      · exact hforget

theorem toneOff_toneOff (x : Die) : x.toneOff.toneOff = x.toneOff := by
  simp [Die.toneOff]

theorem trimTone_same (m before : Mod) : m.SameSettings (m.trimTone before) := by
  refine ⟨rfl, rfl, rfl, rfl, rfl, Vector.ext fun d hd => ?_⟩
  simp only [Mod.trimTone, Vector.getElem_map, Vector.getElem_mapFinIdx]
  split
  · exact toneOff_toneOff _
  · rfl

/-- A change of limits with the answer to it leaves what the change alone leaves. -/
theorem withPace_same (e : Env) (m : Mod) (f : Mod → Mod) : (f m).SameSettings (m.withPace e f) := by
  have hanswer : ∀ x : Mod, x.SameSettings ((x.trimTone m).syncPace e).noteOps := fun x =>
    ((trimTone_same x m).trans (syncPace_same e _)).trans (noteOps_same _)
  unfold Mod.withPace
  dsimp only
  split
  · exact (paceFollow_same e _).trans (hanswer _)
  · exact hanswer _

/-- SET_PHASE_OP changes the preferences, pace and room tone answer them, and the command is answered. -/
theorem exec_setPhaseOp {s : State} {n : Nat} {ent : List Byte} (h : s.mod.serves 0x0031 n ent) :
    ∃ m, exec .setPhaseOp s = .next { s with mod := m.answer s.env n ent .ok [] } ∧
      (s.mod.setPrefs (entArg ent 8 1) (entArg ent 9 1) (BitVec.ofNat 16 (entArg ent 0xA 2))).SameSettings m := by
  have hsame := withPace_same s.env s.mod fun m =>
    m.setPrefs (entArg ent 8 1) (entArg ent 9 1) (BitVec.ofNat 16 (entArg ent 0xA 2))
  refine ⟨_, ?_, hsame⟩
  have ⟨_, _, hserved⟩ := h
  have hquiet := quiet_of_queues hserved (congrArg Mailbox.queues hsame.mbx)
  change runMod setPhaseOp s = _
  rw [← complete_quiet _ _ _ _ _ hquiet, runMod, setPhaseOp, command_of_serves h _ _ rfl]
  rfl

/-! An answer posts a completion and changes no setting (R314). -/

theorem answer_keeps_settings (e : Env) (m : Mod) (n : Nat) (ent : List Byte) (st : Status) (r : List Byte) :
    (m.answer e n ent st r).pwr = m.pwr ∧ (m.answer e n ent st r).mem = m.mem ∧ (m.answer e n ent st r).graphs = m.graphs ∧
      (m.answer e n ent st r).dies = m.dies := by
  simp [Mod.answer]

/-- Settles O19: SET_CAP is `Power.withCap` and an answer; SET_PHASE_OP sets one field of each unit selected, and the answer of pace and
room tone leaves every setting; the commands of resets and park states keep the cap, which a cold start takes from flash. -/
theorem capAndPreferenceAreSet : Obligations.CapAndPreferenceAreSet := by
  refine ⟨fun s n ent hserves => ?_, fun s n ent hserves => ?_, fun c s t hc hexec => ?_, powerGood_cap, rfl⟩
  · intro w c
    obtain ⟨hpwr, hmem, hgraphs, hdies⟩ := answer_keeps_settings s.env { s.mod with pwr := s.mod.pwr.withCap w } n ent
      (if c = w then .ok else .capClamped) (natLe 4 c)
    refine ⟨_, exec_setCap hserves, ?_⟩
    refine ⟨(congrArg (·.cap.toNat) hpwr).trans (toNat_clampCap w), (congrArg (·.unreachable) hpwr).trans ?_,
      congrArg (·.units) hpwr, congrArg (·.ctrl) hpwr, congrArg (·.duty) hpwr, hmem, hgraphs, hdies, _, rfl⟩
    simp [Power.withCap, ← decide_not, c, clampCap]
  · intro p op mask hp hop hmask
    obtain ⟨m, hexec, hsame⟩ := exec_setPhaseOp hserves
    obtain ⟨hpwr, hmem, hgraphs, hdies⟩ := answer_keeps_settings s.env m n ent .ok []
    have hunit : ∀ k : Fin 14, (m.answer s.env n ent .ok []).pwr.units[k.val] =
        if mask = 0 ∨ (k.val < 12 ∧ mask.testBit k.val = true) then (s.mod.pwr.units[k.val]).setPref p op
        else s.mod.pwr.units[k.val] := fun k => by
      rw [← setPrefs_unit s.mod p op hmask k, hpwr, hsame.units]
    refine ⟨_, hexec, fun k hk q => ?_, fun k hk => (hunit k).trans (if_neg hk), (congrArg (·.cap) hpwr).trans hsame.cap,
      hmem.trans hsame.mem, hgraphs.trans hsame.graphs, ?_⟩
    · rw [hunit k, if_pos hk]
      exact prefOf_setPref _ hp hop q.isLt
    · rw [Mod.sameDies, hdies]
      exact hsame.dies
  · obtain ⟨u, hu, hcap⟩ := ResetsOrParks.keeps_cap hc s
    rw [hexec, Host.Outcome.next.injEq] at hu
    rwa [hu]

end Sys2Proof.Machine
end

section
/-! SUPPORT. Host writes to a free tally channel (R420 to R424): what each kind of write makes of the channel, and that a free channel
takes a write at once. -/

namespace Sys2Proof.Machine

/-! Fields of a written word. -/

/-- Bits `hi` to `lo` of a word's value are its field at `lo`. -/
theorem bits_toNat_eq_extractLsb' (v : Word) (hi lo : Nat) : bits v.toNat hi lo = (v.extractLsb' lo (hi + 1 - lo)).toNat := by
  rw [BitVec.extractLsb'_toNat, bits, Nat.shiftRight_eq_div_pow]

/-- The bytes of a value from byte `k` on are its fields of 8 bits, low byte first (R8). -/
theorem natLe_shift_eq_map (v : Word) (n k : Nat) :
    natLe n (v.toNat / 2 ^ (8 * k)) = (List.range' k n).map fun i => v.extractLsb' (8 * i) 8 := by
  induction n generalizing k with
  | zero => rfl
  | succ n ih =>
    have hbyte : BitVec.ofNat 8 (v.toNat / 2 ^ (8 * k)) = v.extractLsb' (8 * k) 8 := by
      rw [BitVec.extractLsb', Nat.shiftRight_eq_div_pow]
    have hrest : v.toNat / 2 ^ (8 * k) / 256 = v.toNat / 2 ^ (8 * (k + 1)) := by
      rw [Nat.div_div_eq_div_mul, show 8 * (k + 1) = 8 * k + 8 by omega, pow_add]
      rfl
    rw [natLe, hbyte, hrest, ih, List.range'_succ, List.map_cons]

theorem natLe_toNat_eq_map (v : Word) (n : Nat) : natLe n v.toNat = (List.range n).map fun i => v.extractLsb' (8 * i) 8 := by
  simpa [List.range_eq_range'] using natLe_shift_eq_map v n 0

/-! Writes to TLY_CTRL (R421). -/

/-- A channel that a write of `v` to TLY_CTRL has opened: the next ALIVE is expected, and the running value is `value`. -/
def TallyCh.opened (c : TallyCh) (v value : Word) : TallyCh :=
  { c with expected := c.expected + 1, run := v.extractLsb' 24 8, active := true, poly := v.getLsbD 8, value := value }

/-- A channel that has refused a write to TLY_CTRL. -/
def TallyCh.refused (c : TallyCh) : TallyCh := { c with stale := true, active := false }

/-- What a write to TLY_CTRL does, by its fields CMD and ALIVE. -/
theorem control_eq (c : TallyCh) (v : Word) :
    c.control v = if v.extractLsb' 0 2 = 1#2 ∨ v.extractLsb' 0 2 = 2#2 then
      if v.extractLsb' 24 8 = c.expected then
        c.opened v (if v.extractLsb' 0 2 = 1#2 then BitVec.ofNat 64 (crcOnes (v.getLsbD 8)) else c.value)
      else c.refused
    else c := by
  have hcmd : ∀ k : BitVec 2, bits v.toNat 1 0 = k.toNat ↔ v.extractLsb' 0 2 = k := fun k => by
    rw [bits_toNat_eq_extractLsb', BitVec.toNat_inj]
  have hstart : bits v.toNat 1 0 = 1 ↔ v.extractLsb' 0 2 = 1#2 := hcmd 1
  have hresume : bits v.toNat 1 0 = 2 ↔ v.extractLsb' 0 2 = 2#2 := hcmd 2
  have halive : BitVec.ofNat 8 (bits v.toNat 31 24) = v.extractLsb' 24 8 := by
    rw [bits_toNat_eq_extractLsb', BitVec.ofNat_toNat, BitVec.setWidth_eq]
  simp only [TallyCh.control, halive, hstart, hresume, Bool.or_eq_true, decide_eq_true_eq, TallyCh.opened, TallyCh.refused]

theorem control_start (c : TallyCh) {v : Word} (h : v.extractLsb' 0 2 = 1#2) :
    c.control v = if v.extractLsb' 24 8 = c.expected then c.opened v (BitVec.ofNat 64 (crcOnes (v.getLsbD 8))) else c.refused := by
  simp [control_eq, h]

theorem control_resume (c : TallyCh) {v : Word} (h : v.extractLsb' 0 2 = 2#2) :
    c.control v = if v.extractLsb' 24 8 = c.expected then c.opened v c.value else c.refused := by
  simp [control_eq, h]

/-- CMD 0 and CMD 3 have no effect. -/
theorem control_idle (c : TallyCh) {v : Word} (h : v.extractLsb' 0 2 = 0#2 ∨ v.extractLsb' 0 2 = 3#2) : c.control v = c := by
  obtain h | h := h <;> simp [control_eq, h]

/-- The initial values of R420. -/
theorem ofNat_crcOnes (poly : Bool) : BitVec.ofNat 64 (crcOnes poly) = if poly then 0xFFFFFFFFFFFFFFFF#64 else 0xFFFFFFFF#64 := by
  cases poly <;> rfl

/-! Writes to the data registers and to TLY_VALUE (R422, R423). -/

theorem feed_inactive {c : TallyCh} (h : c.active = false) (n : Nat) (v : Word) : c.feed n v = c := by
  simp [TallyCh.feed, h]

theorem feed_active {c : TallyCh} (h : c.active = true) (n : Nat) (v : Word) :
    c.feed n v = { c with busy := true, value := BitVec.ofNat 64 (crcFeed c.poly c.shown.toNat
      ((List.range n).map fun i => v.extractLsb' (8 * i) 8)) } := by
  rw [TallyCh.feed, if_pos h, natLe_toNat_eq_map]

/-- A write of the whole of TLY_VALUE reads back, its high half as zero with POLY 0. -/
theorem shown_setValue_whole (c : TallyCh) (v : Word) :
    (c.setValue .whole v).shown = if c.poly then v else v &&& 0xFFFFFFFF#64 := by
  cases hpoly : c.poly
  · simp [TallyCh.shown, TallyCh.setValue, mergePart, hpoly, BitVec.and_assoc]
  · simp [TallyCh.shown, TallyCh.setValue, mergePart, hpoly]

/-! A free channel: not held, and with no write waiting (R423). -/

/-- With no write waiting, a read of TLY_VALUE shows the channel as it stands. -/
theorem readReg_tlyValue_of_waiting_nil {s : State} (hw : s.tally.waiting = []) :
    s.readReg 0x200018 = s.tally.shown := by
  have hread : s.readReg 0x200018 = s.tally.settled.shown := rfl
  rw [hread, TallyCh.settled, hw]
  rfl

section
variable {s : State} (hp : s.mod.portUp = true) (hb : s.tally.busy = false) (hw : s.tally.waiting = [])
include hp hb hw

/-- While the host port answers, a host write to a free channel takes effect at once and changes that channel alone. -/
theorem tallyHost_of_free (w : TlyWrite) : tallyHost w s = { s with tally := s.tally.apply w } := by
  simp [tallyHost, TallyCh.arrive, hp, hb, hw]

/-- A command that makes one host write to a free channel. -/
theorem exec_of_free {k : Instr} (w : TlyWrite) (hk : exec k s = .next (tallyHost w s)) :
    exec k s = .next { s with tally := s.tally.apply w } := by
  rw [hk, tallyHost_of_free hp hb hw]

/-- A data write to a free channel that is not active is discarded (R422). -/
theorem exec_data_inactive (ha : s.tally.active = false) {k : Instr} (n : Nat) (v : Word)
    (hk : exec k s = .next (tallyHost (.data n v) s)) : exec k s = .next s := by
  rw [exec_of_free hp hb hw _ hk, TallyCh.apply, feed_inactive ha]

/-- A data write to a free channel that is active feeds its bytes, and the channel is held (R422, R423). -/
theorem exec_data_active (ha : s.tally.active = true) {k : Instr} (n : Nat) (v : Word)
    (hk : exec k s = .next (tallyHost (.data n v) s)) :
    exec k s = .next { s with tally := { s.tally with busy := true, value := BitVec.ofNat 64 (crcFeed s.tally.poly s.tally.shown.toNat
      ((List.range n).map fun i => v.extractLsb' (8 * i) 8)) } } := by
  rw [exec_of_free hp hb hw _ hk, TallyCh.apply, feed_active ha]

/-- A register write to TLY_CTRL, of 8 bytes or of the low 4, is the write of that register (R305). -/
theorem exec_registerWrite_tlyCtrl {bytes : Nat} (hbytes : bytes = 8 ∨ bytes = 4) (v : Word) :
    exec (.registerWrite 0x200000 bytes v) s = .next { s with tally := s.tally.control v } := by
  have hreg : exec (.registerWrite 0x200000 bytes v) s = .next (tallyHost (.ctrl v) s) := by
    change Host.Outcome.next (registerWrite 0x200000 bytes v s) = _
    obtain rfl | rfl := hbytes <;> simp [registerWrite, hp, regAccess, winRegBytes, State.writeReg, accessPart]
  exact exec_of_free hp hb hw _ hreg

end

/-- Settles O8: on a free channel a host write is `TallyCh.apply`, whose cases are the clauses. -/
theorem tallyHostWrites : Obligations.TallyHostWrites := by
  refine ⟨fun v s hp hb hw => ⟨fun hcmd => ?_, fun hcmd => ?_⟩, fun v s hp hb hw => ⟨fun ha => ?_, fun ha => ?_⟩,
    fun v s hp hb hw => ⟨?_, ?_⟩, fun v s hp hb hw hcmd => ?_⟩
  · rw [exec_of_free hp hb hw (.ctrl v) rfl, TallyCh.apply, control_start _ hcmd, ofNat_crcOnes]
    rfl
  · rw [exec_of_free hp hb hw (.ctrl v) rfl, TallyCh.apply, control_resume _ hcmd]
    rfl
  · exact ⟨exec_data_inactive hp hb hw ha 1 v rfl, exec_data_inactive hp hb hw ha 2 v rfl, exec_data_inactive hp hb hw ha 4 v rfl⟩
  · exact ⟨exec_data_active hp hb hw ha 1 v rfl, exec_data_active hp hb hw ha 2 v rfl, exec_data_active hp hb hw ha 4 v rfl⟩
  · refine ⟨_, exec_of_free hp hb hw (.value .whole v) rfl, rfl, rfl, ?_⟩
    rw [readReg_tlyValue_of_waiting_nil]
    · exact shown_setValue_whole s.tally v
    · exact hw
  · exact exec_of_free hp hb hw (.status v) rfl
  · have hnone : ({ s with tally := s.tally.control v } : State) = s := by rw [control_idle _ hcmd]
    rw [exec_registerWrite_tlyCtrl hp hb hw (.inl rfl), exec_registerWrite_tlyCtrl hp hb hw (.inr rfl), hnone]
    exact ⟨rfl, rfl⟩

end Sys2Proof.Machine
end

section
/-! SUPPORT. Test mode (R438, R439): what a write makes of a perturbation register, and that every reset and every change of power state
ends test mode (R417). -/

namespace Sys2Proof.Machine

/-! Commands that answer with one status (R314). -/

/-- A command that changes the module by `f`, which leaves the queues alone, and then completes: in service, it is `f` and an answer. -/
theorem runMod_command_answer {s : State} {op n : Nat} {ent : List Byte} (h : s.mod.serves op n ent) {ok : List Byte → Bool}
    (hok : ok ent = true) (f : Mod → Mod) (hqueues : (f s.mod).mbx.queues = s.mod.mbx.queues) (st : Status) (r : List Byte) :
    runMod (fun e m => m.command op ok fun n ent => (f m).complete e n ent st r) s =
      .next { s with mod := (f s.mod).answer s.env n ent st r } := by
  have ⟨_, _, hserved⟩ := h
  rw [← complete_quiet _ _ _ _ _ (quiet_of_queues hserved hqueues), runMod, command_of_serves h _ _ hok]
  rfl

/-! A field of a perturbation register takes its limit (R438, R439). -/

/-- The bits of a number whose `w` bits from `lo` on are replaced by `y`. -/
theorem testBit_replaceBits (n lo w y i : Nat) (hy : y < 2 ^ w) :
    (n - place (n / 2 ^ lo % 2 ^ w) lo + place y lo).testBit i =
      if lo ≤ i ∧ i < lo + w then y.testBit (i - lo) else n.testBit i := by
  have hlow : n % 2 ^ lo < 2 ^ lo := Nat.mod_lt _ (Nat.two_pow_pos lo)
  have hsplit : n - place (n / 2 ^ lo % 2 ^ w) lo + place y lo = 2 ^ lo * (2 ^ w * (n / 2 ^ lo / 2 ^ w) + y) + n % 2 ^ lo := by
    have hn := Nat.div_add_mod n (2 ^ lo)
    have hq := congrArg (2 ^ lo * ·) (Nat.div_add_mod (n / 2 ^ lo) (2 ^ w))
    simp only [Nat.mul_add] at hq
    simp only [place, Nat.mul_add, Nat.mul_comm _ (2 ^ lo)]
    omega
  rw [hsplit, Nat.testBit_two_pow_mul_add _ hlow, Nat.testBit_two_pow_mul_add _ hy]
  split
  case isTrue hbelow =>
    rw [if_neg (by omega), Nat.testBit_mod_two_pow, decide_eq_true hbelow, Bool.true_and]
  case isFalse =>
    split
    · rw [if_pos (by omega)]
    · have hpos : i - lo - w + w + lo = i := by omega
      rw [if_neg (by omega), Nat.testBit_div_two_pow, Nat.testBit_div_two_pow, hpos]

/-- A value limited to a range fits its field when the least value does. -/
theorem limited_lt {w least x : Nat} (hleast : least < 2 ^ w) (hx : x < 2 ^ w) (most : Nat) : max least (min most x) < 2 ^ w :=
  max_lt hleast ((min_le_right _ _).trans_lt hx)

section
variable (v : Word) {hi lo least most : Nat} (hlo : lo ≤ hi := by decide) (hhi : hi < 64 := by decide)
  (hleast : least < 2 ^ (hi + 1 - lo) := by decide)

include hlo hhi hleast

theorem getLsbD_clampField (i : Nat) : (clampField v hi lo least most).getLsbD i =
    if lo ≤ i ∧ i ≤ hi then (max least (min most (v.extractLsb' lo (hi + 1 - lo)).toNat)).testBit (i - lo) else v.getLsbD i := by
  have hfit : max least (min most (v.extractLsb' lo (hi + 1 - lo)).toNat) < 2 ^ (hi + 1 - lo) :=
    limited_lt hleast (BitVec.isLt _) most
  have hrange : lo ≤ i ∧ i < lo + (hi + 1 - lo) ↔ lo ≤ i ∧ i ≤ hi := by omega
  have hbits := testBit_replaceBits v.toNat lo (hi + 1 - lo) _ i hfit
  simp only [hrange] at hbits
  simp only [clampField, bits_toNat_eq_extractLsb', BitVec.getLsbD_ofNat, BitVec.extractLsb'_toNat, Nat.shiftRight_eq_div_pow] at hbits ⊢
  rw [hbits]
  by_cases hi64 : i < 64
  · simp [hi64, BitVec.testBit_toNat]
  · have hout : ¬(lo ≤ i ∧ i ≤ hi) := by omega
    rw [if_neg hout, if_neg hout, BitVec.getLsbD_of_ge _ _ (by omega), decide_eq_false hi64, Bool.false_and]

/-- The field itself, after it has taken its limit. -/
theorem extractLsb'_clampField_same : ((clampField v hi lo least most).extractLsb' lo (hi + 1 - lo)).toNat =
    max least (min most (v.extractLsb' lo (hi + 1 - lo)).toNat) := by
  have hfit : max least (min most (v.extractLsb' lo (hi + 1 - lo)).toNat) < 2 ^ (hi + 1 - lo) :=
    limited_lt hleast (BitVec.isLt _) most
  rw [← Nat.mod_eq_of_lt hfit, ← BitVec.toNat_ofNat]
  congr 1
  refine BitVec.eq_of_getLsbD_eq fun i hilt => ?_
  rw [BitVec.getLsbD_extractLsb', getLsbD_clampField v hlo hhi hleast, if_pos (by omega), BitVec.getLsbD_ofNat, Nat.add_sub_cancel_left]

/-- A field that lies beside it. -/
theorem extractLsb'_clampField_other {at_ w : Nat} (hbeside : at_ + w ≤ lo ∨ hi < at_) :
    (clampField v hi lo least most).extractLsb' at_ w = v.extractLsb' at_ w := by
  refine BitVec.eq_of_getLsbD_eq fun i hilt => ?_
  rw [BitVec.getLsbD_extractLsb', BitVec.getLsbD_extractLsb', getLsbD_clampField v hlo hhi hleast, if_neg (by omega)]

end

/-- The fields of each register that have a range, by their lowest and highest bits (R439). -/
def ptbRanged : List (List (Nat × Nat)) := [[], [(0, 13)], [(0, 7), (16, 31)], [(0, 19)], [(0, 19)], [(0, 19)]]

/-- Register 3 and those after it have one field with a range, the 20 bits from bit 0 on. -/
theorem ptbClamp_of_three_le {r : Nat} (hr : 3 ≤ r) (v : Word) : ptbClamp r v = clampField v 19 0 0 1000000 := by
  match r, hr with
  | _ + 3, _ => rfl

/-- Bits outside the fields that have a range are as written. -/
theorem getLsbD_ptbClamp_outside (r : Fin 6) (v : Word) (i : Nat) (hout : ∀ y ∈ ptbRanged.getD r.val [], i < y.1 ∨ y.2 < i) :
    (ptbClamp r v).getLsbD i = v.getLsbD i := by
  match r with
  | 0 => rfl
  | 1 =>
    have h := hout (0, 13) (by decide)
    exact (getLsbD_clampField v (i := i)).trans (if_neg (by omega))
  | 2 =>
    have h := hout (0, 7) (by decide)
    have h' := hout (16, 31) (by decide)
    exact ((getLsbD_clampField _ (i := i)).trans (if_neg (by omega))).trans
      ((getLsbD_clampField v (i := i)).trans (if_neg (by omega)))
  | 3 | 4 | 5 =>
    have h := hout (0, 19) (by decide)
    exact (getLsbD_clampField v (i := i)).trans (if_neg (by omega))

/-- No bit of a field that has a range is reserved. -/
theorem getLsbD_ptbMask_of_ranged (r : Fin 6) (y : Nat × Nat) (hy : y ∈ ptbRanged.getD r.val []) (i : Nat) (hlo : y.1 ≤ i)
    (hhi : i ≤ y.2) : (ptbMask r).getLsbD i = true := by
  have hall : ∀ r : Fin 6, ∀ y ∈ ptbRanged.getD r.val [], ∀ i : Fin 32, y.1 ≤ i.val → i.val ≤ y.2 → (ptbMask r).getLsbD i.val = true := by
    decide
  have hlast : ∀ r : Fin 6, ∀ y ∈ ptbRanged.getD r.val [], y.2 < 32 := by decide
  exact hall r y hy ⟨i, hhi.trans_lt (hlast r y hy)⟩ hlo hhi

/-- Reserved bits that are zero stay zero. -/
theorem ptbClamp_and_ptbMask (r : Fin 6) {v : Word} (hv : v &&& ptbMask r = v) : ptbClamp r v &&& ptbMask r = ptbClamp r v := by
  refine BitVec.eq_of_getLsbD_eq fun i _ => ?_
  rw [BitVec.getLsbD_and]
  by_cases hout : ∀ y ∈ ptbRanged.getD r.val [], i < y.1 ∨ y.2 < i
  · rw [getLsbD_ptbClamp_outside r v i hout, ← BitVec.getLsbD_and, hv]
  · push Not at hout
    obtain ⟨y, hy, hlo, hhi⟩ := hout
    rw [getLsbD_ptbMask_of_ranged r y hy i hlo hhi, Bool.and_true]

/-- An access of the low half, or of the whole register, writes the low half (R305). -/
theorem getLsbD_mergePart_of_lt {part : RegPart} (hpart : part ≠ .high) (old v : Word) {i : Nat} (hi : i < 32) :
    (mergePart part old v).getLsbD i = v.getLsbD i := by
  match part, hpart with
  | .whole, _ => rfl
  | .low, _ =>
    have hmasks : ∀ k : Fin 32, (0xFFFFFFFF00000000#64).getLsbD k = false ∧ (0xFFFFFFFF#64).getLsbD k = true := by decide
    obtain ⟨hkeep, htake⟩ := hmasks ⟨i, hi⟩
    simp only [mergePart, BitVec.getLsbD_or, BitVec.getLsbD_and, hkeep, htake, Bool.and_false, Bool.false_or, Bool.and_true]

/-- A field of the low half, none of whose bits is reserved, takes what an access of that half writes. -/
theorem extractLsb'_mergePart_and {part : RegPart} (hpart : part ≠ .high) (old v mask : Word) {lo w : Nat} (hw : lo + w ≤ 32)
    (hmask : mask.extractLsb' lo w = BitVec.allOnes w) : (mergePart part old v &&& mask).extractLsb' lo w = v.extractLsb' lo w := by
  rw [BitVec.extractLsb'_and, hmask, BitVec.and_allOnes]
  refine BitVec.eq_of_getLsbD_eq fun i hi => ?_
  rw [BitVec.getLsbD_extractLsb', BitVec.getLsbD_extractLsb', getLsbD_mergePart_of_lt hpart old v (by omega)]

/-! Writes and reads of the block. -/

/-- What a write makes of a register in test mode. -/
def ptbWritten (r : Nat) (part : RegPart) (old v : Word) : Word :=
  let x := mergePart part old v &&& ptbMask r
  if part = .high then x else ptbClamp r x

/-- In test mode the command writes the register and changes nothing else. -/
theorem exec_ptbWrite_testing {s : State} (hp : s.mod.portUp = true) (ht : s.mod.life.test = true) (r : Fin 6) (part : RegPart)
    (v : Word) : exec (.ptbWrite r part v) s =
      .next { s with mod := { s.mod with ptb.regs := vmod s.mod.ptb.regs r fun old => ptbWritten r part old v } } := by
  change Host.Outcome.next { s with mod := ptbWrite r part v s.env s.mod } = _
  simp only [ptbWrite, hp, ht, Bool.and_self, if_true, ptbWritten]

/-- Outside test mode it is ignored. -/
theorem exec_ptbWrite_ignored {s : State} (ht : s.mod.life.test = false) (r : Fin 6) (part : RegPart) (v : Word) :
    exec (.ptbWrite r part v) s = .next s := by
  change Host.Outcome.next { s with mod := ptbWrite r part v s.env s.mod } = _
  simp [ptbWrite, ht]

theorem ptbWritten_high (r : Nat) (old v : Word) : ptbWritten r .high old v = mergePart .high old v &&& ptbMask r := rfl

theorem ptbWritten_of_ne_high {part : RegPart} (hpart : part ≠ .high) (r : Nat) (old v : Word) :
    ptbWritten r part old v = ptbClamp r (mergePart part old v &&& ptbMask r) := if_neg hpart

/-- PTB_CTRL has no field with a range. -/
theorem ptbWritten_zero (part : RegPart) (old v : Word) : ptbWritten 0 part old v = mergePart part old v &&& ptbMask 0 := ite_self _

theorem ptbWritten_and_ptbMask (r : Fin 6) (part : RegPart) (old v : Word) :
    ptbWritten r part old v &&& ptbMask r = ptbWritten r part old v := by
  have hmasked : mergePart part old v &&& ptbMask r &&& ptbMask r = mergePart part old v &&& ptbMask r := by
    rw [BitVec.and_assoc, BitVec.and_self]
  by_cases hpart : part = .high
  · rw [hpart, ptbWritten_high, ← hpart, hmasked]
  · rw [ptbWritten_of_ne_high hpart, ptbClamp_and_ptbMask r hmasked]

section
variable {part : RegPart} (hpart : part ≠ .high) (old v : Word)
include hpart

/-- MAX_NS of PTB_HS. -/
theorem ptbWritten_hs_maxNs : ((ptbWritten 1 part old v).extractLsb' 0 14).toNat = min 10000 (v.extractLsb' 0 14).toNat := by
  rw [ptbWritten_of_ne_high hpart, ← extractLsb'_mergePart_and hpart old v (ptbMask 1) (lo := 0) (w := 14) (by decide) (by decide)]
  exact (extractLsb'_clampField_same _).trans (Nat.zero_max _)

/-- DUTY of PTB_BP. -/
theorem ptbWritten_bp_duty : ((ptbWritten 2 part old v).extractLsb' 0 8).toNat = min 224 (v.extractLsb' 0 8).toNat := by
  have hduty := extractLsb'_mergePart_and hpart old v (ptbMask 2) (lo := 0) (w := 8) (by decide) (by decide)
  have hbeside := extractLsb'_clampField_other (mergePart part old v &&& ptbMask 2) (hi := 31) (lo := 16) (least := 64) (most := 65535)
    (at_ := 0) (w := 8) (hbeside := .inl (by decide))
  rw [ptbWritten_of_ne_high hpart, ← hduty, ← hbeside]
  exact (extractLsb'_clampField_same _).trans (Nat.zero_max _)

/-- PERIOD_NS of PTB_BP. -/
theorem ptbWritten_bp_periodNs : ((ptbWritten 2 part old v).extractLsb' 16 16).toNat = max 64 (v.extractLsb' 16 16).toNat := by
  rw [ptbWritten_of_ne_high hpart, ← extractLsb'_mergePart_and hpart old v (ptbMask 2) (lo := 16) (w := 16) (by decide) (by decide)]
  refine (congrArg BitVec.toNat (extractLsb'_clampField_other _ (hbeside := .inr (by decide)))).trans ?_
  refine (extractLsb'_clampField_same _).trans (congrArg _ (min_eq_right ?_))
  exact Nat.le_of_lt_succ (BitVec.isLt _)

/-- MAX_NS of PTB_FAB, PTB_BKT and PTB_CUE. -/
theorem ptbWritten_maxNs {r : Fin 6} (hr : 3 ≤ r.val) :
    ((ptbWritten r part old v).extractLsb' 0 20).toNat = min 1000000 (v.extractLsb' 0 20).toNat := by
  have hmask : ∀ r : Fin 6, 3 ≤ r.val → (ptbMask r).extractLsb' 0 20 = BitVec.allOnes 20 := by decide
  rw [ptbWritten_of_ne_high hpart, ptbClamp_of_three_le hr, ← extractLsb'_mergePart_and hpart old v (ptbMask r) (by decide) (hmask r hr)]
  exact (extractLsb'_clampField_same _).trans (Nat.zero_max _)

end

/-- The block reads as its registers in test mode, and as zero outside it (R438). -/
theorem readReg_ptb (s : State) (r : Fin 6) :
    s.readReg (0x400000 + 8 * r.val) = if s.mod.life.test then vget s.mod.ptb.regs r.val 0 else 0 := by
  match r with
  | 0 | 1 | 2 | 3 | 4 | 5 => rfl

/-! Test mode ends (R417). -/

/-- The module is not in test mode, and every perturbation register is clear. -/
def Mod.TestOff (m : Mod) : Prop := m.life.test = false ∧ m.ptb.regs = Vector.replicate 6 0

namespace Mod.TestOff

/-- It rests on the module's life and on the block alone. -/
theorem congr {m m' : Mod} (h : m.TestOff) (hlife : m'.life = m.life) (hptb : m'.ptb = m.ptb) : m'.TestOff := by
  rwa [TestOff, hlife, hptb]

theorem clearTest (m : Mod) : m.clearTest.TestOff := ⟨rfl, rfl⟩
theorem afterOff (m : Mod) : m.afterOff.TestOff := ⟨rfl, rfl⟩
theorem wake (m : Mod) : m.wake.TestOff := ⟨rfl, rfl⟩
theorem enterDeep (m : Mod) : m.enterDeep.TestOff := ⟨rfl, rfl⟩
theorem enterPark (m : Mod) : m.enterPark.TestOff := by simp [TestOff, Mod.enterPark, Mod.clearTest, Ptb.cold]
theorem dieReset (e : Env) (m : Mod) (k cause mv : Nat) : (m.dieReset e k cause mv).TestOff := clearTest _

theorem complete {m : Mod} (h : m.TestOff) (e : Env) (n : Nat) (ent : List Byte) (st : Status) (r : List Byte) :
    (m.complete e n ent st r).TestOff := h.congr (complete_life ..) (complete_ptb ..)

theorem unitEvent {m : Mod} (h : m.TestOff) (slate : Nat) (st : Status) (res : BitVec 32) (detail : List Byte) :
    (m.unitEvent slate st res detail).TestOff := h.congr (unitEvent_life ..) (unitEvent_ptb ..)

theorem gapDie {m : Mod} (h : m.TestOff) (d : Fin 12) : (m.gapDie d).TestOff := by
  have hengines : (m.keepEngines d).TestOff := by
    unfold Mod.keepEngines
    split
    · exact h
    · exact h
  unfold Mod.gapDie
  dsimp only
  split
  · exact hengines
  · exact hengines

theorem ingestWake {m : Mod} (h : m.TestOff) (e : Env) : (m.ingestWake e).TestOff := by
  refine List.foldlRecOn (motive := Mod.TestOff) _ _ h fun x hx ring _ => ?_
  split
  · exact hx
  · exact unitEvent (m := x.ringHead e _ _) hx _ _ _ _

/-- PARK with state 0 in PARK, which wakes the module. -/
theorem parkRun {m : Mod} (e : Env) {n : Nat} {ent : List Byte} (h : m.serves 0x0050 n ent) (harg : entArg ent 8 1 = 0)
    (hpark : m.life.pstate = .park) : (parkRun e m).TestOff := by
  rw [Machine.parkRun, command_of_serves h _ _ (by simp [harg]), if_pos hpark]
  refine complete (ingestWake (List.foldlRecOn (motive := Mod.TestOff) _ _ ?_ fun x hx d _ => ?_) e) _ _ _ _ _
  · have hrun : ({ m.clearTest with life.pstate := .run } : Mod).TestOff := clearTest m
    exact hrun.congr (raise_life ..) (raise_ptb ..)
  · split
    · exact hx.gapDie d
    · exact hx

theorem holdOver {s : State} (h : s.mod.TestOff) : s.holdOver.mod.TestOff := by
  unfold State.holdOver
  split
  · exact h.unitEvent _ _ _ _
  · exact h

theorem moduleReset (s : State) (cause : Nat) : (s.moduleReset cause).mod.TestOff := (afterOff s.mod).unitEvent _ _ _ _

/-- A reset pin in DEEP_PARK wakes the module, and from stage A on it resets the module. -/
theorem resetPin {s : State} (hon : s.mod.life.powered = true) (htrip : s.mod.life.trip = false)
    (hstage : s.mod.life.pstate = .deepPark ∨ 1 ≤ s.mod.life.stage) (cause : Nat) : (s.resetPin cause).mod.TestOff := by
  rw [State.resetPin, if_neg (by simp [hon, htrip])]
  split
  case isTrue => exact wake s.mod
  case isFalse hrun =>
    have hreached : s.mod.life.stage ≠ 0 := by
      have := hstage.resolve_left hrun
      omega
    rw [if_neg (by simp [Life.resetting, hreached])]
    exact moduleReset s cause

theorem parkReached {s : State} {n : Nat} {ent : List Byte} (h : s.mod.serves 0x0050 n ent)
    (hentering : s.mod.life.entering = some .park ∨ s.mod.life.entering = some .deepPark) : s.parkReached.mod.TestOff := by
  obtain ⟨hserved, -, -⟩ := h
  obtain hpark | hdeep := hentering
  · simp only [State.parkReached, hpark, hserved]
    exact (enterPark s.mod).complete _ _ _ _ _
  · simp only [State.parkReached, hdeep, hserved]
    exact holdOver (enterDeep _)

/-- A wake that the SMBus acknowledges in DEEP_PARK. -/
theorem smbWake {s : State} (hon : s.mod.life.powered = true) (htrip : s.mod.life.trip = false)
    (hdeep : s.mod.life.pstate = .deepPark) : (smbSend smbWake s.fuses.smbAddr none s.env s.mod).TestOff := by
  have hack : smbSendOk s.env s.mod s.fuses.smbAddr Machine.smbWake none = true := by simp [smbSendOk, hon, State.env]
  simp only [smbSend, hack, if_true, htrip, hdeep]
  exact wake _

theorem coreUndervolt (e : Env) {m : Mod} {k : Fin 14} {mv : Nat} (hup : m.unitUp k = true) (hmv : mv < 500) :
    (coreUndervolt k mv e m).TestOff := by
  rw [Machine.coreUndervolt, if_pos (by simp [hup, underMv, hmv])]
  exact dieReset _ _ _ _ _

theorem powerOff (s : State) (powered pwrEn cut : Bool) : (s.off powered pwrEn cut).mod.TestOff := ⟨rfl, rfl⟩
theorem trip (s : State) (u : HotUnit) (temp : Nat) : (s.trip u temp).mod.TestOff := ⟨rfl, rfl⟩

/-- A unit that the grade has trips at its temperature. -/
theorem thermalTrip {s : State} (hon : s.mod.life.powered = true) (htrip : s.mod.life.trip = false) {u : HotUnit} {temp : Nat}
    (htemp : tripAt u ≤ temp) (hstack : ∀ st, u = .stack st → st.val < s.fuses.grade.hbmStacks)
    (hio : ∀ n, u = .io n → s.fuses.grade.hasIo n.val = true) : Completes (.thermalTrip u temp) s (·.mod.TestOff) := by
  refine ⟨s.trip u temp, ?_, trip s u temp⟩
  change execThermalTrip u temp s = _
  have hpresent : (if s.mod.life.powered && !s.mod.life.trip && decide (tripAt u ≤ temp) then s.trip u temp else s) = s.trip u temp :=
    if_pos (by simp [hon, htrip, htemp])
  unfold execThermalTrip
  rw [hpresent]
  match u with
  | .die _ => rfl
  | .stack st => exact if_neg (by simp [hstack st rfl])
  | .io n => exact if_neg (by simp [hio n rfl])

end Mod.TestOff

/-- Settles O23: the three commands are their change of the module and an answer; a register is written as `ptbWritten` says, field by
field; each reset and each change of power state leaves `Mod.TestOff`. -/
theorem testModeAndPerturbation : Obligations.TestModeAndPerturbation := by
  refine ⟨fun s n ent => ⟨?_, ?_, ?_⟩, fun r v s hport => ⟨?_, ?_, ?_⟩, fun s => ⟨?_, ?_, ?_, ?_, ?_, ?_, ?_, ?_, ?_, ?_⟩⟩
  · exact fun hserves => runMod_command_answer hserves rfl (fun m => { m with flashOpen := false }) rfl _ _
  · intro hserves harg m
    exact runMod_command_answer hserves (by simp [harg]) (fun m => { m with life.test := true }) rfl _ _
  · intro hserves harg m
    exact runMod_command_answer hserves (by simp [harg]) Mod.clearTest rfl _ _
  · exact fun htest part => exec_ptbWrite_ignored htest r part v
  · intro htest part
    have hwritten : (vmod s.mod.ptb.regs r fun old => ptbWritten r part old v)[r.val] = ptbWritten r part s.mod.ptb.regs[r.val] v :=
      vmod_same _ _ _
    refine ⟨_, exec_ptbWrite_testing hport htest r part v, ?_⟩
    dsimp only
    refine ⟨?_, fun k hk => vmod_other _ _ _ _ hk, ?_, ?_, fun hpart => ⟨?_, ?_, ?_, ?_⟩, ⟨rfl, rfl, rfl, rfl, rfl⟩, rfl, rfl, rfl⟩
    · rw [hwritten, ptbWritten_and_ptbMask]
    · rintro rfl
      exact hwritten.trans (ptbWritten_zero _ _ _)
    · rintro rfl
      exact hwritten.trans (ptbWritten_high _ _ _)
    · rintro rfl
      exact hwritten ▸ ptbWritten_hs_maxNs hpart _ v
    · rintro rfl
      exact ⟨hwritten ▸ ptbWritten_bp_duty hpart _ v, hwritten ▸ ptbWritten_bp_periodNs hpart _ v⟩
    · intro hr
      rw [hwritten, ptbWritten_maxNs hpart _ v hr]
    · intro i hout
      rw [hwritten, ptbWritten_of_ne_high hpart, getLsbD_ptbClamp_outside r _ i hout]
  · intro htest
    rw [readReg_ptb, htest]
    rfl
  · exact fun hoff => ⟨_, rfl, by rw [hoff]; exact Mod.TestOff.powerOff s true true false⟩
  · exact fun hon htrip hstage => ⟨⟨_, rfl, Mod.TestOff.resetPin hon htrip hstage 1⟩, ⟨_, rfl, Mod.TestOff.resetPin hon htrip hstage 2⟩⟩
  · exact fun hon htrip hdeep => ⟨_, rfl, Mod.TestOff.smbWake hon htrip hdeep⟩
  · intro n ent hserves
    obtain ⟨hserved, hopcode, -⟩ := hserves
    have hserving : s.serving 0x0051 = true := by simp [State.serving, hserved, hopcode]
    exact ⟨_, rfl, by rw [hserving]; exact Mod.TestOff.moduleReset s 3⟩
  · intro n ent hserves
    exact ⟨fun hentering => ⟨_, rfl, Mod.TestOff.parkReached hserves hentering⟩,
      fun harg hpark => ⟨_, rfl, Mod.TestOff.parkRun s.env hserves harg hpark⟩⟩
  · exact fun d hup => ⟨_, rfl, by simp only [hup]; exact Mod.TestOff.dieReset s.env s.mod d 2 0⟩
  · exact fun u hup => ⟨_, rfl, by simp only [hup]; exact Mod.TestOff.dieReset s.env s.mod (12 + u.val) 2 0⟩
  · exact fun k mv hup hmv => ⟨_, rfl, Mod.TestOff.coreUndervolt s.env hup hmv⟩
  · exact fun hon pwrEn cut => ⟨_, rfl, by rw [hon]; exact Mod.TestOff.powerOff s false pwrEn cut⟩
  · exact fun hon htrip u temp htemp hstack hio => Mod.TestOff.thermalTrip hon htrip htemp hstack hio

end Sys2Proof.Machine
end
